-- ==== Sys2Proof/Word.lean ====
section
/-! DEFINITION. The machine words of the TF512: the bytes of its frames and the numbers the spec gives a width. -/

namespace Sys2Proof

/-- One byte of a frame (R180). -/
abbrev Byte := BitVec 8

/-- A ring sequence number, 0 to 65 535 (R139). -/
abbrev SeqNum := BitVec 16

/-- A detector serial: 24 bits, of which 0 and 16 777 215 are not valid (R5). -/
abbrev Serial := BitVec 24

/-- A value of the timebase count, 0 to 4 294 967 295, wrapping (R11). -/
abbrev Count := BitVec 32

end Sys2Proof
end

