-- ==== Sys2Proof/Syntax.lean ====
section
/-! DEFINITION. The commands of the TF512, one constructor for each row of spec/opcode_table.json, and the types
of their operands. A request row (READ_POINT to PORT_RESET) is the grant of a waiting request (R184, R185): its
tag, sender and operands stand in the slot that the arbiter grants, so the constructor carries none (log 4). -/

namespace Sys2Proof

/-- The four access ports (R179). -/
inductive Port
  | p0 | p1 | p2 | p3
deriving DecidableEq, Repr

/-- The sender identities 1 to 7 (R26). Sender 0, the part itself in change records, is `none` of an `Option Sender`. -/
inductive Sender
  | s1 | s2 | s3 | s4 | s5 | s6 | s7
deriving DecidableEq, Repr

/-- A bay number, 0 to 31 (R1). -/
abbrev Bay := Fin 32

/-- An area number, 0 to 3 (R1). -/
abbrev Area := Fin 4

/-- A location (bay, point) (R1). -/
structure Loc where
  bay : Bay
  point : Fin 16
deriving DecidableEq, Repr

/-- The kind of a point, fixed at enrolment (R5). -/
inductive PointKind
  | smoke | heat | multi | call
deriving DecidableEq, Repr

/-- The fault causes of Table 1.2. -/
inductive FaultCause
  | device | removed | battery | integrity
deriving DecidableEq, Repr

/-- The conditions of Table 1.2; the fault cause is present exactly in FAULT (R6). -/
inductive Condition
  | unheard | quiet | watch | pending | alarm
  | fault (cause : FaultCause)
  | missing
deriving DecidableEq, Repr

/-- The battery classes (R9). -/
inductive Battery
  | good | low | critical
deriving DecidableEq, Repr

/-- One entry of a link list: sender, margin in dB and link age in rounds (R15). -/
structure Link where
  sender : Sender
  margin : Fin 64
  age : Fin 3
deriving DecidableEq, Repr

/-- The confirmation field: two values of the timebase count (R11). -/
structure Confirmation where
  start : Count
  deadline : Count
deriving DecidableEq, Repr

/-- The fields of an enrolled point record (Table 1.2). -/
structure PointContent where
  serial : Serial
  kind : PointKind
  condition : Condition
  suspect : Bool
  lastSeq : Option Byte
  age : Fin 16
  heardStopped : Bool
  battery : Option Battery
  links : List Link
  ack : Option Sender
  isolation : Option Sender
  confirmation : Option Confirmation
  clearSeen : Bool
deriving DecidableEq, Repr

/-- The blocks that take the end of a timebase unit (R104). -/
inductive TimeBlock
  | engine | bayTable | holdUnit | snapshotUnit | sweep
deriving DecidableEq, Repr

/-- The commands: one constructor for each row of spec/opcode_table.json. -/
inductive Instr
  /-- POWER_ON: power-on ends; the code on the BAYS strap pins, BAYS0 its low bit (R2, R188). -/
  | powerOn (strap : BitVec 2)
  /-- RESET_LINE: the release of RST (R188). -/
  | resetLine
  /-- TRANSACTION_BEGIN: the fall of a port's chip select (R180). -/
  | transactionBegin (port : Port)
  /-- TRANSACTION_END: the rise of a port's chip select; the bits sampled on SDI since its fall, first bit first (R180, R181). -/
  | transactionEnd (port : Port) (sdi : List Bool)
  | readPoint | readSlice | readBay | readSummary | readDevice | readSettings | lookupSerial
  | setCursor | readNext | readStrays
  | report | takePolls
  | acknowledge | resetPoint | isolate | restore | setMode
  | holdBay | releaseBay
  | subscribe | subscribeFrom | unsubscribe | readChanges | readEvents | clearEvents | setEventMask
  | snapshotRange | snapshotStart | snapshotRead | snapshotRelease
  | enrol | withdraw | repair | setBay | bindSenders | setMask | setTiming | lock | sweepStep | clearStrays
  | portReset
  /-- TIMEBASE_UNIT_END: the end of a unit as one block takes it (R104). -/
  | timebaseUnitEnd (block : TimeBlock)
  /-- PERIODIC_SWEEP_STEP: the unit end that completes a sweep period (R105). -/
  | periodicSweepStep
  /-- CONFIRMATION_TIMER_EXPIRY of the point at a location (R82). -/
  | confirmationTimerExpiry (loc : Loc)
  /-- SERVICE_TIMER_EXPIRY of a bay (R92). -/
  | serviceTimerExpiry (bay : Bay)
  /-- HOLD_TIMER_EXPIRY of the hold that a port owns (R125). -/
  | holdTimerExpiry (owner : Port)
  /-- COPY_STEP: the unit end at the snapshot unit while COPYING (R159). -/
  | copyStep
  /-- KEEP_TIMER_EXPIRY (R166). -/
  | keepTimerExpiry
  /-- STORAGE_UPSET: the enrolled record at a location is left with this content, its check code no longer matching; the
  content that stood where the upset has altered the check code alone (R4, R13, R170). -/
  | storageUpset (loc : Loc) (content : PointContent)
  /-- RST_ASSERTION (R188). -/
  | rstAssertion
  /-- POWER_REMOVAL (R2). -/
  | powerRemoval
deriving DecidableEq, Repr

end Sys2Proof
end

