-- ==== Sys2Proof/Config.lean ====
section
/-! DEFINITION. What is fixed for the part (capacities and fixed lengths of the spec) and the free values: the
opaque constants stand for values the spec leaves open; nothing is known of them. -/

namespace Sys2Proof.Config

/-- The change ring holds at most 256 records (R139). -/
def ringCapacity : Nat := 256
/-- The stray list holds at most 8 entries (R54). -/
def strayCapacity : Nat := 8
/-- Each poll queue holds at most 16 items (R113). -/
def pollCapacity : Nat := 16
/-- The deferral queue holds at most 16 entries (R129). -/
def deferralCapacity : Nat := 16
/-- A link list holds at most three entries (R15). -/
def linkCapacity : Nat := 3
/-- The fixed confirm gap of 4 s, in timebase units (R39, R81). -/
def confirmGap : Nat := 40
/-- Timebase units in a second (R39). -/
def unitsPerSecond : Nat := 10
/-- Timebase units in a minute (R39). -/
def unitsPerMinute : Nat := 600

/-- DESIGN CHOICE, log 1: the BAYS strap code at which `State.reset` was powered on; all 32 bays fitted. -/
def resetStrap : BitVec 2 := 3

/-- The length of a timebase unit in periods of REFCLK, by its position 0 to 9 in the group of ten: the fifth and
the tenth unit last 3 276 periods and the others 3 277 (R104). -/
def unitPeriods (position : Fin 10) : Nat :=
  if position.val = 4 || position.val = 9 then 3276 else 3277

/-- Free value (DESIGN CHOICE, log 9): what a 2-byte elapsed or remaining field shows of a difference that two
bytes cannot hold. Only a storage upset can make one. The first argument is `State.draws` doubled, and one more
for remaining, so that the two fields of one answer are free of each other. -/
opaque wideUnits : Nat → Count → BitVec 16

/-- Free value (DESIGN CHOICE, log 10): the second byte of a best-margin slice value whose first byte says ABSENT or
NONE, by `State.draws` and the point. The spec states the first byte only (R191). -/
opaque sliceFill : Nat → Fin 16 → Byte

end Sys2Proof.Config
end

