-- ==== Sys2Proof/WellFormed.lean ====
section
/-! DEFINITION. Which commands are well formed. Only a storage upset has operands that can fail: the content it
leaves must be one R170 allows ("Each field still holds one of its own values, and the fields present are those that
the condition found calls for"). -/

namespace Sys2Proof

/-- A serial is valid when it is neither 0 nor 16 777 215 (R5). -/
def serialValid (n : Serial) : Bool := n != 0 && n != 0xFFFFFF

/-- Table 1.2: a confirmation is present exactly while the condition is PENDING. -/
def PointContent.confirmationFits (c : PointContent) : Bool :=
  c.confirmation.isSome == (c.condition == .pending)

/-- Table 1.2: an acknowledgement is present only while the condition is ALARM, FAULT or MISSING. -/
def PointContent.ackFits (c : PointContent) : Bool :=
  match c.ack, c.condition with
  | none, _ => true
  | some _, .alarm => true
  | some _, .fault _ => true
  | some _, .missing => true
  | some _, _ => false

/-- Table 1.2: an integrity failure leaves no last sequence. MISSING calls for none at its entry only: a report that
is accepted and suppressed leaves a MISSING point with one (R60, R89). -/
def PointContent.lastSeqFits (c : PointContent) : Bool :=
  c.lastSeq.isNone || c.condition != .fault .integrity

/-- R15: margins in non-increasing order. -/
def linksOrdered : List Link → Bool
  | [] => true
  | [_] => true
  | a :: b :: rest => b.margin ≤ a.margin && linksOrdered (b :: rest)

/-- R15: no two entries have one sender. -/
def linksDistinct : List Link → Bool
  | [] => true
  | a :: rest => rest.all (fun b => b.sender != a.sender) && linksDistinct rest

/-- R15: at most three entries, distinct senders, non-increasing margins. -/
def linksFit (ls : List Link) : Bool :=
  ls.length ≤ Config.linkCapacity && linksOrdered ls && linksDistinct ls

/-- A content a storage upset may leave (R170, log 12). -/
def PointContent.fits (c : PointContent) : Bool :=
  serialValid c.serial && c.confirmationFits && c.ackFits && c.lastSeqFits && linksFit c.links

/-- A command is well formed. -/
def Instr.wf : Instr → Bool
  | .storageUpset _ c => c.fits
  | .powerOn _ | .resetLine | .transactionBegin _ | .transactionEnd _ _ | .readPoint | .readSlice
  | .readBay | .readSummary | .readDevice | .readSettings | .lookupSerial | .setCursor
  | .readNext | .readStrays | .report | .takePolls | .acknowledge | .resetPoint
  | .isolate | .restore | .setMode | .holdBay | .releaseBay | .subscribe
  | .subscribeFrom | .unsubscribe | .readChanges | .readEvents | .clearEvents | .setEventMask
  | .snapshotRange | .snapshotStart | .snapshotRead | .snapshotRelease | .enrol | .withdraw
  | .repair | .setBay | .bindSenders | .setMask | .setTiming | .lock
  | .sweepStep | .clearStrays | .portReset | .timebaseUnitEnd _ | .periodicSweepStep | .confirmationTimerExpiry _
  | .serviceTimerExpiry _ | .holdTimerExpiry _ | .copyStep | .keepTimerExpiry | .rstAssertion | .powerRemoval => true

end Sys2Proof
end

