-- ==== Sys2Proof/Machine/State.lean ====
section
/-! DEFINITION. The state of the TF512 as plain data, the reasons a command can stop, and the state right after
power-on. Where each piece of state stands in the spec is listed in INVENTORY.md under "State". -/

namespace Sys2Proof.Machine

/-- No command of the part ends in a fault: every refusal the spec names is an outcome in a response, and every
record failure is handled (R30, R171, R182). Nobody raises one. -/
inductive Fault : Type
deriving DecidableEq, Repr

/-- Why a command has no meaning. -/
inductive Refusal
  /-- Raised by `exec` for a command of the table that has no meaning yet; safe: the run stops. No arm raises it. -/
  | notModelled (mnemonic : String)
deriving DecidableEq, Repr

/-- Keyed data in one canonical form: keys strictly rising (`Table.sorted`). An unlisted key is absent. -/
abbrev Table (α : Type) := List (Nat × α)

/-- One value for each of the four ports. -/
structure PerPort (α : Type) where
  p0 : α
  p1 : α
  p2 : α
  p3 : α
deriving DecidableEq, Repr

/-- One value for each of the seven senders. -/
structure PerSender (α : Type) where
  s1 : α
  s2 : α
  s3 : α
  s4 : α
  s5 : α
  s6 : α
  s7 : α
deriving DecidableEq, Repr

/-- One value for each of the four areas. -/
structure PerArea (α : Type) where
  a0 : α
  a1 : α
  a2 : α
  a3 : α
deriving DecidableEq, Repr

/-- A sender set in the layout of Table 10.4: bit s for sender s, bits 1 to 7. -/
abbrev SenderSet := BitVec 8
/-- A group set in the layout of Table 10.4: RADIO bit 0 to COMMISSION bit 4. -/
abbrev GroupSet := BitVec 5
/-- An event set in the layout of Table 10.4: CHANGES bit 0 to RESTART bit 8. -/
abbrev EventSet := BitVec 9

/-- The field groups of Table 2.2. -/
inductive Group
  | radio | ack | isolate | mode | commission
deriving DecidableEq, Repr

/-- The port events of Table 7.3. -/
inductive Event
  | changes | lag | holdEnded | snapshotReady | snapshotEnded | polls | fire | stray | restart
deriving DecidableEq, Repr

/-- A running timer (service, hold, keep): the units left, at least 1, and whether a unit end has run it out, its
expiry being still to be taken (R24, R92, R125, R166; log 6). -/
structure Countdown where
  left : Nat
  runOut : Bool
deriving DecidableEq, Repr

/-- The names of the bay modes (R88). -/
inductive ModeName
  | normal | service | works
deriving DecidableEq, Repr

/-- A bay's mode; the service timer is present while the mode is SERVICE (R88). -/
inductive BayMode
  | normal
  | service (timer : Countdown)
  | works
deriving DecidableEq, Repr

/-- The bay record: mode, partner and the mark of an owed visit (R37, R88, R107). The hold stands in the hold unit. -/
structure BayRecord where
  mode : BayMode
  partner : Option Bay
  owed : Bool
deriving DecidableEq, Repr

/-- An enrolled point record: its content as it stands in the store, whether its check code holds over that
content, and the content as the part last wrote it (R13, R25; log 11). -/
structure PointRecord where
  content : PointContent
  codeHolds : Bool
  written : PointContent
deriving DecidableEq, Repr

/-- The eight timing settings, in the order of Table 2.5. -/
structure Timing where
  sweepPeriod : Byte
  pollAge : Byte
  missingAge : Byte
  confirmNormal : Byte
  confirmService : Byte
  serviceLimit : Byte
  holdLimit : Byte
  snapshotKeep : Byte
deriving DecidableEq, Repr

/-- The report kinds (R46). -/
inductive ReportKind
  | status | prealarm | alarm | cleared | devfault | removed
deriving DecidableEq, Repr

/-- One detector transmission as a radio board delivered it, with the sender that carried it (R46). -/
structure Report where
  serial : Serial
  sequence : Byte
  kind : ReportKind
  battery : Battery
  margin : Fin 64
  sender : Sender
deriving DecidableEq, Repr

/-- An entry of the stray list (R54). -/
structure Stray where
  serial : Serial
  sender : Sender
  margin : Fin 64
  count : Byte
  lastKind : ReportKind
deriving DecidableEq, Repr

/-- Why a point is polled (R112). -/
inductive PollReason
  | first | overdue
deriving DecidableEq, Repr

/-- A poll item (Table 5.2). -/
structure PollItem where
  loc : Loc
  serial : Serial
  ageAtEntry : Fin 16
  reason : PollReason
deriving DecidableEq, Repr

/-- A hold record of the port it is filed under (R123). -/
structure Hold where
  bay : Bay
  timer : Countdown
deriving DecidableEq, Repr

/-- An entry of the deferral queue: a whole report and the bay it waits for (R129). -/
structure Deferral where
  report : Report
  bay : Bay
deriving DecidableEq, Repr

/-- The change record kinds, in the order of Table 7.1. -/
inductive RecordKind
  | condition | ack | reset | isolate | restore | mode | suppressed | lateFault | battery | enrol | withdraw | repair
  | integrity | strayAlarm | rewarm | lock
deriving DecidableEq, Repr

/-- The causes of Table 7.1. -/
inductive Cause
  | report | sweep | timer | request | coincidence | mode | integrity
deriving DecidableEq, Repr

/-- An old or new value of a change record: a condition or a bay mode (R141). -/
inductive ChangeValue
  | cond (c : Condition)
  | mode (m : ModeName)
deriving DecidableEq, Repr

/-- The fields of a change record other than its sequence number (Table 7.1); `doneBy` is the field "by", `none`
for sender 0, the part itself. -/
structure ChangeBody where
  kind : RecordKind
  bay : Option Bay
  point : Option (Fin 16)
  old : Option ChangeValue
  new : Option ChangeValue
  cause : Cause
  doneBy : Option Sender
  serial : Option Serial
deriving DecidableEq, Repr

/-- A change record of the ring (R141). -/
structure ChangeRecord where
  seq : SeqNum
  body : ChangeBody
deriving DecidableEq, Repr

/-- The snapshot state with what is present in it (Table 8.1). -/
inductive SnapState
  | idle
  | copying (owner : Port) (mark : SeqNum) (startCount : Count) (position : Bay)
  | ready (owner : Port) (mark : SeqNum) (startCount : Count) (keep : Countdown)
deriving DecidableEq, Repr

/-- A snapshot record marked copied: its BAD mark and the content of its location as copied, `none` where the
location was copied as unenrolled (R156). A location without a record here is not marked copied. -/
structure SnapRecord where
  bad : Bool
  content : Option PointContent
deriving DecidableEq, Repr

/-- The requests of Table 10.5. -/
inductive ReqCode
  | readPoint | readSlice | readBay | readSummary | readDevice | readSettings | lookupSerial
  | setCursor | readNext | readStrays
  | report | takePolls
  | acknowledge | resetPoint | isolate | restore | setMode
  | holdBay | releaseBay
  | subscribe | subscribeFrom | unsubscribe | readChanges | readEvents | clearEvents | setEventMask
  | snapshotRange | snapshotStart | snapshotRead | snapshotRelease
  | enrol | withdraw | repair | setBay | bindSenders | setMask | setTiming | lock | sweepStep | clearStrays
  | portReset
deriving DecidableEq, Repr

/-- The outcomes of Table 10.4. -/
inductive Result
  | done | accepted | duplicate | stale | deferred | unknown | frame | sender | masked | locked | range
  | absent | state | held | notHeld | busy | notOwner | already | notAcked | notClear | duplicateSerial
  | suspect | bad
deriving DecidableEq, Repr

/-- A request in a WAITING slot: it has passed its arrival checks (R179). -/
structure Request where
  tag : Byte
  code : ReqCode
  sender : Sender
  operands : List Byte
deriving DecidableEq, Repr

/-- A response in a DONE slot (R179). The code is a byte, since a FRAME refusal echoes any code (R182). -/
structure Response where
  tag : Byte
  code : Byte
  result : Result
  payload : List Byte
deriving DecidableEq, Repr

/-- The slot of a port (R179). -/
inductive Slot
  | empty
  | waiting (request : Request)
  | done (response : Response)
deriving DecidableEq, Repr

/-- The hold-end reasons (R134). -/
inductive HoldEnd
  | none | expired | fireReport | deferralFull
deriving DecidableEq, Repr

/-- The state of one port (R179): its slot; while a transaction is under way, the copy of the slot taken at the fall
of chip select (R180); its cursor (R22); its ring cursor while subscribed (R143); event flags, event mask and last
hold-end reason (R149). -/
structure PortState where
  slot : Slot
  copy : Option Slot
  cursor : Loc
  sub : Option SeqNum
  flags : EventSet
  mask : EventSet
  holdEnd : HoldEnd
deriving DecidableEq, Repr

/-- Why the part last started (R188). -/
inductive StartCause
  | powerOn | resetLine
deriving DecidableEq, Repr

/-- The supply: without power; power-on has ended with RST still asserted and RST has not been released since; or
power-on has ended and the part has run (R188, log 17). -/
inductive Phase
  | unpowered | powerOnUnderRst | running
deriving DecidableEq, Repr

/-- The TF512: everything the spec gives it, and the queue of the commands that are waiting. -/
structure State where
  /-- the supply (R188) -/
  phase : Phase
  /-- the RST pin is asserted (R188) -/
  rst : Bool
  startCause : StartCause
  /-- the code sampled from the BAYS strap (R2) -/
  strap : BitVec 2
  /-- the commissioning store is locked (R43) -/
  locked : Bool
  /-- the timebase count (R11) -/
  count : Count
  /-- the position of the next unit in its group of ten (R104) -/
  unitInGroup : Fin 10
  /-- the blocks that have still to take the end of the present unit (R104, log 5) -/
  owes : List TimeBlock
  /-- the sweep prescaler (R105) -/
  prescaler : Nat
  /-- the sweep counter (R106) -/
  counter : Bay
  /-- the enrolled point records, by location (R4) -/
  points : Table PointRecord
  /-- the enrolment map, by serial (R18) -/
  enrolMap : Table Loc
  /-- the bay table (R88) -/
  bays : Vector BayRecord 32
  /-- the bound sender sets (R26) -/
  bound : PerPort SenderSet
  /-- the 28 write masks (R28) -/
  masks : PerSender (PerArea GroupSet)
  /-- the timing settings (R39) -/
  timing : Timing
  /-- the stray list, most recently heard first (R54) -/
  strays : List Stray
  /-- the poll queues, oldest item first (R113) -/
  polls : PerSender (List PollItem)
  /-- the hold record of each port (R123) -/
  holds : PerPort (Option Hold)
  /-- the deferral queue, oldest entry first (R129) -/
  deferrals : List Deferral
  /-- the change ring, oldest record first (R139) -/
  ring : List ChangeRecord
  /-- the next sequence number of the ring (R139) -/
  nextSeq : SeqNum
  /-- the snapshot state (R156) -/
  snap : SnapState
  /-- the first bay of the snapshot range (R156) -/
  snapFirst : Bay
  /-- the last bay of the snapshot range (R156) -/
  snapLast : Bay
  /-- the snapshot records marked copied, by location (R156) -/
  snapRecords : Table SnapRecord
  /-- the ports (R179) -/
  ports : PerPort PortState
  /-- the last-granted port of the arbiter (R184) -/
  lastGranted : Port
  /-- the model's own: the number of grants so far, to which free values are applied (logs 9, 10) -/
  draws : Nat
  /-- the model's own: the commands that are waiting, first in first out (log 3) -/
  pending : List Instr
deriving DecidableEq, Repr

/-- A bay record at power-on: NORMAL, no partner, no owed visit (R45, R88, R107). -/
def BayRecord.fresh : BayRecord := { mode := .normal, partner := none, owed := false }

/-- A port at power-on: EMPTY slot, cursor (0,0), unsubscribed, flags {RESTART}, all nine events in the mask, reason
NONE (R22, R134, R143, R149, R179). -/
def PortState.fresh : PortState :=
  { slot := .empty, copy := none, cursor := ⟨0, 0⟩, sub := none, flags := 0x100, mask := 0x1FF, holdEnd := .none }

/-- The defaults of Table 2.5. -/
def Timing.default : Timing :=
  { sweepPeriod := 25, pollAge := 2, missingAge := 4, confirmNormal := 20, confirmService := 90, serviceLimit := 180,
    holdLimit := 20, snapshotKeep := 60 }

/-- The part right after power-on has ended with RST released, all 32 bays fitted (DESIGN CHOICE, log 1), and no
command waiting. Every other value is the one the spec gives for power-on. -/
def State.reset : State :=
  { phase := .running, rst := false, startCause := .powerOn, strap := Config.resetStrap, locked := false,
    count := 0, unitInGroup := 0, owes := [], prescaler := 0, counter := 0,
    points := [], enrolMap := [], bays := Vector.ofFn (fun _ => BayRecord.fresh),
    bound := ⟨0x02, 0x04, 0x08, 0x10⟩,
    masks :=
      let all : PerArea GroupSet := ⟨0x1F, 0x1F, 0x1F, 0x1F⟩
      ⟨all, all, all, all, all, all, all⟩,
    timing := Timing.default,
    strays := [], polls := ⟨[], [], [], [], [], [], []⟩, holds := ⟨none, none, none, none⟩, deferrals := [],
    ring := [], nextSeq := 0,
    snap := .idle, snapFirst := 0, snapLast := 31, snapRecords := [],
    ports := ⟨.fresh, .fresh, .fresh, .fresh⟩, lastGranted := .p3, draws := 0, pending := [] }

end Sys2Proof.Machine
end

