-- ==== Sys2Proof/Machine/Store.lean ====
section
/-! DEFINITION. Reading and writing the stores of the state: keyed tables, one value for each port, sender and area,
the bay table, and the numbers of locations, ports, senders and areas. -/

namespace Sys2Proof

/-- Bay-major order (00_scope.md, Locations): (0,0) is 0 and (31,15) is 511. -/
def Loc.key (l : Loc) : Nat := l.bay.val * 16 + l.point.val

/-- The location of a number, taken modulo 512: after (31,15) comes (0,0) (R23). -/
def Loc.ofKey (k : Nat) : Loc :=
  ⟨⟨k / 16 % 32, Nat.mod_lt _ (by decide)⟩, ⟨k % 16, Nat.mod_lt _ (by decide)⟩⟩

/-- The location after a location in bay-major order, wrapping (R23). -/
def Loc.next (l : Loc) : Loc := Loc.ofKey (l.key + 1)

/-- The sixteen points of a bay in point order. -/
def Bay.locs (b : Bay) : List Loc := (List.finRange 16).map (fun p => ⟨b, p⟩)

/-- The bays 0 to 31 in order. -/
def Bay.all : List Bay := List.finRange 32

/-- The area of a bay: eight bays each (R1). -/
def Bay.area (b : Bay) : Area := ⟨b.val / 8, by omega⟩

/-- All 512 locations in bay-major order. -/
def Loc.all : List Loc := Bay.all.flatMap Bay.locs

/-- The ports in order. -/
def Port.all : List Port := [.p0, .p1, .p2, .p3]

/-- The number of a port. -/
def Port.number : Port → Nat
  | .p0 => 0 | .p1 => 1 | .p2 => 2 | .p3 => 3

/-- The port after a port in the arbiter's order, P0 following P3 (R184). -/
def Port.next : Port → Port
  | .p0 => .p1 | .p1 => .p2 | .p2 => .p3 | .p3 => .p0

/-- The senders in order. -/
def Sender.all : List Sender := [.s1, .s2, .s3, .s4, .s5, .s6, .s7]

/-- The number of a sender, 1 to 7. -/
def Sender.number : Sender → Nat
  | .s1 => 1 | .s2 => 2 | .s3 => 3 | .s4 => 4 | .s5 => 5 | .s6 => 6 | .s7 => 7

/-- The blocks that count time (R104). -/
def TimeBlock.all : List TimeBlock := [.engine, .bayTable, .holdUnit, .snapshotUnit, .sweep]

namespace Machine

/-- What a table holds under a key. -/
def Table.find {α : Type} : Table α → Nat → Option α
  | [], _ => none
  | (k', a) :: rest, k => if k' = k then some a else Table.find rest k

/-- The table with a value put under a key, in its place by key. -/
def Table.insert {α : Type} : Table α → Nat → α → Table α
  | [], k, a => [(k, a)]
  | (k', a') :: rest, k, a =>
    if k < k' then (k, a) :: (k', a') :: rest
    else if k' = k then (k, a) :: rest
    else (k', a') :: Table.insert rest k a

/-- The table without what it holds under a key. -/
def Table.erase {α : Type} (t : Table α) (k : Nat) : Table α := t.filter (fun e => e.1 != k)

/-- The canonical form: keys strictly rising. -/
def Table.sorted {α : Type} : Table α → Bool
  | [] => true
  | [_] => true
  | a :: b :: rest => a.1 < b.1 && Table.sorted (b :: rest)

/-- The value of a port. -/
def PerPort.get {α : Type} (v : PerPort α) : Port → α
  | .p0 => v.p0 | .p1 => v.p1 | .p2 => v.p2 | .p3 => v.p3

/-- The value of one port replaced. -/
def PerPort.set {α : Type} (v : PerPort α) (p : Port) (a : α) : PerPort α :=
  match p with
  | .p0 => { v with p0 := a }
  | .p1 => { v with p1 := a }
  | .p2 => { v with p2 := a }
  | .p3 => { v with p3 := a }

/-- A function applied to the value of each port. -/
def PerPort.map {α β : Type} (f : Port → α → β) (v : PerPort α) : PerPort β :=
  ⟨f .p0 v.p0, f .p1 v.p1, f .p2 v.p2, f .p3 v.p3⟩

/-- The value of a sender. -/
def PerSender.get {α : Type} (v : PerSender α) : Sender → α
  | .s1 => v.s1 | .s2 => v.s2 | .s3 => v.s3 | .s4 => v.s4 | .s5 => v.s5 | .s6 => v.s6 | .s7 => v.s7

/-- The value of one sender replaced. -/
def PerSender.set {α : Type} (v : PerSender α) (n : Sender) (a : α) : PerSender α :=
  match n with
  | .s1 => { v with s1 := a }
  | .s2 => { v with s2 := a }
  | .s3 => { v with s3 := a }
  | .s4 => { v with s4 := a }
  | .s5 => { v with s5 := a }
  | .s6 => { v with s6 := a }
  | .s7 => { v with s7 := a }

/-- A function applied to the value of each sender. -/
def PerSender.map {α β : Type} (f : α → β) (v : PerSender α) : PerSender β :=
  ⟨f v.s1, f v.s2, f v.s3, f v.s4, f v.s5, f v.s6, f v.s7⟩

/-- The value of an area. -/
def PerArea.get {α : Type} (v : PerArea α) (a : Area) : α :=
  match a with
  | 0 => v.a0 | 1 => v.a1 | 2 => v.a2 | 3 => v.a3

/-- The value of one area replaced. -/
def PerArea.set {α : Type} (v : PerArea α) (a : Area) (x : α) : PerArea α :=
  match a with
  | 0 => { v with a0 := x }
  | 1 => { v with a1 := x }
  | 2 => { v with a2 := x }
  | 3 => { v with a3 := x }

/-- The record of a bay. -/
def State.bay (s : State) (b : Bay) : BayRecord := s.bays.get b

/-- The record of a bay replaced. -/
def State.setBay (s : State) (b : Bay) (r : BayRecord) : State :=
  { s with bays := s.bays.set b.val r b.isLt }

/-- A function applied to the record of every bay. -/
def State.mapBays (s : State) (f : Bay → BayRecord → BayRecord) : State :=
  { s with bays := Vector.ofFn (fun b => f b (s.bay b)) }

/-- The state of a port. -/
def State.port (s : State) (p : Port) : PortState := s.ports.get p

/-- The state of a port replaced. -/
def State.setPort (s : State) (p : Port) (x : PortState) : State := { s with ports := s.ports.set p x }

/-- A function applied to the state of every port. -/
def State.mapPorts (s : State) (f : Port → PortState → PortState) : State := { s with ports := s.ports.map f }

/-- The content of the point record at a location, `none` where the location is not enrolled (R4). -/
def State.content (s : State) (l : Loc) : Option PointContent := (s.points.find l.key).map (·.content)

/-- The fitted bay count: 8, 16, 24 or 32 by the strap code (R2). -/
def State.fittedCount (s : State) : Nat := 8 * (s.strap.toNat + 1)

/-- A bay is fitted when it is below the fitted count (R2). -/
def State.fitted (s : State) (b : Bay) : Bool := b.val < s.fittedCount

/-- The hold record of a port. -/
def State.hold (s : State) (p : Port) : Option Hold := s.holds.get p

/-- The port that holds a bay (R123). -/
def State.holder (s : State) (b : Bay) : Option Port :=
  Port.all.find? (fun p => match s.hold p with
    | some h => h.bay = b
    | none => false)

/-- A bay is held when some port holds it (R123). -/
def State.held (s : State) (b : Bay) : Bool := (s.holder b).isSome

/-- The port other than `p` that holds a bay (step 5 of R30, R127). -/
def State.heldByOther (s : State) (p : Port) (b : Bay) : Option Port :=
  match s.holder b with
  | some q => if q = p then none else some q
  | none => none

/-- The part is in service: powered and RST released. In reset it takes nothing and no time passes (R104, R188). -/
def State.inService (s : State) : Bool := s.phase == .running && !s.rst

/-- The number of timebase units left until or gone since, of two count values, modulo 4 294 967 296 (R11). -/
def unitsBetween (first last : Count) : Count := last - first

end Machine
end Sys2Proof
end

