-- ==== Sys2Proof/Machine/Flags.lean ====
section
/-! DEFINITION. The sets and the computed values that the lines follow: event flags and ATTN (R149, R154), write
masks (R28), the device and bay counts (R24, R25), FIRE and FAULT (R101, R102). -/

namespace Sys2Proof

/-- Condition ALARM, FAULT or MISSING: those that call for an acknowledgement (R94, Table 1.8). -/
def Condition.needsAck : Condition → Bool
  | .alarm => true
  | .fault _ => true
  | .missing => true
  | .unheard => false
  | .quiet => false
  | .watch => false
  | .pending => false

/-- Table 1.8, alarm count. -/
def PointContent.inAlarmCount (c : PointContent) : Bool := c.isolation.isNone && c.condition == .alarm

/-- Table 1.8, trouble count. -/
def PointContent.inTroubleCount (c : PointContent) : Bool :=
  c.isolation.isNone && (c.suspect || (match c.condition with
    | .fault _ => true
    | .missing => true
    | _ => false))

/-- Table 1.8, pending count. -/
def PointContent.inPendingCount (c : PointContent) : Bool := c.condition == .pending

/-- Table 1.8, isolated count. -/
def PointContent.inIsolatedCount (c : PointContent) : Bool := c.isolation.isSome

/-- Table 1.8, unacknowledged count. -/
def PointContent.inUnackCount (c : PointContent) : Bool :=
  c.isolation.isNone && c.condition.needsAck && c.ack.isNone

/-- Table 1.8, enrolled count. -/
def PointContent.inEnrolledCount (_ : PointContent) : Bool := true

namespace Machine

/-- The bit of an event in an event set (Table 10.4). -/
def Event.bit : Event → EventSet
  | .changes => 0x001
  | .lag => 0x002
  | .holdEnded => 0x004
  | .snapshotReady => 0x008
  | .snapshotEnded => 0x010
  | .polls => 0x020
  | .fire => 0x040
  | .stray => 0x080
  | .restart => 0x100

/-- An event is in a set. -/
def Event.isIn (e : Event) (set : EventSet) : Bool := set &&& e.bit != 0

/-- The bit of a group in a group set (Table 10.4). -/
def Group.bit : Group → GroupSet
  | .radio => 0x01
  | .ack => 0x02
  | .isolate => 0x04
  | .mode => 0x08
  | .commission => 0x10

/-- A sender is in a sender set: bit s for sender s (Table 10.4). -/
def SenderSet.has (set : SenderSet) (n : Sender) : Bool := set.getLsbD n.number

/-- The event is added to the port's flags (R149). -/
def PortState.raise (q : PortState) (e : Event) : PortState := { q with flags := q.flags ||| e.bit }

/-- The event is set on every port that `which` names. -/
def State.raiseWhere (s : State) (which : Port → Bool) (e : Event) : State :=
  s.mapPorts (fun p q => if which p then q.raise e else q)

/-- The event is set on every port. -/
def State.raiseAll (s : State) (e : Event) : State := s.raiseWhere (fun _ => true) e

/-- The event is set on one port. -/
def State.raiseOn (s : State) (p : Port) (e : Event) : State := s.raiseWhere (fun q => q = p) e

/-- A sender holds a group in the write mask for an area (R28). -/
def State.may (s : State) (n : Sender) (g : Group) (a : Area) : Bool :=
  (s.masks.get n).get a &&& g.bit != 0

/-- A sender holds a group in at least one area (Table 2.3). -/
def State.mayAnywhere (s : State) (n : Sender) (g : Group) : Bool :=
  s.may n g 0 || s.may n g 1 || s.may n g 2 || s.may n g 3

/-- A sender holds a group in all four areas (Table 2.3). -/
def State.mayEverywhere (s : State) (n : Sender) (g : Group) : Bool :=
  s.may n g 0 && s.may n g 1 && s.may n g 2 && s.may n g 3

/-- The number of enrolled points, each taken as the part last wrote its record, that satisfy `f` (R25). -/
def State.countOf (s : State) (f : PointContent → Bool) : Nat := s.points.countP (fun e => f e.2.written)

/-- The same restricted to the points of one bay (R24). -/
def State.bayCountOf (s : State) (b : Bay) (f : PointContent → Bool) : Nat :=
  s.points.countP (fun e => e.1 / 16 == b.val && f e.2.written)

def State.alarmCount (s : State) : Nat := s.countOf (·.inAlarmCount)
def State.troubleCount (s : State) : Nat := s.countOf (·.inTroubleCount)
def State.pendingCount (s : State) : Nat := s.countOf (·.inPendingCount)
def State.isolatedCount (s : State) : Nat := s.countOf (·.inIsolatedCount)
def State.unackCount (s : State) : Nat := s.countOf (·.inUnackCount)
def State.enrolledCount (s : State) : Nat := s.countOf (·.inEnrolledCount)

/-- The FIRE line: asserted while the alarm count is not 0, deasserted in reset (R101, R103, R188). -/
def State.fireLine (s : State) : Bool := s.inService && s.alarmCount != 0

/-- The FAULT line: asserted while the trouble count is not 0, deasserted in reset (R102, R103, R188). -/
def State.faultLine (s : State) : Bool := s.inService && s.troubleCount != 0

/-- The ATTN line of a port: its flags and its mask have an event in common; deasserted in reset (R154). -/
def State.attnLine (s : State) (p : Port) : Bool :=
  s.inService && ((s.port p).flags &&& (s.port p).mask != 0)

/-- The end of an event that began in `before`: when it has taken the alarm count from 0 to 1 or more, the FIRE event
is set on every port (R101). The counts themselves need no step: they are computed from the records. -/
def State.settleFire (before s : State) : State :=
  if before.alarmCount = 0 ∧ s.alarmCount ≠ 0 then s.raiseAll .fire else s

end Machine
end Sys2Proof
end

