-- ==== Sys2Proof/Machine/Codes.lean ====
section
/-! DEFINITION. The value codes of Table 10.4, the request codes and operand lengths of Table 10.5, and the reading of
a code in an operand: a code outside its list gives `none` (refused with RANGE at grant). -/

namespace Sys2Proof

/-- A port by its number (BIND-SENDERS operand). -/
def Port.ofByte? (b : Byte) : Option Port := Port.all.find? (fun p => p.number == b.toNat)

/-- A sender by its number, 1 to 7. -/
def Sender.ofByte? (b : Byte) : Option Sender := Sender.all.find? (fun n => n.number == b.toNat)

/-- A bay by its number, 0 to 31. -/
def Bay.ofByte? (b : Byte) : Option Bay := if h : b.toNat < 32 then some ⟨b.toNat, h⟩ else none

/-- An area by its number, 0 to 3. -/
def Area.ofByte? (b : Byte) : Option Area := if h : b.toNat < 4 then some ⟨b.toNat, h⟩ else none

/-- A location by two operand bytes, bay then point (R1). -/
def Loc.ofBytes? (b p : Byte) : Option Loc :=
  if h : b.toNat < 32 ∧ p.toNat < 16 then some ⟨⟨b.toNat, h.1⟩, ⟨p.toNat, h.2⟩⟩ else none

/-- A margin, 0 to 63 dB (R46). -/
def marginOfByte? (b : Byte) : Option (Fin 64) := if h : b.toNat < 64 then some ⟨b.toNat, h⟩ else none

def PointKind.code : PointKind → Byte
  | .smoke => 0x01 | .heat => 0x02 | .multi => 0x03 | .call => 0x04

def PointKind.ofByte? (b : Byte) : Option PointKind :=
  [PointKind.smoke, .heat, .multi, .call].find? (fun k => k.code == b)

def Battery.code : Battery → Byte
  | .good => 0x01 | .low => 0x02 | .critical => 0x03

def Battery.ofByte? (b : Byte) : Option Battery := [Battery.good, .low, .critical].find? (fun k => k.code == b)

/-- Condition values, the fault cause within the value (Table 10.4). -/
def Condition.code : Condition → Byte
  | .unheard => 0x01
  | .quiet => 0x02
  | .watch => 0x03
  | .pending => 0x04
  | .alarm => 0x05
  | .missing => 0x07
  | .fault .device => 0x11
  | .fault .removed => 0x12
  | .fault .battery => 0x13
  | .fault .integrity => 0x14

namespace Machine

def ReportKind.code : ReportKind → Byte
  | .status => 0x01 | .prealarm => 0x02 | .alarm => 0x03 | .cleared => 0x04 | .devfault => 0x05 | .removed => 0x06

def ReportKind.ofByte? (b : Byte) : Option ReportKind :=
  [ReportKind.status, .prealarm, .alarm, .cleared, .devfault, .removed].find? (fun k => k.code == b)

def ModeName.code : ModeName → Byte
  | .normal => 0x21 | .service => 0x22 | .works => 0x23

def ModeName.ofByte? (b : Byte) : Option ModeName :=
  [ModeName.normal, .service, .works].find? (fun k => k.code == b)

def BayMode.name : BayMode → ModeName
  | .normal => .normal
  | .service _ => .service
  | .works => .works

def Result.code : Result → Byte
  | .done => 0x01 | .accepted => 0x02 | .duplicate => 0x03 | .stale => 0x04 | .deferred => 0x05 | .unknown => 0x06
  | .frame => 0x10 | .sender => 0x11 | .masked => 0x12 | .locked => 0x13 | .range => 0x14
  | .absent => 0x20 | .state => 0x21 | .held => 0x22 | .notHeld => 0x23 | .busy => 0x24 | .notOwner => 0x25
  | .already => 0x30 | .notAcked => 0x31 | .notClear => 0x32 | .duplicateSerial => 0x33
  | .suspect => 0x40 | .bad => 0x41

/-- Record kinds 01h to 10h in the order of Table 7.1. -/
def RecordKind.code : RecordKind → Byte
  | .condition => 0x01 | .ack => 0x02 | .reset => 0x03 | .isolate => 0x04 | .restore => 0x05 | .mode => 0x06
  | .suppressed => 0x07 | .lateFault => 0x08 | .battery => 0x09 | .enrol => 0x0A | .withdraw => 0x0B
  | .repair => 0x0C | .integrity => 0x0D | .strayAlarm => 0x0E | .rewarm => 0x0F | .lock => 0x10

def Cause.code : Cause → Byte
  | .report => 0x01 | .sweep => 0x02 | .timer => 0x03 | .request => 0x04 | .coincidence => 0x05 | .mode => 0x06
  | .integrity => 0x07

def PollReason.code : PollReason → Byte
  | .first => 0x01 | .overdue => 0x02

def HoldEnd.code : HoldEnd → Byte
  | .none => 0x00 | .expired => 0x01 | .fireReport => 0x02 | .deferralFull => 0x03

def SnapState.code : SnapState → Byte
  | .idle => 0x00
  | .copying _ _ _ _ => 0x01
  | .ready _ _ _ _ => 0x02

def StartCause.code : StartCause → Byte
  | .powerOn => 0x01 | .resetLine => 0x02

def ChangeValue.code : ChangeValue → Byte
  | .cond c => c.code
  | .mode m => m.code

/-- The slice fields of Table 1.5. -/
inductive SliceField
  | condition | age | acknowledgement | isolation | battery | bestMargin
deriving DecidableEq, Repr

def SliceField.code : SliceField → Byte
  | .condition => 0x01 | .age => 0x02 | .acknowledgement => 0x03 | .isolation => 0x04 | .battery => 0x05
  | .bestMargin => 0x06

def SliceField.ofByte? (b : Byte) : Option SliceField :=
  [SliceField.condition, .age, .acknowledgement, .isolation, .battery, .bestMargin].find? (fun k => k.code == b)

/-- Request codes (Table 10.5). -/
def ReqCode.code : ReqCode → Byte
  | .readPoint => 0x01 | .readSlice => 0x02 | .readBay => 0x03 | .readSummary => 0x04 | .readDevice => 0x05
  | .readSettings => 0x06 | .lookupSerial => 0x07 | .setCursor => 0x08 | .readNext => 0x09 | .readStrays => 0x0A
  | .report => 0x10 | .takePolls => 0x11
  | .acknowledge => 0x20 | .resetPoint => 0x21 | .isolate => 0x22 | .restore => 0x23 | .setMode => 0x24
  | .holdBay => 0x25 | .releaseBay => 0x26
  | .subscribe => 0x30 | .subscribeFrom => 0x31 | .unsubscribe => 0x32 | .readChanges => 0x33 | .readEvents => 0x34
  | .clearEvents => 0x35 | .setEventMask => 0x36
  | .snapshotRange => 0x40 | .snapshotStart => 0x41 | .snapshotRead => 0x42 | .snapshotRelease => 0x43
  | .enrol => 0x50 | .withdraw => 0x51 | .repair => 0x52 | .setBay => 0x53 | .bindSenders => 0x54 | .setMask => 0x55
  | .setTiming => 0x56 | .lock => 0x57 | .sweepStep => 0x58 | .clearStrays => 0x59
  | .portReset => 0x60

/-- Operand lengths in bytes (Table 10.5). -/
def ReqCode.operandLength : ReqCode → Nat
  | .readPoint => 2 | .readSlice => 2 | .readBay => 1 | .readSummary => 0 | .readDevice => 0
  | .readSettings => 0 | .lookupSerial => 3 | .setCursor => 2 | .readNext => 0 | .readStrays => 0
  | .report => 7 | .takePolls => 2
  | .acknowledge => 2 | .resetPoint => 2 | .isolate => 2 | .restore => 2 | .setMode => 2
  | .holdBay => 1 | .releaseBay => 0
  | .subscribe => 0 | .subscribeFrom => 2 | .unsubscribe => 0 | .readChanges => 1 | .readEvents => 0
  | .clearEvents => 2 | .setEventMask => 2
  | .snapshotRange => 2 | .snapshotStart => 0 | .snapshotRead => 2 | .snapshotRelease => 0
  | .enrol => 6 | .withdraw => 2 | .repair => 6 | .setBay => 2 | .bindSenders => 2 | .setMask => 3
  | .setTiming => 8 | .lock => 0 | .sweepStep => 0 | .clearStrays => 0
  | .portReset => 0

/-- The requests in the order of Table 10.5. -/
def ReqCode.all : List ReqCode :=
  [.readPoint, .readSlice, .readBay, .readSummary, .readDevice, .readSettings, .lookupSerial, .setCursor, .readNext,
   .readStrays, .report, .takePolls, .acknowledge, .resetPoint, .isolate, .restore, .setMode, .holdBay, .releaseBay,
   .subscribe, .subscribeFrom, .unsubscribe, .readChanges, .readEvents, .clearEvents, .setEventMask, .snapshotRange,
   .snapshotStart, .snapshotRead, .snapshotRelease, .enrol, .withdraw, .repair, .setBay, .bindSenders, .setMask,
   .setTiming, .lock, .sweepStep, .clearStrays, .portReset]

/-- The request of a code byte, `none` when the code is not one of Table 10.5. -/
def ReqCode.ofByte? (b : Byte) : Option ReqCode := ReqCode.all.find? (fun c => c.code == b)

end Machine
end Sys2Proof
end

