-- ==== Sys2Proof/Machine/Layout.lean ====
section
/-! DEFINITION. The byte layouts that masters see (section 10.6) and the check byte of a frame (R183). A number of
more than one byte is sent most significant byte first. -/

namespace Sys2Proof.Machine

/-- One step of the CRC-8: the register shifted left once, the polynomial taken in when a one left it (R183). -/
def crcShift (c : Byte) : Byte := if c.msb then (c <<< 1) ^^^ 0x07 else c <<< 1

/-- The CRC-8 register after one more byte, its bits taken most significant first (R183). -/
def crcByte (c b : Byte) : Byte :=
  crcShift (crcShift (crcShift (crcShift (crcShift (crcShift (crcShift (crcShift (c ^^^ b))))))))

/-- The CRC-8 of R183: polynomial x⁸ + x² + x + 1, initial value 00h, no reflection, no final inversion. -/
def crc8 (bytes : List Byte) : Byte := bytes.foldl crcByte 0

/-- A number in two bytes. -/
def bytes2 (n : BitVec 16) : List Byte := [n.extractLsb' 8 8, n.extractLsb' 0 8]

/-- A number in three bytes. -/
def bytes3 (n : BitVec 24) : List Byte := [n.extractLsb' 16 8, n.extractLsb' 8 8, n.extractLsb' 0 8]

/-- A number in four bytes. -/
def bytes4 (n : BitVec 32) : List Byte :=
  [n.extractLsb' 24 8, n.extractLsb' 16 8, n.extractLsb' 8 8, n.extractLsb' 0 8]

/-- A number as one byte. -/
def byteOf (n : Nat) : Byte := BitVec.ofNat 8 n

/-- 01h for yes, 00h for no. -/
def flagByte (b : Bool) : Byte := if b then 0x01 else 0x00

/-- A location in two bytes, bay then point. -/
def locBytes (l : Loc) : List Byte := [byteOf l.bay.val, byteOf l.point.val]

/-- A bay, or FFh for none. -/
def bayByte : Option Bay → Byte
  | some b => byteOf b.val
  | none => 0xFF

/-- A port, or FFh for none. -/
def portByte : Option Port → Byte
  | some p => byteOf p.number
  | none => 0xFF

/-- A sender, or 00h where absent. -/
def senderByte : Option Sender → Byte
  | some n => byteOf n.number
  | none => 0x00

/-- Elapsed or remaining as two bytes: the number of units, or a free value where two bytes cannot hold it, which
only a storage upset can bring about (R11, R189; log 9). -/
def unitsBytes (draw : Nat) (units : Count) : List Byte :=
  if units.toNat < 65536 then bytes2 (units.setWidth 16) else bytes2 (Config.wideUnits draw units)

/-- The presence byte of Table 10.6. -/
def presenceByte (c : PointContent) : Byte :=
  (if c.lastSeq.isSome then 0x01 else 0) ||| (if c.battery.isSome then 0x02 else 0)
    ||| (if c.ack.isSome then 0x04 else 0) ||| (if c.isolation.isSome then 0x08 else 0)
    ||| (if c.confirmation.isSome then 0x10 else 0)

/-- The marks byte of Table 10.6. -/
def marksByte (c : PointContent) : Byte :=
  (if c.suspect then 0x01 else 0) ||| (if c.heardStopped then 0x02 else 0) ||| (if c.clearSeen then 0x04 else 0)

/-- A link entry: sender, margin, link age. -/
def linkBytes (k : Link) : List Byte := [byteOf k.sender.number, byteOf k.margin.val, byteOf k.age.val]

/-- A point record as read (Table 10.6), its confirmation worked out against the count `now` (R11, R164, R189). -/
def pointBytes (draw : Nat) (now : Count) (l : Loc) (c : PointContent) : List Byte :=
  locBytes l ++ [presenceByte c] ++ bytes3 c.serial
    ++ [c.kind.code, c.condition.code, marksByte c, c.lastSeq.getD 0, byteOf c.age.val,
        (match c.battery with
          | some b => b.code
          | none => 0), senderByte c.ack, senderByte c.isolation]
    ++ (match c.confirmation with
        | some f =>
          unitsBytes (2 * draw) (unitsBetween f.start now) ++ unitsBytes (2 * draw + 1) (unitsBetween now f.deadline)
        | none => [0, 0, 0, 0])
    ++ [byteOf c.links.length]
    ++ ((c.links.flatMap linkBytes) ++ List.replicate 9 0).take 9

/-- A change record (Table 10.7). -/
def changeBytes (r : ChangeRecord) : List Byte :=
  bytes2 r.seq
    ++ [r.body.kind.code, bayByte r.body.bay,
        (match r.body.point with
          | some p => byteOf p.val
          | none => 0xFF),
        (match r.body.old with
          | some v => v.code
          | none => 0),
        (match r.body.new with
          | some v => v.code
          | none => 0),
        r.body.cause.code, senderByte r.body.doneBy]
    ++ bytes3 (r.body.serial.getD 0)

/-- A stray entry (R191). -/
def strayBytes (e : Stray) : List Byte :=
  bytes3 e.serial ++ [byteOf e.sender.number, byteOf e.margin.val, e.count, e.lastKind.code]

/-- A poll item (R191). -/
def pollBytes (i : PollItem) : List Byte :=
  locBytes i.loc ++ bytes3 i.serial ++ [byteOf i.ageAtEntry.val, i.reason.code]

/-- The second byte of a slice value that is ABSENT or NONE: 00h in the five slices whose second byte is 00h, and a
free value in the best-margin slice, whose second byte is a sender that is not there (R191; log 10). -/
def sliceSecond (draw : Nat) (p : Fin 16) (f : SliceField) : Byte :=
  match f with
  | .condition => 0x00
  | .age => 0x00
  | .acknowledgement => 0x00
  | .isolation => 0x00
  | .battery => 0x00
  | .bestMargin => Config.sliceFill draw p

/-- A slice value of an enrolled point (R191, Table 1.5). -/
def sliceBytes (draw : Nat) (p : Fin 16) (f : SliceField) (c : PointContent) : List Byte :=
  let none2 : List Byte := [0xFF, sliceSecond draw p f]
  match f with
  | .condition => [c.condition.code, 0]
  | .age => [byteOf c.age.val, 0]
  | .acknowledgement => (match c.ack with
      | some n => [byteOf n.number, 0]
      | none => none2)
  | .isolation => (match c.isolation with
      | some n => [byteOf n.number, 0]
      | none => none2)
  | .battery => (match c.battery with
      | some b => [b.code, 0]
      | none => none2)
  | .bestMargin => (match c.links with
      | k :: _ => [byteOf k.margin.val, byteOf k.sender.number]
      | [] => none2)

/-- A slice value ABSENT (R191). -/
def sliceAbsent (draw : Nat) (p : Fin 16) (f : SliceField) : List Byte := [0xFE, sliceSecond draw p f]

/-- Six counts in the order of Table 1.8. -/
def countList (count : (PointContent → Bool) → Nat) : List Nat :=
  [count (·.inAlarmCount), count (·.inTroubleCount), count (·.inPendingCount), count (·.inIsolatedCount),
   count (·.inUnackCount), count (·.inEnrolledCount)]

/-- The bay answer, 16 bytes (R24, R191). -/
def bayAnswer (s : State) (b : Bay) : List Byte :=
  let r := s.bay b
  [byteOf b.val, byteOf b.area.val, r.mode.name.code]
    ++ bytes3 (match r.mode with
        | .service t => BitVec.ofNat 24 t.left
        | .normal => 0
        | .works => 0)
    ++ [bayByte r.partner, portByte (s.holder b),
        (match (s.holder b).bind s.hold with
          | some h => byteOf h.timer.left
          | none => 0),
        flagByte r.owed]
    ++ (countList (s.bayCountOf b)).map byteOf

/-- The READ-SUMMARY answer, 13 bytes: six counts, then the lines (R25, R191). -/
def summaryAnswer (s : State) : List Byte :=
  (countList s.countOf).flatMap (fun n => bytes2 (BitVec.ofNat 16 n))
    ++ [(if s.fireLine then 0x01 else 0) ||| (if s.faultLine then 0x02 else 0)]

/-- The READ-DEVICE answer, 19 bytes (R187). -/
def deviceAnswer (s : State) : List Byte :=
  [s.startCause.code, flagByte s.locked, byteOf s.fittedCount, s.timing.sweepPeriod, byteOf s.counter.val,
   s.snap.code]
    ++ (match s.snap with
        | .idle => [0xFF] ++ bytes2 0
        | .copying owner mark _ _ => [portByte (some owner)] ++ bytes2 mark
        | .ready owner mark _ _ => [portByte (some owner)] ++ bytes2 mark)
    ++ bytes2 s.nextSeq
    ++ Port.all.flatMap (fun p => match s.hold p with
        | some h => [byteOf h.bay.val, byteOf h.timer.left]
        | none => [0xFF, 0])

/-- The eight settings in the order of Table 2.5. -/
def timingBytes (t : Timing) : List Byte :=
  [t.sweepPeriod, t.pollAge, t.missingAge, t.confirmNormal, t.confirmService, t.serviceLimit, t.holdLimit,
   t.snapshotKeep]

/-- The settings answer, 41 bytes; the masks sender by sender, the areas 0 to 3 of each together (R41, R191; log 21). -/
def settingsAnswer (s : State) : List Byte :=
  timingBytes s.timing ++ [flagByte s.locked] ++ Port.all.map s.bound.get
    ++ Sender.all.flatMap (fun n =>
        let m := s.masks.get n
        [m.a0.setWidth 8, m.a1.setWidth 8, m.a2.setWidth 8, m.a3.setWidth 8])

/-- The response frame that a copy of a slot gives (R180, Table 10.3). -/
def responseFrame (copy : Slot) : List Byte :=
  let body : List Byte := match copy with
    | .empty => [0x00, 0x00, 0x00, 0x00, 0x00]
    | .waiting r => [0x01, r.tag, r.code.code, 0x00, 0x00]
    | .done r => [0x02, r.tag, r.code, r.result.code, byteOf r.payload.length] ++ r.payload
  body ++ [crc8 body]

/-- The byte shifted out at position `k` of a transaction; 00h after the frame's check byte (R180). -/
def shiftedOut (copy : Slot) (k : Nat) : Byte := (responseFrame copy).getD k 0x00

end Sys2Proof.Machine
end

