-- ==== Sys2Proof/Machine/Operands.lean ====
section
/-! DEFINITION. Reading the operands of a request from its operand bytes (Table 10.5). An operand byte that an
arrival check has not let through cannot be missing; a missing one reads 00h (log 16). -/

namespace Sys2Proof.Machine

/-- Operand byte `k` of a request. -/
def Request.op (r : Request) (k : Nat) : Byte := r.operands.getD k 0

/-- Two operand bytes from `k`, most significant first. -/
def Request.op2 (r : Request) (k : Nat) : BitVec 16 := r.op k ++ r.op (k + 1)

/-- Three operand bytes from `k`, most significant first. -/
def Request.op3 (r : Request) (k : Nat) : BitVec 24 := r.op k ++ (r.op (k + 1) ++ r.op (k + 2))

/-- The location in operand bytes 0 and 1 (R1). -/
def Request.loc? (r : Request) : Option Loc := Loc.ofBytes? (r.op 0) (r.op 1)

/-- The serial in three operand bytes from `k`, `none` when it is not valid (R5). -/
def Request.serial? (r : Request) (k : Nat) : Option Serial :=
  if serialValid (r.op3 k) then some (r.op3 k) else none

/-- The operands of REPORT: serial (3), sequence, kind, battery, margin; `none` when the range step refuses (R48). -/
def Request.report? (r : Request) : Option Report :=
  match r.serial? 0, ReportKind.ofByte? (r.op 4), Battery.ofByte? (r.op 5), marginOfByte? (r.op 6) with
  | some serial, some kind, some battery, some margin =>
    some { serial, sequence := r.op 3, kind, battery, margin, sender := r.sender }
  | _, _, _, _ => none

/-- A set of events in two operand bytes, `none` when it names anything but the nine (R151, R153). -/
def Request.events? (r : Request) : Option EventSet :=
  if (r.op2 0).toNat < 512 then some ((r.op2 0).setWidth 9) else none

/-- The partner operand of SET-BAY: FFh for none (R37). The outer `none` is out of range. -/
def partnerOfByte? (b : Byte) : Option (Option Bay) :=
  if b = 0xFF then some none else (Bay.ofByte? b).map some

/-- The operands of SET-TIMING as settings (R39). -/
def Request.timing (r : Request) : Timing :=
  { sweepPeriod := r.op 0, pollAge := r.op 1, missingAge := r.op 2, confirmNormal := r.op 3, confirmService := r.op 4,
    serviceLimit := r.op 5, holdLimit := r.op 6, snapshotKeep := r.op 7 }

/-- The ranges of Table 2.5, and MISSING AGE greater than POLL AGE (R39). -/
def Timing.inRange (t : Timing) : Bool :=
  (1 ≤ t.pollAge.toNat && t.pollAge.toNat ≤ 14) && (2 ≤ t.missingAge.toNat && t.missingAge.toNat ≤ 15)
    && t.pollAge.toNat < t.missingAge.toNat
    && 5 ≤ t.confirmNormal.toNat && 5 ≤ t.confirmService.toNat && 10 ≤ t.serviceLimit.toNat
    && 5 ≤ t.holdLimit.toNat && 10 ≤ t.snapshotKeep.toNat

end Sys2Proof.Machine
end

