-- ==== Sys2Proof/Machine/Ops.lean ====
section
/-! DEFINITION. The primitive operations on the state: each changes one store by its rule. Every event of the part is
made of these. -/

namespace Sys2Proof

/-- The age one round on, held at 15 (R8). -/
def ageUp (a : Fin 16) : Fin 16 := if h : a.val < 15 then ⟨a.val + 1, by omega⟩ else a

/-- The link ages one round on; an entry whose link age reaches 3 is removed, the rest keep their order (R17). -/
def agedLinks (ls : List Link) : List Link :=
  ls.filterMap (fun k => if h : k.age.val + 1 < 3 then some { k with age := ⟨k.age.val + 1, h⟩ } else none)

/-- A link put in at the first position where it stands before every entry of its margin or less (R16). -/
def insertLink (k : Link) : List Link → List Link
  | [] => [k]
  | a :: rest => if a.margin ≤ k.margin then k :: a :: rest else a :: insertLink k rest

/-- The link list updated for a report from sender `n` with margin `m` (R16). -/
def updateLinks (n : Sender) (m : Fin 64) (ls : List Link) : List Link :=
  let new : Link := { sender := n, margin := m, age := 0 }
  if ls.any (fun k => k.sender = n) then insertLink new (ls.filter (fun k => k.sender ≠ n))
  else if ls.length < Config.linkCapacity then insertLink new ls
  else match ls.getLast? with
    | some last => if last.margin < m then insertLink new ls.dropLast else ls
    | none => insertLink new ls

/-- The content on a change of condition to `new`: the acknowledgement is removed (R76) and so is a confirmation
(R79); an entry to PENDING writes its own. The fault cause goes with the condition. -/
def PointContent.entering (c : PointContent) (new : Condition) : PointContent :=
  { c with condition := new, ack := none, confirmation := none }

namespace Machine

/-! ### Point table (R13, R18) -/

/-- The part writes a record: the check code is recomputed over the content, and the counts take it up (R13, R25). -/
def State.writePoint (s : State) (l : Loc) (c : PointContent) : State :=
  { s with points := s.points.insert l.key { content := c, codeHolds := true, written := c } }

/-- The record is set to unenrolled (R36). -/
def State.erasePoint (s : State) (l : Loc) : State := { s with points := s.points.erase l.key }

/-- A storage upset leaves this content; the check no longer holds and no count changes (R13, R25). -/
def State.upsetPoint (s : State) (l : Loc) (c : PointContent) : State :=
  match s.points.find l.key with
  | none => s
  | some r => { s with points := s.points.insert l.key { r with content := c, codeHolds := false } }

/-- The serial of the map entry that names a location (R18). -/
def State.mappedAt (s : State) (l : Loc) : Option Nat := (s.enrolMap.find? (fun e => e.2 = l)).map (·.1)

/-- The map holds an entry for a serial. -/
def State.mapsSerial (s : State) (n : Serial) : Bool := (s.enrolMap.find n.toNat).isSome

/-- The map entry that names a location is removed, whatever serial it holds (R171). -/
def State.mapDrop (s : State) (l : Loc) : State := { s with enrolMap := s.enrolMap.filter (fun e => e.2 ≠ l) }

/-- An entry is added to the map. An entry that still named the location gives way (log 13). -/
def State.mapAdd (s : State) (n : Serial) (l : Loc) : State :=
  { s with enrolMap := Table.insert (s.enrolMap.filter (fun e => e.2 ≠ l)) n.toNat l }

/-! ### Change ring (R139, R140, R148) -/

/-- The oldest sequence number: of the oldest record, or the next one for an empty ring (R139). -/
def State.oldestSeq (s : State) : SeqNum :=
  match s.ring with
  | [] => s.nextSeq
  | r :: _ => r.seq

/-- Step 1 of an append: at 256 records the oldest leaves, and each cursor that named it moves to the new oldest with
LAG set (R140, R148). -/
def State.departOldest (s : State) : State :=
  match s.ring with
  | [] => s
  | old :: rest =>
    if s.ring.length < Config.ringCapacity then s
    else
      let s1 : State := { s with ring := rest }
      s1.mapPorts (fun _ q => if q.sub = some old.seq then { q with sub := some s1.oldestSeq }.raise .lag else q)

/-- A change record is appended: departure, append, notice to every subscribed port (R140). -/
def State.append (s : State) (b : ChangeBody) : State :=
  let s1 := s.departOldest
  let s2 : State := { s1 with ring := s1.ring ++ [{ seq := s1.nextSeq, body := b }], nextSeq := s1.nextSeq + 1 }
  s2.mapPorts (fun _ q => if q.sub.isSome then q.raise .changes else q)

/-- A point-level record (Table 7.2). -/
def pointChange (kind : RecordKind) (l : Loc) (old new : Option Condition) (cause : Cause) (doneBy : Option Sender)
    (serial : Option Serial) : ChangeBody :=
  { kind, bay := some l.bay, point := some l.point, old := old.map .cond, new := new.map .cond, cause, doneBy, serial }

/-- A CONDITION record (R77). -/
def conditionChange (l : Loc) (old new : Condition) (cause : Cause) (doneBy : Option Sender) : ChangeBody :=
  pointChange .condition l (some old) (some new) cause doneBy none

/-- A record that carries the point's condition as old value and no new value (ACK, ISOLATE, RESTORE, SUPPRESSED,
LATE-FAULT, BATTERY, WITHDRAW; Table 7.2). -/
def markChange (kind : RecordKind) (l : Loc) (old : Condition) (cause : Cause) (doneBy : Sender) : ChangeBody :=
  pointChange kind l (some old) none cause (some doneBy) none

/-- A MODE record: bay-level (R88). -/
def modeChange (b : Bay) (old new : ModeName) (cause : Cause) (doneBy : Option Sender) : ChangeBody :=
  { kind := .mode, bay := some b, point := none, old := some (.mode old), new := some (.mode new), cause, doneBy,
    serial := none }

/-- A device-level record (STRAY-ALARM, REWARM, LOCK; Table 7.2). -/
def deviceChange (kind : RecordKind) (cause : Cause) (doneBy : Sender) (serial : Option Serial) : ChangeBody :=
  { kind, bay := none, point := none, old := none, new := none, cause, doneBy := some doneBy, serial }

/-- The records waiting for a ring cursor (R143). -/
def State.waiting (s : State) (cursor : SeqNum) : Nat := (s.nextSeq - cursor).toNat

/-- A sequence number lies in the window of the ring (R139). -/
def State.inWindow (s : State) (n : SeqNum) : Bool := (n - s.oldestSeq).toNat ≤ s.ring.length

/-- The subscription of a port is set (R143). -/
def State.setSub (s : State) (p : Port) (sub : Option SeqNum) : State := s.setPort p { s.port p with sub := sub }

/-! ### Snapshot store (R156, R160) -/

/-- While COPYING, a location of the range that is not yet marked copied (R160). -/
def State.needsCopy (s : State) (l : Loc) : Bool :=
  match s.snap with
  | .copying _ _ _ _ => s.snapFirst ≤ l.bay && l.bay ≤ s.snapLast && (s.snapRecords.find l.key).isNone
  | .idle => false
  | .ready _ _ _ _ => false

/-- The location's present content is copied into its snapshot record, which is marked copied (R156, R161). -/
def State.copyIn (s : State) (l : Loc) (bad : Bool) : State :=
  { s with snapRecords := s.snapRecords.insert l.key { bad, content := s.content l } }

/-- The snapshot returns to IDLE: owner, mark, start count, copy position and keep timer are removed, every snapshot
record discarded (R156). -/
def State.snapEnd (s : State) : State := { s with snap := .idle, snapRecords := [] }

/-- The owner of the snapshot (Table 8.1). -/
def SnapState.owner : SnapState → Option Port
  | .idle => none
  | .copying o _ _ _ => some o
  | .ready o _ _ _ => some o

/-! ### Stray list (R54, R55, R57) -/

/-- A report that reaches the stray step is recorded (R55). -/
def State.strayHear (s : State) (r : Report) : State :=
  let count : Byte := match s.strays.find? (fun e => e.serial = r.serial) with
    | some e => if e.count = 255 then 255 else e.count + 1
    | none => 1
  let rest := s.strays.filter (fun e => e.serial ≠ r.serial)
  let entry : Stray :=
    { serial := r.serial, sender := r.sender, margin := r.margin, count := count, lastKind := r.kind }
  { s with strays := entry :: rest.take (Config.strayCapacity - 1) }

/-- The entry of a serial leaves the stray list (R57). -/
def State.strayDrop (s : State) (n : Serial) : State := { s with strays := s.strays.filter (fun e => e.serial ≠ n) }

/-! ### Poll queues (R111, R113, R115) -/

/-- The queue of a sender holds an item for a location. -/
def State.pollHas (s : State) (n : Sender) (l : Loc) : Bool := (s.polls.get n).any (fun i => i.loc = l)

/-- An item is added at the tail of a sender's queue when the queue holds none for the location and has room, and
POLLS is set on every port whose bound set holds the sender (R111, R115). -/
def State.pollAdd (s : State) (n : Sender) (i : PollItem) : State :=
  if s.pollHas n i.loc then s
  else if (s.polls.get n).length < Config.pollCapacity then
    let s1 : State := { s with polls := s.polls.set n (s.polls.get n ++ [i]) }
    s1.raiseWhere (fun p => (s.bound.get p).has n) .polls
  else s

/-- Every poll item for a location is removed from all seven queues (R65). -/
def State.pollsDrop (s : State) (l : Loc) : State :=
  { s with polls := s.polls.map (fun q => q.filter (fun i => i.loc ≠ l)) }

/-- The first `k` items leave the queue of a sender (R116). -/
def State.pollsTake (s : State) (n : Sender) (k : Nat) : State :=
  { s with polls := s.polls.set n ((s.polls.get n).drop k) }

/-! ### Hold unit (R123, R129) -/

/-- The report is placed at the tail of the deferral queue, to wait for a bay (R130). -/
def State.defer (s : State) (r : Report) (b : Bay) : State :=
  { s with deferrals := s.deferrals ++ [{ report := r, bay := b }] }

/-- The oldest entry that waits for a bay is taken out of the deferral queue (R133). -/
def State.undefer (s : State) (b : Bay) : State := { s with deferrals := s.deferrals.eraseP (fun d => d.bay = b) }

/-- The hold record of a port is written or removed. -/
def State.setHold (s : State) (p : Port) (h : Option Hold) : State := { s with holds := s.holds.set p h }

/-! ### Bay table -/

/-- The owed-visit mark of a bay is written (R107). -/
def State.setOwed (s : State) (b : Bay) (owed : Bool) : State := s.setBay b { s.bay b with owed := owed }

/-- The mode of a bay is written (R88). -/
def State.setMode (s : State) (b : Bay) (m : BayMode) : State := s.setBay b { s.bay b with mode := m }

/-- The partner of a bay is written (R37). -/
def State.setPartner (s : State) (b : Bay) (q : Option Bay) : State := s.setBay b { s.bay b with partner := q }

/-! ### Timers -/

/-- One unit end at a running timer: the count goes down by one; when it would reach 0 the timer has run out, and
its expiry is an event still to be taken (R92, R125, R166; log 6). -/
def Countdown.tick (t : Countdown) : Countdown :=
  if t.left ≤ 1 then { t with runOut := true } else { t with left := t.left - 1 }

/-- A timer started at a length. -/
def Countdown.start (n : Nat) : Countdown := { left := n, runOut := false }

end Machine
end Sys2Proof
end

