-- ==== Sys2Proof/Machine/Integrity.lean ====
section
/-! DEFINITION. Record integrity (Chapter 9), copy-before-write (R160, R161) and the lookup of a serial (R19). -/

namespace Sys2Proof

/-- The content rebuilt by the handling of a failure: steps 2, 4, 5 and 7 of R171. ALARM and FAULT(INTEGRITY) are
kept with their acknowledgement; every other condition enters FAULT(INTEGRITY). -/
def PointContent.rebuilt (c : PointContent) : PointContent :=
  let c1 : PointContent := { c with suspect := true, links := [], lastSeq := none }
  if c.condition = .alarm ∨ c.condition = .fault .integrity then c1 else c1.entering (.fault .integrity)

namespace Machine

/-- An INTEGRITY record (R142). -/
def integrityChange (l : Loc) (old new : Condition) : ChangeBody :=
  pointChange .integrity l (some old) (some new) .integrity none none

/-- The verification of an enrolled record: its check code holds; the map names its location with its serial when it
is not suspect, and does not name its location when it is (R170). -/
def State.verified (s : State) (l : Loc) : Bool :=
  match s.points.find l.key with
  | none => true
  | some r =>
    r.codeHolds &&
      (if r.content.suspect then (s.mappedAt l).isNone else s.mappedAt l == some r.content.serial.toNat)

/-- The handling of a failed record (R171): the content as found is copied and marked BAD where a snapshot needs it,
the map entry and the poll items of the location are removed, the INTEGRITY record is appended, and the rebuilt content
is written with a fresh check code. -/
def State.handleFailure (s : State) (l : Loc) : State :=
  match s.content l with
  | none => s
  | some c =>
    let s1 := if s.needsCopy l then s.copyIn l true else s
    (((s1.mapDrop l).pollsDrop l).append (integrityChange l c.condition c.rebuilt.condition)).writePoint l c.rebuilt

/-- Copy-before-write (R160): where a snapshot still needs the location it is copied first. A copy of an enrolled
record verifies it; a failure is copied as found, marked BAD and handled (R161, R173). -/
def State.copyBefore (s : State) (l : Loc) : State :=
  if s.needsCopy l then
    if s.verified l then s.copyIn l false else s.handleFailure l
  else s

/-- The verification a visit or a read makes, with the handling of a failure (R170, R171). -/
def State.verify (s : State) (l : Loc) : State := if s.verified l then s else s.handleFailure l

/-- What a lookup finds (R19). -/
inductive Found
  | nothing
  | at (l : Loc)
  | failed (l : Loc)
deriving DecidableEq, Repr

/-- The lookup of a serial (R19): the record of the map entry is verified, and a failure is handled. An entry that
names a location that is not enrolled resolves nothing (no run reaches one; log 16). -/
def State.lookup (s : State) (n : Serial) : State × Found :=
  match s.enrolMap.find n.toNat with
  | none => (s, .nothing)
  | some l =>
    match s.points.find l.key with
    | none => (s, .nothing)
    | some r =>
      if r.codeHolds && !r.content.suspect && r.content.serial == n then (s, .at l)
      else (s.handleFailure l, .failed l)

end Machine
end Sys2Proof
end

