-- ==== Sys2Proof/Machine/Conditions.lean ====
section
/-! DEFINITION. The condition engine (Chapter 4): the effect of an applied report (Table 4.2), confirmation,
coincidence and bay modes. -/

namespace Sys2Proof

/-- SMOKE and MULTI points need confirmation and are suppressed in WORKS (R5, R70, R89). -/
def PointKind.smokeType : PointKind → Bool
  | .smoke => true
  | .multi => true
  | .heat => false
  | .call => false

/-- A point that an entry to ALARM promotes: in PENDING, not isolated (R86), and not suspect (R87, Table 9.3). -/
def PointContent.promotable (c : PointContent) : Bool := c.condition == .pending && c.isolation.isNone && !c.suspect

/-- The content on entry to ALARM: no confirmation, no acknowledgement, clear-seen cleared (R12, R76, R79). -/
def PointContent.toAlarm (c : PointContent) : PointContent := { c.entering .alarm with clearSeen := false }

namespace Machine

/-- What the merger hands over to the engine (R66): the report kinds, DEVFAULT and REMOVED with the fault cause they
carry. -/
inductive Handover
  | status | prealarm | alarm | cleared
  | fault (cause : FaultCause)
deriving DecidableEq, Repr

/-- The bays of the coincidence set of a bay: itself and its partner (R84), lowest number first. -/
def State.coincidenceBays (s : State) (b : Bay) : List Bay :=
  Bay.all.filter (fun x => x = b ∨ some x = (s.bay b).partner)

/-- The locations of the coincidence set of a bay in bay-major order. -/
def State.coincidenceLocs (s : State) (b : Bay) : List Loc := (s.coincidenceBays b).flatMap Bay.locs

/-- A point holds coincidence when it is enrolled, not isolated, and in PENDING or ALARM (R84). DESIGN CHOICE, log 29: its
suspect mark is not consulted. Only a storage upset can set the mark on a PENDING point; R84 to the letter lets such a
point hold coincidence, and Table 9.3 says of a suspect point only that it holds it while in ALARM. -/
def State.holdsCoincidence (s : State) (l : Loc) : Bool :=
  match s.content l with
  | none => false
  | some c => c.isolation.isNone && (c.condition == .pending || c.condition == .alarm)

/-- A change of the point's condition by the engine with its CONDITION record (R76, R77). -/
def State.enterCondition (s : State) (l : Loc) (c : PointContent) (new : PointContent) (cause : Cause)
    (doneBy : Option Sender) : State :=
  (s.writePoint l new).append (conditionChange l c.condition new.condition cause doneBy)

/-- One point at a promotion: copied first where it is to be promoted, and promoted if the copy left it so (R86, R87, R173). -/
def State.promoteOne (s : State) (entering : Loc) (doneBy : Sender) (l : Loc) : State :=
  if l = entering then s
  else match s.content l with
    | none => s
    | some c =>
      if c.promotable then
        let s1 := s.copyBefore l
        match s1.content l with
        | none => s1
        | some c1 => if c1.promotable then s1.enterCondition l c1 c1.toAlarm .coincidence (some doneBy) else s1
      else s

/-- The PENDING points of the coincidence set that are neither isolated nor suspect enter ALARM, in bay-major order (R86,
R87). -/
def State.promoteSet (s : State) (entering : Loc) (doneBy : Sender) : State :=
  (s.coincidenceLocs entering.bay).foldl (fun s l => s.promoteOne entering doneBy l) s

/-- A point enters ALARM by an applied report, and unless it is isolated the set is promoted (R86). -/
def State.enterAlarm (s : State) (l : Loc) (c : PointContent) (cause : Cause) (doneBy : Sender) : State :=
  let s1 := s.enterCondition l c c.toAlarm cause (some doneBy)
  if c.isolation.isNone then s1.promoteSet l doneBy else s1

/-- The confirmation window at entry to PENDING, by the mode of the point's bay (R80). A bay in WORKS sees no entry. -/
def State.confirmWindow (s : State) (b : Bay) : Count :=
  match (s.bay b).mode with
  | .service _ => BitVec.ofNat 32 (s.timing.confirmService.toNat * Config.unitsPerSecond)
  | .normal => BitVec.ofNat 32 (s.timing.confirmNormal.toNat * Config.unitsPerSecond)
  | .works => BitVec.ofNat 32 (s.timing.confirmNormal.toNat * Config.unitsPerSecond)

/-- A point is about to enter PENDING: into ALARM by coincidence where another point of its set holds coincidence and
it is not isolated (R85), else into PENDING with its confirmation field (R80). -/
def State.enterPending (s : State) (l : Loc) (c : PointContent) (doneBy : Sender) : State :=
  if c.isolation.isNone && (s.coincidenceLocs l.bay).any (fun x => x ≠ l && s.holdsCoincidence x) then
    s.enterAlarm l c .coincidence doneBy
  else
    let field : Confirmation := { start := s.count, deadline := s.count + s.confirmWindow l.bay }
    s.enterCondition l c { c.entering .pending with confirmation := some field } .report (some doneBy)

/-- The confirm test: at least the confirm gap since the start of PENDING (R81). -/
def State.confirmed (s : State) (c : PointContent) : Bool :=
  match c.confirmation with
  | some f => Config.confirmGap ≤ (unitsBetween f.start s.count).toNat
  | none => false

/-- An ALARM report applied by Table 4.2 (R72, R73, R81). -/
def State.applyAlarm (s : State) (l : Loc) (c : PointContent) (doneBy : Sender) : State :=
  match c.condition with
  | .alarm => s.writePoint l { c with clearSeen := false }
  | .pending =>
    if c.kind.smokeType then (if s.confirmed c then s.enterAlarm l c .report doneBy else s)
    else s.enterAlarm l c .report doneBy
  | .unheard | .quiet | .watch | .fault _ | .missing =>
    if c.kind.smokeType then s.enterPending l c doneBy else s.enterAlarm l c .report doneBy

/-- A STATUS report applied by Table 4.2 (R71). -/
def State.applyStatus (s : State) (l : Loc) (c : PointContent) (doneBy : Sender) : State :=
  match c.condition with
  | .unheard | .fault _ | .missing => s.enterCondition l c (c.entering .quiet) .report (some doneBy)
  | .quiet | .watch | .pending | .alarm => s

/-- A PREALARM report applied by Table 4.2 (R71). -/
def State.applyPrealarm (s : State) (l : Loc) (c : PointContent) (doneBy : Sender) : State :=
  match c.condition with
  | .unheard | .quiet | .fault _ | .missing => s.enterCondition l c (c.entering .watch) .report (some doneBy)
  | .watch | .pending | .alarm => s

/-- A CLEARED report applied by Table 4.2 (R74). -/
def State.applyCleared (s : State) (l : Loc) (c : PointContent) (doneBy : Sender) : State :=
  match c.condition with
  | .unheard | .watch | .pending | .missing => s.enterCondition l c (c.entering .quiet) .report (some doneBy)
  | .alarm => s.writePoint l { c with clearSeen := true }
  | .quiet | .fault _ => s

/-- A DEVFAULT or REMOVED report applied by Table 4.2 with the cause it carries (R75). -/
def State.applyFault (s : State) (l : Loc) (c : PointContent) (cause : FaultCause) (doneBy : Sender) : State :=
  match c.condition with
  | .unheard | .quiet | .watch | .missing => s.enterCondition l c (c.entering (.fault cause)) .report (some doneBy)
  | .fault old => if old = cause then s else s.enterCondition l c (c.entering (.fault cause)) .report (some doneBy)
  | .pending | .alarm => s.append (markChange .lateFault l c.condition .report doneBy)

/-- An ALARM or PREALARM for a SMOKE or MULTI point in a bay in WORKS is suppressed (R89). -/
def State.suppresses (s : State) (l : Loc) (c : PointContent) (h : Handover) : Bool :=
  c.kind.smokeType && (s.bay l.bay).mode == .works && (h == .alarm || h == .prealarm)

/-- One application of a handed-over report to the point as it stands (R70). -/
def State.applyHandover (s : State) (l : Loc) (h : Handover) (doneBy : Sender) : State :=
  match s.content l with
  | none => s
  | some c =>
    if s.suppresses l c h then s.append (markChange .suppressed l c.condition .report doneBy)
    else match h with
      | .status => s.applyStatus l c doneBy
      | .prealarm => s.applyPrealarm l c doneBy
      | .alarm => s.applyAlarm l c doneBy
      | .cleared => s.applyCleared l c doneBy
      | .fault cause => s.applyFault l c cause doneBy

/-- The handover of a report kind (R66). -/
def ReportKind.handover : ReportKind → Handover
  | .status => .status
  | .prealarm => .prealarm
  | .alarm => .alarm
  | .cleared => .cleared
  | .devfault => .fault .device
  | .removed => .fault .removed

/-- What a report's kind and battery class hand over, in order (R66). -/
def handovers (k : ReportKind) (b : Battery) : List Handover :=
  match k, b with
  | .status, .critical => [.fault .battery]
  | k, .critical => [k.handover, .fault .battery]
  | k, .good => [k.handover]
  | k, .low => [k.handover]

/-- A PENDING point sent to QUIET by a SET-MODE to WORKS: copied first, passed over where it is no longer PENDING
(R91, R173). The expiry of its confirmation timer does the same with its own cause and by (R82). -/
def State.pendingToQuiet (s : State) (l : Loc) (cause : Cause) (doneBy : Option Sender) : State :=
  match s.content l with
  | none => s
  | some c =>
    if c.condition = .pending then
      let s1 := s.copyBefore l
      match s1.content l with
      | none => s1
      | some c1 => if c1.condition = .pending then s1.enterCondition l c1 (c1.entering .quiet) cause doneBy else s1
    else s

end Machine
end Sys2Proof
end

