-- ==== Sys2Proof/Machine/Reports.lean ====
section
/-! DEFINITION. The report merger (Chapter 3): the stray step, the sequence test and the application of a report. -/

namespace Sys2Proof.Machine

/-- The classes of the sequence test (Table 3.3). -/
inductive SeqClass
  | accepted | duplicate | stale
deriving DecidableEq, Repr

/-- The sequence test: by the difference of the report's sequence and the last one modulo 256 (R59). -/
def seqClass (last : Option Byte) (sequence : Byte) : SeqClass :=
  match last with
  | none => .accepted
  | some n =>
    let d := (sequence - n).toNat
    if d = 0 then .duplicate else if d ≤ 127 then .accepted else .stale

/-- The outcome of a class (R59). -/
def SeqClass.result : SeqClass → Result
  | .accepted => .accepted
  | .duplicate => .duplicate
  | .stale => .stale

/-- The stray step: the report is recorded, and an ALARM appends STRAY-ALARM and sets STRAY on every port (R55,
R56). -/
def State.strayStep (s : State) (r : Report) : State :=
  let s1 := s.strayHear r
  if r.kind = .alarm then
    (s1.append (deviceChange .strayAlarm .report r.sender (some r.serial))).raiseAll .stray
  else s1

/-- The fields that steps 2 to 5 of R60 write, the sweep period being in force at the report's time (R61, R62). -/
def acceptedContent (t : Timing) (r : Report) (c : PointContent) : PointContent :=
  { c with
    lastSeq := some r.sequence, age := 0,
    heardStopped := c.heardStopped || t.sweepPeriod == 0,
    battery := some r.battery,
    links := updateLinks r.sender r.margin c.links }

/-- A BATTERY record is appended when the field was present and held another class (R61). -/
def State.batteryRecord (s : State) (l : Loc) (c : PointContent) (r : Report) : State :=
  match c.battery with
  | some b => if b = r.battery then s else s.append (markChange .battery l c.condition .report r.sender)
  | none => s

/-- An ACCEPTED report applied to its point (R60), the copy made first. -/
def State.applyAccepted (s : State) (l : Loc) (r : Report) : State :=
  let s1 := s.copyBefore l
  match s1.content l with
  | none => s1
  | some c =>
    let s2 := ((s1.batteryRecord l c r).writePoint l (acceptedContent s1.timing r c)).pollsDrop l
    (handovers r.kind r.battery).foldl (fun s h => s.applyHandover l h r.sender) s2

/-- A DUPLICATE report applied to its point: age, links and polls alone (R63). -/
def State.applyDuplicate (s : State) (l : Loc) (r : Report) : State :=
  let s1 := s.copyBefore l
  match s1.content l with
  | none => s1
  | some c => (s1.writePoint l { c with age := 0, links := updateLinks r.sender r.margin c.links }).pollsDrop l

/-- The sequence test of a report for a known serial at its location, and its application (R59, R60, R63, R64). -/
def State.sequenceStep (s : State) (l : Loc) (r : Report) : State × Result :=
  match s.content l with
  | none => (s, .stale)
  | some c =>
    let k := seqClass c.lastSeq r.sequence
    (match k with
      | .accepted => s.applyAccepted l r
      | .duplicate => s.applyDuplicate l r
      | .stale => s, k.result)

end Sys2Proof.Machine
end

