-- ==== Sys2Proof/Machine/Supervision.lean ====
section
/-! DEFINITION. The supervision sweep (Chapter 5): the visit to a bay, the MISSING rule, the poll rule, the sweep step
and the re-warm. -/

namespace Sys2Proof.Machine

/-- The MISSING rule holds: not suspect, old enough, and in a condition the rule takes (R110, Table 5.1). -/
def missingDue (t : Timing) (c : PointContent) : Bool :=
  !c.suspect && t.missingAge.toNat ≤ c.age.val &&
    (match c.condition with
      | .unheard => true
      | .quiet => true
      | .watch => true
      | .fault .device => true
      | .fault .removed => true
      | .fault .battery => true
      | .fault .integrity => false
      | .pending => false
      | .alarm => false
      | .missing => false)

/-- The content on entry to MISSING: fault cause, last sequence and acknowledgement removed (R110). -/
def toMissing (c : PointContent) : PointContent := { c.entering .missing with lastSeq := none }

/-- The poll targets: the sender of the best link, or every sender that holds RADIO in the area (R111). -/
def State.pollTargets (s : State) (l : Loc) (c : PointContent) : List Sender :=
  match c.links with
  | k :: _ => [k.sender]
  | [] => Sender.all.filter (fun n => s.may n .radio l.bay.area)

/-- The poll item of a point at step 5 of a visit (R112). -/
def pollItemOf (l : Loc) (c : PointContent) : PollItem :=
  { loc := l, serial := c.serial, ageAtEntry := c.age,
    reason := if c.condition = .unheard then .first else .overdue }

/-- The poll rule (R111). -/
def State.pollRule (s : State) (l : Loc) (c : PointContent) : State :=
  if !c.suspect && s.timing.pollAge.toNat ≤ c.age.val then
    (s.pollTargets l c).foldl (fun s n => s.pollAdd n (pollItemOf l c)) s
  else s

/-- Steps 2 to 5 of a visit to an enrolled point, its record checked (R108). -/
def State.agePoint (s : State) (l : Loc) (c : PointContent) : State :=
  let aged : PointContent := { c with age := ageUp c.age, links := agedLinks c.links }
  if missingDue s.timing aged then
    let gone := toMissing aged
    ((s.writePoint l gone).append (conditionChange l aged.condition .missing .sweep none)).pollRule l gone
  else (s.writePoint l aged).pollRule l aged

/-- A visit at one location: copied first, checked, then aged; a location not enrolled is passed over (R108, R109). -/
def State.visitPoint (s : State) (l : Loc) : State :=
  match s.content l with
  | none => s
  | some _ =>
    let s1 := (s.copyBefore l).verify l
    match s1.content l with
    | none => s1
    | some c => s1.agePoint l c

/-- The visit to a bay: its enrolled points in point order (R108). -/
def State.visitBay (s : State) (b : Bay) : State := b.locs.foldl State.visitPoint s

/-- A sweep step at the counter: the visit, the mark of an owed visit, or an empty step; then the counter goes on
(R106, R107). -/
def State.sweepStep (s : State) : State :=
  let b := s.counter
  let s1 :=
    if s.fitted b then (if s.held b then s.setOwed b true else s.visitBay b)
    else s
  { s1 with counter := b + 1 }

/-- The points that a re-warm puts to UNHEARD (R118). -/
def rewarms (c : PointContent) : Bool :=
  !c.suspect && c.condition != .pending && c.condition != .alarm && !c.heardStopped

/-- One location at a re-warm (R118), copied first, passed over where a failure has made it suspect (R173). -/
def State.rewarmPoint (s : State) (l : Loc) : State :=
  match s.content l with
  | none => s
  | some c =>
    if rewarms c then
      let s1 := s.copyBefore l
      match s1.content l with
      | none => s1
      | some c1 => if rewarms c1 then s1.writePoint l { c1.entering .unheard with age := 0 } else s1
    else s

/-- The heard-while-stopped mark of one location is cleared (R118); a record whose mark is clear is not written (log
15). -/
def State.clearHeard (s : State) (l : Loc) : State :=
  match s.content l with
  | none => s
  | some c =>
    if c.heardStopped then
      let s1 := s.copyBefore l
      match s1.content l with
      | none => s1
      | some c1 => s1.writePoint l { c1 with heardStopped := false }
    else s

/-- The enrolled locations, in bay-major order. -/
def State.enrolledLocs (s : State) : List Loc := Loc.all.filter (fun l => (s.content l).isSome)

/-- The re-warm at a restart of the sweep and its REWARM record (R118, R119). -/
def State.rewarm (s : State) (doneBy : Sender) : State :=
  let ls := s.enrolledLocs
  (ls.foldl State.clearHeard (ls.foldl State.rewarmPoint s)).append (deviceChange .rewarm .request doneBy none)

end Sys2Proof.Machine
end

