-- ==== Sys2Proof/Machine/Holds.lean ====
section
/-! DEFINITION. The end of a bay hold (R133) and the path of a report from its lookup on (R47, R68). -/

namespace Sys2Proof.Machine

/-- One deferred report at the drain (R68): taken out of the queue and carried on from the lookup. The ending hold of
`b` does not divert it again; a report now mapped to another held bay is handed to that bay's hold, for which the entry
removed leaves room (R133, log 23). -/
def State.drainOne (b : Bay) (s : State) (r : Report) : State :=
  let x := (s.undefer b).lookup r.serial
  match x.2 with
  | .nothing => x.1.strayStep r
  | .failed _ => x.1.strayStep r
  | .at l =>
    if !x.1.may r.sender .radio l.bay.area then x.1
    else if l.bay ≠ b && x.1.held l.bay then x.1.defer r l.bay
    else (x.1.sequenceStep l r).1

/-- The reports that wait for a bay, in arrival order. -/
def State.waitingFor (s : State) (b : Bay) : List Report :=
  (s.deferrals.filter (fun d => d.bay = b)).map (·.report)

/-- Step 1 of the end of a hold (R133). -/
def State.drain (s : State) (b : Bay) : State := (s.waitingFor b).foldl (State.drainOne b) s

/-- Step 2 of the end of a hold: the visit that the bay owes (R107, R133). -/
def State.owedVisit (s : State) (b : Bay) : State :=
  if (s.bay b).owed then (s.setOwed b false).visitBay b else s

/-- The end of the hold that a port owns on a bay: drain, owed visit, removal, and notice with a reason for an end by
expiry or by a break (R133, R134). -/
def State.endHold (s : State) (p : Port) (b : Bay) (reason : Option HoldEnd) : State :=
  let s1 := ((s.drain b).owedVisit b).setHold p none
  match reason with
  | none => s1
  | some e => (s1.setPort p { s1.port p with holdEnd := e }).raiseOn p .holdEnded

/-- The outcome of a report with the location its serial was resolved to (Table 3.1, R46). -/
structure ReportAnswer where
  result : Result
  loc : Option Loc
deriving DecidableEq, Repr

/-- The hold step and the sequence test of a REPORT (R52, R130, R131, R132). -/
def State.holdStep (s : State) (l : Loc) (r : Report) : State × ReportAnswer :=
  match s.holder l.bay with
  | none =>
    let x := s.sequenceStep l r
    (x.1, { result := x.2, loc := some l })
  | some p =>
    if r.kind = .alarm then
      let x := (s.endHold p l.bay (some .fireReport)).sequenceStep l r
      (x.1, { result := x.2, loc := some l })
    else if s.deferrals.length < Config.deferralCapacity then
      (s.defer r l.bay, { result := .deferred, loc := some l })
    else
      let x := (s.endHold p l.bay (some .deferralFull)).sequenceStep l r
      (x.1, { result := x.2, loc := some l })

/-- Steps 2 to 7 of R47, the range step passed. -/
def State.takeReport (s : State) (r : Report) : State × ReportAnswer :=
  if !s.mayAnywhere r.sender .radio then (s, { result := .masked, loc := none })
  else
    let x := s.lookup r.serial
    match x.2 with
    | .nothing => (x.1.strayStep r, { result := .unknown, loc := none })
    | .failed _ => (x.1.strayStep r, { result := .unknown, loc := none })
    | .at l =>
      if !x.1.may r.sender .radio l.bay.area then (x.1, { result := .masked, loc := none })
      else x.1.holdStep l r

end Sys2Proof.Machine
end

