-- ==== Sys2Proof/Machine/Grants.lean ====
section
/-! DEFINITION. The port arbiter and the grant of a request (R184, R185), and the tests that requests share (R30). -/

namespace Sys2Proof.Machine

/-- What a request is answered: an outcome and a payload. -/
structure Answer where
  result : Result
  payload : List Byte
deriving DecidableEq, Repr

/-- An outcome without a payload. -/
def Answer.bare (r : Result) : Answer := { result := r, payload := [] }

/-- DONE with a payload. -/
def Answer.doneWith (payload : List Byte) : Answer := { result := .done, payload }

/-- HELD with the holder's port (R127). -/
def Answer.heldBy (p : Port) : Answer := { result := .held, payload := [byteOf p.number] }

/-- The waiting request of a port. -/
def State.waitingRequest (s : State) (p : Port) : Option Request :=
  match (s.port p).slot with
  | .waiting r => some r
  | .empty => none
  | .done _ => none

/-- The ports in the order the arbiter searches: from the port after the last-granted one (R184). -/
def searchOrder (last : Port) : List Port := [last.next, last.next.next, last.next.next.next, last]

/-- The grant that the arbiter makes next: the first WAITING port in the search order (R184). -/
def State.nextGrant (s : State) : Option (Port × Request) :=
  (searchOrder s.lastGranted).findSome? (fun p => (s.waitingRequest p).map (fun r => (p, r)))

/-- The next grant, when the part is in service and the request granted is one of `code`. -/
def State.grantOf (s : State) (code : ReqCode) : Option (Port × Request) :=
  if s.inService then
    match s.nextGrant with
    | some (p, r) => if r.code = code then some (p, r) else none
    | none => none
  else none

/-- The arbiter's own effect of a grant: the last-granted port (R184), and the model's counter of draws (log 9). -/
def State.granting (s : State) (p : Port) : State := { s with lastGranted := p, draws := s.draws + 1 }

/-- The response is placed in the slot of the port, with the request's tag and code (R185). -/
def State.respond (s : State) (p : Port) (r : Request) (a : Answer) : State :=
  s.setPort p { s.port p with slot := .done { tag := r.tag, code := r.code.code, result := a.result, payload := a.payload } }

/-- A grant carried out whole: `body` is the request's own effect and answer (R185). Where the arbiter's next grant is
no request of this code, the command names an event that cannot take place, and nothing changes (log 2). -/
def State.grantRaw (s : State) (code : ReqCode) (body : Port → Request → State → State × Answer) : State :=
  match s.grantOf code with
  | none => s
  | some (p, r) =>
    let x := body p r (s.granting p)
    x.1.respond p r x.2

/-- A request's own effect with the FIRE event at its end (R101). -/
def settled (body : Port → Request → State → State × Answer) (p : Port) (r : Request) (s : State) : State × Answer :=
  let x := body p r s
  (s.settleFire x.1, x.2)

/-- A grant carried out whole, the FIRE event set where the event has raised the alarm count from 0. -/
def State.grant (s : State) (code : ReqCode) (body : Port → Request → State → State × Answer) : State :=
  s.grantRaw code (settled body)

/-- A request that changes nothing and is answered by the state it finds. -/
def reading (answer : Port → Request → State → Answer) (p : Port) (r : Request) (s : State) : State × Answer :=
  (s, answer p r s)

/-- Steps 2 to 5 of R30 for a request that names a bay and needs a group in its area: mask, lock where the lock acts on
the request, fitted, held by another port. `none` when the request passes. -/
def State.bayTests (s : State) (p : Port) (n : Sender) (g : Group) (lockActs : Bool) (b : Bay) : Option Answer :=
  if !s.may n g b.area then some (.bare .masked)
  else if lockActs && s.locked then some (.bare .locked)
  else if !s.fitted b then some (.bare .range)
  else match s.heldByOther p b with
    | some q => some (.heldBy q)
    | none => none

/-- Steps 2 and 3 of R30 for a request that needs COMMISSION in all four areas and that the lock refuses. -/
def State.storeTests (s : State) (n : Sender) : Option Answer :=
  if !s.mayEverywhere n .commission then some (.bare .masked)
  else if s.locked then some (.bare .locked)
  else none

end Sys2Proof.Machine
end

