-- ==== Sys2Proof/Machine/CommissionRequests.lean ====
section
/-! DEFINITION. The commissioning requests (Chapters 2 and 9): ENROL, WITHDRAW, REPAIR, SET-BAY, BIND-SENDERS,
SET-MASK, SET-TIMING, LOCK, SWEEP-STEP, CLEAR-STRAYS, and PORT-RESET. -/

namespace Sys2Proof.Machine

/-- The content of a new enrolment (R34). -/
def enrolledContent (n : Serial) (k : PointKind) : PointContent :=
  { serial := n, kind := k, condition := .unheard, suspect := false, lastSeq := none, age := 0, heardStopped := false,
    battery := none, links := [], ack := none, isolation := none, confirmation := none, clearSeen := false }

/-- The effect of an ENROL that has passed its tests (R34). -/
def State.enrol (s : State) (l : Loc) (n : Serial) (k : PointKind) (doneBy : Sender) : State :=
  ((((s.copyBefore l).writePoint l (enrolledContent n k)).mapAdd n l).strayDrop n).append
    (pointChange .enrol l none (some .unheard) .request (some doneBy) (some n))

/-- ENROL (R33, R34). -/
def enrolBody (p : Port) (r : Request) (s : State) : State × Answer :=
  match r.loc?, r.serial? 2, PointKind.ofByte? (r.op 5) with
  | some l, some n, some k =>
    (match s.bayTests p r.sender .commission true l.bay with
      | some a => (s, a)
      | none =>
        if (s.content l).isSome then (s, .bare .state)
        else if s.mapsSerial n then (s, .bare .duplicateSerial)
        else (s.enrol l n k r.sender, .bare .done))
  | _, _, _ => (s, .bare .range)

/-- The effect of a WITHDRAW that has passed its tests (R36), copy-before-write first (R173). -/
def State.withdraw (s : State) (l : Loc) (doneBy : Sender) : State :=
  let s1 := s.copyBefore l
  match s1.content l with
  | none => s1
  | some c =>
    (((s1.mapDrop l).pollsDrop l).erasePoint l).append (markChange .withdraw l c.condition .request doneBy)

/-- WITHDRAW (R35, R36). -/
def withdrawBody (p : Port) (r : Request) (s : State) : State × Answer :=
  match r.loc? with
  | none => (s, .bare .range)
  | some l =>
    match s.bayTests p r.sender .commission true l.bay with
    | some a => (s, a)
    | none =>
      match s.content l with
      | none => (s, .bare .absent)
      | some c =>
        if c.condition = .pending ∨ c.condition = .alarm then (s, .bare .state)
        else (s.withdraw l r.sender, .bare .done)

/-- The content on a REPAIR: steps 2 to 5 of R176. -/
def repairedContent (n : Serial) (k : PointKind) (c : PointContent) : PointContent :=
  let c1 : PointContent := { c with serial := n, kind := k, suspect := false, age := 0, lastSeq := none, links := [] }
  if c.condition = .alarm then c1 else c1.entering .unheard

/-- The effect of a REPAIR that has passed its tests (R176). -/
def State.repair (s : State) (l : Loc) (n : Serial) (k : PointKind) (doneBy : Sender) : State × Answer :=
  let s1 := s.copyBefore l
  match s1.content l with
  | none => (s1, .bare .absent)
  | some c =>
    let new := repairedContent n k c
    ((((s1.writePoint l new).mapAdd n l).strayDrop n).append
        (pointChange .repair l (some c.condition) (some new.condition) .request (some doneBy) (some n)),
      .doneWith [new.condition.code])

/-- REPAIR (R175, R176). The lock does not act on it. -/
def repairBody (p : Port) (r : Request) (s : State) : State × Answer :=
  match r.loc?, r.serial? 2, PointKind.ofByte? (r.op 5) with
  | some l, some n, some k =>
    (match s.bayTests p r.sender .commission false l.bay with
      | some a => (s, a)
      | none =>
        match s.content l with
        | none => (s, .bare .absent)
        | some c =>
          if !c.suspect then (s, .bare .state)
          else if s.mapsSerial n then (s, .bare .duplicateSerial)
          else s.repair l n k r.sender)
  | _, _, _ => (s, .bare .range)

/-- The bays whose records a SET-BAY concerns: the bay, the partner named, and the present partners of both (R37). -/
def State.concernedBays (s : State) (b : Bay) (q : Option Bay) : List Bay :=
  [some b, q, (s.bay b).partner, q.bind (fun x => (s.bay x).partner)].filterMap id

/-- The lowest-numbered concerned bay that another port holds, by its holder (R127, log 14). -/
def State.pairingHeld (s : State) (p : Port) (b : Bay) (q : Option Bay) : Option Port :=
  Bay.all.findSome? (fun x => if (s.concernedBays b q).contains x then s.heldByOther p x else none)

/-- The present partner of a bay is left with no partner, and the bay too (R37). -/
def State.unpair (s : State) (b : Bay) : State :=
  match (s.bay b).partner with
  | none => s
  | some x => (s.setPartner x none).setPartner b none

/-- The effect of a SET-BAY that has passed its tests (R37). -/
def State.pair (s : State) (b : Bay) (q : Option Bay) : State :=
  match q with
  | none => s.unpair b
  | some x =>
    if (s.bay b).partner = some x then s
    else (((s.unpair b).unpair x).setPartner b (some x)).setPartner x (some b)

/-- Steps 2 to 5 of R30 for SET-BAY (R37). -/
def State.pairTests (s : State) (p : Port) (n : Sender) (b : Bay) (q : Option Bay) : Option Answer :=
  if !s.may n .commission b.area || q.any (fun x => !s.may n .commission x.area) then some (.bare .masked)
  else if s.locked then some (.bare .locked)
  else if !s.fitted b || q.any (fun x => !s.fitted x) then some (.bare .range)
  else (s.pairingHeld p b q).map Answer.heldBy

/-- SET-BAY (R37). -/
def setBayBody (p : Port) (r : Request) (s : State) : State × Answer :=
  match Bay.ofByte? (r.op 0), partnerOfByte? (r.op 1) with
  | some b, some q =>
    if q = some b then (s, .bare .range)
    else (match s.pairTests p r.sender b q with
      | some a => (s, a)
      | none => (s.pair b q, .bare .done))
  | _, _ => (s, .bare .range)

/-- BIND-SENDERS (R31): a set with bit 0 is out of range. -/
def bindSendersBody (_ : Port) (r : Request) (s : State) : State × Answer :=
  match Port.ofByte? (r.op 0) with
  | none => (s, .bare .range)
  | some q =>
    if (r.op 1).getLsbD 0 then (s, .bare .range)
    else match s.storeTests r.sender with
      | some a => (s, a)
      | none => ({ s with bound := s.bound.set q (r.op 1) }, .bare .done)

/-- SET-MASK (R32). -/
def setMaskBody (_ : Port) (r : Request) (s : State) : State × Answer :=
  match Sender.ofByte? (r.op 0), Area.ofByte? (r.op 1) with
  | some n, some a =>
    if 32 ≤ (r.op 2).toNat then (s, .bare .range)
    else (match s.storeTests r.sender with
      | some x => (s, x)
      | none =>
        ({ s with masks := s.masks.set n ((s.masks.get n).set a ((r.op 2).setWidth 5)) }, .bare .done))
  | _, _ => (s, .bare .range)

/-- The effect of a SET-TIMING that has passed its tests: all eight settings replaced, the prescaler cleared, and a
re-warm at a restart (R39, R40, R118). -/
def State.retime (s : State) (t : Timing) (doneBy : Sender) : State :=
  let s1 : State := { s with timing := t, prescaler := 0 }
  if s.timing.sweepPeriod = 0 ∧ t.sweepPeriod ≠ 0 then s1.rewarm doneBy else s1

/-- SET-TIMING (R39). -/
def setTimingBody (_ : Port) (r : Request) (s : State) : State × Answer :=
  if !r.timing.inRange then (s, .bare .range)
  else match s.storeTests r.sender with
    | some a => (s, a)
    | none => (s.retime r.timing r.sender, .bare .done)

/-- LOCK (R43). -/
def lockBody (_ : Port) (r : Request) (s : State) : State × Answer :=
  match s.storeTests r.sender with
  | some a => (s, a)
  | none => ({ s with locked := true }.append (deviceChange .lock .request r.sender none), .bare .done)

/-- SWEEP-STEP (R120). -/
def sweepStepBody (_ : Port) (r : Request) (s : State) : State × Answer :=
  match s.storeTests r.sender with
  | some a => (s, a)
  | none =>
    if s.timing.sweepPeriod ≠ 0 then (s, .bare .state)
    else (s.sweepStep, .doneWith [byteOf s.counter.val])

/-- CLEAR-STRAYS (R42). -/
def clearStraysBody (_ : Port) (r : Request) (s : State) : State × Answer :=
  match s.storeTests r.sender with
  | some a => (s, a)
  | none => ({ s with strays := [] }, .bare .done)

/-- The port's own state after PORT-RESET: unsubscribed, no flag, all nine events in the mask, reason NONE, cursor
(0,0) (R155, R186). -/
def PortState.afterReset (q : PortState) : PortState :=
  { q with sub := none, flags := 0, mask := 0x1FF, holdEnd := .none, cursor := ⟨0, 0⟩ }

/-- The first two steps of PORT-RESET: the port's own hold ends, then its own snapshot (R135, R167, R186). -/
def State.endOwned (s : State) (p : Port) : State :=
  let s1 := match s.hold p with
    | some h => s.endHold p h.bay none
    | none => s
  if s1.snap.owner = some p then s1.snapEnd else s1

/-- PORT-RESET (R186). A FIRE event that the end of the hold sets comes before the port's flags are emptied (log 22). -/
def portResetBody (p : Port) (_ : Request) (s : State) : State × Answer :=
  let s1 := s.settleFire (s.endOwned p)
  (s1.setPort p (s1.port p).afterReset, .bare .done)

/-- ENROL. -/
def execEnrol (s : State) : Host.Outcome State Fault Refusal := .next (s.grant .enrol enrolBody)
/-- WITHDRAW. -/
def execWithdraw (s : State) : Host.Outcome State Fault Refusal := .next (s.grant .withdraw withdrawBody)
/-- REPAIR. -/
def execRepair (s : State) : Host.Outcome State Fault Refusal := .next (s.grant .repair repairBody)
/-- SET_BAY. -/
def execSetBay (s : State) : Host.Outcome State Fault Refusal := .next (s.grant .setBay setBayBody)
/-- BIND_SENDERS. -/
def execBindSenders (s : State) : Host.Outcome State Fault Refusal := .next (s.grant .bindSenders bindSendersBody)
/-- SET_MASK. -/
def execSetMask (s : State) : Host.Outcome State Fault Refusal := .next (s.grant .setMask setMaskBody)
/-- SET_TIMING. -/
def execSetTiming (s : State) : Host.Outcome State Fault Refusal := .next (s.grant .setTiming setTimingBody)
/-- LOCK. -/
def execLock (s : State) : Host.Outcome State Fault Refusal := .next (s.grant .lock lockBody)
/-- SWEEP_STEP. -/
def execSweepStep (s : State) : Host.Outcome State Fault Refusal := .next (s.grant .sweepStep sweepStepBody)
/-- CLEAR_STRAYS. -/
def execClearStrays (s : State) : Host.Outcome State Fault Refusal := .next (s.grant .clearStrays clearStraysBody)
/-- PORT_RESET. -/
def execPortReset (s : State) : Host.Outcome State Fault Refusal := .next (s.grantRaw .portReset portResetBody)

end Sys2Proof.Machine
end

