-- ==== Sys2Proof/Machine/HoldRequests.lean ====
section
/-! DEFINITION. The hold requests: HOLD-BAY and RELEASE-BAY. -/

namespace Sys2Proof.Machine

/-- HOLD-BAY (R124). -/
def holdBayBody (p : Port) (r : Request) (s : State) : State × Answer :=
  match Bay.ofByte? (r.op 0) with
  | none => (s, .bare .range)
  | some b =>
    match s.bayTests p r.sender .mode false b with
    | some a => (s, a)
    | none =>
      if (s.hold p).isSome then (s, .bare .state)
      else
        (s.setHold p (some { bay := b, timer := .start s.timing.holdLimit.toNat }),
          .doneWith [byteOf b.val, s.timing.holdLimit])

/-- RELEASE-BAY (R126). -/
def releaseBayBody (p : Port) (_ : Request) (s : State) : State × Answer :=
  match s.hold p with
  | none => (s, .bare .notHeld)
  | some h => (s.endHold p h.bay none, .doneWith [byteOf h.bay.val])

/-- HOLD_BAY. -/
def execHoldBay (s : State) : Host.Outcome State Fault Refusal := .next (s.grant .holdBay holdBayBody)
/-- RELEASE_BAY. -/
def execReleaseBay (s : State) : Host.Outcome State Fault Refusal := .next (s.grant .releaseBay releaseBayBody)

end Sys2Proof.Machine
end

