-- ==== Sys2Proof/Machine/PanelRequests.lean ====
section
/-! DEFINITION. The panel requests: ACKNOWLEDGE, RESET-POINT, ISOLATE, RESTORE and SET-MODE. -/

namespace Sys2Proof.Machine

/-- The tests of R93, and then the request's own rule with the location and the content found there. -/
def panelRequest (g : Group) (own : Request → State → Loc → PointContent → State × Answer)
    (p : Port) (r : Request) (s : State) : State × Answer :=
  match r.loc? with
  | none => (s, .bare .range)
  | some l =>
    match s.bayTests p r.sender g false l.bay with
    | some a => (s, a)
    | none =>
      match s.content l with
      | none => (s, .bare .absent)
      | some c => own r s l c

/-- The write of a panel request that has passed its tests: copy-before-write first, then `change` on the content as
the copy left it (R78, R93, R173). -/
def State.panelWrite (s : State) (l : Loc) (change : State → PointContent → State × Answer) : State × Answer :=
  let s1 := s.copyBefore l
  match s1.content l with
  | none => (s1, .bare .absent)
  | some c => change s1 c

/-- ACKNOWLEDGE (R94). -/
def acknowledgeBody : Port → Request → State → State × Answer :=
  panelRequest .ack (fun r s l c =>
    if c.condition.needsAck then
      match c.ack with
      | some n => (s, { result := .already, payload := [byteOf n.number] })
      | none => s.panelWrite l (fun s c =>
          ((s.writePoint l { c with ack := some r.sender }).append (markChange .ack l c.condition .request r.sender),
            .bare .done))
    else (s, .bare .state))

/-- The condition a point takes when its alarm is reset (R96). -/
def resetCondition (c : PointContent) : Condition := if c.suspect then .fault .integrity else .quiet

/-- RESET-POINT (R96). -/
def resetPointBody : Port → Request → State → State × Answer :=
  panelRequest .ack (fun r s l c =>
    if c.condition ≠ .alarm then (s, .bare .state)
    else if c.ack.isNone then (s, .bare .notAcked)
    else if !c.suspect && !c.clearSeen then (s, .bare .notClear)
    else s.panelWrite l (fun s c =>
      ((s.writePoint l (c.entering (resetCondition c))).append
          (pointChange .reset l (some c.condition) (some (resetCondition c)) .request (some r.sender) none),
        .doneWith [(resetCondition c).code])))

/-- ISOLATE (R98). -/
def isolateBody : Port → Request → State → State × Answer :=
  panelRequest .isolate (fun r s l c =>
    if c.isolation.isSome then (s, .bare .state)
    else s.panelWrite l (fun s c =>
      ((s.writePoint l { c with isolation := some r.sender }).append
          (markChange .isolate l c.condition .request r.sender),
        .bare .done)))

/-- RESTORE (R99). -/
def restoreBody : Port → Request → State → State × Answer :=
  panelRequest .isolate (fun r s l c =>
    if c.isolation.isNone then (s, .bare .state)
    else s.panelWrite l (fun s c =>
      ((s.writePoint l { c with isolation := none }).append
          (markChange .restore l c.condition .request r.sender),
        .bare .done)))

/-- The service timer at SERVICE LIMIT, 600 units to the minute (R90). -/
def serviceStart (t : Timing) : Countdown := .start (t.serviceLimit.toNat * Config.unitsPerMinute)

/-- The effect of a SET-MODE that has passed its tests (R90, R91). -/
def State.changeMode (s : State) (b : Bay) (m : ModeName) (n : Sender) : State :=
  let old := (s.bay b).mode.name
  let record := modeChange b old m .request (some n)
  match m with
  | .normal => if old = .normal then s else (s.setMode b .normal).append record
  | .service => (s.setMode b (.service (serviceStart s.timing))).append record
  | .works =>
    if old = .works then s
    else b.locs.foldl (fun s l => s.pendingToQuiet l .mode (some n)) ((s.setMode b .works).append record)

/-- SET-MODE (R90). -/
def setModeBody (p : Port) (r : Request) (s : State) : State × Answer :=
  match Bay.ofByte? (r.op 0), ModeName.ofByte? (r.op 1) with
  | some b, some m =>
    (match s.bayTests p r.sender .mode false b with
      | some a => (s, a)
      | none => (s.changeMode b m r.sender, .bare .done))
  | _, _ => (s, .bare .range)

/-- ACKNOWLEDGE. -/
def execAcknowledge (s : State) : Host.Outcome State Fault Refusal := .next (s.grant .acknowledge acknowledgeBody)
/-- RESET_POINT. -/
def execResetPoint (s : State) : Host.Outcome State Fault Refusal := .next (s.grant .resetPoint resetPointBody)
/-- ISOLATE. -/
def execIsolate (s : State) : Host.Outcome State Fault Refusal := .next (s.grant .isolate isolateBody)
/-- RESTORE. -/
def execRestore (s : State) : Host.Outcome State Fault Refusal := .next (s.grant .restore restoreBody)
/-- SET_MODE. -/
def execSetMode (s : State) : Host.Outcome State Fault Refusal := .next (s.grant .setMode setModeBody)

end Sys2Proof.Machine
end

