-- ==== Sys2Proof/Machine/ReadRequests.lean ====
section
/-! DEFINITION. The requests that read the image and the device: READ-POINT, READ-SLICE, READ-BAY, READ-SUMMARY,
READ-DEVICE, READ-SETTINGS, LOOKUP-SERIAL, SET-CURSOR, READ-NEXT, READ-STRAYS. -/

namespace Sys2Proof.Machine

/-- The read of one record: verified, and handled where it fails; DONE or SUSPECT with the record view, ABSENT where
the location is not enrolled (R20, R172). -/
def State.readRecord (s : State) (l : Loc) : State × Answer :=
  match s.content l with
  | none => (s, .bare .absent)
  | some _ =>
    let s1 := s.verify l
    match s1.content l with
    | none => (s1, .bare .absent)
    | some c =>
      (s1, { result := if s.verified l then .done else .suspect, payload := pointBytes s1.draws s1.count l c })

/-- READ-POINT (R20). An unfitted location holds no enrolled record and is answered ABSENT (R3). -/
def readPointBody (_ : Port) (r : Request) (s : State) : State × Answer :=
  match r.loc? with
  | none => (s, .bare .range)
  | some l => s.readRecord l

/-- The slice values of a bay (R21, R191). -/
def sliceValues (s : State) (b : Bay) (f : SliceField) : List Byte :=
  b.locs.flatMap (fun l => match s.content l with
    | none => sliceAbsent s.draws l.point f
    | some c => sliceBytes s.draws l.point f c)

/-- READ-SLICE (R21): in an unfitted bay every value is ABSENT; in a fitted bay the enrolled records are verified in
point order. -/
def readSliceBody (_ : Port) (r : Request) (s : State) : State × Answer :=
  match Bay.ofByte? (r.op 0), SliceField.ofByte? (r.op 1) with
  | some b, some f =>
    if s.fitted b then
      let s1 := b.locs.foldl State.verify s
      (s1, { result := if b.locs.all s.verified then .done else .suspect, payload := sliceValues s1 b f })
    else (s, .doneWith (b.locs.flatMap (fun l => sliceAbsent s.draws l.point f)))
  | _, _ => (s, .bare .range)

/-- READ-BAY (R24). -/
def readBayBody : Port → Request → State → State × Answer :=
  reading (fun _ r s => match Bay.ofByte? (r.op 0) with
    | none => .bare .range
    | some b => if s.fitted b then .doneWith (bayAnswer s b) else .bare .range)

/-- READ-SUMMARY (R25). -/
def readSummaryBody : Port → Request → State → State × Answer := reading (fun _ _ s => .doneWith (summaryAnswer s))

/-- READ-DEVICE (R187). -/
def readDeviceBody : Port → Request → State → State × Answer := reading (fun _ _ s => .doneWith (deviceAnswer s))

/-- READ-SETTINGS (R41). -/
def readSettingsBody : Port → Request → State → State × Answer := reading (fun _ _ s => .doneWith (settingsAnswer s))

/-- LOOKUP-SERIAL (R19). -/
def lookupSerialBody (_ : Port) (r : Request) (s : State) : State × Answer :=
  match r.serial? 0 with
  | none => (s, .bare .range)
  | some n =>
    let x := s.lookup n
    (x.1, match x.2 with
      | .nothing => .bare .absent
      | .at l => .doneWith (locBytes l)
      | .failed l => { result := .suspect, payload := locBytes l })

/-- The cursor of a port is placed. -/
def State.setCursor (s : State) (p : Port) (l : Loc) : State := s.setPort p { s.port p with cursor := l }

/-- SET-CURSOR (R22). -/
def setCursorBody (p : Port) (r : Request) (s : State) : State × Answer :=
  match r.loc? with
  | none => (s, .bare .range)
  | some l => if s.fitted l.bay then (s.setCursor p l, .bare .done) else (s, .bare .range)

/-- The first enrolled location from a location on, in bay-major order with wrap, looking at 512 at most (R23). -/
def State.walk (s : State) (l : Loc) : Option Loc :=
  (List.range 512).findSome? (fun k =>
    let x := Loc.ofKey (l.key + k)
    if (s.content x).isSome then some x else none)

/-- READ-NEXT (R23). -/
def readNextBody (p : Port) (_ : Request) (s : State) : State × Answer :=
  match s.walk (s.port p).cursor with
  | none => (s, .bare .absent)
  | some l =>
    let x := s.readRecord l
    (x.1.setCursor p l.next, x.2)

/-- READ-STRAYS (R58). -/
def readStraysBody : Port → Request → State → State × Answer :=
  reading (fun _ _ s => .doneWith (s.strays.flatMap strayBytes))

/-- READ_POINT. -/
def execReadPoint (s : State) : Host.Outcome State Fault Refusal := .next (s.grant .readPoint readPointBody)
/-- READ_SLICE. -/
def execReadSlice (s : State) : Host.Outcome State Fault Refusal := .next (s.grant .readSlice readSliceBody)
/-- READ_BAY. -/
def execReadBay (s : State) : Host.Outcome State Fault Refusal := .next (s.grant .readBay readBayBody)
/-- READ_SUMMARY. -/
def execReadSummary (s : State) : Host.Outcome State Fault Refusal := .next (s.grant .readSummary readSummaryBody)
/-- READ_DEVICE. -/
def execReadDevice (s : State) : Host.Outcome State Fault Refusal := .next (s.grant .readDevice readDeviceBody)
/-- READ_SETTINGS. -/
def execReadSettings (s : State) : Host.Outcome State Fault Refusal := .next (s.grant .readSettings readSettingsBody)
/-- LOOKUP_SERIAL. -/
def execLookupSerial (s : State) : Host.Outcome State Fault Refusal := .next (s.grant .lookupSerial lookupSerialBody)
/-- SET_CURSOR. -/
def execSetCursor (s : State) : Host.Outcome State Fault Refusal := .next (s.grant .setCursor setCursorBody)
/-- READ_NEXT. -/
def execReadNext (s : State) : Host.Outcome State Fault Refusal := .next (s.grant .readNext readNextBody)
/-- READ_STRAYS. -/
def execReadStrays (s : State) : Host.Outcome State Fault Refusal := .next (s.grant .readStrays readStraysBody)

end Sys2Proof.Machine
end

