-- ==== Sys2Proof/Machine/ReportRequests.lean ====
section
/-! DEFINITION. The requests of the radio boards: REPORT and TAKE-POLLS. -/

namespace Sys2Proof.Machine

/-- REPORT (R46 to R53): the range step, then `State.takeReport`. The payload is the location where there is one. -/
def reportBody (_ : Port) (r : Request) (s : State) : State × Answer :=
  match r.report? with
  | none => (s, .bare .range)
  | some rep =>
    let x := s.takeReport rep
    (x.1, { result := x.2.result, payload := match x.2.loc with
      | some l => locBytes l
      | none => [] })

/-- TAKE-POLLS (R116). -/
def takePollsBody (_ : Port) (r : Request) (s : State) : State × Answer :=
  let n := (r.op 1).toNat
  if Sender.ofByte? (r.op 0) ≠ some r.sender ∨ n < 1 ∨ 8 < n then (s, .bare .range)
  else if !s.mayAnywhere r.sender .radio then (s, .bare .masked)
  else (s.pollsTake r.sender n, .doneWith (((s.polls.get r.sender).take n).flatMap pollBytes))

/-- REPORT. -/
def execReport (s : State) : Host.Outcome State Fault Refusal := .next (s.grant .report reportBody)
/-- TAKE_POLLS. -/
def execTakePolls (s : State) : Host.Outcome State Fault Refusal := .next (s.grant .takePolls takePollsBody)

end Sys2Proof.Machine
end

