-- ==== Sys2Proof/Machine/Resets.lean ====
section
/-! DEFINITION. Power and the reset line (R2, R188) and what each reset leaves: R14, R22, R45, R54, R88, R103, R121,
R123, R136, R139, R149, R156, R168, R178, R179, R184. -/

namespace Sys2Proof

/-- The content of an enrolled record after the reset line (Table 1.3). -/
def PointContent.afterResetLine (c : PointContent) : PointContent :=
  { c with
    condition := if c.suspect then .fault .integrity else .unheard
    lastSeq := none, age := 0, heardStopped := false, battery := none, links := [], ack := none, isolation := none,
    confirmation := none, clearSeen := false }

namespace Machine

/-- The last fitted bay of a strap code (R2, R156). -/
def lastFitted (strap : BitVec 2) : Bay := ⟨8 * (strap.toNat + 1) - 1, by omega⟩

/-- The end of power-on: the strap is sampled and every state takes its power-on value; the part stays in reset while
RST is asserted (R188). The model's queue and counter of draws are not the part's. -/
def State.powerOn (s : State) (strap : BitVec 2) : State :=
  { State.reset with
    phase := if s.rst then .powerOnUnderRst else .running
    rst := s.rst
    strap := strap
    snapLast := lastFitted strap
    draws := s.draws
    pending := s.pending }

/-- The record of a point after the reset line: rewritten, and so with a fresh check code (R14, R178). -/
def PointRecord.afterResetLine (r : PointRecord) : PointRecord :=
  { content := r.content.afterResetLine, codeHolds := true, written := r.content.afterResetLine }

/-- Every state at its reset-line value: the enrolment, the commissioning store and the pairings are kept, the lock is
cleared (R14, R45), and everything else is as at power-on. -/
def State.resetLine (s : State) : State :=
  { State.reset with
    startCause := .resetLine
    strap := s.strap
    points := s.points.map (fun e => (e.1, e.2.afterResetLine))
    enrolMap := s.enrolMap
    bays := Vector.ofFn (fun b => { BayRecord.fresh with partner := (s.bay b).partner })
    bound := s.bound
    masks := s.masks
    timing := s.timing
    snapLast := lastFitted s.strap
    draws := s.draws
    pending := s.pending }

/-- The release of RST (R188): a part without power only has its pin released; a part whose power-on ended under RST
comes out of reset with start cause POWER-ON; any other part takes its reset-line values (log 17). -/
def State.releaseRst (s : State) : State :=
  match s.phase with
  | .unpowered => { s with rst := false }
  | .powerOnUnderRst => { s with rst := false, phase := .running }
  | .running => s.resetLine

/-- The assertion of RST: a transaction under way is abandoned (R188). The rest of the state stands until the release
gives it its values; nothing is taken meanwhile (`State.inService`). -/
def State.assertRst (s : State) : State :=
  { s.mapPorts (fun _ q => { q with copy := none }) with rst := true }

/-- Power is removed: the part loses all its state (R2). What it is left with is not to be seen: nothing is taken without
power, and power-on writes every state (log 17). -/
def State.removePower (s : State) : State :=
  { State.reset with phase := .unpowered, rst := s.rst, draws := s.draws, pending := s.pending }

/-- POWER_ON. -/
def execPowerOn (strap : BitVec 2) (s : State) : Host.Outcome State Fault Refusal := .next (s.powerOn strap)
/-- RESET_LINE. -/
def execResetLine (s : State) : Host.Outcome State Fault Refusal := .next s.releaseRst
/-- RST_ASSERTION. -/
def execRstAssertion (s : State) : Host.Outcome State Fault Refusal := .next s.assertRst
/-- POWER_REMOVAL. -/
def execPowerRemoval (s : State) : Host.Outcome State Fault Refusal := .next s.removePower

end Machine
end Sys2Proof
end

