-- ==== Sys2Proof/Machine/RingRequests.lean ====
section
/-! DEFINITION. The requests on the change ring and the port events: SUBSCRIBE, SUBSCRIBE-FROM, UNSUBSCRIBE,
READ-CHANGES, READ-EVENTS, CLEAR-EVENTS, SET-EVENT-MASK. -/

namespace Sys2Proof.Machine

/-- SUBSCRIBE (R144): the cursor at the next sequence number, 0 records waiting. -/
def subscribeBody (p : Port) (_ : Request) (s : State) : State × Answer :=
  (s.setSub p (some s.nextSeq), .doneWith (bytes2 s.nextSeq ++ bytes2 0))

/-- SUBSCRIBE-FROM (R145). -/
def subscribeFromBody (p : Port) (r : Request) (s : State) : State × Answer :=
  let n : SeqNum := r.op2 0
  if s.inWindow n then
    (s.setSub p (some n), .doneWith (bytes2 n ++ bytes2 (BitVec.ofNat 16 (s.waiting n))))
  else (s, .bare .range)

/-- UNSUBSCRIBE (R146). -/
def unsubscribeBody (p : Port) (_ : Request) (s : State) : State × Answer :=
  if (s.port p).sub.isSome then (s.setSub p none, .bare .done) else (s, .bare .state)

/-- The records waiting for a cursor, in ring order (R143, R147). -/
def State.waitingRecords (s : State) (cursor : SeqNum) : List ChangeRecord :=
  s.ring.drop (s.ring.length - s.waiting cursor)

/-- READ-CHANGES (R147). -/
def readChangesBody (p : Port) (r : Request) (s : State) : State × Answer :=
  let n := (r.op 0).toNat
  if n < 1 ∨ 8 < n then (s, .bare .range)
  else match (s.port p).sub with
    | none => (s, .bare .state)
    | some cursor =>
      let records := (s.waitingRecords cursor).take n
      (s.setSub p (some (cursor + BitVec.ofNat 16 records.length)), .doneWith (records.flatMap changeBytes))

/-- READ-EVENTS (R152). -/
def readEventsBody : Port → Request → State → State × Answer :=
  reading (fun p _ s =>
    let q := s.port p
    .doneWith (bytes2 ((q.flags &&& q.mask).setWidth 16) ++ [q.holdEnd.code]))

/-- CLEAR-EVENTS (R151). -/
def clearEventsBody (p : Port) (r : Request) (s : State) : State × Answer :=
  match r.events? with
  | none => (s, .bare .range)
  | some e =>
    let q := s.port p
    (s.setPort p { q with flags := q.flags &&& ~~~e }, .bare .done)

/-- SET-EVENT-MASK (R153). -/
def setEventMaskBody (p : Port) (r : Request) (s : State) : State × Answer :=
  match r.events? with
  | none => (s, .bare .range)
  | some e => (s.setPort p { s.port p with mask := e }, .bare .done)

/-- SUBSCRIBE. -/
def execSubscribe (s : State) : Host.Outcome State Fault Refusal := .next (s.grant .subscribe subscribeBody)
/-- SUBSCRIBE_FROM. -/
def execSubscribeFrom (s : State) : Host.Outcome State Fault Refusal :=
  .next (s.grant .subscribeFrom subscribeFromBody)
/-- UNSUBSCRIBE. -/
def execUnsubscribe (s : State) : Host.Outcome State Fault Refusal := .next (s.grant .unsubscribe unsubscribeBody)
/-- READ_CHANGES. -/
def execReadChanges (s : State) : Host.Outcome State Fault Refusal := .next (s.grant .readChanges readChangesBody)
/-- READ_EVENTS. -/
def execReadEvents (s : State) : Host.Outcome State Fault Refusal := .next (s.grant .readEvents readEventsBody)
/-- CLEAR_EVENTS. -/
def execClearEvents (s : State) : Host.Outcome State Fault Refusal := .next (s.grant .clearEvents clearEventsBody)
/-- SET_EVENT_MASK. -/
def execSetEventMask (s : State) : Host.Outcome State Fault Refusal := .next (s.grant .setEventMask setEventMaskBody)

end Sys2Proof.Machine
end

