-- ==== Sys2Proof/Machine/SnapshotRequests.lean ====
section
/-! DEFINITION. The snapshot requests (Chapter 8): SNAPSHOT-RANGE, SNAPSHOT-START, SNAPSHOT-READ, SNAPSHOT-RELEASE. -/

namespace Sys2Proof.Machine

/-- SNAPSHOT-RANGE (R157). -/
def snapshotRangeBody (_ : Port) (r : Request) (s : State) : State × Answer :=
  match Bay.ofByte? (r.op 0), Bay.ofByte? (r.op 1) with
  | some first, some last =>
    if last < first then (s, .bare .range)
    else if !s.fitted first || !s.fitted last then (s, .bare .range)
    else if s.snap ≠ .idle then (s, .bare .busy)
    else ({ s with snapFirst := first, snapLast := last }, .doneWith [byteOf first.val, byteOf last.val])
  | _, _ => (s, .bare .range)

/-- SNAPSHOT-START (R158). -/
def snapshotStartBody (p : Port) (_ : Request) (s : State) : State × Answer :=
  if s.snap ≠ .idle then (s, .bare .busy)
  else
    ({ s with snap := .copying p s.nextSeq s.count s.snapFirst, snapRecords := [] },
      .doneWith (bytes2 s.nextSeq ++ [byteOf s.snapFirst.val, byteOf s.snapLast.val] ++ bytes4 s.count))

/-- The answer of a snapshot record: ABSENT, DONE or BAD (R163), a confirmation worked out against the start count
(R164). -/
def snapshotAnswer (s : State) (startCount : Count) (l : Loc) : Answer :=
  match s.snapRecords.find l.key with
  | none => .bare .absent
  | some e =>
    match e.content with
    | none => .bare .absent
    | some c => { result := if e.bad then .bad else .done, payload := pointBytes s.draws startCount l c }

/-- SNAPSHOT-READ (R163). -/
def snapshotReadBody : Port → Request → State → State × Answer :=
  reading (fun p r s => match r.loc? with
    | none => .bare .range
    | some l =>
      match s.snap with
      | .idle => .bare .state
      | .copying owner _ _ _ => if owner = p then .bare .state else .bare .notOwner
      | .ready owner _ startCount _ =>
        if owner ≠ p then .bare .notOwner
        else if s.snapFirst ≤ l.bay ∧ l.bay ≤ s.snapLast then snapshotAnswer s startCount l
        else .bare .range)

/-- SNAPSHOT-RELEASE (R165): abort or release. -/
def snapshotReleaseBody (p : Port) (_ : Request) (s : State) : State × Answer :=
  match s.snap.owner with
  | none => (s, .bare .state)
  | some owner => if owner = p then (s.snapEnd, .bare .done) else (s, .bare .notOwner)

/-- SNAPSHOT_RANGE. -/
def execSnapshotRange (s : State) : Host.Outcome State Fault Refusal :=
  .next (s.grant .snapshotRange snapshotRangeBody)
/-- SNAPSHOT_START. -/
def execSnapshotStart (s : State) : Host.Outcome State Fault Refusal :=
  .next (s.grant .snapshotStart snapshotStartBody)
/-- SNAPSHOT_READ. -/
def execSnapshotRead (s : State) : Host.Outcome State Fault Refusal := .next (s.grant .snapshotRead snapshotReadBody)
/-- SNAPSHOT_RELEASE. -/
def execSnapshotRelease (s : State) : Host.Outcome State Fault Refusal :=
  .next (s.grant .snapshotRelease snapshotReleaseBody)

end Sys2Proof.Machine
end

