-- ==== Sys2Proof/Machine/Timebase.lean ====
section
/-! DEFINITION. The events of time (R104): the end of a timebase unit at each block that counts time, and the expiries
of timers. Each block takes each unit's end once, in any order; a unit ends only when every block has taken the one
before and every timer it ran out has expired (log 5). -/

namespace Sys2Proof.Machine

/-- The confirmation timer of a point is due: it is PENDING and the count has reached its deadline (R80, R82, logs 8
and 28). -/
def State.confirmationDue (s : State) (c : PointContent) : Bool :=
  c.condition == .pending && (match c.confirmation with
    | some f => f.deadline == s.count
    | none => false)

/-- The service timer of a bay has run out. -/
def BayRecord.serviceOut (r : BayRecord) : Bool :=
  match r.mode with
  | .service t => t.runOut
  | .normal => false
  | .works => false

/-- The hold timer of a port's hold has run out. -/
def State.holdOut (s : State) (p : Port) : Bool :=
  match s.hold p with
  | some h => h.timer.runOut
  | none => false

/-- The keep timer has run out. -/
def SnapState.keepOut : SnapState → Bool
  | .idle => false
  | .copying _ _ _ _ => false
  | .ready _ _ _ t => t.runOut

/-- Every block has taken the present unit's end and no expiry is still to be taken. -/
def State.unitDone (s : State) : Bool :=
  s.owes.isEmpty && !s.points.any (fun e => s.confirmationDue e.2.content)
    && !Bay.all.any (fun b => (s.bay b).serviceOut) && !Port.all.any s.holdOut && !s.snap.keepOut

/-- A block takes the end of a unit: of the present one, which it still owes, or of the next one, which then ends for
the other blocks too. `none` where neither can be (log 5). DESIGN CHOICE, log 28: a unit end that the engine still owes
waits for no expiry. Only a storage upset can leave a deadline equal to the count while the engine owes; the engine may
then pass it, and the expiry, if it has not been taken before, is due when the count comes round (log 8). -/
def State.takeUnit (s : State) (b : TimeBlock) : Option State :=
  if !s.inService then none
  else if b ∈ s.owes then some { s with owes := s.owes.erase b }
  else if s.unitDone then some { s with owes := TimeBlock.all.erase b, unitInGroup := s.unitInGroup + 1 }
  else none

/-- The bay table counts down each running service timer (R92). -/
def BayRecord.tick (r : BayRecord) : BayRecord :=
  match r.mode with
  | .service t => { r with mode := .service t.tick }
  | .normal => r
  | .works => r

/-- The hold unit counts down a running hold timer (R125). -/
def Hold.tick (h : Hold) : Hold := { h with timer := h.timer.tick }

/-- The snapshot unit counts down the keep timer (R166). -/
def SnapState.tick : SnapState → SnapState
  | .idle => .idle
  | .copying o m c b => .copying o m c b
  | .ready o m c t => .ready o m c t.tick

/-- The snapshot is COPYING. -/
def SnapState.isCopying : SnapState → Bool
  | .idle => false
  | .copying _ _ _ _ => true
  | .ready _ _ _ _ => false

/-- The next unit end at the sweep completes a period (R105). -/
def State.completesPeriod (s : State) : Bool :=
  s.timing.sweepPeriod != 0 && s.timing.sweepPeriod.toNat ≤ s.prescaler + 1

/-- The end of a unit as one block takes it (R104). At the snapshot unit while COPYING it is a COPY_STEP, and at the
sweep when it completes a period a PERIODIC_SWEEP_STEP: this command is then not that event (log 7). -/
def State.unitEnd (s : State) (b : TimeBlock) : State :=
  match s.takeUnit b with
  | none => s
  | some s1 =>
    match b with
    | .engine => { s1 with count := s1.count + 1 }
    | .bayTable => s1.mapBays (fun _ r => r.tick)
    | .holdUnit => { s1 with holds := s1.holds.map (fun _ h => h.map Hold.tick) }
    | .snapshotUnit => if s.snap.isCopying then s else { s1 with snap := s1.snap.tick }
    | .sweep =>
      if s.completesPeriod then s
      else if s.timing.sweepPeriod = 0 then s1
      else { s1 with prescaler := s1.prescaler + 1 }

/-- The unit end that completes a sweep period: a sweep step, and the prescaler returns to 0 (R105, R106). -/
def State.periodicStep (s : State) : State :=
  if s.completesPeriod then
    match s.takeUnit .sweep with
    | none => s
    | some s1 => s.settleFire { s1 with prescaler := 0 }.sweepStep
  else s

/-- One location at a copy step: copied where it is not yet marked copied; a failure found by the copy is handled
(R159, R161). -/
def State.copyLoc (s : State) (l : Loc) : State := s.copyBefore l

/-- The effect of a copy step at the copy position (R159). -/
def State.copyBay (s : State) (owner : Port) (mark : SeqNum) (startCount : Count) (position : Bay) : State :=
  let s1 := position.locs.foldl State.copyLoc s
  if position = s.snapLast then
    { s1 with snap := .ready owner mark startCount (.start (s.timing.snapshotKeep.toNat * Config.unitsPerSecond)) }.raiseOn
      owner .snapshotReady
  else { s1 with snap := .copying owner mark startCount (position + 1) }

/-- The copy step that a unit end makes while COPYING (R159). -/
def State.copyStep (s : State) : State :=
  match s.snap with
  | .copying o m c b =>
    (match s.takeUnit .snapshotUnit with
      | none => s
      | some s1 => s.settleFire (s1.copyBay o m c b))
  | .idle => s
  | .ready _ _ _ _ => s

/-- The expiry of the confirmation timer of a point, where it is due (R82). -/
def State.confirmationExpiry (s : State) (l : Loc) : State :=
  match s.content l with
  | none => s
  | some c =>
    if s.inService && s.confirmationDue c then s.settleFire (s.pendingToQuiet l .timer none) else s

/-- The expiry of the service timer of a bay, where it has run out (R92). -/
def State.serviceExpiry (s : State) (b : Bay) : State :=
  if s.inService && (s.bay b).serviceOut then
    (s.setMode b .normal).append (modeChange b .service .normal .timer none)
  else s

/-- The expiry of the hold timer of a port's hold, where it has run out (R125). -/
def State.holdExpiry (s : State) (p : Port) : State :=
  match s.hold p with
  | none => s
  | some h => if s.inService && h.timer.runOut then s.settleFire (s.endHold p h.bay (some .expired)) else s

/-- The expiry of the keep timer, where it has run out (R166). -/
def State.keepExpiry (s : State) : State :=
  match s.snap with
  | .ready owner _ _ t => if s.inService && t.runOut then s.snapEnd.raiseOn owner .snapshotEnded else s
  | .idle => s
  | .copying _ _ _ _ => s

/-- A storage upset of an enrolled record of a powered part: it leaves values of the record's own (R170, log 12). Where
they are the ones that stood, it has altered the check code alone, which is part of the record too (R4, log 11). -/
def State.upset (s : State) (l : Loc) (c : PointContent) : State :=
  if s.phase ≠ .unpowered ∧ c.fits then s.upsetPoint l c else s

/-- TIMEBASE_UNIT_END. -/
def execTimebaseUnitEnd (b : TimeBlock) (s : State) : Host.Outcome State Fault Refusal := .next (s.unitEnd b)
/-- PERIODIC_SWEEP_STEP. -/
def execPeriodicSweepStep (s : State) : Host.Outcome State Fault Refusal := .next s.periodicStep
/-- CONFIRMATION_TIMER_EXPIRY. -/
def execConfirmationTimerExpiry (l : Loc) (s : State) : Host.Outcome State Fault Refusal :=
  .next (s.confirmationExpiry l)
/-- SERVICE_TIMER_EXPIRY. -/
def execServiceTimerExpiry (b : Bay) (s : State) : Host.Outcome State Fault Refusal := .next (s.serviceExpiry b)
/-- HOLD_TIMER_EXPIRY. -/
def execHoldTimerExpiry (p : Port) (s : State) : Host.Outcome State Fault Refusal := .next (s.holdExpiry p)
/-- COPY_STEP. -/
def execCopyStep (s : State) : Host.Outcome State Fault Refusal := .next s.copyStep
/-- KEEP_TIMER_EXPIRY. -/
def execKeepTimerExpiry (s : State) : Host.Outcome State Fault Refusal := .next s.keepExpiry
/-- STORAGE_UPSET. -/
def execStorageUpset (l : Loc) (c : PointContent) (s : State) : Host.Outcome State Fault Refusal := .next (s.upset l c)

end Sys2Proof.Machine
end

