-- ==== Sys2Proof/Machine/Transactions.lean ====
section
/-! DEFINITION. Transactions at a port (R180 to R182): the fall and the rise of chip select, the frame check and the
sender check. -/

namespace Sys2Proof.Machine

/-- A bit as a number. -/
def bitNat (b : Bool) : Nat := if b then 1 else 0

/-- Eight bits, most significant first, as a byte (R180). -/
def byteOfBits (b7 b6 b5 b4 b3 b2 b1 b0 : Bool) : Byte :=
  BitVec.ofNat 8 (bitNat b7 * 128 + bitNat b6 * 64 + bitNat b5 * 32 + bitNat b4 * 16 + bitNat b3 * 8 + bitNat b2 * 4
    + bitNat b1 * 2 + bitNat b0)

/-- The complete bytes of the bits clocked in; a byte that was not clocked whole does not count (R180). -/
def wholeBytes : List Bool → List Byte
  | b7 :: b6 :: b5 :: b4 :: b3 :: b2 :: b1 :: b0 :: rest => byteOfBits b7 b6 b5 b4 b3 b2 b1 b0 :: wholeBytes rest
  | _ => []

/-- The slot of a port is written. -/
def State.setSlot (s : State) (p : Port) (x : Slot) : State := s.setPort p { s.port p with slot := x }

/-- The frame check (R182): the code is one of Table 10.5, the operand length is the table's, the check byte has arrived
and is the CRC-8 of the bytes before it. -/
def frameCode (bytes : List Byte) : Option ReqCode :=
  match ReqCode.ofByte? (bytes.getD 0 0) with
  | none => none
  | some c =>
    let n := c.operandLength
    if 4 + n < bytes.length ∧ bytes.getD 3 0 = byteOf n ∧ bytes.getD (4 + n) 0 = crc8 (bytes.take (4 + n)) then some c
    else none

/-- A refusal on arrival, with the tag and the code as shifted in, each 00h where its byte did not arrive (R182). -/
def refusedOnArrival (bytes : List Byte) (r : Result) : Slot :=
  .done { tag := bytes.getD 1 0, code := bytes.getD 0 0, result := r, payload := [] }

/-- What a request that is taken makes of the slot: a FRAME refusal, a SENDER refusal, or a waiting request (R27, R182). -/
def arrival (bound : SenderSet) (bytes : List Byte) : Slot :=
  match frameCode bytes with
  | none => refusedOnArrival bytes .frame
  | some c =>
    match Sender.ofByte? (bytes.getD 2 0) with
    | none => refusedOnArrival bytes .sender
    | some n =>
      if bound.has n then
        .waiting { tag := bytes.getD 1 0, code := c, sender := n, operands := (bytes.drop 4).take c.operandLength }
      else refusedOnArrival bytes .sender

/-- The request that a transaction carries is taken, if it carries one: a first byte 00h carries none (R180, R181).
DESIGN CHOICE, log 27: a transaction of which no byte was clocked whole carries none either, and so leaves an EMPTY slot
EMPTY; R181 says that it "takes nothing" for a slot that was DONE at the fall only. -/
def State.takeFrame (s : State) (p : Port) (bytes : List Byte) : State :=
  match bytes with
  | [] => s
  | b :: _ => if b = 0x00 then s else s.setSlot p (arrival (s.bound.get p) bytes)

/-- The fall of chip select: a copy of the slot is taken; its frame is what the transaction shifts out (R180). -/
def State.beginTransaction (s : State) (p : Port) : State :=
  if s.inService && (s.port p).copy.isNone then s.setPort p { s.port p with copy := some (s.port p).slot } else s

/-- The rise of chip select, by the slot state that the copy taken at the fall showed (R181). -/
def State.endTransaction (s : State) (p : Port) (sdi : List Bool) : State :=
  match (s.port p).copy with
  | none => s
  | some copy =>
    if s.inService then
      let bytes := wholeBytes sdi
      let s1 := s.setPort p { s.port p with copy := none }
      match copy with
      | .empty => s1.takeFrame p bytes
      | .waiting _ => s1
      | .done _ => if bytes.isEmpty then s1 else (s1.setSlot p .empty).takeFrame p bytes
    else s

/-- The byte at position `k` on SDO of a port while a transaction is under way (R180). -/
def State.sdo (s : State) (p : Port) (k : Nat) : Option Byte := (s.port p).copy.map (fun c => shiftedOut c k)

/-- TRANSACTION_BEGIN. -/
def execTransactionBegin (p : Port) (s : State) : Host.Outcome State Fault Refusal := .next (s.beginTransaction p)
/-- TRANSACTION_END. -/
def execTransactionEnd (p : Port) (sdi : List Bool) (s : State) : Host.Outcome State Fault Refusal :=
  .next (s.endTransaction p sdi)

end Sys2Proof.Machine
end

