-- ==== Sys2Proof/Machine/Dispatch.lean ====
section
/-! DEFINITION. The meaning of every command: one arm per constructor of Instr. -/

namespace Sys2Proof.Machine

def exec (i : Instr) (s : State) : Host.Outcome State Fault Refusal :=
  match i with
  | .powerOn strap => Sys2Proof.Machine.execPowerOn strap s
  | .resetLine => Sys2Proof.Machine.execResetLine s
  | .transactionBegin port => Sys2Proof.Machine.execTransactionBegin port s
  | .transactionEnd port sdi => Sys2Proof.Machine.execTransactionEnd port sdi s
  | .readPoint => Sys2Proof.Machine.execReadPoint s
  | .readSlice => Sys2Proof.Machine.execReadSlice s
  | .readBay => Sys2Proof.Machine.execReadBay s
  | .readSummary => Sys2Proof.Machine.execReadSummary s
  | .readDevice => Sys2Proof.Machine.execReadDevice s
  | .readSettings => Sys2Proof.Machine.execReadSettings s
  | .lookupSerial => Sys2Proof.Machine.execLookupSerial s
  | .setCursor => Sys2Proof.Machine.execSetCursor s
  | .readNext => Sys2Proof.Machine.execReadNext s
  | .readStrays => Sys2Proof.Machine.execReadStrays s
  | .report => Sys2Proof.Machine.execReport s
  | .takePolls => Sys2Proof.Machine.execTakePolls s
  | .acknowledge => Sys2Proof.Machine.execAcknowledge s
  | .resetPoint => Sys2Proof.Machine.execResetPoint s
  | .isolate => Sys2Proof.Machine.execIsolate s
  | .restore => Sys2Proof.Machine.execRestore s
  | .setMode => Sys2Proof.Machine.execSetMode s
  | .holdBay => Sys2Proof.Machine.execHoldBay s
  | .releaseBay => Sys2Proof.Machine.execReleaseBay s
  | .subscribe => Sys2Proof.Machine.execSubscribe s
  | .subscribeFrom => Sys2Proof.Machine.execSubscribeFrom s
  | .unsubscribe => Sys2Proof.Machine.execUnsubscribe s
  | .readChanges => Sys2Proof.Machine.execReadChanges s
  | .readEvents => Sys2Proof.Machine.execReadEvents s
  | .clearEvents => Sys2Proof.Machine.execClearEvents s
  | .setEventMask => Sys2Proof.Machine.execSetEventMask s
  | .snapshotRange => Sys2Proof.Machine.execSnapshotRange s
  | .snapshotStart => Sys2Proof.Machine.execSnapshotStart s
  | .snapshotRead => Sys2Proof.Machine.execSnapshotRead s
  | .snapshotRelease => Sys2Proof.Machine.execSnapshotRelease s
  | .enrol => Sys2Proof.Machine.execEnrol s
  | .withdraw => Sys2Proof.Machine.execWithdraw s
  | .repair => Sys2Proof.Machine.execRepair s
  | .setBay => Sys2Proof.Machine.execSetBay s
  | .bindSenders => Sys2Proof.Machine.execBindSenders s
  | .setMask => Sys2Proof.Machine.execSetMask s
  | .setTiming => Sys2Proof.Machine.execSetTiming s
  | .lock => Sys2Proof.Machine.execLock s
  | .sweepStep => Sys2Proof.Machine.execSweepStep s
  | .clearStrays => Sys2Proof.Machine.execClearStrays s
  | .portReset => Sys2Proof.Machine.execPortReset s
  | .timebaseUnitEnd block => Sys2Proof.Machine.execTimebaseUnitEnd block s
  | .periodicSweepStep => Sys2Proof.Machine.execPeriodicSweepStep s
  | .confirmationTimerExpiry loc => Sys2Proof.Machine.execConfirmationTimerExpiry loc s
  | .serviceTimerExpiry bay => Sys2Proof.Machine.execServiceTimerExpiry bay s
  | .holdTimerExpiry owner => Sys2Proof.Machine.execHoldTimerExpiry owner s
  | .copyStep => Sys2Proof.Machine.execCopyStep s
  | .keepTimerExpiry => Sys2Proof.Machine.execKeepTimerExpiry s
  | .storageUpset loc content => Sys2Proof.Machine.execStorageUpset loc content s
  | .rstAssertion => Sys2Proof.Machine.execRstAssertion s
  | .powerRemoval => Sys2Proof.Machine.execPowerRemoval s

end Sys2Proof.Machine
end

