-- ==== Sys2Proof/Safety.lean ====
section
/-! DEFINITION. What it means that a state is sound: the invariants that the spec gives the part's state, one predicate
for each block. Claims over every state take the one they need as a premise. -/

namespace Sys2Proof

/-- The request row that a request code stands for: the command that grants it (R185). -/
def Machine.ReqCode.command : Machine.ReqCode → Instr
  | .readPoint => .readPoint | .readSlice => .readSlice | .readBay => .readBay | .readSummary => .readSummary
  | .readDevice => .readDevice | .readSettings => .readSettings | .lookupSerial => .lookupSerial
  | .setCursor => .setCursor | .readNext => .readNext | .readStrays => .readStrays
  | .report => .report | .takePolls => .takePolls
  | .acknowledge => .acknowledge | .resetPoint => .resetPoint | .isolate => .isolate | .restore => .restore
  | .setMode => .setMode | .holdBay => .holdBay | .releaseBay => .releaseBay
  | .subscribe => .subscribe | .subscribeFrom => .subscribeFrom | .unsubscribe => .unsubscribe
  | .readChanges => .readChanges | .readEvents => .readEvents | .clearEvents => .clearEvents
  | .setEventMask => .setEventMask
  | .snapshotRange => .snapshotRange | .snapshotStart => .snapshotStart | .snapshotRead => .snapshotRead
  | .snapshotRelease => .snapshotRelease
  | .enrol => .enrol | .withdraw => .withdraw | .repair => .repair | .setBay => .setBay | .bindSenders => .bindSenders
  | .setMask => .setMask | .setTiming => .setTiming | .lock => .lock | .sweepStep => .sweepStep
  | .clearStrays => .clearStrays
  | .portReset => .portReset

/-- The presence rules of Table 1.2 that every write of the part keeps: a valid serial (R5), a confirmation exactly in
PENDING (R79), an acknowledgement only in ALARM, FAULT or MISSING (R10), and a link list as R15 has it. -/
def PointContent.sound (c : PointContent) : Bool :=
  serialValid c.serial && c.confirmationFits && c.ackFits && linksFit c.links

namespace Machine

/-- A request waiting in a slot carries the operands of its code, and a response at most 96 bytes (R179, R182). -/
def Slot.sound : Slot → Prop
  | .empty => True
  | .waiting r => r.operands.length = r.code.operandLength
  | .done a => a.payload.length ≤ 96

/-- The change ring: at most 256 records, numbered consecutively modulo 65 536 up to the next sequence number less one
(R139). -/
def State.ringSound (s : State) : Prop :=
  s.ring.length ≤ Config.ringCapacity ∧
    ∀ (i : Nat) (h : i < s.ring.length), s.ring[i].seq = s.nextSeq - BitVec.ofNat 16 (s.ring.length - i)

/-- The ring cursors: the number of records waiting for a subscribed port is at most the number held, so that its
cursor lies between the oldest sequence number and the next (R143). -/
def State.cursorsSound (s : State) : Prop :=
  ∀ p n, (s.port p).sub = some n → s.waiting n ≤ s.ring.length

/-- The stray list: at most 8 entries, no two for one serial (R54). -/
def State.straysSound (s : State) : Prop :=
  s.strays.length ≤ Config.strayCapacity ∧ (s.strays.map (·.serial)).Nodup

/-- The poll queues: at most 16 items in each, no two in one for one location (R113). -/
def State.pollsSound (s : State) : Prop :=
  ∀ n, (s.polls.get n).length ≤ Config.pollCapacity ∧ ((s.polls.get n).map (·.loc)).Nodup

/-- The hold records: no bay is held by two ports (R123). -/
def State.holdsSound (s : State) : Prop :=
  ∀ p q h k, s.hold p = some h → s.hold q = some k → h.bay = k.bay → p = q

/-- The deferral queue: at most 16 entries, none an ALARM, each waiting for a bay that is held (R129). -/
def State.deferralsSound (s : State) : Prop :=
  s.deferrals.length ≤ Config.deferralCapacity ∧
    ∀ d ∈ s.deferrals, d.report.kind ≠ .alarm ∧ ∃ p h, s.hold p = some h ∧ h.bay = d.bay

/-- The pairing is symmetric, and no bay is its own partner (R37, R84). -/
def State.pairingSound (s : State) : Prop :=
  ∀ b q, (s.bay b).partner = some q → q ≠ b ∧ (s.bay q).partner = some b

/-- The settings lie within their ranges (R39) and the prescaler below the period, at 0 while the sweep is stopped
(R105). -/
def State.timingSound (s : State) : Prop :=
  s.timing.inRange = true ∧
    (s.timing.sweepPeriod = 0 → s.prescaler = 0) ∧
    (s.timing.sweepPeriod ≠ 0 → s.prescaler < s.timing.sweepPeriod.toNat)

/-- The running timers lie within the lengths of Table 2.5: a hold 1 to 255 units (R123), a service timer 1 to 153 000
(R24), a keep timer 1 to 2 550 (R156). -/
def State.timersSound (s : State) : Prop :=
  (∀ p h, s.hold p = some h → 1 ≤ h.timer.left ∧ h.timer.left ≤ 255) ∧
    (∀ b t, (s.bay b).mode = .service t → 1 ≤ t.left ∧ t.left ≤ 153000) ∧
    (∀ o m c t, s.snap = .ready o m c t → 1 ≤ t.left ∧ t.left ≤ 2550)

/-- The point table: in its canonical form, every enrolled location in a fitted bay (R3), every record sound. -/
def State.pointsSound (s : State) : Prop :=
  Table.sorted s.points = true ∧
    ∀ e ∈ s.points, e.2.content.sound = true ∧ ∃ l : Loc, e.1 = l.key ∧ s.fitted l.bay = true

/-- The enrolment map: in its canonical form, so that no two entries hold one serial; every entry names an enrolled
location; no two entries name one location (R18). -/
def State.mapSound (s : State) : Prop :=
  Table.sorted s.enrolMap = true ∧
    (∀ e ∈ s.enrolMap, (s.content e.2).isSome = true) ∧ (s.enrolMap.map (·.2)).Nodup

/-- A location's snapshot record is marked copied (R156). -/
def State.copied (s : State) (l : Loc) : Prop := (s.snapRecords.find l.key).isSome = true

/-- The snapshot store: in its canonical form; a range of fitted bays, first not above last; no record marked in IDLE;
while COPYING every bay of the range below the copy position copied; in READY the whole range copied (R156, R159,
R162). -/
def State.snapSound (s : State) : Prop :=
  Table.sorted s.snapRecords = true ∧ s.snapFirst ≤ s.snapLast ∧ s.fitted s.snapLast = true ∧
    (match s.snap with
      | .idle => s.snapRecords = []
      | .copying _ _ _ position => s.snapFirst ≤ position ∧ position ≤ s.snapLast ∧
          ∀ l : Loc, s.snapFirst ≤ l.bay → l.bay < position → s.copied l
      | .ready _ _ _ _ => ∀ l : Loc, s.snapFirst ≤ l.bay → l.bay ≤ s.snapLast → s.copied l)

/-- The slots of the ports and the copies of them that transactions shift out (R179, R180). -/
def State.slotsSound (s : State) : Prop :=
  ∀ p, (s.port p).slot.sound ∧ ∀ c, (s.port p).copy = some c → c.sound

end Machine
end Sys2Proof
end

