-- ==== Sys2Proof/Certificates/Slice0/Obligations.lean ====
section
/-! DEFINITION. The statements for the provers, each `def Obligations.<Name> : Prop`, and the few words they share.
Where a statement rests on a choice of the model and not on a rule of the spec, its docstring names the log entry. -/

namespace Sys2Proof.Claims

open Machine

/-- The arbiter's own part of a grant to port `p`: the last-granted port (R184), and the model's draw counter (log 9). -/
def granted (s : State) (p : Port) : State := { s with lastGranted := p, draws := s.draws + 1 }

/-- The response to request `r` stands in the slot of port `p`: DONE with the request's tag and code (R185). -/
def answered (s : State) (p : Port) (r : Request) (result : Result) (payload : List Byte) : State :=
  { s with ports := s.ports.set p { s.port p with slot := .done { tag := r.tag, code := r.code.code, result, payload } } }

/-- The end of an event that began in `before`: FIRE (bit 6) on every port when the alarm count has risen from 0
(R101). -/
def fired (before after : State) : State :=
  if before.alarmCount = 0 ∧ after.alarmCount ≠ 0 then
    { after with ports := after.ports.map (fun _ q => { q with flags := q.flags ||| 0x040 }) }
  else after

/-- One port's own state replaced. -/
def withPort (s : State) (p : Port) (f : PortState → PortState) : State :=
  { s with ports := s.ports.set p (f (s.port p)) }

/-- Steps 2 to 5 of R30 for a request that names bay `b`: the outcome of the first test that fails, with its payload. -/
def refusal (s : State) (p : Port) (n : Sender) (g : Group) (lockActs : Bool) (b : Bay) :
    Option (Result × List Byte) :=
  if s.may n g b.area = false then some (.masked, [])
  else if lockActs = true ∧ s.locked = true then some (.locked, [])
  else if s.fitted b = false then some (.range, [])
  else match s.holder b with
    | some q => if q = p then none else some (.held, [byteOf q.number])
    | none => none

/-- Steps 2 and 3 of R30 for a request that needs COMMISSION in all four areas. -/
def storeRefusal (s : State) (n : Sender) : Option Result :=
  if s.mayEverywhere n .commission = false then some .masked else if s.locked = true then some .locked else none

/-- The serial is known and its record passes the lookup's verification (R19, R170). -/
def knownAt (s : State) (n : Serial) (l : Loc) : Prop :=
  s.enrolMap.find n.toNat = some l ∧ ∃ e, s.points.find l.key = some e ∧ e.codeHolds = true ∧
    e.content.suspect = false ∧ e.content.serial = n

/-- The content a point has once copy-before-write is made for it: as found, or rebuilt where that copy was due and
its verification fails (R160, R161, R173). -/
def atWrite (s : State) (l : Loc) (c : PointContent) : PointContent :=
  if s.needsCopy l = true ∧ s.verified l = false then c.rebuilt else c

/-- A point-level change record (Table 7.2). -/
def record (kind : RecordKind) (l : Loc) (old new : Option Condition) (cause : Cause) (doneBy : Option Sender)
    (serial : Option Serial) : ChangeBody :=
  { kind, bay := some l.bay, point := some l.point, old := old.map .cond, new := new.map .cond, cause, doneBy, serial }

/-- A device-level change record (Table 7.2). -/
def deviceRecord (kind : RecordKind) (cause : Cause) (doneBy : Sender) (serial : Option Serial) : ChangeBody :=
  { kind, bay := none, point := none, old := none, new := none, cause, doneBy := some doneBy, serial }

/-- A request that writes one record, granted: the copy first, the new content written, its change record appended, the
FIRE event where it is due, and the answer placed. -/
def written (s : State) (p : Port) (r : Request) (l : Loc) (new : PointContent) (b : ChangeBody)
    (payload : List Byte) : State :=
  answered (fired s ((((granted s p).copyBefore l).writePoint l new).append b)) p r .done payload

/-- The bits of a byte, most significant first. -/
def bitsOf (b : Byte) : List Bool := (List.range 8).map (fun i => b.getLsbD (7 - i))

/-- A request frame of Table 10.2. -/
def requestFrame (code : ReqCode) (tag : Byte) (n : Sender) (ops : List Byte) : List Byte :=
  let body := [code.code, tag, byteOf n.number, byteOf ops.length] ++ ops
  body ++ [crc8 body]

/-- The classes of Table 3.3. -/
def classOf (last : Option Byte) (sequence : Byte) : Result :=
  match last with
  | none => .accepted
  | some n =>
    if (sequence - n).toNat = 0 then .duplicate else if (sequence - n).toNat < 128 then .accepted else .stale

/-- Table 4.2: the condition after one application, by what is handed over, whether the point is SMOKE or MULTI,
whether an alarm of it is confirmed at once (footnotes 1 and 2), and the present condition. -/
def table42 (h : Handover) (smokeType confirmed : Bool) (c : Condition) : Condition :=
  match h, c with
  | .status, .unheard => .quiet | .status, .fault _ => .quiet | .status, .missing => .quiet | .status, c => c
  | .prealarm, .pending => .pending | .prealarm, .alarm => .alarm | .prealarm, _ => .watch
  | .alarm, .alarm => .alarm
  | .alarm, _ => if smokeType && !confirmed then .pending else .alarm
  | .cleared, .alarm => .alarm | .cleared, .fault x => .fault x | .cleared, _ => .quiet
  | .fault _, .pending => .pending | .fault _, .alarm => .alarm | .fault x, _ => .fault x

/-- The stray step of report `m` (R55, R56): its serial's entry goes to the front, its count one up and held at 255, the
list at most 8; an ALARM appends its STRAY-ALARM record and sets STRAY (bit 7) on every port. -/
def heard (u : State) (m : Report) : State :=
  let count : Byte := match u.strays.find? (fun e => e.serial = m.serial) with
    | some e => if e.count = 255 then 255 else e.count + 1
    | none => 1
  let u1 : State := { u with strays :=
    { serial := m.serial, sender := m.sender, margin := m.margin, count := count, lastKind := m.kind } ::
      (u.strays.filter (fun e => e.serial ≠ m.serial)).take 7 }
  if m.kind = .alarm then
    let u2 := u1.append (deviceRecord .strayAlarm .report m.sender (some m.serial))
    { u2 with ports := u2.ports.map (fun _ q => { q with flags := q.flags ||| 0x080 }) }
  else u1

/-- The sequence test of report `m` at a location and its application by its class (R59). -/
def sequenced (u : State) (l : Loc) (m : Report) : State :=
  match u.content l with
  | none => u
  | some c => match classOf c.lastSeq m.sequence with
    | .accepted => u.applyAccepted l m
    | .duplicate => u.applyDuplicate l m
    | _ => u

/-- One report of the drain of bay `b` (R68, R133): taken out of the queue and looked up again; a stray where nothing is
found; rebuilt first, then a stray, where the record found fails; dropped without RADIO in the area found; deferred again,
at the tail, where another bay it is now mapped to is held (with no test of room: log 23, from "the entry that was removed
leaves room for it"); else put to the sequence test. -/
def drained (b : Bay) (s : State) (m : Report) : State :=
  let u : State := { s with deferrals := s.deferrals.eraseP (fun d => d.bay = b) }
  match u.enrolMap.find m.serial.toNat with
  | none => heard u m
  | some l => match u.points.find l.key with
    | none => heard u m
    | some e =>
      if e.codeHolds = true ∧ e.content.suspect = false ∧ e.content.serial = m.serial then
        if u.may m.sender .radio l.bay.area = false then u
        else if l.bay ≠ b ∧ u.holder l.bay ≠ none then
          { u with deferrals := u.deferrals ++ [{ report := m, bay := l.bay }] }
        else sequenced u l m
      else heard (u.handleFailure l) m

/-- The promotions at an entry to ALARM of the point at `l` (R86): in bay-major order, every other PENDING point of its
coincidence set that is neither isolated nor suspect (R87) is copied first where a snapshot needs it, passed over where
that copy found a failure (R173), and else brought to ALARM with its own CONDITION record, cause COINCIDENCE, by the
report's sender. -/
def promotions (s : State) (l : Loc) (n : Sender) : State :=
  (Loc.all.filter (fun x => x.bay = l.bay ∨ (s.bay l.bay).partner = some x.bay)).foldl (fun u x =>
    if x = l then u
    else match u.content x with
      | none => u
      | some d =>
        if d.isolation = none ∧ d.suspect = false ∧ d.condition = .pending then
          if u.needsCopy x = true ∧ u.verified x = false then u.copyBefore x
          else ((u.copyBefore x).writePoint x
              { d with condition := .alarm, ack := none, confirmation := none, clearSeen := false }).append
            (record .condition x (some .pending) (some .alarm) .coincidence (some n) none)
        else u) s

/-- Table 10.5: each request with its command, its code and the length of its operands in bytes. -/
def requestTable : List (ReqCode × Instr × Byte × Nat) :=
  [(.readPoint, .readPoint, 0x01, 2), (.readSlice, .readSlice, 0x02, 2), (.readBay, .readBay, 0x03, 1),
   (.readSummary, .readSummary, 0x04, 0), (.readDevice, .readDevice, 0x05, 0), (.readSettings, .readSettings, 0x06, 0),
   (.lookupSerial, .lookupSerial, 0x07, 3), (.setCursor, .setCursor, 0x08, 2), (.readNext, .readNext, 0x09, 0),
   (.readStrays, .readStrays, 0x0A, 0), (.report, .report, 0x10, 7), (.takePolls, .takePolls, 0x11, 2)] ++
  [(.acknowledge, .acknowledge, 0x20, 2), (.resetPoint, .resetPoint, 0x21, 2), (.isolate, .isolate, 0x22, 2),
   (.restore, .restore, 0x23, 2), (.setMode, .setMode, 0x24, 2), (.holdBay, .holdBay, 0x25, 1),
   (.releaseBay, .releaseBay, 0x26, 0), (.subscribe, .subscribe, 0x30, 0), (.subscribeFrom, .subscribeFrom, 0x31, 2),
   (.unsubscribe, .unsubscribe, 0x32, 0), (.readChanges, .readChanges, 0x33, 1), (.readEvents, .readEvents, 0x34, 0),
   (.clearEvents, .clearEvents, 0x35, 2), (.setEventMask, .setEventMask, 0x36, 2)] ++
  [(.snapshotRange, .snapshotRange, 0x40, 2), (.snapshotStart, .snapshotStart, 0x41, 0),
   (.snapshotRead, .snapshotRead, 0x42, 2), (.snapshotRelease, .snapshotRelease, 0x43, 0), (.enrol, .enrol, 0x50, 6),
   (.withdraw, .withdraw, 0x51, 2), (.repair, .repair, 0x52, 6), (.setBay, .setBay, 0x53, 2),
   (.bindSenders, .bindSenders, 0x54, 2), (.setMask, .setMask, 0x55, 3), (.setTiming, .setTiming, 0x56, 8),
   (.lock, .lock, 0x57, 0), (.sweepStep, .sweepStep, 0x58, 0), (.clearStrays, .clearStrays, 0x59, 0),
   (.portReset, .portReset, 0x60, 0)]

/-- Commands that are taken while the part is in reset (R2, R13, R188). -/
def takenInReset : Instr → Bool
  | .powerOn _ => true
  | .resetLine => true
  | .rstAssertion => true
  | .powerRemoval => true
  | .storageUpset _ _ => true
  | _ => false

/-- No field but those of the point image (records, enrolment map, poll queues, ring, snapshot records, ports) and the
grant's own two differs. -/
def onlyImage (s t : State) : Prop :=
  ∃ points enrolMap strays polls ring nextSeq snapRecords ports lastGranted draws,
    t = { s with
      points := points, enrolMap := enrolMap, strays := strays, polls := polls, ring := ring, nextSeq := nextSeq
      snapRecords := snapRecords, ports := ports, lastGranted := lastGranted, draws := draws }

end Sys2Proof.Claims

open Sys2Proof Sys2Proof.Machine Sys2Proof.Claims

/-! ### The queue, and which commands do anything -/

/-- The command at the front of the queue is carried out on the state with the queue's rest. On an empty queue the
block idles (the model's choice, log 3). -/
def Obligations.StepRunsFrontCommand : Prop :=
  (∀ (s : State) (c : Instr) (rest : List Instr), s.pending = c :: rest →
    step s = exec c { s with pending := rest }) ∧
  (∀ s : State, s.pending = [] → step s = .next s)

/-- No command ends in a fault or a refusal, and none touches the queue (the spec names no command that stops the part;
every refusal it names is an outcome in a response). -/
def Obligations.EveryCommandAnswersNext : Prop :=
  ∀ (c : Instr) (s : State), ∃ t, exec c s = .next t ∧ t.pending = s.pending

/-- A command that names an event that cannot take place leaves the state as it is (the model's choice, log 2): a
request that is not the arbiter's next grant, an end of a unit that no block can take yet, an expiry that is not due,
and, while the part is in reset (R188), everything but power, RST and storage upsets. Each of these conditions is
spelled out on the state. -/
def Obligations.EventsNotDueChangeNothing : Prop :=
  (∀ (code : ReqCode) (s : State), s.grantOf code = none → exec code.command s = .next s) ∧
  (∀ (b : TimeBlock) (s : State), b ∉ s.owes → s.unitDone = false → exec (.timebaseUnitEnd b) s = .next s) ∧
  (∀ s : State, s.completesPeriod = false → exec .periodicSweepStep s = .next s) ∧
  (∀ s : State, s.snap.isCopying = false → exec .copyStep s = .next s) ∧
  (∀ (s : State) (l : Loc), (∀ c, s.content l = some c → s.confirmationDue c = false) →
    exec (.confirmationTimerExpiry l) s = .next s) ∧
  (∀ (s : State) (b : Bay), (s.bay b).serviceOut = false → exec (.serviceTimerExpiry b) s = .next s) ∧
  (∀ (s : State) (p : Port), s.holdOut p = false → exec (.holdTimerExpiry p) s = .next s) ∧
  (∀ s : State, s.snap.keepOut = false → exec .keepTimerExpiry s = .next s) ∧
  (∀ (c : Instr) (s : State), s.inService = false → takenInReset c = false → exec c s = .next s) ∧
  (∀ s : State, s.inService = true ↔ s.phase = .running ∧ s.rst = false) ∧
  (∀ (s : State) (c : PointContent), s.confirmationDue c = true ↔
    c.condition = .pending ∧ ∃ f, c.confirmation = some f ∧ f.deadline = s.count) ∧
  (∀ x : BayRecord, x.serviceOut = true ↔ ∃ t, x.mode = .service t ∧ t.runOut = true) ∧
  (∀ (s : State) (p : Port), s.holdOut p = true ↔ ∃ h, s.hold p = some h ∧ h.timer.runOut = true) ∧
  (∀ x : SnapState, x.keepOut = true ↔ ∃ o m c t, x = .ready o m c t ∧ t.runOut = true) ∧
  (∀ x : SnapState, x.isCopying = true ↔ ∃ o m c b, x = .copying o m c b) ∧
  (∀ s : State, s.completesPeriod = true ↔
    s.timing.sweepPeriod ≠ 0 ∧ s.timing.sweepPeriod.toNat ≤ s.prescaler + 1)

/-! ### Power and resets -/

/-- POWER_ON from any state: every piece of state at the value its rule gives for power-on. -/
def Obligations.PowerOnGivesPowerOnValues : Prop :=
  ∀ (s : State) (strap : BitVec 2), ∃ t, exec (.powerOn strap) s = .next t ∧
    t.strap = strap ∧ t.fittedCount = 8 * (strap.toNat + 1) ∧ t.startCause = .powerOn ∧ t.locked = false ∧
    t.rst = s.rst ∧ (t.inService = true ↔ s.rst = false) ∧
    t.count = 0 ∧ t.unitInGroup = 0 ∧ t.owes = [] ∧ t.prescaler = 0 ∧ t.counter = 0 ∧
    (∀ l, t.content l = none) ∧ t.enrolMap = [] ∧
    (∀ b, t.bay b = { mode := .normal, partner := none, owed := false }) ∧
    t.bound = ⟨0x02, 0x04, 0x08, 0x10⟩ ∧ (∀ n a, (t.masks.get n).get a = 0x1F) ∧
    t.timing = { sweepPeriod := 25, pollAge := 2, missingAge := 4, confirmNormal := 20, confirmService := 90,
                 serviceLimit := 180, holdLimit := 20, snapshotKeep := 60 } ∧
    t.strays = [] ∧ (∀ n, t.polls.get n = []) ∧ (∀ p, t.hold p = none) ∧ t.deferrals = [] ∧
    t.ring = [] ∧ t.nextSeq = 0 ∧
    t.snap = .idle ∧ t.snapFirst.val = 0 ∧ t.snapLast.val + 1 = t.fittedCount ∧ t.snapRecords = [] ∧
    (∀ p, t.port p = { slot := .empty, copy := none, cursor := ⟨0, 0⟩, sub := none, flags := 0x100, mask := 0x1FF,
                       holdEnd := .none }) ∧
    t.lastGranted = .p3

/-- The release of RST on a part that has run: what the reset line keeps, and every other state at its reset-line value;
each enrolled record as Table 1.3 has it, with a fresh check code. On a part whose power-on ended under RST the release
only ends the reset. -/
def Obligations.ResetLineGivesResetLineValues : Prop :=
  (∀ s : State, s.phase = .running → ∃ t, exec .resetLine s = .next t ∧
    t.inService = true ∧ t.startCause = .resetLine ∧ t.locked = false ∧
    t.strap = s.strap ∧ t.enrolMap = s.enrolMap ∧ t.bound = s.bound ∧ t.masks = s.masks ∧ t.timing = s.timing ∧
    (∀ b, t.bay b = { mode := .normal, partner := (s.bay b).partner, owed := false }) ∧
    (∀ l, t.content l = (s.content l).map (fun c =>
      { serial := c.serial, kind := c.kind, suspect := c.suspect,
        condition := if c.suspect then .fault .integrity else .unheard,
        lastSeq := none, age := 0, heardStopped := false, battery := none, links := [], ack := none,
        isolation := none, confirmation := none, clearSeen := false })) ∧
    (∀ (l : Loc) (e : PointRecord), t.points.find l.key = some e → e.codeHolds = true ∧ e.written = e.content) ∧
    t.count = 0 ∧ t.unitInGroup = 0 ∧ t.owes = [] ∧ t.prescaler = 0 ∧ t.counter = 0 ∧
    t.strays = [] ∧ (∀ n, t.polls.get n = []) ∧ (∀ p, t.hold p = none) ∧ t.deferrals = [] ∧
    t.ring = [] ∧ t.nextSeq = 0 ∧
    t.snap = .idle ∧ t.snapFirst.val = 0 ∧ t.snapLast.val + 1 = t.fittedCount ∧ t.snapRecords = [] ∧
    (∀ p, t.port p = { slot := .empty, copy := none, cursor := ⟨0, 0⟩, sub := none, flags := 0x100, mask := 0x1FF,
                       holdEnd := .none }) ∧
    t.lastGranted = .p3) ∧
  (∀ s : State, s.phase = .powerOnUnderRst →
    exec .resetLine s = .next { s with rst := false, phase := .running }) ∧
  (∀ s : State, s.phase = .unpowered → exec .resetLine s = .next { s with rst := false })

/-- The assertion of RST and the removal of power: the part is in reset, every transaction is abandoned and every line
is deasserted; under RST the rest of the state stands until the release. What a part without power holds is the model's
choice (log 17). -/
def Obligations.RstAndPowerRemovalPutInReset : Prop :=
  (∀ s : State, exec .rstAssertion s =
    .next { s with rst := true, ports := s.ports.map (fun _ q => { q with copy := none }) }) ∧
  (∀ s : State, ∃ t, exec .powerRemoval s = .next t ∧ t.phase = .unpowered ∧ ∀ p, (t.port p).copy = none) ∧
  (∀ (c : Instr) (s t : State), (c = .rstAssertion ∨ c = .powerRemoval) → exec c s = .next t →
    t.inService = false ∧ t.fireLine = false ∧ t.faultLine = false ∧ ∀ p, t.attnLine p = false)

/-! ### Transactions and the arbiter -/

/-- Of the bits clocked in, the whole bytes count, most significant bit first. The fall of chip select takes a copy of
the slot; the transaction shifts out the frame of that copy, then 00h, whatever the slot becomes. The rise acts by the
copy: DONE is collected when a byte was clocked, and a request is then taken; on EMPTY a request is taken; on WAITING
nothing is taken. A first byte 00h carries no request; nor, by the model's choice (log 27), does a transaction of which
no byte was clocked whole. -/
def Obligations.TransactionsActByTheCopy : Prop :=
  (∀ (bytes : List Byte) (tail : List Bool), tail.length < 8 → wholeBytes (bytes.flatMap bitsOf ++ tail) = bytes) ∧
  (∀ (s : State) (p : Port), s.inService = true → (s.port p).copy = none →
    exec (.transactionBegin p) s = .next (withPort s p (fun q => { q with copy := some q.slot }))) ∧
  (∀ (s : State) (p : Port) (copy : Slot) (k : Nat), (s.port p).copy = some copy →
    s.sdo p k = some ((responseFrame copy).getD k 0x00)) ∧
  (∀ (s : State) (p : Port) (sdi : List Bool) (copy : Slot), s.inService = true → (s.port p).copy = some copy →
      exec (.transactionEnd p sdi) s = .next (withPort s p (fun q =>
        let taken (old : Slot) : Slot :=
          if (wholeBytes sdi).getD 0 0 = 0 then old else arrival (s.bound.get p) (wholeBytes sdi)
        { q with
          copy := none
          slot := match copy with
            | .waiting _ => q.slot
            | .empty => taken q.slot
            | .done _ => if wholeBytes sdi = [] then q.slot else taken .empty })))

/-- A frame of Table 10.2 sent bit by bit, with whatever is clocked after its check byte, makes the slot WAITING with
exactly the tag, code, sender and operands sent, when the sender is bound and nothing was waiting. -/
def Obligations.RequestFrameArrivesWhole : Prop :=
  ∀ (s : State) (p : Port) (copy : Slot) (code : ReqCode) (tag : Byte) (n : Sender) (ops more : List Byte)
    (tail : List Bool),
    s.inService = true → (s.port p).copy = some copy → (∀ r, copy ≠ .waiting r) →
    ops.length = code.operandLength → (s.bound.get p).has n = true → tail.length < 8 →
    exec (.transactionEnd p ((requestFrame code tag n ops ++ more).flatMap bitsOf ++ tail)) s =
      .next (withPort s p (fun q =>
        { q with copy := none, slot := .waiting { tag := tag, code := code, sender := n, operands := ops } }))

/-- Refusals on arrival: FRAME for an unknown code, a wrong operand length, a missing or a wrong check byte; then SENDER
for a sender not in the port's bound set. Each response carries the tag and code as shifted in, and no payload. The 41
requests have the codes and the operand lengths of Table 10.5, and a sender set holds sender s at bit s. -/
def Obligations.BadFramesRefusedOnArrival : Prop :=
  (∀ c : ReqCode, (c, c.command, c.code, c.operandLength) ∈ requestTable) ∧
  requestTable.length = 41 ∧ (requestTable.map (·.1)).Nodup ∧
  (∀ (set : SenderSet) (n : Sender), set.has n = set.getLsbD n.number) ∧
  ∀ (bound : SenderSet) (bytes : List Byte),
    let back (r : Result) : Slot := .done { tag := bytes.getD 1 0, code := bytes.getD 0 0, result := r, payload := [] }
    ((∀ c : ReqCode, c.code ≠ bytes.getD 0 0) → arrival bound bytes = back .frame) ∧
    (∀ c : ReqCode, c.code = bytes.getD 0 0 →
      (((bytes.getD 3 0).toNat ≠ c.operandLength ∨ bytes.length < 5 + c.operandLength ∨
          bytes.getD (4 + c.operandLength) 0 ≠ crc8 (bytes.take (4 + c.operandLength))) →
        arrival bound bytes = back .frame) ∧
      (((bytes.getD 3 0).toNat = c.operandLength ∧ 5 + c.operandLength ≤ bytes.length ∧
          bytes.getD (4 + c.operandLength) 0 = crc8 (bytes.take (4 + c.operandLength))) →
        (∀ n : Sender, n.number = (bytes.getD 2 0).toNat → bound.has n = false) →
        arrival bound bytes = back .sender))

/-- Every response frame ends in its check byte (the register of R183 is 0 after the whole frame), the nine bytes 31h to
39h give F4h, and a frame shows the slot's state, tag, code, outcome, payload length and payload. -/
def Obligations.ResponseFramesCarryCheckByte : Prop :=
  crc8 [0x31, 0x32, 0x33, 0x34, 0x35, 0x36, 0x37, 0x38, 0x39] = 0xF4 ∧
  (∀ copy : Slot, crc8 (responseFrame copy) = 0) ∧
  responseFrame .empty = [0, 0, 0, 0, 0, 0] ∧
  (∀ r : Request, (responseFrame (.waiting r)).take 5 = [0x01, r.tag, r.code.code, 0, 0]) ∧
  (∀ r : Response, (responseFrame (.done r)).take (5 + r.payload.length) =
    [0x02, r.tag, r.code, r.result.code, byteOf r.payload.length] ++ r.payload ∧
    (responseFrame (.done r)).length = 6 + r.payload.length)

/-- The arbiter grants the first WAITING port from the port after the last-granted one, and so brings every other
WAITING port nearer to its grant: at most three grants stand before it. -/
def Obligations.ArbiterGrantsRoundRobin : Prop :=
  (∀ (s : State) (p : Port) (r : Request), s.nextGrant = some (p, r) ↔
    (s.port p).slot = .waiting r ∧
    ∃ k, k < 4 ∧ p.number = (s.lastGranted.number + 1 + k) % 4 ∧
      ∀ (j : Nat) (q : Port) (r' : Request), j < k → q.number = (s.lastGranted.number + 1 + j) % 4 →
        (s.port q).slot ≠ .waiting r') ∧
  (∀ (s : State) (p q : Port) (r r' : Request), (s.port p).slot = .waiting r → s.nextGrant = some (q, r') → q ≠ p →
    (p.number + 3 - q.number) % 4 < (p.number + 3 - s.lastGranted.number) % 4) ∧
  (∀ (s : State) (p : Port) (r : Request) (code : ReqCode), s.grantOf code = some (p, r) ↔
    s.inService = true ∧ s.nextGrant = some (p, r) ∧ r.code = code)

/-- Whichever of the 41 requests is granted: its port becomes the last-granted one, and its slot DONE with a response to
this request, whose payload fits a frame; no other port's slot and no transaction under way is touched. -/
def Obligations.GrantPlacesResponse : Prop :=
  ∀ (code : ReqCode) (s : State) (p : Port) (r : Request), s.grantOf code = some (p, r) → s.straysSound →
    ∃ t result payload, exec code.command s = .next t ∧ t.lastGranted = p ∧
      (t.port p).slot = .done { tag := r.tag, code := code.code, result := result, payload := payload } ∧
      payload.length ≤ 96 ∧ (t.port p).copy = (s.port p).copy ∧
      ∀ q, q ≠ p → (t.port q).slot = (s.port q).slot ∧ (t.port q).copy = (s.port q).copy

/-! ### Reads -/

/-- READ-SETTINGS, READ-STRAYS, READ-EVENTS and READ-DEVICE need the binding alone, change nothing but the slot, and
answer DONE with the bytes their rules list. That the 28 masks of READ-SETTINGS stand sender by sender, the area varying
fastest, is the model's reading of R191 (log 21). -/
def Obligations.PlainReadsAnswerTheirState : Prop :=
  ∀ (s : State) (p : Port) (r : Request),
    (s.grantOf .readSettings = some (p, r) →
      exec .readSettings s = .next (answered (granted s p) p r .done
        ([s.timing.sweepPeriod, s.timing.pollAge, s.timing.missingAge, s.timing.confirmNormal, s.timing.confirmService,
          s.timing.serviceLimit, s.timing.holdLimit, s.timing.snapshotKeep, if s.locked then 0x01 else 0x00,
          s.bound.p0, s.bound.p1, s.bound.p2, s.bound.p3] ++
          [s.masks.s1, s.masks.s2, s.masks.s3, s.masks.s4, s.masks.s5, s.masks.s6, s.masks.s7].flatMap
            (fun m => [m.a0, m.a1, m.a2, m.a3].map (fun g => g.setWidth 8))))) ∧
    (s.grantOf .readStrays = some (p, r) →
      exec .readStrays s = .next (answered (granted s p) p r .done
        (s.strays.flatMap (fun e =>
          bytes3 e.serial ++ [byteOf e.sender.number, byteOf e.margin.val, e.count, e.lastKind.code])))) ∧
    (s.grantOf .readEvents = some (p, r) →
      exec .readEvents s = .next (answered (granted s p) p r .done
        (bytes2 (((s.port p).flags &&& (s.port p).mask).setWidth 16) ++ [(s.port p).holdEnd.code]))) ∧
    (s.grantOf .readDevice = some (p, r) →
      exec .readDevice s = .next (answered (granted s p) p r .done
        ([s.startCause.code, if s.locked then 0x01 else 0x00, byteOf s.fittedCount, s.timing.sweepPeriod,
          byteOf s.counter.val] ++
         (match s.snap with
          | .idle => [0x00, 0xFF, 0x00, 0x00]
          | .copying o m _ _ => [0x01, byteOf o.number] ++ bytes2 m
          | .ready o m _ _ => [0x02, byteOf o.number] ++ bytes2 m) ++
         bytes2 s.nextSeq ++
         [s.holds.p0, s.holds.p1, s.holds.p2, s.holds.p3].flatMap (fun h => match h with
          | some h => [byteOf h.bay.val, byteOf h.timer.left]
          | none => [0xFF, 0x00]))))

/-- READ-BAY of a fitted bay and READ-SUMMARY change nothing but the slot and answer DONE with the fields of Table 1.7,
and with the counts and lines; READ-BAY of any other bay is answered RANGE. The six counts are those of Table 1.8, each
point taken as the part last wrote its record (log 11). -/
def Obligations.BayAndSummaryReads : Prop :=
  (∀ c : PointContent,
    let troubled : Prop := c.condition = .missing ∨ ∃ x, c.condition = .fault x
    (c.inAlarmCount = true ↔ c.isolation = none ∧ c.condition = .alarm) ∧
    (c.inTroubleCount = true ↔ c.isolation = none ∧ (c.suspect = true ∨ troubled)) ∧
    (c.inPendingCount = true ↔ c.condition = .pending) ∧ (c.inIsolatedCount = true ↔ c.isolation ≠ none) ∧
    (c.inUnackCount = true ↔ c.isolation = none ∧ c.ack = none ∧ (c.condition = .alarm ∨ troubled)) ∧
    c.inEnrolledCount = true) ∧
  (∀ s : State, s.alarmCount = s.countOf (·.inAlarmCount) ∧ s.troubleCount = s.countOf (·.inTroubleCount) ∧
    s.pendingCount = s.countOf (·.inPendingCount) ∧ s.isolatedCount = s.countOf (·.inIsolatedCount) ∧
    s.unackCount = s.countOf (·.inUnackCount) ∧ s.enrolledCount = s.countOf (·.inEnrolledCount)) ∧
  (∀ (s : State) (f : PointContent → Bool), s.countOf f = s.points.countP (fun e => f e.2.written) ∧
    ∀ b : Bay, s.bayCountOf b f = s.points.countP (fun e => decide (e.1 / 16 = b.val) && f e.2.written)) ∧
  ∀ (s : State) (p : Port) (r : Request),
    (s.grantOf .readBay = some (p, r) → ∀ b : Bay, r.op 0 = byteOf b.val → s.fitted b = true →
      exec .readBay s = .next (answered (granted s p) p r .done
        ([byteOf b.val, byteOf (b.val / 8)] ++
         (match (s.bay b).mode with
          | .normal => [0x21, 0x00, 0x00, 0x00]
          | .service t => [0x22] ++ bytes3 (BitVec.ofNat 24 t.left)
          | .works => [0x23, 0x00, 0x00, 0x00]) ++
         [(match (s.bay b).partner with
          | some q => byteOf q.val
          | none => 0xFF)] ++
         (match s.holder b with
          | some q => [byteOf q.number, (match s.hold q with
            | some h => byteOf h.timer.left
            | none => 0x00)]
          | none => [0xFF, 0x00]) ++
         [if (s.bay b).owed then 0x01 else 0x00] ++
         [byteOf (s.bayCountOf b (·.inAlarmCount)), byteOf (s.bayCountOf b (·.inTroubleCount)),
          byteOf (s.bayCountOf b (·.inPendingCount)), byteOf (s.bayCountOf b (·.inIsolatedCount)),
          byteOf (s.bayCountOf b (·.inUnackCount)), byteOf (s.bayCountOf b (·.inEnrolledCount))]))) ∧
    (s.grantOf .readBay = some (p, r) → (∀ b : Bay, r.op 0 = byteOf b.val → s.fitted b = false) →
      exec .readBay s = .next (answered (granted s p) p r .range [])) ∧
    (s.grantOf .readSummary = some (p, r) →
      exec .readSummary s = .next (answered (granted s p) p r .done
        ([s.alarmCount, s.troubleCount, s.pendingCount, s.isolatedCount, s.unackCount, s.enrolledCount].flatMap
          (fun n => bytes2 (BitVec.ofNat 16 n)) ++
         [(if s.alarmCount = 0 then 0x00 else 0x01) ||| (if s.troubleCount = 0 then 0x00 else 0x02)])))

/-- READ-POINT: RANGE out of range, ABSENT where nothing is enrolled, DONE with the record where it verifies, and where it
does not the failure is handled and the answer is SUSPECT with the rebuilt record. -/
def Obligations.ReadPointOutcomes : Prop :=
  ∀ (s : State) (p : Port) (r : Request), s.grantOf .readPoint = some (p, r) →
    exec .readPoint s = .next (match r.loc? with
      | none => answered (granted s p) p r .range []
      | some l => match s.content l with
        | none => answered (granted s p) p r .absent []
        | some c =>
          if s.verified l then answered (granted s p) p r .done (pointBytes (s.draws + 1) s.count l c)
          else answered (fired s ((granted s p).handleFailure l)) p r .suspect
            (pointBytes (s.draws + 1) s.count l c.rebuilt))

/-- READ-SLICE, its field read by its code: RANGE for a bay or field out of range; sixteen values ABSENT for an unfitted
bay; for a fitted one every failed record is handled in point order, each value is taken after that, and the answer is
SUSPECT when one had failed. The second byte of ABSENT is 00h, and in the best-margin slice free (the model's choice,
log 10). -/
def Obligations.ReadSliceOutcomes : Prop :=
  (∀ (x : Byte) (f : SliceField), SliceField.ofByte? x = some f ↔ f.code = x) ∧
  (∀ b : Bay, b.locs = (List.finRange 16).map (fun n => ⟨b, n⟩)) ∧
  ∀ (s : State) (p : Port) (r : Request), s.grantOf .readSlice = some (p, r) →
    exec .readSlice s = .next (match Bay.ofByte? (r.op 0), SliceField.ofByte? (r.op 1) with
      | some b, some f =>
        let absent (l : Loc) : List Byte :=
          [0xFE, if f = .bestMargin then Config.sliceFill (s.draws + 1) l.point else 0x00]
        if s.fitted b then
          let u := b.locs.foldl (fun u l => if u.verified l then u else u.handleFailure l) (granted s p)
          answered (fired s u) p r (if b.locs.all s.verified then .done else .suspect)
            (b.locs.flatMap (fun l => match s.content l with
              | none => absent l
              | some c => sliceBytes (s.draws + 1) l.point f (if s.verified l then c else c.rebuilt)))
        else answered (granted s p) p r .done (b.locs.flatMap absent)
      | _, _ => answered (granted s p) p r .range [])

/-- LOOKUP-SERIAL: RANGE for an invalid serial, ABSENT when the map has no entry, DONE with the location of a record that
passes, SUSPECT with the location of one that fails and is handled. SET-CURSOR places the port's cursor in a fitted bay,
else RANGE; READ-NEXT answers the first enrolled record from the cursor on, in bay-major order with wrap, as READ-POINT
would, and leaves the cursor after it, or answers ABSENT. -/
def Obligations.LookupAndCursorRequests : Prop :=
  (∀ l : Loc, l.key = 16 * l.bay.val + l.point.val ∧ Loc.ofKey l.key = l) ∧ (∀ k, Loc.ofKey (k + 512) = Loc.ofKey k) ∧
  (∀ (s : State) (p : Port) (r : Request), s.grantOf .lookupSerial = some (p, r) →
      ((r.op3 0 = 0 ∨ r.op3 0 = 0xFFFFFF) → exec .lookupSerial s = .next (answered (granted s p) p r .range [])) ∧
      (r.op3 0 ≠ 0 → r.op3 0 ≠ 0xFFFFFF → s.enrolMap.find (r.op3 0).toNat = none →
        exec .lookupSerial s = .next (answered (granted s p) p r .absent [])) ∧
      (∀ l e, r.op3 0 ≠ 0 → r.op3 0 ≠ 0xFFFFFF → s.enrolMap.find (r.op3 0).toNat = some l →
        s.points.find l.key = some e →
        exec .lookupSerial s = .next (
          if e.codeHolds = true ∧ e.content.suspect = false ∧ e.content.serial = r.op3 0 then
            answered (granted s p) p r .done [byteOf l.bay.val, byteOf l.point.val]
          else answered (fired s ((granted s p).handleFailure l)) p r .suspect [byteOf l.bay.val, byteOf l.point.val]))) ∧
  (∀ (s : State) (p : Port) (r : Request),
      (s.grantOf .setCursor = some (p, r) →
        exec .setCursor s = .next (match r.loc? with
          | none => answered (granted s p) p r .range []
          | some l =>
            if s.fitted l.bay then answered (withPort (granted s p) p (fun q => { q with cursor := l })) p r .done []
            else answered (granted s p) p r .range [])) ∧
      (s.grantOf .readNext = some (p, r) → (∀ l, s.content l = none) →
        exec .readNext s = .next (answered (granted s p) p r .absent [])) ∧
      (∀ (k : Nat) (l : Loc) (c : PointContent), s.grantOf .readNext = some (p, r) → k < 512 →
        l = Loc.ofKey ((s.port p).cursor.key + k) → s.content l = some c →
        (∀ j, j < k → s.content (Loc.ofKey ((s.port p).cursor.key + j)) = none) →
        exec .readNext s = .next (
          let u := if s.verified l then granted s p else (granted s p).handleFailure l
          answered (fired s (withPort u p (fun q => { q with cursor := Loc.ofKey (l.key + 1) }))) p r
            (if s.verified l then .done else .suspect)
            (pointBytes (s.draws + 1) s.count l (if s.verified l then c else c.rebuilt)))))

/-- The layouts of a point record, a change record, a poll item and a slice value of each field as masters read them,
byte by byte, and the codes of the values of Table 10.4, outcomes, report kinds, hold-end reasons and start causes among
them; a number of more than one byte most significant byte first. Elapsed and remaining beyond two bytes are free (log
9) and are not claimed here; the second byte of NONE in the best-margin slice is free (the model's choice, log 10). -/
def Obligations.RecordLayouts : Prop :=
  (∀ (draw : Nat) (now : Count) (l : Loc) (c : PointContent), c.links.length ≤ 3 →
    (∀ f, c.confirmation = some f → (now - f.start).toNat < 65536 ∧ (f.deadline - now).toNat < 65536) →
    (pointBytes draw now l c).length = 28 ∧
    (pointBytes draw now l c).take 19 =
      [byteOf l.bay.val, byteOf l.point.val,
       byteOf ((if c.lastSeq = none then 0 else 1) + (if c.battery = none then 0 else 2) +
         (if c.ack = none then 0 else 4) + (if c.isolation = none then 0 else 8) +
         (if c.confirmation = none then 0 else 16))] ++
      bytes3 c.serial ++
      [c.kind.code, c.condition.code,
       byteOf ((if c.suspect then 1 else 0) + (if c.heardStopped then 2 else 0) + (if c.clearSeen then 4 else 0)),
       c.lastSeq.getD 0, byteOf c.age.val, ((c.battery.map Battery.code).getD 0),
       byteOf ((c.ack.map Sender.number).getD 0), byteOf ((c.isolation.map Sender.number).getD 0)] ++
      (match c.confirmation with
        | none => [0, 0, 0, 0]
        | some f => bytes2 ((now - f.start).setWidth 16) ++ bytes2 ((f.deadline - now).setWidth 16)) ++
      [byteOf c.links.length] ∧
    (pointBytes draw now l c).drop 19 =
      c.links.flatMap (fun k => [byteOf k.sender.number, byteOf k.margin.val, byteOf k.age.val]) ++
        List.replicate (9 - 3 * c.links.length) 0) ∧
  (∀ e : ChangeRecord, changeBytes e =
    bytes2 e.seq ++
    [e.body.kind.code, ((e.body.bay.map (fun b => byteOf b.val)).getD 0xFF),
     ((e.body.point.map (fun n => byteOf n.val)).getD 0xFF), ((e.body.old.map ChangeValue.code).getD 0),
     ((e.body.new.map ChangeValue.code).getD 0), e.body.cause.code, byteOf ((e.body.doneBy.map Sender.number).getD 0)] ++
    bytes3 (e.body.serial.getD 0)) ∧
  (∀ i : PollItem, pollBytes i =
    [byteOf i.loc.bay.val, byteOf i.loc.point.val] ++ bytes3 i.serial ++
      [byteOf i.ageAtEntry.val, if i.reason = .first then 0x01 else 0x02]) ∧
  (∀ (draw : Nat) (n : Fin 16) (f : SliceField) (c : PointContent), sliceBytes draw n f c = match f with
    | .condition => [c.condition.code, 0x00]
    | .age => [byteOf c.age.val, 0x00]
    | .acknowledgement => [(c.ack.map (fun x => byteOf x.number)).getD 0xFF, 0x00]
    | .isolation => [(c.isolation.map (fun x => byteOf x.number)).getD 0xFF, 0x00]
    | .battery => [(c.battery.map Battery.code).getD 0xFF, 0x00]
    | .bestMargin => match c.links with
      | k :: _ => [byteOf k.margin.val, byteOf k.sender.number]
      | [] => [0xFF, Config.sliceFill draw n]) ∧
  [Condition.unheard, .quiet, .watch, .pending, .alarm, .missing, .fault .device, .fault .removed, .fault .battery,
    .fault .integrity].map Condition.code = [0x01, 0x02, 0x03, 0x04, 0x05, 0x07, 0x11, 0x12, 0x13, 0x14] ∧
  [PointKind.smoke, .heat, .multi, .call].map PointKind.code = [0x01, 0x02, 0x03, 0x04] ∧
  [Battery.good, .low, .critical].map Battery.code = [0x01, 0x02, 0x03] ∧
  [ModeName.normal, .service, .works].map (fun m => (ChangeValue.mode m).code) = [0x21, 0x22, 0x23] ∧
  (∀ x, (ChangeValue.cond x).code = x.code) ∧
  [RecordKind.condition, .ack, .reset, .isolate, .restore, .mode, .suppressed, .lateFault, .battery, .enrol, .withdraw,
    .repair, .integrity, .strayAlarm, .rewarm, .lock].map RecordKind.code =
      [0x01, 0x02, 0x03, 0x04, 0x05, 0x06, 0x07, 0x08, 0x09, 0x0A, 0x0B, 0x0C, 0x0D, 0x0E, 0x0F, 0x10] ∧
  [Cause.report, .sweep, .timer, .request, .coincidence, .mode, .integrity].map Cause.code =
    [0x01, 0x02, 0x03, 0x04, 0x05, 0x06, 0x07] ∧
  [SliceField.condition, .age, .acknowledgement, .isolation, .battery, .bestMargin].map SliceField.code =
    [0x01, 0x02, 0x03, 0x04, 0x05, 0x06] ∧
  [Result.done, .accepted, .duplicate, .stale, .deferred, .unknown, .frame, .sender, .masked, .locked, .range, .absent,
    .state, .held, .notHeld, .busy, .notOwner, .already, .notAcked, .notClear, .duplicateSerial, .suspect,
    .bad].map Result.code =
      [0x01, 0x02, 0x03, 0x04, 0x05, 0x06, 0x10, 0x11, 0x12, 0x13, 0x14, 0x20, 0x21, 0x22, 0x23, 0x24, 0x25, 0x30, 0x31,
       0x32, 0x33, 0x40, 0x41] ∧
  [ReportKind.status, .prealarm, .alarm, .cleared, .devfault, .removed].map ReportKind.code =
    [0x01, 0x02, 0x03, 0x04, 0x05, 0x06] ∧
  [HoldEnd.none, .expired, .fireReport, .deferralFull].map HoldEnd.code = [0x00, 0x01, 0x02, 0x03] ∧
  [StartCause.powerOn, .resetLine].map StartCause.code = [0x01, 0x02] ∧
  [Sender.s1, .s2, .s3, .s4, .s5, .s6, .s7].map Sender.number = [1, 2, 3, 4, 5, 6, 7] ∧
  [Port.p0, .p1, .p2, .p3].map Port.number = [0, 1, 2, 3] ∧
  (∀ l : Loc, locBytes l = [byteOf l.bay.val, byteOf l.point.val]) ∧ (∀ x : Byte, byteOf x.toNat = x) ∧
  (∀ x y : Byte, bytes2 (x ++ y) = [x, y]) ∧ (∀ x y z : Byte, bytes3 (x ++ (y ++ z)) = [x, y, z]) ∧
  (∀ x y z w : Byte, bytes4 (x ++ (y ++ (z ++ w))) = [x, y, z, w])

/-! ### Reports and polls -/

/-- A REPORT is read as serial (3 bytes), sequence, kind, battery class and margin, with the request's sender. One with
an operand out of range, from a sender without any RADIO right, or without RADIO in the area of the point found, is
refused and changes nothing; a REPORT from an unknown serial, or from one whose record fails at this lookup, is recorded
as a stray and answered UNKNOWN, an ALARM with its STRAY-ALARM record and STRAY on every port. -/
def Obligations.ReportRefusedOrStray : Prop :=
  ∀ (s : State) (p : Port) (r : Request), s.grantOf .report = some (p, r) →
    (r.report? = none ↔ (r.op3 0 = 0 ∨ r.op3 0 = 0xFFFFFF ∨ (r.op 4).toNat < 1 ∨ 6 < (r.op 4).toNat ∨
      (r.op 5).toNat < 1 ∨ 3 < (r.op 5).toNat ∨ 63 < (r.op 6).toNat)) ∧
    (∀ m, r.report? = some m → m.serial = r.op3 0 ∧ m.sequence = r.op 3 ∧ m.kind.code = r.op 4 ∧
      m.battery.code = r.op 5 ∧ m.margin.val = (r.op 6).toNat ∧ m.sender = r.sender) ∧
    (r.report? = none → exec .report s = .next (answered (granted s p) p r .range [])) ∧
    (∀ m, r.report? = some m → s.mayAnywhere m.sender .radio = false →
      exec .report s = .next (answered (granted s p) p r .masked [])) ∧
    (∀ m, r.report? = some m → s.mayAnywhere m.sender .radio = true → s.enrolMap.find m.serial.toNat = none →
      exec .report s = .next (answered (heard (granted s p) m) p r .unknown [])) ∧
    (∀ m l e, r.report? = some m → s.mayAnywhere m.sender .radio = true → s.enrolMap.find m.serial.toNat = some l →
      s.points.find l.key = some e →
      ¬ (e.codeHolds = true ∧ e.content.suspect = false ∧ e.content.serial = m.serial) →
      exec .report s = .next (answered (fired s (heard ((granted s p).handleFailure l) m)) p r .unknown [])) ∧
    (∀ m l, r.report? = some m → s.mayAnywhere m.sender .radio = true → knownAt s m.serial l →
      s.may m.sender .radio l.bay.area = false →
      exec .report s = .next (answered (granted s p) p r .masked []))

/-- A REPORT for a held bay, whichever port carries it: an ALARM breaks the hold with reason FIRE-REPORT; another kind is
deferred while the queue has room and else breaks the hold with DEFERRAL-FULL; after a break it goes on to the sequence
test against the point as the end of the hold left it. -/
def Obligations.ReportForHeldBay : Prop :=
  ∀ (s : State) (p o : Port) (r : Request) (m : Report) (l : Loc), s.grantOf .report = some (p, r) →
    r.report? = some m → knownAt s m.serial l → s.may m.sender .radio l.bay.area = true → s.holder l.bay = some o →
    (m.kind ≠ .alarm → s.deferrals.length < 16 →
      exec .report s = .next (answered
        { granted s p with deferrals := s.deferrals ++ [{ report := m, bay := l.bay }] } p r .deferred (locBytes l))) ∧
    ((m.kind = .alarm ∨ 16 ≤ s.deferrals.length) →
      let u := (granted s p).endHold o l.bay (some (if m.kind = .alarm then .fireReport else .deferralFull))
      ∃ c, u.content l = some c ∧
        exec .report s = .next (answered (fired s (match classOf c.lastSeq m.sequence with
          | .accepted => u.applyAccepted l m
          | .duplicate => u.applyDuplicate l m
          | _ => u)) p r (classOf c.lastSeq m.sequence) (locBytes l)))

/-- A REPORT for a known serial in a free bay is applied by its class and answered with it and the location. -/
def Obligations.ReportForFreeBay : Prop :=
  ∀ (s : State) (p : Port) (r : Request) (m : Report) (l : Loc) (c : PointContent), s.grantOf .report = some (p, r) →
    r.report? = some m → knownAt s m.serial l → s.may m.sender .radio l.bay.area = true → s.holder l.bay = none →
    s.content l = some c →
    exec .report s = .next (answered (fired s (match classOf c.lastSeq m.sequence with
      | .accepted => (granted s p).applyAccepted l m
      | .duplicate => (granted s p).applyDuplicate l m
      | _ => granted s p)) p r (classOf c.lastSeq m.sequence) (locBytes l))

/-- A STALE report changes nothing, and is answered STALE with the location; the same at every sequence test, of a
report after a break or at a drain too. -/
def Obligations.StaleReportChangesNothing : Prop :=
  (∀ (u : State) (m : Report) (l : Loc) (c : PointContent) (n : Byte), u.content l = some c → c.lastSeq = some n →
    128 ≤ (m.sequence - n).toNat → u.sequenceStep l m = (u, .stale)) ∧
  ∀ (s : State) (p : Port) (r : Request) (m : Report) (l : Loc) (c : PointContent) (n : Byte),
    s.grantOf .report = some (p, r) → r.report? = some m → knownAt s m.serial l →
    s.may m.sender .radio l.bay.area = true → s.holder l.bay = none → s.content l = some c → c.lastSeq = some n →
    128 ≤ (m.sequence - n).toNat →
    exec .report s = .next (answered (granted s p) p r .stale (locBytes l))

/-- The steps of an ACCEPTED report at its point, and those of a DUPLICATE: the copy first; sequence, age, mark, battery,
links; the point's poll items; then what the kind and the battery class hand over, one application after the other. -/
def Obligations.ReportApplicationSteps : Prop :=
  ∀ (s : State) (m : Report) (l : Loc) (c : PointContent), s.content l = some c →
    ∃ d, (s.copyBefore l).content l = some d ∧ d = atWrite s l c ∧
    (let u := s.copyBefore l
     let u1 := match d.battery with
      | some b =>
        if b = m.battery then u else u.append (record .battery l (some d.condition) none .report (some m.sender) none)
      | none => u
     let u2 := (u1.writePoint l { d with
        lastSeq := some m.sequence, age := 0,
        heardStopped := if s.timing.sweepPeriod = 0 then true else d.heardStopped,
        battery := some m.battery, links := updateLinks m.sender m.margin d.links }).pollsDrop l
     let own : Handover := match m.kind with
      | .status => .status | .prealarm => .prealarm | .alarm => .alarm | .cleared => .cleared
      | .devfault => .fault .device | .removed => .fault .removed
     s.applyAccepted l m =
      (if m.battery = .critical then
        (if m.kind = .status then u2.applyHandover l (.fault .battery) m.sender
         else (u2.applyHandover l own m.sender).applyHandover l (.fault .battery) m.sender)
       else u2.applyHandover l own m.sender) ∧
     s.applyDuplicate l m =
      (u.writePoint l { d with age := 0, links := updateLinks m.sender m.margin d.links }).pollsDrop l)

/-- One application of a handed-over report to its point: the condition of Table 4.2, the acknowledgement removed by a
change, the confirmation field written at an entry to PENDING and removed at a departure, clear-seen as R73 and R74
give, nothing else of the record; and its change record: CONDITION for a change, cause REPORT, or COINCIDENCE where
coincidence turned the entry to PENDING into one to ALARM; LATE-FAULT for a fault in PENDING or ALARM; SUPPRESSED for a
SMOKE or MULTI alarm or pre-alarm in a bay in WORKS; each by the report's sender, and none where nothing changes. An
entry to ALARM goes on to the promotions of the set. That the suspect mark of a PENDING point, which only an upset can
set, does not keep it from holding coincidence is the model's choice (log 29). -/
def Obligations.ApplicationFollowsTable42 : Prop :=
  ∀ (s : State) (l : Loc) (h : Handover) (n : Sender) (c : PointContent), s.content l = some c →
    let smokeType := c.kind == .smoke || c.kind == .multi
    let coincident := c.isolation.isNone && (s.coincidenceLocs l.bay).any (fun x => x ≠ l && s.holdsCoincidence x)
    let gap := match c.confirmation with
      | some f => 40 ≤ (s.count - f.start).toNat
      | none => false
    let confirmed := if c.condition = .pending then gap else coincident
    let new := table42 h smokeType confirmed c.condition
    let d : PointContent := { c with
      condition := new
      ack := if new = c.condition then c.ack else none
      confirmation :=
        if new = c.condition then c.confirmation
        else if new = .pending then some
          { start := s.count, deadline := s.count + BitVec.ofNat 32 (10 * (match (s.bay l.bay).mode with
              | .service _ => s.timing.confirmService.toNat
              | _ => s.timing.confirmNormal.toNat)) }
        else none
      clearSeen :=
        if h = .alarm ∧ new = .alarm then false
        else if h = .cleared ∧ c.condition = .alarm then true
        else c.clearSeen }
    let cause : Cause :=
      if smokeType = true ∧ h = .alarm ∧ new = .alarm ∧ c.condition ≠ .pending then .coincidence else .report
    let changed := (s.writePoint l d).append (record .condition l (some c.condition) (some new) cause (some n) none)
    let isFault : Bool := match h with
      | .fault _ => true
      | _ => false
    let late := isFault = true ∧ (c.condition = .pending ∨ c.condition = .alarm)
    if smokeType = true ∧ (s.bay l.bay).mode = .works ∧ (h = .alarm ∨ h = .prealarm) then
      s.applyHandover l h n = s.append (record .suppressed l (some c.condition) none .report (some n) none)
    else
      (s.applyHandover l h n).content l = some d ∧
      s.applyHandover l h n =
        (if new ≠ c.condition then
          (if new = .alarm ∧ c.isolation = none then promotions changed l n else changed)
        else if late then s.append (record .lateFault l (some c.condition) none .report (some n) none)
        else if c.condition = .alarm ∧ (h = .alarm ∨ h = .cleared) then s.writePoint l d
        else s)

/-- An entry to ALARM: the point's own content and CONDITION record first, then, unless it is isolated, the promotions,
which bring every other PENDING point of its coincidence set that is neither isolated nor suspect to ALARM with a
CONDITION record each, in bay-major order, and touch no other point; an isolated point's entry promotes nothing, and a
suspect point is never promoted (R87, Table 9.3). A PENDING point whose copy finds a failure is rebuilt and passed over
(R173). The coincidence set of a bay is its own points and its partner's; a point holds coincidence in PENDING or ALARM
when it is not isolated (for a suspect PENDING point the model's choice, log 29). -/
def Obligations.EntryToAlarmPromotesTheSet : Prop :=
  (∀ (s : State) (b : Bay),
    s.coincidenceLocs b = Loc.all.filter (fun x => x.bay = b ∨ (s.bay b).partner = some x.bay)) ∧
  Loc.all = (List.range 512).map Loc.ofKey ∧
  (∀ (s : State) (l : Loc), s.holdsCoincidence l = true ↔
    ∃ d, s.content l = some d ∧ d.isolation = none ∧ (d.condition = .pending ∨ d.condition = .alarm)) ∧
  (∀ (s : State) (l : Loc) (c : PointContent) (cause : Cause) (n : Sender),
    let u := (s.writePoint l { c with condition := .alarm, ack := none, confirmation := none, clearSeen := false }).append
      (record .condition l (some c.condition) (some .alarm) cause (some n) none)
    s.enterAlarm l c cause n = if c.isolation = none then promotions u l n else u) ∧
  (∀ (s : State) (l x : Loc) (c d : PointContent) (cause : Cause) (n : Sender), s.content l = some c →
    x ≠ l → s.content x = some d →
    (s.enterAlarm l c cause n).content x = some (
      if c.isolation = none ∧ (x.bay = l.bay ∨ (s.bay l.bay).partner = some x.bay) ∧ d.isolation = none ∧
          d.suspect = false ∧ d.condition = .pending then
        (if s.needsCopy x = true ∧ s.verified x = false then d.rebuilt
         else { d with condition := .alarm, ack := none, confirmation := none, clearSeen := false })
      else d))

/-- The link list after a report, by the four cases of R16, and after a sweep visit, by R17, for a list as R15 has it. -/
def Obligations.LinkListFollowsR16 : Prop :=
  ∀ (n : Sender) (m : Fin 64) (ls : List Link), linksFit ls = true →
    let rest := ls.filter (fun k => k.sender ≠ n)
    let put (into : List Link) : List Link :=
      into.filter (fun k => m < k.margin) ++ [{ sender := n, margin := m, age := 0 }] ++
        into.filter (fun k => k.margin ≤ m)
    ((∃ k ∈ ls, k.sender = n) → updateLinks n m ls = put rest) ∧
    ((∀ k ∈ ls, k.sender ≠ n) → ls.length < 3 → updateLinks n m ls = put ls) ∧
    (∀ k, (∀ k ∈ ls, k.sender ≠ n) → ls.length = 3 → ls.getLast? = some k → k.margin < m →
      updateLinks n m ls = put ls.dropLast) ∧
    (∀ k, (∀ k ∈ ls, k.sender ≠ n) → ls.length = 3 → ls.getLast? = some k → m ≤ k.margin →
      updateLinks n m ls = ls) ∧
    linksFit (updateLinks n m ls) = true ∧
    (agedLinks ls).map (fun k => (k.sender, k.margin, k.age.val)) =
      (ls.filter (fun k => k.age.val < 2)).map (fun k => (k.sender, k.margin, k.age.val + 1)) ∧
    linksFit (agedLinks ls) = true

/-- TAKE-POLLS: RANGE unless the sender operand is the request's sender and the count 1 to 8; MASKED without any RADIO
right; else DONE with the first items of the sender's queue, which leave it. -/
def Obligations.TakePollsOutcomes : Prop :=
  ∀ (s : State) (p : Port) (r : Request), s.grantOf .takePolls = some (p, r) →
    exec .takePolls s = .next (
      if (r.op 0).toNat ≠ r.sender.number ∨ (r.op 1).toNat = 0 ∨ 8 < (r.op 1).toNat then
        answered (granted s p) p r .range []
      else if s.mayAnywhere r.sender .radio = false then answered (granted s p) p r .masked []
      else answered
        { granted s p with polls := s.polls.set r.sender ((s.polls.get r.sender).drop (r.op 1).toNat) } p r .done
        (((s.polls.get r.sender).take (r.op 1).toNat).flatMap pollBytes))

/-! ### Panel requests and holds -/

/-- The tests of R30 in their order for the requests that name one bay or a location in it: RANGE for an operand out of
range, then MASKED, LOCKED where the lock acts, RANGE for an unfitted bay, HELD with the holder's port; then ABSENT
where the request needs an enrolled point. A refused request changes nothing. The operands are read as Tables 10.4 and
10.5 give them (a location by its bay and its point, a serial, a kind or a mode by its code), and each test by the
state: the bit of the group in the sender's mask for the bay's area, the fitted count of the strap, the holds. -/
def Obligations.BayRequestsRefusedInOrder : Prop :=
  (∀ r : Request, (∀ k, k < r.operands.length → r.operands[k]? = some (r.op k)) ∧
    (∀ k, r.op2 k = r.op k ++ r.op (k + 1)) ∧ (∀ k, r.op3 k = r.op k ++ (r.op (k + 1) ++ r.op (k + 2))) ∧
    (∀ l, r.loc? = some l ↔ l.bay.val = (r.op 0).toNat ∧ l.point.val = (r.op 1).toNat) ∧
    (∀ k n, r.serial? k = some n ↔ n = r.op3 k ∧ n ≠ 0 ∧ n ≠ 0xFFFFFF)) ∧
  (∀ x : Byte, (∀ b : Bay, Bay.ofByte? x = some b ↔ b.val = x.toNat) ∧
    (∀ k : PointKind, PointKind.ofByte? x = some k ↔ k.code = x) ∧
    (∀ m : ModeName, ModeName.ofByte? x = some m ↔ (ChangeValue.mode m).code = x)) ∧
  (∀ s : State, (∀ n g a, s.may n g a = ((s.masks.get n).get a).getLsbD (match g with
      | .radio => 0 | .ack => 1 | .isolate => 2 | .mode => 3 | .commission => 4)) ∧
    (∀ n g, s.mayAnywhere n g = true ↔ ∃ a, s.may n g a = true) ∧
    (∀ n g, s.mayEverywhere n g = true ↔ ∀ a, s.may n g a = true) ∧ (∀ b : Bay, b.area.val = b.val / 8) ∧
    s.fittedCount = 8 * (s.strap.toNat + 1) ∧ (∀ b, s.fitted b = true ↔ b.val < s.fittedCount) ∧
    (∀ b q, s.holder b = some q → ∃ h, s.hold q = some h ∧ h.bay = b) ∧
    (∀ b, s.holder b = none ↔ ∀ q h, s.hold q = some h → h.bay ≠ b) ∧
    (∀ p b q, s.heldByOther p b = some q ↔ s.holder b = some q ∧ q ≠ p)) ∧
  ∀ (s : State) (p : Port) (r : Request),
    let refused (code : ReqCode) (x : Result × List Byte) : Prop :=
      exec code.command s = .next (answered (granted s p) p r x.1 x.2)
    (∀ (code : ReqCode) (g : Group) (lockActs : Bool),
      (code, g, lockActs) ∈ [(.acknowledge, .ack, false), (.resetPoint, .ack, false), (.isolate, .isolate, false),
        (.restore, .isolate, false), (.withdraw, .commission, true)] →
      s.grantOf code = some (p, r) →
      (r.loc? = none → refused code (.range, [])) ∧
      (∀ l x, r.loc? = some l → refusal s p r.sender g lockActs l.bay = some x → refused code x) ∧
      (∀ l, r.loc? = some l → refusal s p r.sender g lockActs l.bay = none → s.content l = none →
        refused code (.absent, []))) ∧
    (∀ (code : ReqCode) (lockActs : Bool), (code, lockActs) ∈ [(.enrol, true), (.repair, false)] →
      s.grantOf code = some (p, r) →
      ((r.loc? = none ∨ r.serial? 2 = none ∨ PointKind.ofByte? (r.op 5) = none) → refused code (.range, [])) ∧
      (∀ l n k x, r.loc? = some l → r.serial? 2 = some n → PointKind.ofByte? (r.op 5) = some k →
        refusal s p r.sender .commission lockActs l.bay = some x → refused code x)) ∧
    (s.grantOf .setMode = some (p, r) →
      ((Bay.ofByte? (r.op 0) = none ∨ ModeName.ofByte? (r.op 1) = none) → refused .setMode (.range, [])) ∧
      (∀ b m x, Bay.ofByte? (r.op 0) = some b → ModeName.ofByte? (r.op 1) = some m →
        refusal s p r.sender .mode false b = some x → refused .setMode x)) ∧
    (s.grantOf .holdBay = some (p, r) →
      (Bay.ofByte? (r.op 0) = none → refused .holdBay (.range, [])) ∧
      (∀ b x, Bay.ofByte? (r.op 0) = some b → refusal s p r.sender .mode false b = some x → refused .holdBay x))

/-- ACKNOWLEDGE of an enrolled point, its shared tests passed: STATE outside ALARM, FAULT and MISSING; ALREADY with the
acknowledging sender; else the sender recorded, an ACK record appended, DONE. -/
def Obligations.AcknowledgeOutcomes : Prop :=
  ∀ (s : State) (p : Port) (r : Request) (l : Loc) (c : PointContent), s.grantOf .acknowledge = some (p, r) →
    r.loc? = some l → refusal s p r.sender .ack false l.bay = none → s.content l = some c →
    let d := atWrite s l c
    exec .acknowledge s = .next (match c.condition, c.ack with
      | .unheard, _ => answered (granted s p) p r .state []
      | .quiet, _ => answered (granted s p) p r .state []
      | .watch, _ => answered (granted s p) p r .state []
      | .pending, _ => answered (granted s p) p r .state []
      | _, some n => answered (granted s p) p r .already [byteOf n.number]
      | _, none => written s p r l { d with ack := some r.sender }
          (record .ack l (some d.condition) none .request (some r.sender) none) [])

/-- RESET-POINT, ISOLATE and RESTORE of an enrolled point, their shared tests passed. RESET-POINT: STATE out of ALARM,
NOT-ACKED, NOT-CLEAR; else the point becomes QUIET, or FAULT(INTEGRITY) when it is suspect, without acknowledgement, with a
RESET record, DONE and the new condition. ISOLATE and RESTORE: STATE when it is isolated already, or not isolated; else the
isolation field alone is written, with its record, DONE. -/
def Obligations.ResetIsolateRestoreOutcomes : Prop :=
  (∀ (s : State) (p : Port) (r : Request) (l : Loc) (c : PointContent), s.grantOf .resetPoint = some (p, r) →
      r.loc? = some l → refusal s p r.sender .ack false l.bay = none → s.content l = some c →
      let d := atWrite s l c
      let new : Condition := if d.suspect then .fault .integrity else .quiet
      exec .resetPoint s = .next (
        if c.condition ≠ .alarm then answered (granted s p) p r .state []
        else if c.ack = none then answered (granted s p) p r .notAcked []
        else if c.suspect = false ∧ c.clearSeen = false then answered (granted s p) p r .notClear []
        else written s p r l { d with condition := new, ack := none, confirmation := none }
          (record .reset l (some d.condition) (some new) .request (some r.sender) none) [new.code])) ∧
  (∀ (s : State) (p : Port) (r : Request) (l : Loc) (c : PointContent),
      r.loc? = some l → refusal s p r.sender .isolate false l.bay = none → s.content l = some c →
      let d := atWrite s l c
      (s.grantOf .isolate = some (p, r) →
        exec .isolate s = .next (
          if c.isolation ≠ none then answered (granted s p) p r .state []
          else written s p r l { d with isolation := some r.sender }
            (record .isolate l (some d.condition) none .request (some r.sender) none) [])) ∧
      (s.grantOf .restore = some (p, r) →
        exec .restore s = .next (
          if c.isolation = none then answered (granted s p) p r .state []
          else written s p r l { d with isolation := none }
            (record .restore l (some d.condition) none .request (some r.sender) none) [])))

/-- SET-MODE of a bay, its tests passed, answers DONE: nothing changes from NORMAL to NORMAL or WORKS to WORKS; else the
mode and service timer are written and one MODE record appended; and to WORKS each PENDING point of the bay is then sent
to QUIET in point order, a point whose copy finds a failure being rebuilt and passed over. -/
def Obligations.SetModeOutcomes : Prop :=
  ∀ (s : State) (p : Port) (r : Request) (b : Bay) (m : ModeName), s.grantOf .setMode = some (p, r) →
    Bay.ofByte? (r.op 0) = some b → ModeName.ofByte? (r.op 1) = some m → refusal s p r.sender .mode false b = none →
    let old : ModeName := match (s.bay b).mode with
      | .normal => .normal
      | .service _ => .service
      | .works => .works
    let new : BayMode := match m with
      | .normal => .normal
      | .service => .service { left := s.timing.serviceLimit.toNat * 600, runOut := false }
      | .works => .works
    let g := granted s p
    let u := { g with bays := g.bays.set b.val { s.bay b with mode := new } b.isLt }.append
      { kind := .mode, bay := some b, point := none, old := some (.mode old), new := some (.mode m), cause := .request,
        doneBy := some r.sender, serial := none }
    let quieten (u : State) (l : Loc) : State := match u.content l with
      | none => u
      | some c =>
        let d := atWrite u l c
        if c.condition ≠ .pending then u
        else if d.condition ≠ .pending then u.copyBefore l
        else ((u.copyBefore l).writePoint l { d with condition := .quiet, ack := none, confirmation := none }).append
          (record .condition l (some .pending) (some .quiet) .mode (some r.sender) none)
    exec .setMode s = .next (
      if old = m ∧ m ≠ .service then answered g p r .done []
      else answered (fired s (if m = .works then b.locs.foldl quieten u else u)) p r .done [])

/-- HOLD-BAY, its tests passed: STATE from a port that holds a bay, else a hold at HOLD LIMIT and DONE with the bay and
the time. -/
def Obligations.HoldBayOutcomes : Prop :=
  ∀ (s : State) (p : Port) (r : Request) (b : Bay), s.grantOf .holdBay = some (p, r) →
    Bay.ofByte? (r.op 0) = some b → refusal s p r.sender .mode false b = none →
    exec .holdBay s = .next (
      if s.hold p ≠ none then answered (granted s p) p r .state []
      else answered { granted s p with
          holds := s.holds.set p (some { bay := b, timer := { left := s.timing.holdLimit.toNat, runOut := false } }) }
        p r .done [byteOf b.val, s.timing.holdLimit])

/-- RELEASE-BAY answers NOT-HELD, or ends the port's hold without a reason and answers DONE with the bay. The end of a
hold, whatever its cause, in its order: each report that waits for the bay is drained as R68 has it, in arrival order
(one deferred again for another held bay needs no test of room, the model's reading of R133, log 23); the visit is made
where the bay owes one, its mark cleared; the hold is removed; and an end with a reason sets HOLD-ENDED (bit 2) and the
reason on the owner. So the hold is gone, no entry waits for its bay, the bay owes no visit, no other hold is touched,
and entries for other bays keep their order. -/
def Obligations.ReleaseAndEndOfHold : Prop :=
  (∀ (s : State) (p : Port) (r : Request), s.grantOf .releaseBay = some (p, r) →
    exec .releaseBay s = .next (match s.hold p with
      | none => answered (granted s p) p r .notHeld []
      | some h => answered (fired s ((granted s p).endHold p h.bay none)) p r .done [byteOf h.bay.val])) ∧
  (∀ (s : State) (p : Port) (h : Hold) (reason : Option HoldEnd), s.hold p = some h →
    let t := s.endHold p h.bay reason
    t.hold p = none ∧ (∀ q, q ≠ p → t.hold q = s.hold q) ∧ (∀ d ∈ t.deferrals, d.bay ≠ h.bay) ∧
    (∃ again, t.deferrals = s.deferrals.filter (fun d => d.bay ≠ h.bay) ++ again) ∧
    (t.bay h.bay) = { s.bay h.bay with owed := false } ∧ (∀ b, b ≠ h.bay → t.bay b = s.bay b) ∧
    t.counter = s.counter ∧ t.prescaler = s.prescaler ∧
    (∀ e, reason = some e → (t.port p).holdEnd = e ∧ Event.isIn .holdEnded (t.port p).flags = true) ∧
    (reason = none → (t.port p).holdEnd = (s.port p).holdEnd ∧
      Event.isIn .holdEnded (t.port p).flags = Event.isIn .holdEnded (s.port p).flags)) ∧
  (∀ (s : State) (p : Port) (b : Bay) (reason : Option HoldEnd),
    let u := ((s.deferrals.filter (fun d => d.bay = b)).map (·.report)).foldl (drained b) s
    let v := if (u.bay b).owed = true then
        b.locs.foldl State.visitPoint { u with bays := u.bays.set b.val { u.bay b with owed := false } b.isLt }
      else u
    let w : State := { v with holds := v.holds.set p none }
    s.endHold p b reason = match reason with
      | none => w
      | some e => withPort w p (fun q => { q with holdEnd := e, flags := q.flags ||| 0x004 }))

/-! ### The change ring and the port events -/

/-- An append: the oldest record leaves a full ring, a cursor that named it moves on with LAG (bit 1), the new record
takes the next sequence number, and every subscribed port gets CHANGES (bit 0). Stated for a ring that is numbered as
R139 has it; nothing but the ring, its next number and the ports' cursors and flags is touched. -/
def Obligations.AppendFollowsR140 : Prop :=
  ∀ (s : State) (b : ChangeBody), s.ringSound →
    ∃ ports, s.append b =
      { s with
        ring := (if s.ring.length = 256 then s.ring.tail else s.ring) ++ [{ seq := s.nextSeq, body := b }]
        nextSeq := s.nextSeq + 1
        ports := ports } ∧
    ∀ p, ports.get p = (match (s.port p).sub with
      | none => s.port p
      | some n =>
        if s.ring.length = 256 ∧ n = s.nextSeq - 256 then
          { s.port p with sub := some (n + 1), flags := (s.port p).flags ||| 0x002 ||| 0x001 }
        else { s.port p with flags := (s.port p).flags ||| 0x001 })

/-- SUBSCRIBE, SUBSCRIBE-FROM, UNSUBSCRIBE and READ-CHANGES act on the port's own subscription and cursor alone. -/
def Obligations.SubscriptionRequests : Prop :=
  ∀ (s : State) (p : Port) (r : Request),
    let move (sub : Option SeqNum) : State := withPort (granted s p) p (fun q => { q with sub := sub })
    (s.grantOf .subscribe = some (p, r) →
      exec .subscribe s = .next (answered (move (some s.nextSeq)) p r .done (bytes2 s.nextSeq ++ [0x00, 0x00]))) ∧
    (s.grantOf .subscribeFrom = some (p, r) → s.ringSound →
      exec .subscribeFrom s = .next (
        if (s.nextSeq - r.op2 0).toNat ≤ s.ring.length then
          answered (move (some (r.op2 0))) p r .done (bytes2 (r.op2 0) ++ bytes2 (s.nextSeq - r.op2 0))
        else answered (granted s p) p r .range [])) ∧
    (s.grantOf .unsubscribe = some (p, r) →
      exec .unsubscribe s = .next (
        if (s.port p).sub = none then answered (granted s p) p r .state []
        else answered (move none) p r .done [])) ∧
    (s.grantOf .readChanges = some (p, r) → s.ringSound → s.cursorsSound →
      exec .readChanges s = .next (
        if (r.op 0).toNat = 0 ∨ 8 < (r.op 0).toNat then answered (granted s p) p r .range []
        else match (s.port p).sub with
          | none => answered (granted s p) p r .state []
          | some n =>
            let k := min (r.op 0).toNat (s.nextSeq - n).toNat
            let read := (s.ring.filter (fun e => (e.seq - n).toNat < k))
            answered (move (some (n + BitVec.ofNat 16 k))) p r .done (read.flatMap changeBytes)))

/-- CLEAR-EVENTS and SET-EVENT-MASK: RANGE for a set with a bit above 8, else DONE, with the flags named cleared, or the
mask replaced; the ATTN line follows the flags and the mask that the port has. An event is in a set by its bit of Table
10.4. -/
def Obligations.EventRequests : Prop :=
  (∀ (s : State) (p : Port) (r : Request),
    (s.grantOf .clearEvents = some (p, r) →
      exec .clearEvents s = .next (
        if 512 ≤ (r.op2 0).toNat then answered (granted s p) p r .range []
        else answered (withPort (granted s p) p
          (fun q => { q with flags := q.flags &&& ~~~((r.op2 0).setWidth 9) })) p r .done [])) ∧
    (s.grantOf .setEventMask = some (p, r) →
      exec .setEventMask s = .next (
        if 512 ≤ (r.op2 0).toNat then answered (granted s p) p r .range []
        else answered (withPort (granted s p) p (fun q => { q with mask := (r.op2 0).setWidth 9 })) p r .done []))) ∧
  (∀ (s : State) (p : Port), s.attnLine p = true ↔
    s.inService = true ∧ ∃ e : Event, e.isIn (s.port p).flags = true ∧ e.isIn (s.port p).mask = true) ∧
  (∀ (e : Event) (set : EventSet), e.isIn set = set.getLsbD (match e with
    | .changes => 0 | .lag => 1 | .holdEnded => 2 | .snapshotReady => 3 | .snapshotEnded => 4 | .polls => 5 | .fire => 6
    | .stray => 7 | .restart => 8))

/-- FIRE is asserted in service exactly while some enrolled point, taken as the part last wrote its record, is in ALARM
and not isolated; FAULT exactly while one that is not isolated is in FAULT or MISSING or is suspect. An event that takes
the alarm count from 0 sets the FIRE event on every port (on the port of a PORT-RESET it is emptied with the other flags,
log 22). -/
def Obligations.FireAndFaultLines : Prop :=
  (∀ s : State, s.pointsSound →
      (s.fireLine = true ↔ s.inService = true ∧ ∃ (l : Loc) (e : PointRecord), s.points.find l.key = some e ∧
        e.written.isolation = none ∧ e.written.condition = .alarm) ∧
      (s.faultLine = true ↔ s.inService = true ∧ ∃ (l : Loc) (e : PointRecord), s.points.find l.key = some e ∧
        e.written.isolation = none ∧
        (e.written.suspect = true ∨ e.written.condition = .missing ∨ ∃ x, e.written.condition = .fault x))) ∧
  (∀ (c : Instr) (s t : State) (p : Port), exec c s = .next t → s.alarmCount = 0 → t.alarmCount ≠ 0 →
      (∀ r, c = .portReset → s.grantOf .portReset ≠ some (p, r)) → Event.isIn .fire (t.port p).flags = true)

/-! ### The snapshot -/

/-- SNAPSHOT-RANGE, SNAPSHOT-START and SNAPSHOT-RELEASE by the snapshot state, each with its answer. SNAPSHOT-READ changes
nothing; its tests in their order, and ABSENT, DONE or BAD by the snapshot record, the confirmation worked out against the
start count. -/
def Obligations.SnapshotRequests : Prop :=
  (∀ (x : SnapState) (o : Port), x.owner = some o ↔ (∃ m c b, x = .copying o m c b) ∨ ∃ m c t, x = .ready o m c t) ∧
  (∀ (s : State) (p : Port) (r : Request),
      let g := granted s p
      let owner : Option Port := match s.snap with
        | .idle => none
        | .copying o _ _ _ => some o
        | .ready o _ _ _ => some o
      (s.grantOf .snapshotRange = some (p, r) →
        exec .snapshotRange s = .next (match Bay.ofByte? (r.op 0), Bay.ofByte? (r.op 1) with
          | some a, some b =>
            if b < a ∨ s.fitted a = false ∨ s.fitted b = false then answered g p r .range []
            else if owner ≠ none then answered g p r .busy []
            else answered { g with snapFirst := a, snapLast := b } p r .done [byteOf a.val, byteOf b.val]
          | _, _ => answered g p r .range [])) ∧
      (s.grantOf .snapshotStart = some (p, r) →
        exec .snapshotStart s = .next (
          if owner ≠ none then answered g p r .busy []
          else answered { g with snap := .copying p s.nextSeq s.count s.snapFirst, snapRecords := [] } p r .done
            (bytes2 s.nextSeq ++ [byteOf s.snapFirst.val, byteOf s.snapLast.val] ++ bytes4 s.count))) ∧
      (s.grantOf .snapshotRelease = some (p, r) →
        exec .snapshotRelease s = .next (
          if owner = none then answered g p r .state []
          else if owner ≠ some p then answered g p r .notOwner []
          else answered { g with snap := .idle, snapRecords := [] } p r .done []))) ∧
  (∀ (s : State) (p : Port) (r : Request), s.grantOf .snapshotRead = some (p, r) →
      let answer (x : Result) (payload : List Byte) : Host.Outcome State Fault Refusal :=
        .next (answered (granted s p) p r x payload)
      (r.loc? = none → exec .snapshotRead s = answer .range []) ∧
      (∀ l, r.loc? = some l → s.snap = .idle → exec .snapshotRead s = answer .state []) ∧
      (∀ l o, r.loc? = some l → s.snap.owner = some o → o ≠ p → exec .snapshotRead s = answer .notOwner []) ∧
      (∀ l m c b, r.loc? = some l → s.snap = .copying p m c b → exec .snapshotRead s = answer .state []) ∧
      (∀ l m c k, r.loc? = some l → s.snap = .ready p m c k → (l.bay < s.snapFirst ∨ s.snapLast < l.bay) →
        exec .snapshotRead s = answer .range []) ∧
      (∀ l m c k e, r.loc? = some l → s.snap = .ready p m c k → s.snapFirst ≤ l.bay → l.bay ≤ s.snapLast →
        s.snapRecords.find l.key = some e →
        exec .snapshotRead s = (match e.content with
          | none => answer .absent []
          | some d => answer (if e.bad then .bad else .done) (pointBytes (s.draws + 1) c l d))))

/-- A copy step: the locations of the bay at the copy position not yet marked are copied in point order (a record that
fails is copied BAD and handled); then the position moves on, or the snapshot becomes READY with its keep timer and
SNAPSHOT-READY (bit 3) on the owner. A location needs its copy while it is in the range of a COPYING snapshot and not
yet marked copied; the copy made before a write is the same (R160). -/
def Obligations.CopyStepCopiesTheBay : Prop :=
  (∀ (s : State) (l : Loc), (s.needsCopy l = true ↔ (∃ o m c b, s.snap = .copying o m c b) ∧ s.snapFirst ≤ l.bay ∧
      l.bay ≤ s.snapLast ∧ s.snapRecords.find l.key = none) ∧
    s.copyBefore l = (if s.needsCopy l = true then
      (if s.verified l = true then s.copyIn l false else s.handleFailure l) else s) ∧
    ∀ bad, ∃ records, s.copyIn l bad = { s with snapRecords := records } ∧
      records.find l.key = some { bad := bad, content := s.content l } ∧
      ∀ k, k ≠ l.key → records.find k = s.snapRecords.find k) ∧
  ∀ (s s1 : State) (o : Port) (m : SeqNum) (c : Count) (b : Bay), s.snap = .copying o m c b →
    s.takeUnit .snapshotUnit = some s1 →
    let u := b.locs.foldl (fun u l =>
      if u.needsCopy l then (if u.verified l then u.copyIn l false else u.handleFailure l) else u) s1
    exec .copyStep s = .next (fired s (
      if b = s.snapLast then
        withPort { u with snap := .ready o m c { left := s.timing.snapshotKeep.toNat * 10, runOut := false } } o
          (fun q => { q with flags := q.flags ||| 0x008 })
      else { u with snap := .copying o m c (b + 1) }))

/-- What a snapshot shows is each location as it stood at the start: while COPYING, no command but a storage upset
changes the content of a location of the range that is not yet copied without copying it first as it stood; and a record
marked copied is not changed again before the snapshot returns to IDLE. -/
def Obligations.SnapshotShowsTheStart : Prop :=
  ∀ (x : Instr) (s t : State) (l : Loc), s.snapSound → exec x s = .next t →
    (∀ o m c b, s.snap = .copying o m c b → s.snapFirst ≤ l.bay → l.bay ≤ s.snapLast →
      s.snapRecords.find l.key = none → (∀ d, x ≠ .storageUpset l d) → t.content l ≠ s.content l →
      t.snap = .idle ∨ ∃ bad, t.snapRecords.find l.key = some { bad := bad, content := s.content l }) ∧
    (∀ e, s.snap ≠ .idle → s.snapRecords.find l.key = some e →
      t.snap = .idle ∨ t.snapRecords.find l.key = some e)

/-! ### Commissioning -/

/-- ENROL and WITHDRAW, their shared tests passed. ENROL: STATE, DUPLICATE-SERIAL, or the new record in UNHEARD with its
map entry, the serial out of the stray list, an ENROL record. WITHDRAW of an enrolled point: STATE in PENDING or ALARM, or
its map entry, poll items and record removed, a WITHDRAW record. -/
def Obligations.EnrolAndWithdrawOutcomes : Prop :=
  ∀ (s : State) (p : Port) (r : Request) (l : Loc), r.loc? = some l →
    refusal s p r.sender .commission true l.bay = none →
    let u := (granted s p).copyBefore l
    (∀ n k, s.grantOf .enrol = some (p, r) → r.serial? 2 = some n → PointKind.ofByte? (r.op 5) = some k →
      exec .enrol s = .next (
        if s.content l ≠ none then answered (granted s p) p r .state []
        else if s.enrolMap.find n.toNat ≠ none then answered (granted s p) p r .duplicateSerial []
        else
          let u1 := u.writePoint l
            { serial := n, kind := k, condition := .unheard, suspect := false, lastSeq := none, age := 0,
              heardStopped := false, battery := none, links := [], ack := none, isolation := none,
              confirmation := none, clearSeen := false }
          answered (fired s ({ u1 with
            enrolMap := Table.insert (s.enrolMap.filter (fun e => e.2 ≠ l)) n.toNat l
            strays := s.strays.filter (fun e => e.serial ≠ n) }.append
              (record .enrol l none (some .unheard) .request (some r.sender) (some n)))) p r .done [])) ∧
    (∀ c, s.grantOf .withdraw = some (p, r) → s.content l = some c →
      let d := atWrite s l c
      exec .withdraw s = .next (
        if c.condition = .pending ∨ c.condition = .alarm then answered (granted s p) p r .state []
        else answered (fired s ({ u with
            points := u.points.erase l.key
            enrolMap := u.enrolMap.filter (fun e => e.2 ≠ l)
            polls := u.polls.map (fun (q : List PollItem) => q.filter (fun i => i.loc ≠ l)) }.append
              (record .withdraw l (some d.condition) none .request (some r.sender) none))) p r .done []))

/-- REPAIR, its shared tests passed: ABSENT, STATE for a point that is not suspect, DUPLICATE-SERIAL; else serial and kind
written, suspect cleared, a point out of ALARM to UNHEARD without acknowledgement, age 0, map entry added, the serial out
of the stray list, a REPAIR record, DONE with the new condition. The lock does not act. That an entry of the map that still
names the location (an upset of the suspect mark leaves one) gives way is the model's choice (log 13). -/
def Obligations.RepairOutcomes : Prop :=
  ∀ (s : State) (p : Port) (r : Request) (l : Loc) (n : Serial) (k : PointKind), s.grantOf .repair = some (p, r) →
    r.loc? = some l → r.serial? 2 = some n → PointKind.ofByte? (r.op 5) = some k →
    refusal s p r.sender .commission false l.bay = none →
    exec .repair s = .next (match s.content l with
      | none => answered (granted s p) p r .absent []
      | some c =>
        if c.suspect = false then answered (granted s p) p r .state []
        else if s.enrolMap.find n.toNat ≠ none then answered (granted s p) p r .duplicateSerial []
        else
          let d := atWrite s l c
          let alarm := d.condition = .alarm
          let new : PointContent := { d with
            serial := n, kind := k, suspect := false, age := 0, lastSeq := none, links := []
            condition := if alarm then .alarm else .unheard
            ack := if alarm then d.ack else none
            confirmation := if alarm then d.confirmation else none }
          let u := ((granted s p).copyBefore l).writePoint l new
          answered (fired s ({ u with
            enrolMap := Table.insert (u.enrolMap.filter (fun e => e.2 ≠ l)) n.toNat l
            strays := u.strays.filter (fun e => e.serial ≠ n) }.append
              (record .repair l (some d.condition) (some new.condition) .request (some r.sender) (some n)))) p r .done
            [new.condition.code])

/-- SET-BAY: RANGE for a bay or partner out of range or equal, MASKED, LOCKED, RANGE for an unfitted one, HELD with the
holder of the lowest-numbered concerned bay that another port holds; else DONE, and the partners of all bays are as R37
leaves them, given that the pairing was symmetric. That a hold on any of the four bays is answered HELD also where the
request would change nothing is the model's reading of R37 (log 14). The partner is read by its bay number, FFh for
none. -/
def Obligations.SetBayOutcomes : Prop :=
  (∀ (x : Byte) (q : Option Bay), partnerOfByte? x = some q ↔
    (x = 0xFF ∧ q = none) ∨ ∃ y : Bay, q = some y ∧ y.val = x.toNat) ∧
  ∀ (s : State) (p : Port) (r : Request), s.grantOf .setBay = some (p, r) →
    let q? := partnerOfByte? (r.op 1)
    let g := granted s p
    let concerned (b : Bay) (q : Option Bay) (x : Bay) : Prop :=
      x = b ∨ q = some x ∨ (s.bay b).partner = some x ∨ ∃ y, q = some y ∧ (s.bay y).partner = some x
    let allowed (b : Bay) (q : Option Bay) : Prop :=
      s.may r.sender .commission b.area = true ∧ ∀ y, q = some y → s.may r.sender .commission y.area = true
    let bothFitted (b : Bay) (q : Option Bay) : Prop := s.fitted b = true ∧ ∀ y, q = some y → s.fitted y = true
    let newPartner (b : Bay) (q : Option Bay) (x : Bay) : Option Bay :=
      if x = b then q
      else if q = some x then some b
      else if (s.bay b).partner = some x then none
      else if q ≠ none ∧ (s.bay x).partner = q then none
      else (s.bay x).partner
    ((Bay.ofByte? (r.op 0) = none ∨ q? = none) → exec .setBay s = .next (answered g p r .range [])) ∧
    (∀ b q, Bay.ofByte? (r.op 0) = some b → q? = some q →
      (q = some b → exec .setBay s = .next (answered g p r .range [])) ∧
      (q ≠ some b →
        (¬ allowed b q → exec .setBay s = .next (answered g p r .masked [])) ∧
        (allowed b q → s.locked = true → exec .setBay s = .next (answered g p r .locked [])) ∧
        (allowed b q → s.locked = false → ¬ bothFitted b q → exec .setBay s = .next (answered g p r .range [])) ∧
        (allowed b q → s.locked = false → bothFitted b q →
          (∀ x o, concerned b q x → s.heldByOther p x = some o →
            (∀ y, y < x → concerned b q y → s.heldByOther p y = none) →
            exec .setBay s = .next (answered g p r .held [byteOf o.number])) ∧
          ((∀ x, concerned b q x → s.heldByOther p x = none) → s.pairingSound →
            ∃ bays, exec .setBay s = .next (answered { g with bays := bays } p r .done []) ∧
              ∀ x, bays.get x = { s.bay x with partner := newPartner b q x }))))

/-- BIND-SENDERS, SET-MASK, CLEAR-STRAYS and LOCK: RANGE for an operand out of range, MASKED without COMMISSION in all
four areas, LOCKED on a locked part; else the one thing each of them replaces, and DONE. Ports, senders and areas are
read by their numbers. -/
def Obligations.StoreRequests : Prop :=
  (∀ x : Byte, (∀ q : Port, Port.ofByte? x = some q ↔ q.number = x.toNat) ∧
    (∀ n : Sender, Sender.ofByte? x = some n ↔ n.number = x.toNat) ∧
    (∀ a : Area, Area.ofByte? x = some a ↔ a.val = x.toNat)) ∧
  ∀ (s : State) (p : Port) (r : Request),
    let g := granted s p
    let tested (t : State) : Host.Outcome State Fault Refusal := .next (match storeRefusal s r.sender with
      | some x => answered g p r x []
      | none => answered t p r .done [])
    (s.grantOf .bindSenders = some (p, r) →
      exec .bindSenders s = (match Port.ofByte? (r.op 0) with
        | none => .next (answered g p r .range [])
        | some q =>
          if (r.op 1).getLsbD 0 then .next (answered g p r .range [])
          else tested { g with bound := s.bound.set q (r.op 1) })) ∧
    (s.grantOf .setMask = some (p, r) →
      exec .setMask s = (match Sender.ofByte? (r.op 0), Area.ofByte? (r.op 1) with
        | some n, some a =>
          if 32 ≤ (r.op 2).toNat then .next (answered g p r .range [])
          else tested { g with masks := s.masks.set n ((s.masks.get n).set a ((r.op 2).setWidth 5)) }
        | _, _ => .next (answered g p r .range []))) ∧
    (s.grantOf .clearStrays = some (p, r) → exec .clearStrays s = tested { g with strays := [] }) ∧
    (s.grantOf .lock = some (p, r) →
      exec .lock s = tested ({ g with locked := true }.append (deviceRecord .lock .request r.sender none)))

/-- SET-TIMING: RANGE when a value or the order of the two ages is out of range, MASKED, LOCKED; else all eight settings
replaced and the prescaler cleared, and at a restart of the sweep every enrolled point re-warmed, every mark cleared and
one REWARM record appended last; no bay, hold, mask, binding, timer or counter differs by it. That a record whose mark
is clear already is neither copied, verified nor written by the clearing is the model's choice (log 15). -/
def Obligations.SetTimingOutcomes : Prop :=
  ∀ (s : State) (p : Port) (r : Request), s.grantOf .setTiming = some (p, r) →
    let t : Timing := { sweepPeriod := r.op 0, pollAge := r.op 1, missingAge := r.op 2, confirmNormal := r.op 3,
                        confirmService := r.op 4, serviceLimit := r.op 5, holdLimit := r.op 6, snapshotKeep := r.op 7 }
    let ok : Prop := 1 ≤ t.pollAge.toNat ∧ t.pollAge.toNat ≤ 14 ∧ 2 ≤ t.missingAge.toNat ∧ t.missingAge.toNat ≤ 15 ∧
      t.pollAge.toNat < t.missingAge.toNat ∧ 5 ≤ t.confirmNormal.toNat ∧ 5 ≤ t.confirmService.toNat ∧
      10 ≤ t.serviceLimit.toNat ∧ 5 ≤ t.holdLimit.toNat ∧ 10 ≤ t.snapshotKeep.toNat
    let g := { granted s p with timing := t, prescaler := 0 }
    (¬ ok → exec .setTiming s = .next (answered (granted s p) p r .range [])) ∧
    (∀ x, ok → storeRefusal s r.sender = some x → exec .setTiming s = .next (answered (granted s p) p r x [])) ∧
    (ok → storeRefusal s r.sender = none → (s.timing.sweepPeriod ≠ 0 ∨ t.sweepPeriod = 0) →
      exec .setTiming s = .next (answered g p r .done [])) ∧
    (ok → storeRefusal s r.sender = none → s.timing.sweepPeriod = 0 → t.sweepPeriod ≠ 0 →
      exec .setTiming s = .next (answered (fired s (g.rewarm r.sender)) p r .done []) ∧
      onlyImage g (g.rewarm r.sender) ∧
      (∃ body, (g.rewarm r.sender).ring.getLast? = some body ∧
        body.body = deviceRecord .rewarm .request r.sender none) ∧
      ∀ l, (g.rewarm r.sender).content l = (s.content l).map (fun c =>
        let due (c : PointContent) : Bool :=
          !c.suspect && c.condition != .pending && c.condition != .alarm && !c.heardStopped
        let d := if due c || c.heardStopped then atWrite s l c else c
        let e : PointContent :=
          if due d && due c then { d with condition := .unheard, age := 0, ack := none, confirmation := none } else d
        { e with heardStopped := false }))

/-- SWEEP-STEP and the periodic step make the same step at the counter: the visit to a fitted free bay, the owed-visit
mark of a held one, nothing for an unfitted one; then the counter goes on. SWEEP-STEP is for a stopped sweep and answers
the bay; the periodic step returns the prescaler to 0. -/
def Obligations.SweepSteps : Prop :=
  let stepped (g : State) : State :=
    let b := g.counter
    { (if g.fitted b = false then g
       else if g.holder b ≠ none then { g with bays := g.bays.set b.val { g.bay b with owed := true } b.isLt }
       else b.locs.foldl State.visitPoint g) with counter := b + 1 }
  (∀ (s : State) (p : Port) (r : Request), s.grantOf .sweepStep = some (p, r) →
    exec .sweepStep s = .next (match storeRefusal s r.sender with
      | some x => answered (granted s p) p r x []
      | none =>
        if s.timing.sweepPeriod ≠ 0 then answered (granted s p) p r .state []
        else answered (fired s (stepped (granted s p))) p r .done [byteOf s.counter.val])) ∧
  (∀ s s1 : State, s.timing.sweepPeriod ≠ 0 → s.timing.sweepPeriod.toNat ≤ s.prescaler + 1 →
    s.takeUnit .sweep = some s1 → exec .periodicSweepStep s = .next (fired s (stepped { s1 with prescaler := 0 })))

/-- A visit to a bay takes its locations in point order and passes over those not enrolled. At each enrolled point: the
copy where a snapshot needs it; the check, and the rebuilding of a record that fails; the age one round up; the links that
reach age 3 dropped; MISSING by the rule of R110 (never from PENDING or ALARM, nor for a suspect point) with its CONDITION
record, cause SWEEP, by 0; the write; then the poll rule. No point of another bay is touched. The poll rule gives each
target that has room and no item for the point one item at its tail, with POLLS (bit 5) on the ports bound to it, and
changes nothing else. -/
def Obligations.VisitFollowsR108 : Prop :=
  (∀ (s : State) (b : Bay), s.visitBay b = b.locs.foldl State.visitPoint s) ∧
  (∀ (s : State) (l : Loc), s.content l = none → s.visitPoint l = s) ∧
  (∀ (s : State) (l : Loc) (c : PointContent), s.content l = some c →
    let d := if s.verified l then c else c.rebuilt
    let age := min 15 (d.age.val + 1)
    let aged : PointContent := { d with age := ⟨age, by omega⟩, links := agedLinks d.links }
    let gone : PointContent := { aged with condition := .missing, ack := none, confirmation := none, lastSeq := none }
    let missing : Prop := d.suspect = false ∧ s.timing.missingAge.toNat ≤ age ∧
      d.condition ∈ [.unheard, .quiet, .watch, .fault .device, .fault .removed, .fault .battery]
    let checked := if (s.copyBefore l).verified l then s.copyBefore l else (s.copyBefore l).handleFailure l
    s.visitPoint l = (if missing then
        ((checked.writePoint l gone).append
          (record .condition l (some d.condition) (some .missing) .sweep none none)).pollRule l gone
      else (checked.writePoint l aged).pollRule l aged) ∧
    (s.visitBay l.bay).content l = some (if missing then gone else aged)) ∧
  (∀ (s : State) (b : Bay) (l : Loc), (l.bay ≠ b ∨ s.content l = none) → (s.visitBay b).content l = s.content l) ∧
  (∀ (s : State) (l : Loc) (c : PointContent),
    let adds (n : Sender) : Prop := c.suspect = false ∧ s.timing.pollAge.toNat ≤ c.age.val ∧
      (match c.links with
        | k :: _ => k.sender = n
        | [] => s.may n .radio l.bay.area = true) ∧
      (∀ i ∈ s.polls.get n, i.loc ≠ l) ∧ (s.polls.get n).length < 16
    (∃ polls ports, s.pollRule l c = { s with polls := polls, ports := ports }) ∧
    (∀ n, adds n → (s.pollRule l c).polls.get n = s.polls.get n ++
      [{ loc := l, serial := c.serial, ageAtEntry := c.age,
         reason := if c.condition = .unheard then .first else .overdue }]) ∧
    (∀ n, ¬ adds n → (s.pollRule l c).polls.get n = s.polls.get n) ∧
    (∀ p, (∃ n, adds n ∧ (s.bound.get p).has n = true) →
      (s.pollRule l c).port p = { s.port p with flags := (s.port p).flags ||| 0x020 }) ∧
    (∀ p, (∀ n, adds n → (s.bound.get p).has n = false) → (s.pollRule l c).port p = s.port p))

/-- PORT-RESET: the port's own hold ends without a reason, its own snapshot returns to IDLE, then it is unsubscribed with
no flag, all nine events in its mask, reason NONE and cursor (0,0), and answered DONE. -/
def Obligations.PortResetOutcomes : Prop :=
  ∀ (s : State) (p : Port) (r : Request), s.grantOf .portReset = some (p, r) →
    let u := match s.hold p with
      | none => granted s p
      | some h => (granted s p).endHold p h.bay none
    let v := if u.snap.owner = some p then { u with snap := .idle, snapRecords := [] } else u
    exec .portReset s = .next (answered (withPort (fired s v) p (fun q =>
      { q with sub := none, flags := 0, mask := 0x1FF, holdEnd := .none, cursor := ⟨0, 0⟩ })) p r .done [])

/-- While the part is locked, no command but a device reset or a loss of power changes the bindings, the masks, the timing
settings, the pairings or the lock, or which locations are enrolled. -/
def Obligations.LockedPartKeepsCommissioning : Prop :=
  ∀ (c : Instr) (s t : State), s.locked = true → (∀ strap, c ≠ .powerOn strap) → c ≠ .resetLine →
    c ≠ .powerRemoval → exec c s = .next t →
    t.locked = true ∧ t.bound = s.bound ∧ t.masks = s.masks ∧ t.timing = s.timing ∧
    (∀ b, (t.bay b).partner = (s.bay b).partner) ∧ ∀ l, (t.content l).isSome = (s.content l).isSome

/-! ### Time, upsets and integrity -/

/-- The end of a unit, at each block that may take it: the count goes up by one; running service, hold and keep timers
go down by one, or are marked as run out at 1 (log 6); the prescaler goes up by one while the sweep runs. A copy step
and a periodic step are commands of their own (log 7). That a unit end which the engine still owes waits for no expiry
is the model's choice (log 28; an upset only can bring about the case). A next unit may end when every block has taken
the present one and no expiry is still due (log 5). -/
def Obligations.UnitEndAtEachBlock : Prop :=
  (∀ s : State, s.unitDone = true ↔ s.owes = [] ∧ (∀ e ∈ s.points, s.confirmationDue e.2.content = false) ∧
    (∀ b, (s.bay b).serviceOut = false) ∧ (∀ p, s.holdOut p = false) ∧ s.snap.keepOut = false) ∧
  ∀ (s : State) (b : TimeBlock), s.inService = true → (b ∈ s.owes ∨ (b ∉ s.owes ∧ s.unitDone = true)) →
    let g : State :=
      if b ∈ s.owes then { s with owes := s.owes.erase b }
      else { s with owes := [.engine, .bayTable, .holdUnit, .snapshotUnit, .sweep].erase b,
                    unitInGroup := s.unitInGroup + 1 }
    let down (t : Countdown) : Countdown :=
      if t.left ≤ 1 then { t with runOut := true } else { t with left := t.left - 1 }
    s.takeUnit b = some g ∧
    (b = .engine → exec (.timebaseUnitEnd b) s = .next { g with count := s.count + 1 }) ∧
    (b = .bayTable → ∃ bays, exec (.timebaseUnitEnd b) s = .next { g with bays := bays } ∧
      ∀ x, bays.get x = { s.bay x with mode := match (s.bay x).mode with
        | .service t => .service (down t)
        | m => m }) ∧
    (b = .holdUnit → ∃ holds, exec (.timebaseUnitEnd b) s = .next { g with holds := holds } ∧
      ∀ p, holds.get p = (s.hold p).map (fun h => { h with timer := down h.timer })) ∧
    (b = .snapshotUnit → exec (.timebaseUnitEnd b) s = .next (match s.snap with
      | .idle => g
      | .copying _ _ _ _ => s
      | .ready o m c t => { g with snap := .ready o m c (down t) })) ∧
    (b = .sweep → exec (.timebaseUnitEnd b) s = .next (
      if s.timing.sweepPeriod = 0 then g
      else if s.timing.sweepPeriod.toNat ≤ s.prescaler + 1 then s
      else { g with prescaler := s.prescaler + 1 }))

/-- The expiries that are due: a PENDING point at its deadline enters QUIET with a CONDITION record, cause TIMER, by 0
(or is rebuilt by the copy's failure, R173); a service timer returns its bay to NORMAL with a MODE record; a hold ends
with EXPIRED; a snapshot ends with SNAPSHOT-ENDED (bit 4) on its owner. A storage upset leaves an enrolled record with a
content of its own values (which ones, log 12; the same content where the check code alone is altered, log 11), its
check no longer holding, and changes nothing else: no count, no line, no map entry. -/
def Obligations.ExpiriesAndUpsets : Prop :=
  (∀ s : State, s.inService = true →
      (∀ (l : Loc) (c : PointContent) (f : Confirmation), s.content l = some c → c.condition = .pending →
        c.confirmation = some f → f.deadline = s.count →
        exec (.confirmationTimerExpiry l) s = .next (fired s (
          if s.needsCopy l = true ∧ s.verified l = false then s.handleFailure l
          else ((s.copyBefore l).writePoint l { c with condition := .quiet, ack := none, confirmation := none }).append
            (record .condition l (some .pending) (some .quiet) .timer none none)))) ∧
      (∀ (b : Bay) (t : Countdown), (s.bay b).mode = .service t → t.runOut = true →
        exec (.serviceTimerExpiry b) s = .next
          ({ s with bays := s.bays.set b.val { s.bay b with mode := .normal } b.isLt }.append
            { kind := .mode, bay := some b, point := none, old := some (.mode .service), new := some (.mode .normal),
              cause := .timer, doneBy := none, serial := none })) ∧
      (∀ (p : Port) (h : Hold), s.hold p = some h → h.timer.runOut = true →
        exec (.holdTimerExpiry p) s = .next (fired s (s.endHold p h.bay (some .expired)))) ∧
      (∀ (o : Port) (m : SeqNum) (c : Count) (t : Countdown), s.snap = .ready o m c t → t.runOut = true →
        exec .keepTimerExpiry s = .next
          (withPort { s with snap := .idle, snapRecords := [] } o (fun q => { q with flags := q.flags ||| 0x010 })))) ∧
  (∀ (s : State) (l : Loc) (c d : PointContent), s.pointsSound → s.phase ≠ .unpowered → d.fits = true →
      s.content l = some c →
      ∃ points, exec (.storageUpset l d) s = .next { s with points := points } ∧
        (∃ e, points.find l.key = some e ∧ e.content = d ∧ e.codeHolds = false ∧
          (s.points.find l.key).map (·.written) = some e.written) ∧
        (∀ k, k ≠ l.key → points.find k = s.points.find k) ∧
        (∀ f, ({ s with points := points } : State).countOf f = s.countOf f))

/-- The handling of a failed record, and the copy and the write it is made of: the content as found copied BAD where a
snapshot needs it; suspect, no links, no last sequence; ALARM and FAULT(INTEGRITY) kept with their acknowledgement, every
other condition to FAULT(INTEGRITY) without one; its map entry and poll items removed; one INTEGRITY record, by 0; a fresh
check code. Every write leaves a fresh check code and touches no other record. -/
def Obligations.FailureHandlingFollowsR171 : Prop :=
  (∀ (s : State) (l : Loc), s.content l = (s.points.find l.key).map (·.content) ∧
    s.pollsDrop l = { s with polls := s.polls.map (fun (q : List PollItem) => q.filter (fun i => i.loc ≠ l)) }) ∧
  (∀ (s : State) (l : Loc) (c : PointContent), s.content l = some c →
    let kept := c.condition = .alarm ∨ c.condition = .fault .integrity
    let d : PointContent := { c with
      suspect := true, links := [], lastSeq := none
      condition := if kept then c.condition else .fault .integrity
      ack := if kept then c.ack else none
      confirmation := if kept then c.confirmation else none }
    let u : State := if s.needsCopy l then
      { s with snapRecords := s.snapRecords.insert l.key { bad := true, content := some c } } else s
    c.rebuilt = d ∧
    s.handleFailure l = ({ u with
      enrolMap := s.enrolMap.filter (fun e => e.2 ≠ l)
      polls := s.polls.map (fun (q : List PollItem) => q.filter (fun i => i.loc ≠ l)) }.append
        (record .integrity l (some c.condition) (some d.condition) .integrity none none)).writePoint l d ∧
    (s.handleFailure l).verified l = true) ∧
  (∀ (s : State) (l : Loc) (c : PointContent), ∃ points, s.writePoint l c = { s with points := points } ∧
    points.find l.key = some { content := c, codeHolds := true, written := c } ∧
    ∀ k, k ≠ l.key → points.find k = s.points.find k) ∧
  (∀ (s : State) (l : Loc), s.verified l = match s.points.find l.key with
    | none => true
    | some e => e.codeHolds && (match s.enrolMap.find? (fun x => x.2 = l) with
      | none => e.content.suspect
      | some x => !e.content.suspect && x.1 == e.content.serial.toNat))

/-- The frame of the requests that act on one named point, whatever the outcome: besides the slot of the granted port
and the arbiter's own part of the grant they append at most two change records, each of that point, and set FIRE where
the alarm count rises from 0; they write, map, copy and drop poll items at that location alone, so every other point's
record, snapshot copy, map entries and poll items stay, and all of them where the operands name no location; ENROL and
REPAIR may take the serial out of the stray list; nothing else of the state differs. Of the flags, CHANGES, LAG and FIRE
may be added on a port, and none is removed; no port's cursor, mask, hold-end reason or copy, and no other port's slot,
differs. -/
def Obligations.PointRequestsFrame : Prop :=
  ∀ (code : ReqCode) (s t : State) (p : Port) (r : Request),
    code ∈ [.acknowledge, .resetPoint, .isolate, .restore, .enrol, .withdraw, .repair, .readPoint] →
    s.grantOf code = some (p, r) → exec code.command s = .next t →
    (∃ (bodies : List ChangeBody) (result : Result) (payload : List Byte) (points : Table PointRecord)
        (enrolMap : Table Loc) (strays : List Stray) (polls : PerSender (List PollItem)) (snapRecords : Table SnapRecord),
      t = answered (fired s { bodies.foldl State.append (granted s p) with
        points := points, enrolMap := enrolMap, strays := strays, polls := polls, snapRecords := snapRecords })
        p r result payload ∧
      bodies.length ≤ 2 ∧ ∀ b ∈ bodies, ∃ l, r.loc? = some l ∧ b.bay = some l.bay ∧ b.point = some l.point) ∧
    (∀ k, (∀ l, r.loc? = some l → k ≠ l.key) →
      t.points.find k = s.points.find k ∧ t.snapRecords.find k = s.snapRecords.find k) ∧
    t.enrolMap.filter (fun e => r.loc? ≠ some e.2) = s.enrolMap.filter (fun e => r.loc? ≠ some e.2) ∧
    (∀ n, (t.polls.get n).filter (fun i => r.loc? ≠ some i.loc) = (s.polls.get n).filter (fun i => r.loc? ≠ some i.loc)) ∧
    (t.strays = s.strays ∨
      (code = .enrol ∨ code = .repair) ∧ t.strays = s.strays.filter (fun e => r.serial? 2 ≠ some e.serial)) ∧
    (∀ q, (t.port q).cursor = (s.port q).cursor ∧ (t.port q).mask = (s.port q).mask ∧
      (t.port q).holdEnd = (s.port q).holdEnd ∧ (t.port q).sub.isSome = (s.port q).sub.isSome ∧
      (t.port q).copy = (s.port q).copy ∧ (q ≠ p → (t.port q).slot = (s.port q).slot) ∧
      ∀ e : Event, (Event.isIn e (s.port q).flags = true → Event.isIn e (t.port q).flags = true) ∧
        (Event.isIn e (t.port q).flags = true →
          Event.isIn e (s.port q).flags = true ∨ e = .changes ∨ e = .lag ∨ e = .fire))

/-! ### What every step keeps -/

/-- Every invariant of Sys2Proof/Safety.lean holds right after power-on. -/
def Obligations.InvariantsHoldAtReset : Prop :=
  State.reset.ringSound ∧ State.reset.cursorsSound ∧ State.reset.straysSound ∧ State.reset.pollsSound ∧
    State.reset.holdsSound ∧ State.reset.deferralsSound ∧ State.reset.pairingSound ∧ State.reset.timingSound ∧
    State.reset.timersSound ∧ State.reset.pointsSound ∧ State.reset.mapSound ∧ State.reset.snapSound ∧
    State.reset.slotsSound

/-- The ring stays at most 256 records numbered consecutively, and every ring cursor between oldest and next. -/
def Obligations.StepKeepsRingAndCursors : Prop :=
  ∀ s t : State, s.ringSound → s.cursorsSound → step s = .next t → t.ringSound ∧ t.cursorsSound

/-- The stray list and the poll queues stay within their capacities without repeated members, and the slots and shifted-out
copies hold requests of their table length and responses of at most 96 bytes. -/
def Obligations.StepKeepsListsAndSlots : Prop :=
  ∀ s t : State, s.straysSound → s.pollsSound → s.slotsSound → step s = .next t →
    t.straysSound ∧ t.pollsSound ∧ t.slotsSound

/-- No bay is held by two ports; the deferral queue holds at most 16 reports, none an ALARM, each for a held bay; and the
pairing of bays stays symmetric, no bay its own partner. -/
def Obligations.StepKeepsHoldsAndPairs : Prop :=
  ∀ s t : State, step s = .next t →
    (s.holdsSound → s.deferralsSound → t.holdsSound ∧ t.deferralsSound) ∧ (s.pairingSound → t.pairingSound)

/-- The settings stay in range, the prescaler below the period, and every running timer within its length. -/
def Obligations.StepKeepsTiming : Prop :=
  ∀ s t : State, s.timingSound → s.timersSound → step s = .next t → t.timingSound ∧ t.timersSound

/-- The point table keeps its canonical form, every record in a fitted bay with the fields its condition calls for (a
confirmation exactly in PENDING, an acknowledgement only in ALARM, FAULT or MISSING, a link list as R15 has it); and the
enrolment map keeps one entry for a serial and one for a location, each naming an enrolled location. -/
def Obligations.StepKeepsPointsAndMap : Prop :=
  ∀ s t : State, step s = .next t → (s.pointsSound → t.pointsSound) ∧ (s.mapSound → t.mapSound)

/-- The snapshot keeps its range of fitted bays, copies every bay below its position, and is whole in READY. -/
def Obligations.StepKeepsSnapshot : Prop :=
  ∀ s t : State, s.snapSound → step s = .next t → t.snapSound
end

