-- ==== Sys2Proof/Laws/State.lean ====
section
/-! SUPPORT. What each update of the state leaves as it is: one lemma for each field and each update, and for the reads
that proofs use most. The values written stand with the updates' own lemmas in Laws/Stores.lean. -/

namespace Sys2Proof.Machine.State

variable (s : State) (b b' : Bay) (r : BayRecord) (f : Bay → BayRecord → BayRecord) (p p' : Port) (x : PortState)
  (g : Port → PortState → PortState) (w : Port → Bool) (e : Event) (l l' : Loc) (c : PointContent) (n : Serial)
  (m : Sender) (k : Nat) (v : Bool) (rep : Report) (h : Option Hold) (mode : BayMode) (q : Option Bay) (req : Request)
  (a : Answer) (sub : Option SeqNum) (slot : Slot) (body : ChangeBody) (i : PollItem)

/-! ### setBay -/

@[simp] theorem setBay_phase : (s.setBay b r).phase = s.phase := rfl
@[simp] theorem setBay_rst : (s.setBay b r).rst = s.rst := rfl
@[simp] theorem setBay_startCause : (s.setBay b r).startCause = s.startCause := rfl
@[simp] theorem setBay_strap : (s.setBay b r).strap = s.strap := rfl
@[simp] theorem setBay_locked : (s.setBay b r).locked = s.locked := rfl
@[simp] theorem setBay_count : (s.setBay b r).count = s.count := rfl
@[simp] theorem setBay_unitInGroup : (s.setBay b r).unitInGroup = s.unitInGroup := rfl
@[simp] theorem setBay_owes : (s.setBay b r).owes = s.owes := rfl
@[simp] theorem setBay_prescaler : (s.setBay b r).prescaler = s.prescaler := rfl
@[simp] theorem setBay_counter : (s.setBay b r).counter = s.counter := rfl
@[simp] theorem setBay_points : (s.setBay b r).points = s.points := rfl
@[simp] theorem setBay_enrolMap : (s.setBay b r).enrolMap = s.enrolMap := rfl
@[simp] theorem setBay_bound : (s.setBay b r).bound = s.bound := rfl
@[simp] theorem setBay_masks : (s.setBay b r).masks = s.masks := rfl
@[simp] theorem setBay_timing : (s.setBay b r).timing = s.timing := rfl
@[simp] theorem setBay_strays : (s.setBay b r).strays = s.strays := rfl
@[simp] theorem setBay_polls : (s.setBay b r).polls = s.polls := rfl
@[simp] theorem setBay_holds : (s.setBay b r).holds = s.holds := rfl
@[simp] theorem setBay_deferrals : (s.setBay b r).deferrals = s.deferrals := rfl
@[simp] theorem setBay_ring : (s.setBay b r).ring = s.ring := rfl
@[simp] theorem setBay_nextSeq : (s.setBay b r).nextSeq = s.nextSeq := rfl
@[simp] theorem setBay_snap : (s.setBay b r).snap = s.snap := rfl
@[simp] theorem setBay_snapFirst : (s.setBay b r).snapFirst = s.snapFirst := rfl
@[simp] theorem setBay_snapLast : (s.setBay b r).snapLast = s.snapLast := rfl
@[simp] theorem setBay_snapRecords : (s.setBay b r).snapRecords = s.snapRecords := rfl
@[simp] theorem setBay_ports : (s.setBay b r).ports = s.ports := rfl
@[simp] theorem setBay_lastGranted : (s.setBay b r).lastGranted = s.lastGranted := rfl
@[simp] theorem setBay_draws : (s.setBay b r).draws = s.draws := rfl
@[simp] theorem setBay_pending : (s.setBay b r).pending = s.pending := rfl
@[simp] theorem setBay_port : (s.setBay b r).port p' = s.port p' := rfl
@[simp] theorem setBay_content : (s.setBay b r).content l' = s.content l' := rfl
@[simp] theorem setBay_hold : (s.setBay b r).hold p' = s.hold p' := rfl
@[simp] theorem setBay_fitted : (s.setBay b r).fitted b' = s.fitted b' := rfl
@[simp] theorem setBay_inService : (s.setBay b r).inService = s.inService := rfl
@[simp] theorem setBay_needsCopy : (s.setBay b r).needsCopy l' = s.needsCopy l' := rfl

/-! ### mapBays -/

@[simp] theorem mapBays_phase : (s.mapBays f).phase = s.phase := by simp only [State.mapBays]
@[simp] theorem mapBays_rst : (s.mapBays f).rst = s.rst := by simp only [State.mapBays]
@[simp] theorem mapBays_startCause : (s.mapBays f).startCause = s.startCause := by simp only [State.mapBays]
@[simp] theorem mapBays_strap : (s.mapBays f).strap = s.strap := by simp only [State.mapBays]
@[simp] theorem mapBays_locked : (s.mapBays f).locked = s.locked := by simp only [State.mapBays]
@[simp] theorem mapBays_count : (s.mapBays f).count = s.count := by simp only [State.mapBays]
@[simp] theorem mapBays_unitInGroup : (s.mapBays f).unitInGroup = s.unitInGroup := by simp only [State.mapBays]
@[simp] theorem mapBays_owes : (s.mapBays f).owes = s.owes := by simp only [State.mapBays]
@[simp] theorem mapBays_prescaler : (s.mapBays f).prescaler = s.prescaler := by simp only [State.mapBays]
@[simp] theorem mapBays_counter : (s.mapBays f).counter = s.counter := by simp only [State.mapBays]
@[simp] theorem mapBays_points : (s.mapBays f).points = s.points := by simp only [State.mapBays]
@[simp] theorem mapBays_enrolMap : (s.mapBays f).enrolMap = s.enrolMap := by simp only [State.mapBays]
@[simp] theorem mapBays_bound : (s.mapBays f).bound = s.bound := by simp only [State.mapBays]
@[simp] theorem mapBays_masks : (s.mapBays f).masks = s.masks := by simp only [State.mapBays]
@[simp] theorem mapBays_timing : (s.mapBays f).timing = s.timing := by simp only [State.mapBays]
@[simp] theorem mapBays_strays : (s.mapBays f).strays = s.strays := by simp only [State.mapBays]
@[simp] theorem mapBays_polls : (s.mapBays f).polls = s.polls := by simp only [State.mapBays]
@[simp] theorem mapBays_holds : (s.mapBays f).holds = s.holds := by simp only [State.mapBays]
@[simp] theorem mapBays_deferrals : (s.mapBays f).deferrals = s.deferrals := by simp only [State.mapBays]
@[simp] theorem mapBays_ring : (s.mapBays f).ring = s.ring := by simp only [State.mapBays]
@[simp] theorem mapBays_nextSeq : (s.mapBays f).nextSeq = s.nextSeq := by simp only [State.mapBays]
@[simp] theorem mapBays_snap : (s.mapBays f).snap = s.snap := by simp only [State.mapBays]
@[simp] theorem mapBays_snapFirst : (s.mapBays f).snapFirst = s.snapFirst := by simp only [State.mapBays]
@[simp] theorem mapBays_snapLast : (s.mapBays f).snapLast = s.snapLast := by simp only [State.mapBays]
@[simp] theorem mapBays_snapRecords : (s.mapBays f).snapRecords = s.snapRecords := by simp only [State.mapBays]
@[simp] theorem mapBays_ports : (s.mapBays f).ports = s.ports := by simp only [State.mapBays]
@[simp] theorem mapBays_lastGranted : (s.mapBays f).lastGranted = s.lastGranted := by simp only [State.mapBays]
@[simp] theorem mapBays_draws : (s.mapBays f).draws = s.draws := by simp only [State.mapBays]
@[simp] theorem mapBays_pending : (s.mapBays f).pending = s.pending := by simp only [State.mapBays]
@[simp] theorem mapBays_port : (s.mapBays f).port p' = s.port p' := by simp only [State.port, mapBays_ports]
@[simp] theorem mapBays_content : (s.mapBays f).content l' = s.content l' := by simp only [State.content, mapBays_points]
@[simp] theorem mapBays_hold : (s.mapBays f).hold p' = s.hold p' := by simp only [State.hold, mapBays_holds]
@[simp] theorem mapBays_fitted : (s.mapBays f).fitted b' = s.fitted b' := by unfold State.fitted State.fittedCount; simp only [mapBays_strap]
@[simp] theorem mapBays_inService : (s.mapBays f).inService = s.inService := by simp only [State.inService, mapBays_phase, mapBays_rst]
@[simp] theorem mapBays_needsCopy : (s.mapBays f).needsCopy l' = s.needsCopy l' := by
  unfold State.needsCopy; simp only [mapBays_snap, mapBays_snapFirst, mapBays_snapLast, mapBays_snapRecords]

/-! ### setPort -/

@[simp] theorem setPort_phase : (s.setPort p x).phase = s.phase := rfl
@[simp] theorem setPort_rst : (s.setPort p x).rst = s.rst := rfl
@[simp] theorem setPort_startCause : (s.setPort p x).startCause = s.startCause := rfl
@[simp] theorem setPort_strap : (s.setPort p x).strap = s.strap := rfl
@[simp] theorem setPort_locked : (s.setPort p x).locked = s.locked := rfl
@[simp] theorem setPort_count : (s.setPort p x).count = s.count := rfl
@[simp] theorem setPort_unitInGroup : (s.setPort p x).unitInGroup = s.unitInGroup := rfl
@[simp] theorem setPort_owes : (s.setPort p x).owes = s.owes := rfl
@[simp] theorem setPort_prescaler : (s.setPort p x).prescaler = s.prescaler := rfl
@[simp] theorem setPort_counter : (s.setPort p x).counter = s.counter := rfl
@[simp] theorem setPort_points : (s.setPort p x).points = s.points := rfl
@[simp] theorem setPort_enrolMap : (s.setPort p x).enrolMap = s.enrolMap := rfl
@[simp] theorem setPort_bays : (s.setPort p x).bays = s.bays := rfl
@[simp] theorem setPort_bound : (s.setPort p x).bound = s.bound := rfl
@[simp] theorem setPort_masks : (s.setPort p x).masks = s.masks := rfl
@[simp] theorem setPort_timing : (s.setPort p x).timing = s.timing := rfl
@[simp] theorem setPort_strays : (s.setPort p x).strays = s.strays := rfl
@[simp] theorem setPort_polls : (s.setPort p x).polls = s.polls := rfl
@[simp] theorem setPort_holds : (s.setPort p x).holds = s.holds := rfl
@[simp] theorem setPort_deferrals : (s.setPort p x).deferrals = s.deferrals := rfl
@[simp] theorem setPort_ring : (s.setPort p x).ring = s.ring := rfl
@[simp] theorem setPort_nextSeq : (s.setPort p x).nextSeq = s.nextSeq := rfl
@[simp] theorem setPort_snap : (s.setPort p x).snap = s.snap := rfl
@[simp] theorem setPort_snapFirst : (s.setPort p x).snapFirst = s.snapFirst := rfl
@[simp] theorem setPort_snapLast : (s.setPort p x).snapLast = s.snapLast := rfl
@[simp] theorem setPort_snapRecords : (s.setPort p x).snapRecords = s.snapRecords := rfl
@[simp] theorem setPort_lastGranted : (s.setPort p x).lastGranted = s.lastGranted := rfl
@[simp] theorem setPort_draws : (s.setPort p x).draws = s.draws := rfl
@[simp] theorem setPort_pending : (s.setPort p x).pending = s.pending := rfl
@[simp] theorem setPort_bay : (s.setPort p x).bay b' = s.bay b' := rfl
@[simp] theorem setPort_content : (s.setPort p x).content l' = s.content l' := rfl
@[simp] theorem setPort_hold : (s.setPort p x).hold p' = s.hold p' := rfl
@[simp] theorem setPort_fitted : (s.setPort p x).fitted b' = s.fitted b' := rfl
@[simp] theorem setPort_inService : (s.setPort p x).inService = s.inService := rfl
@[simp] theorem setPort_needsCopy : (s.setPort p x).needsCopy l' = s.needsCopy l' := rfl

/-! ### mapPorts -/

@[simp] theorem mapPorts_phase : (s.mapPorts g).phase = s.phase := rfl
@[simp] theorem mapPorts_rst : (s.mapPorts g).rst = s.rst := rfl
@[simp] theorem mapPorts_startCause : (s.mapPorts g).startCause = s.startCause := rfl
@[simp] theorem mapPorts_strap : (s.mapPorts g).strap = s.strap := rfl
@[simp] theorem mapPorts_locked : (s.mapPorts g).locked = s.locked := rfl
@[simp] theorem mapPorts_count : (s.mapPorts g).count = s.count := rfl
@[simp] theorem mapPorts_unitInGroup : (s.mapPorts g).unitInGroup = s.unitInGroup := rfl
@[simp] theorem mapPorts_owes : (s.mapPorts g).owes = s.owes := rfl
@[simp] theorem mapPorts_prescaler : (s.mapPorts g).prescaler = s.prescaler := rfl
@[simp] theorem mapPorts_counter : (s.mapPorts g).counter = s.counter := rfl
@[simp] theorem mapPorts_points : (s.mapPorts g).points = s.points := rfl
@[simp] theorem mapPorts_enrolMap : (s.mapPorts g).enrolMap = s.enrolMap := rfl
@[simp] theorem mapPorts_bays : (s.mapPorts g).bays = s.bays := rfl
@[simp] theorem mapPorts_bound : (s.mapPorts g).bound = s.bound := rfl
@[simp] theorem mapPorts_masks : (s.mapPorts g).masks = s.masks := rfl
@[simp] theorem mapPorts_timing : (s.mapPorts g).timing = s.timing := rfl
@[simp] theorem mapPorts_strays : (s.mapPorts g).strays = s.strays := rfl
@[simp] theorem mapPorts_polls : (s.mapPorts g).polls = s.polls := rfl
@[simp] theorem mapPorts_holds : (s.mapPorts g).holds = s.holds := rfl
@[simp] theorem mapPorts_deferrals : (s.mapPorts g).deferrals = s.deferrals := rfl
@[simp] theorem mapPorts_ring : (s.mapPorts g).ring = s.ring := rfl
@[simp] theorem mapPorts_nextSeq : (s.mapPorts g).nextSeq = s.nextSeq := rfl
@[simp] theorem mapPorts_snap : (s.mapPorts g).snap = s.snap := rfl
@[simp] theorem mapPorts_snapFirst : (s.mapPorts g).snapFirst = s.snapFirst := rfl
@[simp] theorem mapPorts_snapLast : (s.mapPorts g).snapLast = s.snapLast := rfl
@[simp] theorem mapPorts_snapRecords : (s.mapPorts g).snapRecords = s.snapRecords := rfl
@[simp] theorem mapPorts_lastGranted : (s.mapPorts g).lastGranted = s.lastGranted := rfl
@[simp] theorem mapPorts_draws : (s.mapPorts g).draws = s.draws := rfl
@[simp] theorem mapPorts_pending : (s.mapPorts g).pending = s.pending := rfl
@[simp] theorem mapPorts_bay : (s.mapPorts g).bay b' = s.bay b' := rfl
@[simp] theorem mapPorts_content : (s.mapPorts g).content l' = s.content l' := rfl
@[simp] theorem mapPorts_hold : (s.mapPorts g).hold p' = s.hold p' := rfl
@[simp] theorem mapPorts_fitted : (s.mapPorts g).fitted b' = s.fitted b' := rfl
@[simp] theorem mapPorts_inService : (s.mapPorts g).inService = s.inService := rfl
@[simp] theorem mapPorts_needsCopy : (s.mapPorts g).needsCopy l' = s.needsCopy l' := rfl

/-! ### raiseWhere -/

@[simp] theorem raiseWhere_phase : (s.raiseWhere w e).phase = s.phase := rfl
@[simp] theorem raiseWhere_rst : (s.raiseWhere w e).rst = s.rst := rfl
@[simp] theorem raiseWhere_startCause : (s.raiseWhere w e).startCause = s.startCause := rfl
@[simp] theorem raiseWhere_strap : (s.raiseWhere w e).strap = s.strap := rfl
@[simp] theorem raiseWhere_locked : (s.raiseWhere w e).locked = s.locked := rfl
@[simp] theorem raiseWhere_count : (s.raiseWhere w e).count = s.count := rfl
@[simp] theorem raiseWhere_unitInGroup : (s.raiseWhere w e).unitInGroup = s.unitInGroup := rfl
@[simp] theorem raiseWhere_owes : (s.raiseWhere w e).owes = s.owes := rfl
@[simp] theorem raiseWhere_prescaler : (s.raiseWhere w e).prescaler = s.prescaler := rfl
@[simp] theorem raiseWhere_counter : (s.raiseWhere w e).counter = s.counter := rfl
@[simp] theorem raiseWhere_points : (s.raiseWhere w e).points = s.points := rfl
@[simp] theorem raiseWhere_enrolMap : (s.raiseWhere w e).enrolMap = s.enrolMap := rfl
@[simp] theorem raiseWhere_bays : (s.raiseWhere w e).bays = s.bays := rfl
@[simp] theorem raiseWhere_bound : (s.raiseWhere w e).bound = s.bound := rfl
@[simp] theorem raiseWhere_masks : (s.raiseWhere w e).masks = s.masks := rfl
@[simp] theorem raiseWhere_timing : (s.raiseWhere w e).timing = s.timing := rfl
@[simp] theorem raiseWhere_strays : (s.raiseWhere w e).strays = s.strays := rfl
@[simp] theorem raiseWhere_polls : (s.raiseWhere w e).polls = s.polls := rfl
@[simp] theorem raiseWhere_holds : (s.raiseWhere w e).holds = s.holds := rfl
@[simp] theorem raiseWhere_deferrals : (s.raiseWhere w e).deferrals = s.deferrals := rfl
@[simp] theorem raiseWhere_ring : (s.raiseWhere w e).ring = s.ring := rfl
@[simp] theorem raiseWhere_nextSeq : (s.raiseWhere w e).nextSeq = s.nextSeq := rfl
@[simp] theorem raiseWhere_snap : (s.raiseWhere w e).snap = s.snap := rfl
@[simp] theorem raiseWhere_snapFirst : (s.raiseWhere w e).snapFirst = s.snapFirst := rfl
@[simp] theorem raiseWhere_snapLast : (s.raiseWhere w e).snapLast = s.snapLast := rfl
@[simp] theorem raiseWhere_snapRecords : (s.raiseWhere w e).snapRecords = s.snapRecords := rfl
@[simp] theorem raiseWhere_lastGranted : (s.raiseWhere w e).lastGranted = s.lastGranted := rfl
@[simp] theorem raiseWhere_draws : (s.raiseWhere w e).draws = s.draws := rfl
@[simp] theorem raiseWhere_pending : (s.raiseWhere w e).pending = s.pending := rfl
@[simp] theorem raiseWhere_bay : (s.raiseWhere w e).bay b' = s.bay b' := rfl
@[simp] theorem raiseWhere_content : (s.raiseWhere w e).content l' = s.content l' := rfl
@[simp] theorem raiseWhere_hold : (s.raiseWhere w e).hold p' = s.hold p' := rfl
@[simp] theorem raiseWhere_fitted : (s.raiseWhere w e).fitted b' = s.fitted b' := rfl
@[simp] theorem raiseWhere_inService : (s.raiseWhere w e).inService = s.inService := rfl
@[simp] theorem raiseWhere_needsCopy : (s.raiseWhere w e).needsCopy l' = s.needsCopy l' := rfl

/-! ### raiseAll -/

@[simp] theorem raiseAll_phase : (s.raiseAll e).phase = s.phase := rfl
@[simp] theorem raiseAll_rst : (s.raiseAll e).rst = s.rst := rfl
@[simp] theorem raiseAll_startCause : (s.raiseAll e).startCause = s.startCause := rfl
@[simp] theorem raiseAll_strap : (s.raiseAll e).strap = s.strap := rfl
@[simp] theorem raiseAll_locked : (s.raiseAll e).locked = s.locked := rfl
@[simp] theorem raiseAll_count : (s.raiseAll e).count = s.count := rfl
@[simp] theorem raiseAll_unitInGroup : (s.raiseAll e).unitInGroup = s.unitInGroup := rfl
@[simp] theorem raiseAll_owes : (s.raiseAll e).owes = s.owes := rfl
@[simp] theorem raiseAll_prescaler : (s.raiseAll e).prescaler = s.prescaler := rfl
@[simp] theorem raiseAll_counter : (s.raiseAll e).counter = s.counter := rfl
@[simp] theorem raiseAll_points : (s.raiseAll e).points = s.points := rfl
@[simp] theorem raiseAll_enrolMap : (s.raiseAll e).enrolMap = s.enrolMap := rfl
@[simp] theorem raiseAll_bays : (s.raiseAll e).bays = s.bays := rfl
@[simp] theorem raiseAll_bound : (s.raiseAll e).bound = s.bound := rfl
@[simp] theorem raiseAll_masks : (s.raiseAll e).masks = s.masks := rfl
@[simp] theorem raiseAll_timing : (s.raiseAll e).timing = s.timing := rfl
@[simp] theorem raiseAll_strays : (s.raiseAll e).strays = s.strays := rfl
@[simp] theorem raiseAll_polls : (s.raiseAll e).polls = s.polls := rfl
@[simp] theorem raiseAll_holds : (s.raiseAll e).holds = s.holds := rfl
@[simp] theorem raiseAll_deferrals : (s.raiseAll e).deferrals = s.deferrals := rfl
@[simp] theorem raiseAll_ring : (s.raiseAll e).ring = s.ring := rfl
@[simp] theorem raiseAll_nextSeq : (s.raiseAll e).nextSeq = s.nextSeq := rfl
@[simp] theorem raiseAll_snap : (s.raiseAll e).snap = s.snap := rfl
@[simp] theorem raiseAll_snapFirst : (s.raiseAll e).snapFirst = s.snapFirst := rfl
@[simp] theorem raiseAll_snapLast : (s.raiseAll e).snapLast = s.snapLast := rfl
@[simp] theorem raiseAll_snapRecords : (s.raiseAll e).snapRecords = s.snapRecords := rfl
@[simp] theorem raiseAll_lastGranted : (s.raiseAll e).lastGranted = s.lastGranted := rfl
@[simp] theorem raiseAll_draws : (s.raiseAll e).draws = s.draws := rfl
@[simp] theorem raiseAll_pending : (s.raiseAll e).pending = s.pending := rfl
@[simp] theorem raiseAll_bay : (s.raiseAll e).bay b' = s.bay b' := rfl
@[simp] theorem raiseAll_content : (s.raiseAll e).content l' = s.content l' := rfl
@[simp] theorem raiseAll_hold : (s.raiseAll e).hold p' = s.hold p' := rfl
@[simp] theorem raiseAll_fitted : (s.raiseAll e).fitted b' = s.fitted b' := rfl
@[simp] theorem raiseAll_inService : (s.raiseAll e).inService = s.inService := rfl
@[simp] theorem raiseAll_needsCopy : (s.raiseAll e).needsCopy l' = s.needsCopy l' := rfl

/-! ### raiseOn -/

@[simp] theorem raiseOn_phase : (s.raiseOn p e).phase = s.phase := rfl
@[simp] theorem raiseOn_rst : (s.raiseOn p e).rst = s.rst := rfl
@[simp] theorem raiseOn_startCause : (s.raiseOn p e).startCause = s.startCause := rfl
@[simp] theorem raiseOn_strap : (s.raiseOn p e).strap = s.strap := rfl
@[simp] theorem raiseOn_locked : (s.raiseOn p e).locked = s.locked := rfl
@[simp] theorem raiseOn_count : (s.raiseOn p e).count = s.count := rfl
@[simp] theorem raiseOn_unitInGroup : (s.raiseOn p e).unitInGroup = s.unitInGroup := rfl
@[simp] theorem raiseOn_owes : (s.raiseOn p e).owes = s.owes := rfl
@[simp] theorem raiseOn_prescaler : (s.raiseOn p e).prescaler = s.prescaler := rfl
@[simp] theorem raiseOn_counter : (s.raiseOn p e).counter = s.counter := rfl
@[simp] theorem raiseOn_points : (s.raiseOn p e).points = s.points := rfl
@[simp] theorem raiseOn_enrolMap : (s.raiseOn p e).enrolMap = s.enrolMap := rfl
@[simp] theorem raiseOn_bays : (s.raiseOn p e).bays = s.bays := rfl
@[simp] theorem raiseOn_bound : (s.raiseOn p e).bound = s.bound := rfl
@[simp] theorem raiseOn_masks : (s.raiseOn p e).masks = s.masks := rfl
@[simp] theorem raiseOn_timing : (s.raiseOn p e).timing = s.timing := rfl
@[simp] theorem raiseOn_strays : (s.raiseOn p e).strays = s.strays := rfl
@[simp] theorem raiseOn_polls : (s.raiseOn p e).polls = s.polls := rfl
@[simp] theorem raiseOn_holds : (s.raiseOn p e).holds = s.holds := rfl
@[simp] theorem raiseOn_deferrals : (s.raiseOn p e).deferrals = s.deferrals := rfl
@[simp] theorem raiseOn_ring : (s.raiseOn p e).ring = s.ring := rfl
@[simp] theorem raiseOn_nextSeq : (s.raiseOn p e).nextSeq = s.nextSeq := rfl
@[simp] theorem raiseOn_snap : (s.raiseOn p e).snap = s.snap := rfl
@[simp] theorem raiseOn_snapFirst : (s.raiseOn p e).snapFirst = s.snapFirst := rfl
@[simp] theorem raiseOn_snapLast : (s.raiseOn p e).snapLast = s.snapLast := rfl
@[simp] theorem raiseOn_snapRecords : (s.raiseOn p e).snapRecords = s.snapRecords := rfl
@[simp] theorem raiseOn_lastGranted : (s.raiseOn p e).lastGranted = s.lastGranted := rfl
@[simp] theorem raiseOn_draws : (s.raiseOn p e).draws = s.draws := rfl
@[simp] theorem raiseOn_pending : (s.raiseOn p e).pending = s.pending := rfl
@[simp] theorem raiseOn_bay : (s.raiseOn p e).bay b' = s.bay b' := rfl
@[simp] theorem raiseOn_content : (s.raiseOn p e).content l' = s.content l' := rfl
@[simp] theorem raiseOn_hold : (s.raiseOn p e).hold p' = s.hold p' := rfl
@[simp] theorem raiseOn_fitted : (s.raiseOn p e).fitted b' = s.fitted b' := rfl
@[simp] theorem raiseOn_inService : (s.raiseOn p e).inService = s.inService := rfl
@[simp] theorem raiseOn_needsCopy : (s.raiseOn p e).needsCopy l' = s.needsCopy l' := rfl

/-! ### writePoint -/

@[simp] theorem writePoint_phase : (s.writePoint l c).phase = s.phase := rfl
@[simp] theorem writePoint_rst : (s.writePoint l c).rst = s.rst := rfl
@[simp] theorem writePoint_startCause : (s.writePoint l c).startCause = s.startCause := rfl
@[simp] theorem writePoint_strap : (s.writePoint l c).strap = s.strap := rfl
@[simp] theorem writePoint_locked : (s.writePoint l c).locked = s.locked := rfl
@[simp] theorem writePoint_count : (s.writePoint l c).count = s.count := rfl
@[simp] theorem writePoint_unitInGroup : (s.writePoint l c).unitInGroup = s.unitInGroup := rfl
@[simp] theorem writePoint_owes : (s.writePoint l c).owes = s.owes := rfl
@[simp] theorem writePoint_prescaler : (s.writePoint l c).prescaler = s.prescaler := rfl
@[simp] theorem writePoint_counter : (s.writePoint l c).counter = s.counter := rfl
@[simp] theorem writePoint_enrolMap : (s.writePoint l c).enrolMap = s.enrolMap := rfl
@[simp] theorem writePoint_bays : (s.writePoint l c).bays = s.bays := rfl
@[simp] theorem writePoint_bound : (s.writePoint l c).bound = s.bound := rfl
@[simp] theorem writePoint_masks : (s.writePoint l c).masks = s.masks := rfl
@[simp] theorem writePoint_timing : (s.writePoint l c).timing = s.timing := rfl
@[simp] theorem writePoint_strays : (s.writePoint l c).strays = s.strays := rfl
@[simp] theorem writePoint_polls : (s.writePoint l c).polls = s.polls := rfl
@[simp] theorem writePoint_holds : (s.writePoint l c).holds = s.holds := rfl
@[simp] theorem writePoint_deferrals : (s.writePoint l c).deferrals = s.deferrals := rfl
@[simp] theorem writePoint_ring : (s.writePoint l c).ring = s.ring := rfl
@[simp] theorem writePoint_nextSeq : (s.writePoint l c).nextSeq = s.nextSeq := rfl
@[simp] theorem writePoint_snap : (s.writePoint l c).snap = s.snap := rfl
@[simp] theorem writePoint_snapFirst : (s.writePoint l c).snapFirst = s.snapFirst := rfl
@[simp] theorem writePoint_snapLast : (s.writePoint l c).snapLast = s.snapLast := rfl
@[simp] theorem writePoint_snapRecords : (s.writePoint l c).snapRecords = s.snapRecords := rfl
@[simp] theorem writePoint_ports : (s.writePoint l c).ports = s.ports := rfl
@[simp] theorem writePoint_lastGranted : (s.writePoint l c).lastGranted = s.lastGranted := rfl
@[simp] theorem writePoint_draws : (s.writePoint l c).draws = s.draws := rfl
@[simp] theorem writePoint_pending : (s.writePoint l c).pending = s.pending := rfl
@[simp] theorem writePoint_port : (s.writePoint l c).port p' = s.port p' := rfl
@[simp] theorem writePoint_bay : (s.writePoint l c).bay b' = s.bay b' := rfl
@[simp] theorem writePoint_hold : (s.writePoint l c).hold p' = s.hold p' := rfl
@[simp] theorem writePoint_fitted : (s.writePoint l c).fitted b' = s.fitted b' := rfl
@[simp] theorem writePoint_inService : (s.writePoint l c).inService = s.inService := rfl
@[simp] theorem writePoint_needsCopy : (s.writePoint l c).needsCopy l' = s.needsCopy l' := rfl

/-! ### erasePoint -/

@[simp] theorem erasePoint_phase : (s.erasePoint l).phase = s.phase := rfl
@[simp] theorem erasePoint_rst : (s.erasePoint l).rst = s.rst := rfl
@[simp] theorem erasePoint_startCause : (s.erasePoint l).startCause = s.startCause := rfl
@[simp] theorem erasePoint_strap : (s.erasePoint l).strap = s.strap := rfl
@[simp] theorem erasePoint_locked : (s.erasePoint l).locked = s.locked := rfl
@[simp] theorem erasePoint_count : (s.erasePoint l).count = s.count := rfl
@[simp] theorem erasePoint_unitInGroup : (s.erasePoint l).unitInGroup = s.unitInGroup := rfl
@[simp] theorem erasePoint_owes : (s.erasePoint l).owes = s.owes := rfl
@[simp] theorem erasePoint_prescaler : (s.erasePoint l).prescaler = s.prescaler := rfl
@[simp] theorem erasePoint_counter : (s.erasePoint l).counter = s.counter := rfl
@[simp] theorem erasePoint_enrolMap : (s.erasePoint l).enrolMap = s.enrolMap := rfl
@[simp] theorem erasePoint_bays : (s.erasePoint l).bays = s.bays := rfl
@[simp] theorem erasePoint_bound : (s.erasePoint l).bound = s.bound := rfl
@[simp] theorem erasePoint_masks : (s.erasePoint l).masks = s.masks := rfl
@[simp] theorem erasePoint_timing : (s.erasePoint l).timing = s.timing := rfl
@[simp] theorem erasePoint_strays : (s.erasePoint l).strays = s.strays := rfl
@[simp] theorem erasePoint_polls : (s.erasePoint l).polls = s.polls := rfl
@[simp] theorem erasePoint_holds : (s.erasePoint l).holds = s.holds := rfl
@[simp] theorem erasePoint_deferrals : (s.erasePoint l).deferrals = s.deferrals := rfl
@[simp] theorem erasePoint_ring : (s.erasePoint l).ring = s.ring := rfl
@[simp] theorem erasePoint_nextSeq : (s.erasePoint l).nextSeq = s.nextSeq := rfl
@[simp] theorem erasePoint_snap : (s.erasePoint l).snap = s.snap := rfl
@[simp] theorem erasePoint_snapFirst : (s.erasePoint l).snapFirst = s.snapFirst := rfl
@[simp] theorem erasePoint_snapLast : (s.erasePoint l).snapLast = s.snapLast := rfl
@[simp] theorem erasePoint_snapRecords : (s.erasePoint l).snapRecords = s.snapRecords := rfl
@[simp] theorem erasePoint_ports : (s.erasePoint l).ports = s.ports := rfl
@[simp] theorem erasePoint_lastGranted : (s.erasePoint l).lastGranted = s.lastGranted := rfl
@[simp] theorem erasePoint_draws : (s.erasePoint l).draws = s.draws := rfl
@[simp] theorem erasePoint_pending : (s.erasePoint l).pending = s.pending := rfl
@[simp] theorem erasePoint_port : (s.erasePoint l).port p' = s.port p' := rfl
@[simp] theorem erasePoint_bay : (s.erasePoint l).bay b' = s.bay b' := rfl
@[simp] theorem erasePoint_hold : (s.erasePoint l).hold p' = s.hold p' := rfl
@[simp] theorem erasePoint_fitted : (s.erasePoint l).fitted b' = s.fitted b' := rfl
@[simp] theorem erasePoint_inService : (s.erasePoint l).inService = s.inService := rfl
@[simp] theorem erasePoint_needsCopy : (s.erasePoint l).needsCopy l' = s.needsCopy l' := rfl

/-! ### mapDrop -/

@[simp] theorem mapDrop_phase : (s.mapDrop l).phase = s.phase := rfl
@[simp] theorem mapDrop_rst : (s.mapDrop l).rst = s.rst := rfl
@[simp] theorem mapDrop_startCause : (s.mapDrop l).startCause = s.startCause := rfl
@[simp] theorem mapDrop_strap : (s.mapDrop l).strap = s.strap := rfl
@[simp] theorem mapDrop_locked : (s.mapDrop l).locked = s.locked := rfl
@[simp] theorem mapDrop_count : (s.mapDrop l).count = s.count := rfl
@[simp] theorem mapDrop_unitInGroup : (s.mapDrop l).unitInGroup = s.unitInGroup := rfl
@[simp] theorem mapDrop_owes : (s.mapDrop l).owes = s.owes := rfl
@[simp] theorem mapDrop_prescaler : (s.mapDrop l).prescaler = s.prescaler := rfl
@[simp] theorem mapDrop_counter : (s.mapDrop l).counter = s.counter := rfl
@[simp] theorem mapDrop_points : (s.mapDrop l).points = s.points := rfl
@[simp] theorem mapDrop_bays : (s.mapDrop l).bays = s.bays := rfl
@[simp] theorem mapDrop_bound : (s.mapDrop l).bound = s.bound := rfl
@[simp] theorem mapDrop_masks : (s.mapDrop l).masks = s.masks := rfl
@[simp] theorem mapDrop_timing : (s.mapDrop l).timing = s.timing := rfl
@[simp] theorem mapDrop_strays : (s.mapDrop l).strays = s.strays := rfl
@[simp] theorem mapDrop_polls : (s.mapDrop l).polls = s.polls := rfl
@[simp] theorem mapDrop_holds : (s.mapDrop l).holds = s.holds := rfl
@[simp] theorem mapDrop_deferrals : (s.mapDrop l).deferrals = s.deferrals := rfl
@[simp] theorem mapDrop_ring : (s.mapDrop l).ring = s.ring := rfl
@[simp] theorem mapDrop_nextSeq : (s.mapDrop l).nextSeq = s.nextSeq := rfl
@[simp] theorem mapDrop_snap : (s.mapDrop l).snap = s.snap := rfl
@[simp] theorem mapDrop_snapFirst : (s.mapDrop l).snapFirst = s.snapFirst := rfl
@[simp] theorem mapDrop_snapLast : (s.mapDrop l).snapLast = s.snapLast := rfl
@[simp] theorem mapDrop_snapRecords : (s.mapDrop l).snapRecords = s.snapRecords := rfl
@[simp] theorem mapDrop_ports : (s.mapDrop l).ports = s.ports := rfl
@[simp] theorem mapDrop_lastGranted : (s.mapDrop l).lastGranted = s.lastGranted := rfl
@[simp] theorem mapDrop_draws : (s.mapDrop l).draws = s.draws := rfl
@[simp] theorem mapDrop_pending : (s.mapDrop l).pending = s.pending := rfl
@[simp] theorem mapDrop_port : (s.mapDrop l).port p' = s.port p' := rfl
@[simp] theorem mapDrop_bay : (s.mapDrop l).bay b' = s.bay b' := rfl
@[simp] theorem mapDrop_content : (s.mapDrop l).content l' = s.content l' := rfl
@[simp] theorem mapDrop_hold : (s.mapDrop l).hold p' = s.hold p' := rfl
@[simp] theorem mapDrop_fitted : (s.mapDrop l).fitted b' = s.fitted b' := rfl
@[simp] theorem mapDrop_inService : (s.mapDrop l).inService = s.inService := rfl
@[simp] theorem mapDrop_needsCopy : (s.mapDrop l).needsCopy l' = s.needsCopy l' := rfl

/-! ### mapAdd -/

@[simp] theorem mapAdd_phase : (s.mapAdd n l).phase = s.phase := rfl
@[simp] theorem mapAdd_rst : (s.mapAdd n l).rst = s.rst := rfl
@[simp] theorem mapAdd_startCause : (s.mapAdd n l).startCause = s.startCause := rfl
@[simp] theorem mapAdd_strap : (s.mapAdd n l).strap = s.strap := rfl
@[simp] theorem mapAdd_locked : (s.mapAdd n l).locked = s.locked := rfl
@[simp] theorem mapAdd_count : (s.mapAdd n l).count = s.count := rfl
@[simp] theorem mapAdd_unitInGroup : (s.mapAdd n l).unitInGroup = s.unitInGroup := rfl
@[simp] theorem mapAdd_owes : (s.mapAdd n l).owes = s.owes := rfl
@[simp] theorem mapAdd_prescaler : (s.mapAdd n l).prescaler = s.prescaler := rfl
@[simp] theorem mapAdd_counter : (s.mapAdd n l).counter = s.counter := rfl
@[simp] theorem mapAdd_points : (s.mapAdd n l).points = s.points := rfl
@[simp] theorem mapAdd_bays : (s.mapAdd n l).bays = s.bays := rfl
@[simp] theorem mapAdd_bound : (s.mapAdd n l).bound = s.bound := rfl
@[simp] theorem mapAdd_masks : (s.mapAdd n l).masks = s.masks := rfl
@[simp] theorem mapAdd_timing : (s.mapAdd n l).timing = s.timing := rfl
@[simp] theorem mapAdd_strays : (s.mapAdd n l).strays = s.strays := rfl
@[simp] theorem mapAdd_polls : (s.mapAdd n l).polls = s.polls := rfl
@[simp] theorem mapAdd_holds : (s.mapAdd n l).holds = s.holds := rfl
@[simp] theorem mapAdd_deferrals : (s.mapAdd n l).deferrals = s.deferrals := rfl
@[simp] theorem mapAdd_ring : (s.mapAdd n l).ring = s.ring := rfl
@[simp] theorem mapAdd_nextSeq : (s.mapAdd n l).nextSeq = s.nextSeq := rfl
@[simp] theorem mapAdd_snap : (s.mapAdd n l).snap = s.snap := rfl
@[simp] theorem mapAdd_snapFirst : (s.mapAdd n l).snapFirst = s.snapFirst := rfl
@[simp] theorem mapAdd_snapLast : (s.mapAdd n l).snapLast = s.snapLast := rfl
@[simp] theorem mapAdd_snapRecords : (s.mapAdd n l).snapRecords = s.snapRecords := rfl
@[simp] theorem mapAdd_ports : (s.mapAdd n l).ports = s.ports := rfl
@[simp] theorem mapAdd_lastGranted : (s.mapAdd n l).lastGranted = s.lastGranted := rfl
@[simp] theorem mapAdd_draws : (s.mapAdd n l).draws = s.draws := rfl
@[simp] theorem mapAdd_pending : (s.mapAdd n l).pending = s.pending := rfl
@[simp] theorem mapAdd_port : (s.mapAdd n l).port p' = s.port p' := rfl
@[simp] theorem mapAdd_bay : (s.mapAdd n l).bay b' = s.bay b' := rfl
@[simp] theorem mapAdd_content : (s.mapAdd n l).content l' = s.content l' := rfl
@[simp] theorem mapAdd_hold : (s.mapAdd n l).hold p' = s.hold p' := rfl
@[simp] theorem mapAdd_fitted : (s.mapAdd n l).fitted b' = s.fitted b' := rfl
@[simp] theorem mapAdd_inService : (s.mapAdd n l).inService = s.inService := rfl
@[simp] theorem mapAdd_needsCopy : (s.mapAdd n l).needsCopy l' = s.needsCopy l' := rfl

/-! ### copyIn -/

@[simp] theorem copyIn_phase : (s.copyIn l v).phase = s.phase := rfl
@[simp] theorem copyIn_rst : (s.copyIn l v).rst = s.rst := rfl
@[simp] theorem copyIn_startCause : (s.copyIn l v).startCause = s.startCause := rfl
@[simp] theorem copyIn_strap : (s.copyIn l v).strap = s.strap := rfl
@[simp] theorem copyIn_locked : (s.copyIn l v).locked = s.locked := rfl
@[simp] theorem copyIn_count : (s.copyIn l v).count = s.count := rfl
@[simp] theorem copyIn_unitInGroup : (s.copyIn l v).unitInGroup = s.unitInGroup := rfl
@[simp] theorem copyIn_owes : (s.copyIn l v).owes = s.owes := rfl
@[simp] theorem copyIn_prescaler : (s.copyIn l v).prescaler = s.prescaler := rfl
@[simp] theorem copyIn_counter : (s.copyIn l v).counter = s.counter := rfl
@[simp] theorem copyIn_points : (s.copyIn l v).points = s.points := rfl
@[simp] theorem copyIn_enrolMap : (s.copyIn l v).enrolMap = s.enrolMap := rfl
@[simp] theorem copyIn_bays : (s.copyIn l v).bays = s.bays := rfl
@[simp] theorem copyIn_bound : (s.copyIn l v).bound = s.bound := rfl
@[simp] theorem copyIn_masks : (s.copyIn l v).masks = s.masks := rfl
@[simp] theorem copyIn_timing : (s.copyIn l v).timing = s.timing := rfl
@[simp] theorem copyIn_strays : (s.copyIn l v).strays = s.strays := rfl
@[simp] theorem copyIn_polls : (s.copyIn l v).polls = s.polls := rfl
@[simp] theorem copyIn_holds : (s.copyIn l v).holds = s.holds := rfl
@[simp] theorem copyIn_deferrals : (s.copyIn l v).deferrals = s.deferrals := rfl
@[simp] theorem copyIn_ring : (s.copyIn l v).ring = s.ring := rfl
@[simp] theorem copyIn_nextSeq : (s.copyIn l v).nextSeq = s.nextSeq := rfl
@[simp] theorem copyIn_snap : (s.copyIn l v).snap = s.snap := rfl
@[simp] theorem copyIn_snapFirst : (s.copyIn l v).snapFirst = s.snapFirst := rfl
@[simp] theorem copyIn_snapLast : (s.copyIn l v).snapLast = s.snapLast := rfl
@[simp] theorem copyIn_ports : (s.copyIn l v).ports = s.ports := rfl
@[simp] theorem copyIn_lastGranted : (s.copyIn l v).lastGranted = s.lastGranted := rfl
@[simp] theorem copyIn_draws : (s.copyIn l v).draws = s.draws := rfl
@[simp] theorem copyIn_pending : (s.copyIn l v).pending = s.pending := rfl
@[simp] theorem copyIn_port : (s.copyIn l v).port p' = s.port p' := rfl
@[simp] theorem copyIn_bay : (s.copyIn l v).bay b' = s.bay b' := rfl
@[simp] theorem copyIn_content : (s.copyIn l v).content l' = s.content l' := rfl
@[simp] theorem copyIn_hold : (s.copyIn l v).hold p' = s.hold p' := rfl
@[simp] theorem copyIn_fitted : (s.copyIn l v).fitted b' = s.fitted b' := rfl
@[simp] theorem copyIn_inService : (s.copyIn l v).inService = s.inService := rfl

/-! ### snapEnd -/

@[simp] theorem snapEnd_phase : (s.snapEnd).phase = s.phase := rfl
@[simp] theorem snapEnd_rst : (s.snapEnd).rst = s.rst := rfl
@[simp] theorem snapEnd_startCause : (s.snapEnd).startCause = s.startCause := rfl
@[simp] theorem snapEnd_strap : (s.snapEnd).strap = s.strap := rfl
@[simp] theorem snapEnd_locked : (s.snapEnd).locked = s.locked := rfl
@[simp] theorem snapEnd_count : (s.snapEnd).count = s.count := rfl
@[simp] theorem snapEnd_unitInGroup : (s.snapEnd).unitInGroup = s.unitInGroup := rfl
@[simp] theorem snapEnd_owes : (s.snapEnd).owes = s.owes := rfl
@[simp] theorem snapEnd_prescaler : (s.snapEnd).prescaler = s.prescaler := rfl
@[simp] theorem snapEnd_counter : (s.snapEnd).counter = s.counter := rfl
@[simp] theorem snapEnd_points : (s.snapEnd).points = s.points := rfl
@[simp] theorem snapEnd_enrolMap : (s.snapEnd).enrolMap = s.enrolMap := rfl
@[simp] theorem snapEnd_bays : (s.snapEnd).bays = s.bays := rfl
@[simp] theorem snapEnd_bound : (s.snapEnd).bound = s.bound := rfl
@[simp] theorem snapEnd_masks : (s.snapEnd).masks = s.masks := rfl
@[simp] theorem snapEnd_timing : (s.snapEnd).timing = s.timing := rfl
@[simp] theorem snapEnd_strays : (s.snapEnd).strays = s.strays := rfl
@[simp] theorem snapEnd_polls : (s.snapEnd).polls = s.polls := rfl
@[simp] theorem snapEnd_holds : (s.snapEnd).holds = s.holds := rfl
@[simp] theorem snapEnd_deferrals : (s.snapEnd).deferrals = s.deferrals := rfl
@[simp] theorem snapEnd_ring : (s.snapEnd).ring = s.ring := rfl
@[simp] theorem snapEnd_nextSeq : (s.snapEnd).nextSeq = s.nextSeq := rfl
@[simp] theorem snapEnd_snapFirst : (s.snapEnd).snapFirst = s.snapFirst := rfl
@[simp] theorem snapEnd_snapLast : (s.snapEnd).snapLast = s.snapLast := rfl
@[simp] theorem snapEnd_ports : (s.snapEnd).ports = s.ports := rfl
@[simp] theorem snapEnd_lastGranted : (s.snapEnd).lastGranted = s.lastGranted := rfl
@[simp] theorem snapEnd_draws : (s.snapEnd).draws = s.draws := rfl
@[simp] theorem snapEnd_pending : (s.snapEnd).pending = s.pending := rfl
@[simp] theorem snapEnd_port : (s.snapEnd).port p' = s.port p' := rfl
@[simp] theorem snapEnd_bay : (s.snapEnd).bay b' = s.bay b' := rfl
@[simp] theorem snapEnd_content : (s.snapEnd).content l' = s.content l' := rfl
@[simp] theorem snapEnd_hold : (s.snapEnd).hold p' = s.hold p' := rfl
@[simp] theorem snapEnd_fitted : (s.snapEnd).fitted b' = s.fitted b' := rfl
@[simp] theorem snapEnd_inService : (s.snapEnd).inService = s.inService := rfl

/-! ### strayHear -/

@[simp] theorem strayHear_phase : (s.strayHear rep).phase = s.phase := rfl
@[simp] theorem strayHear_rst : (s.strayHear rep).rst = s.rst := rfl
@[simp] theorem strayHear_startCause : (s.strayHear rep).startCause = s.startCause := rfl
@[simp] theorem strayHear_strap : (s.strayHear rep).strap = s.strap := rfl
@[simp] theorem strayHear_locked : (s.strayHear rep).locked = s.locked := rfl
@[simp] theorem strayHear_count : (s.strayHear rep).count = s.count := rfl
@[simp] theorem strayHear_unitInGroup : (s.strayHear rep).unitInGroup = s.unitInGroup := rfl
@[simp] theorem strayHear_owes : (s.strayHear rep).owes = s.owes := rfl
@[simp] theorem strayHear_prescaler : (s.strayHear rep).prescaler = s.prescaler := rfl
@[simp] theorem strayHear_counter : (s.strayHear rep).counter = s.counter := rfl
@[simp] theorem strayHear_points : (s.strayHear rep).points = s.points := rfl
@[simp] theorem strayHear_enrolMap : (s.strayHear rep).enrolMap = s.enrolMap := rfl
@[simp] theorem strayHear_bays : (s.strayHear rep).bays = s.bays := rfl
@[simp] theorem strayHear_bound : (s.strayHear rep).bound = s.bound := rfl
@[simp] theorem strayHear_masks : (s.strayHear rep).masks = s.masks := rfl
@[simp] theorem strayHear_timing : (s.strayHear rep).timing = s.timing := rfl
@[simp] theorem strayHear_polls : (s.strayHear rep).polls = s.polls := rfl
@[simp] theorem strayHear_holds : (s.strayHear rep).holds = s.holds := rfl
@[simp] theorem strayHear_deferrals : (s.strayHear rep).deferrals = s.deferrals := rfl
@[simp] theorem strayHear_ring : (s.strayHear rep).ring = s.ring := rfl
@[simp] theorem strayHear_nextSeq : (s.strayHear rep).nextSeq = s.nextSeq := rfl
@[simp] theorem strayHear_snap : (s.strayHear rep).snap = s.snap := rfl
@[simp] theorem strayHear_snapFirst : (s.strayHear rep).snapFirst = s.snapFirst := rfl
@[simp] theorem strayHear_snapLast : (s.strayHear rep).snapLast = s.snapLast := rfl
@[simp] theorem strayHear_snapRecords : (s.strayHear rep).snapRecords = s.snapRecords := rfl
@[simp] theorem strayHear_ports : (s.strayHear rep).ports = s.ports := rfl
@[simp] theorem strayHear_lastGranted : (s.strayHear rep).lastGranted = s.lastGranted := rfl
@[simp] theorem strayHear_draws : (s.strayHear rep).draws = s.draws := rfl
@[simp] theorem strayHear_pending : (s.strayHear rep).pending = s.pending := rfl
@[simp] theorem strayHear_port : (s.strayHear rep).port p' = s.port p' := rfl
@[simp] theorem strayHear_bay : (s.strayHear rep).bay b' = s.bay b' := rfl
@[simp] theorem strayHear_content : (s.strayHear rep).content l' = s.content l' := rfl
@[simp] theorem strayHear_hold : (s.strayHear rep).hold p' = s.hold p' := rfl
@[simp] theorem strayHear_fitted : (s.strayHear rep).fitted b' = s.fitted b' := rfl
@[simp] theorem strayHear_inService : (s.strayHear rep).inService = s.inService := rfl
@[simp] theorem strayHear_needsCopy : (s.strayHear rep).needsCopy l' = s.needsCopy l' := rfl

/-! ### strayDrop -/

@[simp] theorem strayDrop_phase : (s.strayDrop n).phase = s.phase := rfl
@[simp] theorem strayDrop_rst : (s.strayDrop n).rst = s.rst := rfl
@[simp] theorem strayDrop_startCause : (s.strayDrop n).startCause = s.startCause := rfl
@[simp] theorem strayDrop_strap : (s.strayDrop n).strap = s.strap := rfl
@[simp] theorem strayDrop_locked : (s.strayDrop n).locked = s.locked := rfl
@[simp] theorem strayDrop_count : (s.strayDrop n).count = s.count := rfl
@[simp] theorem strayDrop_unitInGroup : (s.strayDrop n).unitInGroup = s.unitInGroup := rfl
@[simp] theorem strayDrop_owes : (s.strayDrop n).owes = s.owes := rfl
@[simp] theorem strayDrop_prescaler : (s.strayDrop n).prescaler = s.prescaler := rfl
@[simp] theorem strayDrop_counter : (s.strayDrop n).counter = s.counter := rfl
@[simp] theorem strayDrop_points : (s.strayDrop n).points = s.points := rfl
@[simp] theorem strayDrop_enrolMap : (s.strayDrop n).enrolMap = s.enrolMap := rfl
@[simp] theorem strayDrop_bays : (s.strayDrop n).bays = s.bays := rfl
@[simp] theorem strayDrop_bound : (s.strayDrop n).bound = s.bound := rfl
@[simp] theorem strayDrop_masks : (s.strayDrop n).masks = s.masks := rfl
@[simp] theorem strayDrop_timing : (s.strayDrop n).timing = s.timing := rfl
@[simp] theorem strayDrop_polls : (s.strayDrop n).polls = s.polls := rfl
@[simp] theorem strayDrop_holds : (s.strayDrop n).holds = s.holds := rfl
@[simp] theorem strayDrop_deferrals : (s.strayDrop n).deferrals = s.deferrals := rfl
@[simp] theorem strayDrop_ring : (s.strayDrop n).ring = s.ring := rfl
@[simp] theorem strayDrop_nextSeq : (s.strayDrop n).nextSeq = s.nextSeq := rfl
@[simp] theorem strayDrop_snap : (s.strayDrop n).snap = s.snap := rfl
@[simp] theorem strayDrop_snapFirst : (s.strayDrop n).snapFirst = s.snapFirst := rfl
@[simp] theorem strayDrop_snapLast : (s.strayDrop n).snapLast = s.snapLast := rfl
@[simp] theorem strayDrop_snapRecords : (s.strayDrop n).snapRecords = s.snapRecords := rfl
@[simp] theorem strayDrop_ports : (s.strayDrop n).ports = s.ports := rfl
@[simp] theorem strayDrop_lastGranted : (s.strayDrop n).lastGranted = s.lastGranted := rfl
@[simp] theorem strayDrop_draws : (s.strayDrop n).draws = s.draws := rfl
@[simp] theorem strayDrop_pending : (s.strayDrop n).pending = s.pending := rfl
@[simp] theorem strayDrop_port : (s.strayDrop n).port p' = s.port p' := rfl
@[simp] theorem strayDrop_bay : (s.strayDrop n).bay b' = s.bay b' := rfl
@[simp] theorem strayDrop_content : (s.strayDrop n).content l' = s.content l' := rfl
@[simp] theorem strayDrop_hold : (s.strayDrop n).hold p' = s.hold p' := rfl
@[simp] theorem strayDrop_fitted : (s.strayDrop n).fitted b' = s.fitted b' := rfl
@[simp] theorem strayDrop_inService : (s.strayDrop n).inService = s.inService := rfl
@[simp] theorem strayDrop_needsCopy : (s.strayDrop n).needsCopy l' = s.needsCopy l' := rfl

/-! ### pollsDrop -/

@[simp] theorem pollsDrop_phase : (s.pollsDrop l).phase = s.phase := rfl
@[simp] theorem pollsDrop_rst : (s.pollsDrop l).rst = s.rst := rfl
@[simp] theorem pollsDrop_startCause : (s.pollsDrop l).startCause = s.startCause := rfl
@[simp] theorem pollsDrop_strap : (s.pollsDrop l).strap = s.strap := rfl
@[simp] theorem pollsDrop_locked : (s.pollsDrop l).locked = s.locked := rfl
@[simp] theorem pollsDrop_count : (s.pollsDrop l).count = s.count := rfl
@[simp] theorem pollsDrop_unitInGroup : (s.pollsDrop l).unitInGroup = s.unitInGroup := rfl
@[simp] theorem pollsDrop_owes : (s.pollsDrop l).owes = s.owes := rfl
@[simp] theorem pollsDrop_prescaler : (s.pollsDrop l).prescaler = s.prescaler := rfl
@[simp] theorem pollsDrop_counter : (s.pollsDrop l).counter = s.counter := rfl
@[simp] theorem pollsDrop_points : (s.pollsDrop l).points = s.points := rfl
@[simp] theorem pollsDrop_enrolMap : (s.pollsDrop l).enrolMap = s.enrolMap := rfl
@[simp] theorem pollsDrop_bays : (s.pollsDrop l).bays = s.bays := rfl
@[simp] theorem pollsDrop_bound : (s.pollsDrop l).bound = s.bound := rfl
@[simp] theorem pollsDrop_masks : (s.pollsDrop l).masks = s.masks := rfl
@[simp] theorem pollsDrop_timing : (s.pollsDrop l).timing = s.timing := rfl
@[simp] theorem pollsDrop_strays : (s.pollsDrop l).strays = s.strays := rfl
@[simp] theorem pollsDrop_holds : (s.pollsDrop l).holds = s.holds := rfl
@[simp] theorem pollsDrop_deferrals : (s.pollsDrop l).deferrals = s.deferrals := rfl
@[simp] theorem pollsDrop_ring : (s.pollsDrop l).ring = s.ring := rfl
@[simp] theorem pollsDrop_nextSeq : (s.pollsDrop l).nextSeq = s.nextSeq := rfl
@[simp] theorem pollsDrop_snap : (s.pollsDrop l).snap = s.snap := rfl
@[simp] theorem pollsDrop_snapFirst : (s.pollsDrop l).snapFirst = s.snapFirst := rfl
@[simp] theorem pollsDrop_snapLast : (s.pollsDrop l).snapLast = s.snapLast := rfl
@[simp] theorem pollsDrop_snapRecords : (s.pollsDrop l).snapRecords = s.snapRecords := rfl
@[simp] theorem pollsDrop_ports : (s.pollsDrop l).ports = s.ports := rfl
@[simp] theorem pollsDrop_lastGranted : (s.pollsDrop l).lastGranted = s.lastGranted := rfl
@[simp] theorem pollsDrop_draws : (s.pollsDrop l).draws = s.draws := rfl
@[simp] theorem pollsDrop_pending : (s.pollsDrop l).pending = s.pending := rfl
@[simp] theorem pollsDrop_port : (s.pollsDrop l).port p' = s.port p' := rfl
@[simp] theorem pollsDrop_bay : (s.pollsDrop l).bay b' = s.bay b' := rfl
@[simp] theorem pollsDrop_content : (s.pollsDrop l).content l' = s.content l' := rfl
@[simp] theorem pollsDrop_hold : (s.pollsDrop l).hold p' = s.hold p' := rfl
@[simp] theorem pollsDrop_fitted : (s.pollsDrop l).fitted b' = s.fitted b' := rfl
@[simp] theorem pollsDrop_inService : (s.pollsDrop l).inService = s.inService := rfl
@[simp] theorem pollsDrop_needsCopy : (s.pollsDrop l).needsCopy l' = s.needsCopy l' := rfl

/-! ### pollsTake -/

@[simp] theorem pollsTake_phase : (s.pollsTake m k).phase = s.phase := rfl
@[simp] theorem pollsTake_rst : (s.pollsTake m k).rst = s.rst := rfl
@[simp] theorem pollsTake_startCause : (s.pollsTake m k).startCause = s.startCause := rfl
@[simp] theorem pollsTake_strap : (s.pollsTake m k).strap = s.strap := rfl
@[simp] theorem pollsTake_locked : (s.pollsTake m k).locked = s.locked := rfl
@[simp] theorem pollsTake_count : (s.pollsTake m k).count = s.count := rfl
@[simp] theorem pollsTake_unitInGroup : (s.pollsTake m k).unitInGroup = s.unitInGroup := rfl
@[simp] theorem pollsTake_owes : (s.pollsTake m k).owes = s.owes := rfl
@[simp] theorem pollsTake_prescaler : (s.pollsTake m k).prescaler = s.prescaler := rfl
@[simp] theorem pollsTake_counter : (s.pollsTake m k).counter = s.counter := rfl
@[simp] theorem pollsTake_points : (s.pollsTake m k).points = s.points := rfl
@[simp] theorem pollsTake_enrolMap : (s.pollsTake m k).enrolMap = s.enrolMap := rfl
@[simp] theorem pollsTake_bays : (s.pollsTake m k).bays = s.bays := rfl
@[simp] theorem pollsTake_bound : (s.pollsTake m k).bound = s.bound := rfl
@[simp] theorem pollsTake_masks : (s.pollsTake m k).masks = s.masks := rfl
@[simp] theorem pollsTake_timing : (s.pollsTake m k).timing = s.timing := rfl
@[simp] theorem pollsTake_strays : (s.pollsTake m k).strays = s.strays := rfl
@[simp] theorem pollsTake_holds : (s.pollsTake m k).holds = s.holds := rfl
@[simp] theorem pollsTake_deferrals : (s.pollsTake m k).deferrals = s.deferrals := rfl
@[simp] theorem pollsTake_ring : (s.pollsTake m k).ring = s.ring := rfl
@[simp] theorem pollsTake_nextSeq : (s.pollsTake m k).nextSeq = s.nextSeq := rfl
@[simp] theorem pollsTake_snap : (s.pollsTake m k).snap = s.snap := rfl
@[simp] theorem pollsTake_snapFirst : (s.pollsTake m k).snapFirst = s.snapFirst := rfl
@[simp] theorem pollsTake_snapLast : (s.pollsTake m k).snapLast = s.snapLast := rfl
@[simp] theorem pollsTake_snapRecords : (s.pollsTake m k).snapRecords = s.snapRecords := rfl
@[simp] theorem pollsTake_ports : (s.pollsTake m k).ports = s.ports := rfl
@[simp] theorem pollsTake_lastGranted : (s.pollsTake m k).lastGranted = s.lastGranted := rfl
@[simp] theorem pollsTake_draws : (s.pollsTake m k).draws = s.draws := rfl
@[simp] theorem pollsTake_pending : (s.pollsTake m k).pending = s.pending := rfl
@[simp] theorem pollsTake_port : (s.pollsTake m k).port p' = s.port p' := rfl
@[simp] theorem pollsTake_bay : (s.pollsTake m k).bay b' = s.bay b' := rfl
@[simp] theorem pollsTake_content : (s.pollsTake m k).content l' = s.content l' := rfl
@[simp] theorem pollsTake_hold : (s.pollsTake m k).hold p' = s.hold p' := rfl
@[simp] theorem pollsTake_fitted : (s.pollsTake m k).fitted b' = s.fitted b' := rfl
@[simp] theorem pollsTake_inService : (s.pollsTake m k).inService = s.inService := rfl
@[simp] theorem pollsTake_needsCopy : (s.pollsTake m k).needsCopy l' = s.needsCopy l' := rfl

/-! ### defer -/

@[simp] theorem defer_phase : (s.defer rep b).phase = s.phase := rfl
@[simp] theorem defer_rst : (s.defer rep b).rst = s.rst := rfl
@[simp] theorem defer_startCause : (s.defer rep b).startCause = s.startCause := rfl
@[simp] theorem defer_strap : (s.defer rep b).strap = s.strap := rfl
@[simp] theorem defer_locked : (s.defer rep b).locked = s.locked := rfl
@[simp] theorem defer_count : (s.defer rep b).count = s.count := rfl
@[simp] theorem defer_unitInGroup : (s.defer rep b).unitInGroup = s.unitInGroup := rfl
@[simp] theorem defer_owes : (s.defer rep b).owes = s.owes := rfl
@[simp] theorem defer_prescaler : (s.defer rep b).prescaler = s.prescaler := rfl
@[simp] theorem defer_counter : (s.defer rep b).counter = s.counter := rfl
@[simp] theorem defer_points : (s.defer rep b).points = s.points := rfl
@[simp] theorem defer_enrolMap : (s.defer rep b).enrolMap = s.enrolMap := rfl
@[simp] theorem defer_bays : (s.defer rep b).bays = s.bays := rfl
@[simp] theorem defer_bound : (s.defer rep b).bound = s.bound := rfl
@[simp] theorem defer_masks : (s.defer rep b).masks = s.masks := rfl
@[simp] theorem defer_timing : (s.defer rep b).timing = s.timing := rfl
@[simp] theorem defer_strays : (s.defer rep b).strays = s.strays := rfl
@[simp] theorem defer_polls : (s.defer rep b).polls = s.polls := rfl
@[simp] theorem defer_holds : (s.defer rep b).holds = s.holds := rfl
@[simp] theorem defer_ring : (s.defer rep b).ring = s.ring := rfl
@[simp] theorem defer_nextSeq : (s.defer rep b).nextSeq = s.nextSeq := rfl
@[simp] theorem defer_snap : (s.defer rep b).snap = s.snap := rfl
@[simp] theorem defer_snapFirst : (s.defer rep b).snapFirst = s.snapFirst := rfl
@[simp] theorem defer_snapLast : (s.defer rep b).snapLast = s.snapLast := rfl
@[simp] theorem defer_snapRecords : (s.defer rep b).snapRecords = s.snapRecords := rfl
@[simp] theorem defer_ports : (s.defer rep b).ports = s.ports := rfl
@[simp] theorem defer_lastGranted : (s.defer rep b).lastGranted = s.lastGranted := rfl
@[simp] theorem defer_draws : (s.defer rep b).draws = s.draws := rfl
@[simp] theorem defer_pending : (s.defer rep b).pending = s.pending := rfl
@[simp] theorem defer_port : (s.defer rep b).port p' = s.port p' := rfl
@[simp] theorem defer_bay : (s.defer rep b).bay b' = s.bay b' := rfl
@[simp] theorem defer_content : (s.defer rep b).content l' = s.content l' := rfl
@[simp] theorem defer_hold : (s.defer rep b).hold p' = s.hold p' := rfl
@[simp] theorem defer_fitted : (s.defer rep b).fitted b' = s.fitted b' := rfl
@[simp] theorem defer_inService : (s.defer rep b).inService = s.inService := rfl
@[simp] theorem defer_needsCopy : (s.defer rep b).needsCopy l' = s.needsCopy l' := rfl

/-! ### undefer -/

@[simp] theorem undefer_phase : (s.undefer b).phase = s.phase := rfl
@[simp] theorem undefer_rst : (s.undefer b).rst = s.rst := rfl
@[simp] theorem undefer_startCause : (s.undefer b).startCause = s.startCause := rfl
@[simp] theorem undefer_strap : (s.undefer b).strap = s.strap := rfl
@[simp] theorem undefer_locked : (s.undefer b).locked = s.locked := rfl
@[simp] theorem undefer_count : (s.undefer b).count = s.count := rfl
@[simp] theorem undefer_unitInGroup : (s.undefer b).unitInGroup = s.unitInGroup := rfl
@[simp] theorem undefer_owes : (s.undefer b).owes = s.owes := rfl
@[simp] theorem undefer_prescaler : (s.undefer b).prescaler = s.prescaler := rfl
@[simp] theorem undefer_counter : (s.undefer b).counter = s.counter := rfl
@[simp] theorem undefer_points : (s.undefer b).points = s.points := rfl
@[simp] theorem undefer_enrolMap : (s.undefer b).enrolMap = s.enrolMap := rfl
@[simp] theorem undefer_bays : (s.undefer b).bays = s.bays := rfl
@[simp] theorem undefer_bound : (s.undefer b).bound = s.bound := rfl
@[simp] theorem undefer_masks : (s.undefer b).masks = s.masks := rfl
@[simp] theorem undefer_timing : (s.undefer b).timing = s.timing := rfl
@[simp] theorem undefer_strays : (s.undefer b).strays = s.strays := rfl
@[simp] theorem undefer_polls : (s.undefer b).polls = s.polls := rfl
@[simp] theorem undefer_holds : (s.undefer b).holds = s.holds := rfl
@[simp] theorem undefer_ring : (s.undefer b).ring = s.ring := rfl
@[simp] theorem undefer_nextSeq : (s.undefer b).nextSeq = s.nextSeq := rfl
@[simp] theorem undefer_snap : (s.undefer b).snap = s.snap := rfl
@[simp] theorem undefer_snapFirst : (s.undefer b).snapFirst = s.snapFirst := rfl
@[simp] theorem undefer_snapLast : (s.undefer b).snapLast = s.snapLast := rfl
@[simp] theorem undefer_snapRecords : (s.undefer b).snapRecords = s.snapRecords := rfl
@[simp] theorem undefer_ports : (s.undefer b).ports = s.ports := rfl
@[simp] theorem undefer_lastGranted : (s.undefer b).lastGranted = s.lastGranted := rfl
@[simp] theorem undefer_draws : (s.undefer b).draws = s.draws := rfl
@[simp] theorem undefer_pending : (s.undefer b).pending = s.pending := rfl
@[simp] theorem undefer_port : (s.undefer b).port p' = s.port p' := rfl
@[simp] theorem undefer_bay : (s.undefer b).bay b' = s.bay b' := rfl
@[simp] theorem undefer_content : (s.undefer b).content l' = s.content l' := rfl
@[simp] theorem undefer_hold : (s.undefer b).hold p' = s.hold p' := rfl
@[simp] theorem undefer_fitted : (s.undefer b).fitted b' = s.fitted b' := rfl
@[simp] theorem undefer_inService : (s.undefer b).inService = s.inService := rfl
@[simp] theorem undefer_needsCopy : (s.undefer b).needsCopy l' = s.needsCopy l' := rfl

/-! ### setHold -/

@[simp] theorem setHold_phase : (s.setHold p h).phase = s.phase := rfl
@[simp] theorem setHold_rst : (s.setHold p h).rst = s.rst := rfl
@[simp] theorem setHold_startCause : (s.setHold p h).startCause = s.startCause := rfl
@[simp] theorem setHold_strap : (s.setHold p h).strap = s.strap := rfl
@[simp] theorem setHold_locked : (s.setHold p h).locked = s.locked := rfl
@[simp] theorem setHold_count : (s.setHold p h).count = s.count := rfl
@[simp] theorem setHold_unitInGroup : (s.setHold p h).unitInGroup = s.unitInGroup := rfl
@[simp] theorem setHold_owes : (s.setHold p h).owes = s.owes := rfl
@[simp] theorem setHold_prescaler : (s.setHold p h).prescaler = s.prescaler := rfl
@[simp] theorem setHold_counter : (s.setHold p h).counter = s.counter := rfl
@[simp] theorem setHold_points : (s.setHold p h).points = s.points := rfl
@[simp] theorem setHold_enrolMap : (s.setHold p h).enrolMap = s.enrolMap := rfl
@[simp] theorem setHold_bays : (s.setHold p h).bays = s.bays := rfl
@[simp] theorem setHold_bound : (s.setHold p h).bound = s.bound := rfl
@[simp] theorem setHold_masks : (s.setHold p h).masks = s.masks := rfl
@[simp] theorem setHold_timing : (s.setHold p h).timing = s.timing := rfl
@[simp] theorem setHold_strays : (s.setHold p h).strays = s.strays := rfl
@[simp] theorem setHold_polls : (s.setHold p h).polls = s.polls := rfl
@[simp] theorem setHold_deferrals : (s.setHold p h).deferrals = s.deferrals := rfl
@[simp] theorem setHold_ring : (s.setHold p h).ring = s.ring := rfl
@[simp] theorem setHold_nextSeq : (s.setHold p h).nextSeq = s.nextSeq := rfl
@[simp] theorem setHold_snap : (s.setHold p h).snap = s.snap := rfl
@[simp] theorem setHold_snapFirst : (s.setHold p h).snapFirst = s.snapFirst := rfl
@[simp] theorem setHold_snapLast : (s.setHold p h).snapLast = s.snapLast := rfl
@[simp] theorem setHold_snapRecords : (s.setHold p h).snapRecords = s.snapRecords := rfl
@[simp] theorem setHold_ports : (s.setHold p h).ports = s.ports := rfl
@[simp] theorem setHold_lastGranted : (s.setHold p h).lastGranted = s.lastGranted := rfl
@[simp] theorem setHold_draws : (s.setHold p h).draws = s.draws := rfl
@[simp] theorem setHold_pending : (s.setHold p h).pending = s.pending := rfl
@[simp] theorem setHold_port : (s.setHold p h).port p' = s.port p' := rfl
@[simp] theorem setHold_bay : (s.setHold p h).bay b' = s.bay b' := rfl
@[simp] theorem setHold_content : (s.setHold p h).content l' = s.content l' := rfl
@[simp] theorem setHold_fitted : (s.setHold p h).fitted b' = s.fitted b' := rfl
@[simp] theorem setHold_inService : (s.setHold p h).inService = s.inService := rfl
@[simp] theorem setHold_needsCopy : (s.setHold p h).needsCopy l' = s.needsCopy l' := rfl

/-! ### setOwed -/

@[simp] theorem setOwed_phase : (s.setOwed b v).phase = s.phase := rfl
@[simp] theorem setOwed_rst : (s.setOwed b v).rst = s.rst := rfl
@[simp] theorem setOwed_startCause : (s.setOwed b v).startCause = s.startCause := rfl
@[simp] theorem setOwed_strap : (s.setOwed b v).strap = s.strap := rfl
@[simp] theorem setOwed_locked : (s.setOwed b v).locked = s.locked := rfl
@[simp] theorem setOwed_count : (s.setOwed b v).count = s.count := rfl
@[simp] theorem setOwed_unitInGroup : (s.setOwed b v).unitInGroup = s.unitInGroup := rfl
@[simp] theorem setOwed_owes : (s.setOwed b v).owes = s.owes := rfl
@[simp] theorem setOwed_prescaler : (s.setOwed b v).prescaler = s.prescaler := rfl
@[simp] theorem setOwed_counter : (s.setOwed b v).counter = s.counter := rfl
@[simp] theorem setOwed_points : (s.setOwed b v).points = s.points := rfl
@[simp] theorem setOwed_enrolMap : (s.setOwed b v).enrolMap = s.enrolMap := rfl
@[simp] theorem setOwed_bound : (s.setOwed b v).bound = s.bound := rfl
@[simp] theorem setOwed_masks : (s.setOwed b v).masks = s.masks := rfl
@[simp] theorem setOwed_timing : (s.setOwed b v).timing = s.timing := rfl
@[simp] theorem setOwed_strays : (s.setOwed b v).strays = s.strays := rfl
@[simp] theorem setOwed_polls : (s.setOwed b v).polls = s.polls := rfl
@[simp] theorem setOwed_holds : (s.setOwed b v).holds = s.holds := rfl
@[simp] theorem setOwed_deferrals : (s.setOwed b v).deferrals = s.deferrals := rfl
@[simp] theorem setOwed_ring : (s.setOwed b v).ring = s.ring := rfl
@[simp] theorem setOwed_nextSeq : (s.setOwed b v).nextSeq = s.nextSeq := rfl
@[simp] theorem setOwed_snap : (s.setOwed b v).snap = s.snap := rfl
@[simp] theorem setOwed_snapFirst : (s.setOwed b v).snapFirst = s.snapFirst := rfl
@[simp] theorem setOwed_snapLast : (s.setOwed b v).snapLast = s.snapLast := rfl
@[simp] theorem setOwed_snapRecords : (s.setOwed b v).snapRecords = s.snapRecords := rfl
@[simp] theorem setOwed_ports : (s.setOwed b v).ports = s.ports := rfl
@[simp] theorem setOwed_lastGranted : (s.setOwed b v).lastGranted = s.lastGranted := rfl
@[simp] theorem setOwed_draws : (s.setOwed b v).draws = s.draws := rfl
@[simp] theorem setOwed_pending : (s.setOwed b v).pending = s.pending := rfl
@[simp] theorem setOwed_port : (s.setOwed b v).port p' = s.port p' := rfl
@[simp] theorem setOwed_content : (s.setOwed b v).content l' = s.content l' := rfl
@[simp] theorem setOwed_hold : (s.setOwed b v).hold p' = s.hold p' := rfl
@[simp] theorem setOwed_fitted : (s.setOwed b v).fitted b' = s.fitted b' := rfl
@[simp] theorem setOwed_inService : (s.setOwed b v).inService = s.inService := rfl
@[simp] theorem setOwed_needsCopy : (s.setOwed b v).needsCopy l' = s.needsCopy l' := rfl

/-! ### setMode -/

@[simp] theorem setMode_phase : (s.setMode b mode).phase = s.phase := rfl
@[simp] theorem setMode_rst : (s.setMode b mode).rst = s.rst := rfl
@[simp] theorem setMode_startCause : (s.setMode b mode).startCause = s.startCause := rfl
@[simp] theorem setMode_strap : (s.setMode b mode).strap = s.strap := rfl
@[simp] theorem setMode_locked : (s.setMode b mode).locked = s.locked := rfl
@[simp] theorem setMode_count : (s.setMode b mode).count = s.count := rfl
@[simp] theorem setMode_unitInGroup : (s.setMode b mode).unitInGroup = s.unitInGroup := rfl
@[simp] theorem setMode_owes : (s.setMode b mode).owes = s.owes := rfl
@[simp] theorem setMode_prescaler : (s.setMode b mode).prescaler = s.prescaler := rfl
@[simp] theorem setMode_counter : (s.setMode b mode).counter = s.counter := rfl
@[simp] theorem setMode_points : (s.setMode b mode).points = s.points := rfl
@[simp] theorem setMode_enrolMap : (s.setMode b mode).enrolMap = s.enrolMap := rfl
@[simp] theorem setMode_bound : (s.setMode b mode).bound = s.bound := rfl
@[simp] theorem setMode_masks : (s.setMode b mode).masks = s.masks := rfl
@[simp] theorem setMode_timing : (s.setMode b mode).timing = s.timing := rfl
@[simp] theorem setMode_strays : (s.setMode b mode).strays = s.strays := rfl
@[simp] theorem setMode_polls : (s.setMode b mode).polls = s.polls := rfl
@[simp] theorem setMode_holds : (s.setMode b mode).holds = s.holds := rfl
@[simp] theorem setMode_deferrals : (s.setMode b mode).deferrals = s.deferrals := rfl
@[simp] theorem setMode_ring : (s.setMode b mode).ring = s.ring := rfl
@[simp] theorem setMode_nextSeq : (s.setMode b mode).nextSeq = s.nextSeq := rfl
@[simp] theorem setMode_snap : (s.setMode b mode).snap = s.snap := rfl
@[simp] theorem setMode_snapFirst : (s.setMode b mode).snapFirst = s.snapFirst := rfl
@[simp] theorem setMode_snapLast : (s.setMode b mode).snapLast = s.snapLast := rfl
@[simp] theorem setMode_snapRecords : (s.setMode b mode).snapRecords = s.snapRecords := rfl
@[simp] theorem setMode_ports : (s.setMode b mode).ports = s.ports := rfl
@[simp] theorem setMode_lastGranted : (s.setMode b mode).lastGranted = s.lastGranted := rfl
@[simp] theorem setMode_draws : (s.setMode b mode).draws = s.draws := rfl
@[simp] theorem setMode_pending : (s.setMode b mode).pending = s.pending := rfl
@[simp] theorem setMode_port : (s.setMode b mode).port p' = s.port p' := rfl
@[simp] theorem setMode_content : (s.setMode b mode).content l' = s.content l' := rfl
@[simp] theorem setMode_hold : (s.setMode b mode).hold p' = s.hold p' := rfl
@[simp] theorem setMode_fitted : (s.setMode b mode).fitted b' = s.fitted b' := rfl
@[simp] theorem setMode_inService : (s.setMode b mode).inService = s.inService := rfl
@[simp] theorem setMode_needsCopy : (s.setMode b mode).needsCopy l' = s.needsCopy l' := rfl

/-! ### setPartner -/

@[simp] theorem setPartner_phase : (s.setPartner b q).phase = s.phase := rfl
@[simp] theorem setPartner_rst : (s.setPartner b q).rst = s.rst := rfl
@[simp] theorem setPartner_startCause : (s.setPartner b q).startCause = s.startCause := rfl
@[simp] theorem setPartner_strap : (s.setPartner b q).strap = s.strap := rfl
@[simp] theorem setPartner_locked : (s.setPartner b q).locked = s.locked := rfl
@[simp] theorem setPartner_count : (s.setPartner b q).count = s.count := rfl
@[simp] theorem setPartner_unitInGroup : (s.setPartner b q).unitInGroup = s.unitInGroup := rfl
@[simp] theorem setPartner_owes : (s.setPartner b q).owes = s.owes := rfl
@[simp] theorem setPartner_prescaler : (s.setPartner b q).prescaler = s.prescaler := rfl
@[simp] theorem setPartner_counter : (s.setPartner b q).counter = s.counter := rfl
@[simp] theorem setPartner_points : (s.setPartner b q).points = s.points := rfl
@[simp] theorem setPartner_enrolMap : (s.setPartner b q).enrolMap = s.enrolMap := rfl
@[simp] theorem setPartner_bound : (s.setPartner b q).bound = s.bound := rfl
@[simp] theorem setPartner_masks : (s.setPartner b q).masks = s.masks := rfl
@[simp] theorem setPartner_timing : (s.setPartner b q).timing = s.timing := rfl
@[simp] theorem setPartner_strays : (s.setPartner b q).strays = s.strays := rfl
@[simp] theorem setPartner_polls : (s.setPartner b q).polls = s.polls := rfl
@[simp] theorem setPartner_holds : (s.setPartner b q).holds = s.holds := rfl
@[simp] theorem setPartner_deferrals : (s.setPartner b q).deferrals = s.deferrals := rfl
@[simp] theorem setPartner_ring : (s.setPartner b q).ring = s.ring := rfl
@[simp] theorem setPartner_nextSeq : (s.setPartner b q).nextSeq = s.nextSeq := rfl
@[simp] theorem setPartner_snap : (s.setPartner b q).snap = s.snap := rfl
@[simp] theorem setPartner_snapFirst : (s.setPartner b q).snapFirst = s.snapFirst := rfl
@[simp] theorem setPartner_snapLast : (s.setPartner b q).snapLast = s.snapLast := rfl
@[simp] theorem setPartner_snapRecords : (s.setPartner b q).snapRecords = s.snapRecords := rfl
@[simp] theorem setPartner_ports : (s.setPartner b q).ports = s.ports := rfl
@[simp] theorem setPartner_lastGranted : (s.setPartner b q).lastGranted = s.lastGranted := rfl
@[simp] theorem setPartner_draws : (s.setPartner b q).draws = s.draws := rfl
@[simp] theorem setPartner_pending : (s.setPartner b q).pending = s.pending := rfl
@[simp] theorem setPartner_port : (s.setPartner b q).port p' = s.port p' := rfl
@[simp] theorem setPartner_content : (s.setPartner b q).content l' = s.content l' := rfl
@[simp] theorem setPartner_hold : (s.setPartner b q).hold p' = s.hold p' := rfl
@[simp] theorem setPartner_fitted : (s.setPartner b q).fitted b' = s.fitted b' := rfl
@[simp] theorem setPartner_inService : (s.setPartner b q).inService = s.inService := rfl
@[simp] theorem setPartner_needsCopy : (s.setPartner b q).needsCopy l' = s.needsCopy l' := rfl

/-! ### granting -/

@[simp] theorem granting_phase : (s.granting p).phase = s.phase := rfl
@[simp] theorem granting_rst : (s.granting p).rst = s.rst := rfl
@[simp] theorem granting_startCause : (s.granting p).startCause = s.startCause := rfl
@[simp] theorem granting_strap : (s.granting p).strap = s.strap := rfl
@[simp] theorem granting_locked : (s.granting p).locked = s.locked := rfl
@[simp] theorem granting_count : (s.granting p).count = s.count := rfl
@[simp] theorem granting_unitInGroup : (s.granting p).unitInGroup = s.unitInGroup := rfl
@[simp] theorem granting_owes : (s.granting p).owes = s.owes := rfl
@[simp] theorem granting_prescaler : (s.granting p).prescaler = s.prescaler := rfl
@[simp] theorem granting_counter : (s.granting p).counter = s.counter := rfl
@[simp] theorem granting_points : (s.granting p).points = s.points := rfl
@[simp] theorem granting_enrolMap : (s.granting p).enrolMap = s.enrolMap := rfl
@[simp] theorem granting_bays : (s.granting p).bays = s.bays := rfl
@[simp] theorem granting_bound : (s.granting p).bound = s.bound := rfl
@[simp] theorem granting_masks : (s.granting p).masks = s.masks := rfl
@[simp] theorem granting_timing : (s.granting p).timing = s.timing := rfl
@[simp] theorem granting_strays : (s.granting p).strays = s.strays := rfl
@[simp] theorem granting_polls : (s.granting p).polls = s.polls := rfl
@[simp] theorem granting_holds : (s.granting p).holds = s.holds := rfl
@[simp] theorem granting_deferrals : (s.granting p).deferrals = s.deferrals := rfl
@[simp] theorem granting_ring : (s.granting p).ring = s.ring := rfl
@[simp] theorem granting_nextSeq : (s.granting p).nextSeq = s.nextSeq := rfl
@[simp] theorem granting_snap : (s.granting p).snap = s.snap := rfl
@[simp] theorem granting_snapFirst : (s.granting p).snapFirst = s.snapFirst := rfl
@[simp] theorem granting_snapLast : (s.granting p).snapLast = s.snapLast := rfl
@[simp] theorem granting_snapRecords : (s.granting p).snapRecords = s.snapRecords := rfl
@[simp] theorem granting_ports : (s.granting p).ports = s.ports := rfl
@[simp] theorem granting_pending : (s.granting p).pending = s.pending := rfl
@[simp] theorem granting_port : (s.granting p).port p' = s.port p' := rfl
@[simp] theorem granting_bay : (s.granting p).bay b' = s.bay b' := rfl
@[simp] theorem granting_content : (s.granting p).content l' = s.content l' := rfl
@[simp] theorem granting_hold : (s.granting p).hold p' = s.hold p' := rfl
@[simp] theorem granting_fitted : (s.granting p).fitted b' = s.fitted b' := rfl
@[simp] theorem granting_inService : (s.granting p).inService = s.inService := rfl
@[simp] theorem granting_needsCopy : (s.granting p).needsCopy l' = s.needsCopy l' := rfl

/-! ### respond -/

@[simp] theorem respond_phase : (s.respond p req a).phase = s.phase := rfl
@[simp] theorem respond_rst : (s.respond p req a).rst = s.rst := rfl
@[simp] theorem respond_startCause : (s.respond p req a).startCause = s.startCause := rfl
@[simp] theorem respond_strap : (s.respond p req a).strap = s.strap := rfl
@[simp] theorem respond_locked : (s.respond p req a).locked = s.locked := rfl
@[simp] theorem respond_count : (s.respond p req a).count = s.count := rfl
@[simp] theorem respond_unitInGroup : (s.respond p req a).unitInGroup = s.unitInGroup := rfl
@[simp] theorem respond_owes : (s.respond p req a).owes = s.owes := rfl
@[simp] theorem respond_prescaler : (s.respond p req a).prescaler = s.prescaler := rfl
@[simp] theorem respond_counter : (s.respond p req a).counter = s.counter := rfl
@[simp] theorem respond_points : (s.respond p req a).points = s.points := rfl
@[simp] theorem respond_enrolMap : (s.respond p req a).enrolMap = s.enrolMap := rfl
@[simp] theorem respond_bays : (s.respond p req a).bays = s.bays := rfl
@[simp] theorem respond_bound : (s.respond p req a).bound = s.bound := rfl
@[simp] theorem respond_masks : (s.respond p req a).masks = s.masks := rfl
@[simp] theorem respond_timing : (s.respond p req a).timing = s.timing := rfl
@[simp] theorem respond_strays : (s.respond p req a).strays = s.strays := rfl
@[simp] theorem respond_polls : (s.respond p req a).polls = s.polls := rfl
@[simp] theorem respond_holds : (s.respond p req a).holds = s.holds := rfl
@[simp] theorem respond_deferrals : (s.respond p req a).deferrals = s.deferrals := rfl
@[simp] theorem respond_ring : (s.respond p req a).ring = s.ring := rfl
@[simp] theorem respond_nextSeq : (s.respond p req a).nextSeq = s.nextSeq := rfl
@[simp] theorem respond_snap : (s.respond p req a).snap = s.snap := rfl
@[simp] theorem respond_snapFirst : (s.respond p req a).snapFirst = s.snapFirst := rfl
@[simp] theorem respond_snapLast : (s.respond p req a).snapLast = s.snapLast := rfl
@[simp] theorem respond_snapRecords : (s.respond p req a).snapRecords = s.snapRecords := rfl
@[simp] theorem respond_lastGranted : (s.respond p req a).lastGranted = s.lastGranted := rfl
@[simp] theorem respond_draws : (s.respond p req a).draws = s.draws := rfl
@[simp] theorem respond_pending : (s.respond p req a).pending = s.pending := rfl
@[simp] theorem respond_bay : (s.respond p req a).bay b' = s.bay b' := rfl
@[simp] theorem respond_content : (s.respond p req a).content l' = s.content l' := rfl
@[simp] theorem respond_hold : (s.respond p req a).hold p' = s.hold p' := rfl
@[simp] theorem respond_fitted : (s.respond p req a).fitted b' = s.fitted b' := rfl
@[simp] theorem respond_inService : (s.respond p req a).inService = s.inService := rfl
@[simp] theorem respond_needsCopy : (s.respond p req a).needsCopy l' = s.needsCopy l' := rfl

/-! ### setSub -/

@[simp] theorem setSub_phase : (s.setSub p sub).phase = s.phase := rfl
@[simp] theorem setSub_rst : (s.setSub p sub).rst = s.rst := rfl
@[simp] theorem setSub_startCause : (s.setSub p sub).startCause = s.startCause := rfl
@[simp] theorem setSub_strap : (s.setSub p sub).strap = s.strap := rfl
@[simp] theorem setSub_locked : (s.setSub p sub).locked = s.locked := rfl
@[simp] theorem setSub_count : (s.setSub p sub).count = s.count := rfl
@[simp] theorem setSub_unitInGroup : (s.setSub p sub).unitInGroup = s.unitInGroup := rfl
@[simp] theorem setSub_owes : (s.setSub p sub).owes = s.owes := rfl
@[simp] theorem setSub_prescaler : (s.setSub p sub).prescaler = s.prescaler := rfl
@[simp] theorem setSub_counter : (s.setSub p sub).counter = s.counter := rfl
@[simp] theorem setSub_points : (s.setSub p sub).points = s.points := rfl
@[simp] theorem setSub_enrolMap : (s.setSub p sub).enrolMap = s.enrolMap := rfl
@[simp] theorem setSub_bays : (s.setSub p sub).bays = s.bays := rfl
@[simp] theorem setSub_bound : (s.setSub p sub).bound = s.bound := rfl
@[simp] theorem setSub_masks : (s.setSub p sub).masks = s.masks := rfl
@[simp] theorem setSub_timing : (s.setSub p sub).timing = s.timing := rfl
@[simp] theorem setSub_strays : (s.setSub p sub).strays = s.strays := rfl
@[simp] theorem setSub_polls : (s.setSub p sub).polls = s.polls := rfl
@[simp] theorem setSub_holds : (s.setSub p sub).holds = s.holds := rfl
@[simp] theorem setSub_deferrals : (s.setSub p sub).deferrals = s.deferrals := rfl
@[simp] theorem setSub_ring : (s.setSub p sub).ring = s.ring := rfl
@[simp] theorem setSub_nextSeq : (s.setSub p sub).nextSeq = s.nextSeq := rfl
@[simp] theorem setSub_snap : (s.setSub p sub).snap = s.snap := rfl
@[simp] theorem setSub_snapFirst : (s.setSub p sub).snapFirst = s.snapFirst := rfl
@[simp] theorem setSub_snapLast : (s.setSub p sub).snapLast = s.snapLast := rfl
@[simp] theorem setSub_snapRecords : (s.setSub p sub).snapRecords = s.snapRecords := rfl
@[simp] theorem setSub_lastGranted : (s.setSub p sub).lastGranted = s.lastGranted := rfl
@[simp] theorem setSub_draws : (s.setSub p sub).draws = s.draws := rfl
@[simp] theorem setSub_pending : (s.setSub p sub).pending = s.pending := rfl
@[simp] theorem setSub_bay : (s.setSub p sub).bay b' = s.bay b' := rfl
@[simp] theorem setSub_content : (s.setSub p sub).content l' = s.content l' := rfl
@[simp] theorem setSub_hold : (s.setSub p sub).hold p' = s.hold p' := rfl
@[simp] theorem setSub_fitted : (s.setSub p sub).fitted b' = s.fitted b' := rfl
@[simp] theorem setSub_inService : (s.setSub p sub).inService = s.inService := rfl
@[simp] theorem setSub_needsCopy : (s.setSub p sub).needsCopy l' = s.needsCopy l' := rfl

/-! ### setCursor -/

@[simp] theorem setCursor_phase : (s.setCursor p l).phase = s.phase := rfl
@[simp] theorem setCursor_rst : (s.setCursor p l).rst = s.rst := rfl
@[simp] theorem setCursor_startCause : (s.setCursor p l).startCause = s.startCause := rfl
@[simp] theorem setCursor_strap : (s.setCursor p l).strap = s.strap := rfl
@[simp] theorem setCursor_locked : (s.setCursor p l).locked = s.locked := rfl
@[simp] theorem setCursor_count : (s.setCursor p l).count = s.count := rfl
@[simp] theorem setCursor_unitInGroup : (s.setCursor p l).unitInGroup = s.unitInGroup := rfl
@[simp] theorem setCursor_owes : (s.setCursor p l).owes = s.owes := rfl
@[simp] theorem setCursor_prescaler : (s.setCursor p l).prescaler = s.prescaler := rfl
@[simp] theorem setCursor_counter : (s.setCursor p l).counter = s.counter := rfl
@[simp] theorem setCursor_points : (s.setCursor p l).points = s.points := rfl
@[simp] theorem setCursor_enrolMap : (s.setCursor p l).enrolMap = s.enrolMap := rfl
@[simp] theorem setCursor_bays : (s.setCursor p l).bays = s.bays := rfl
@[simp] theorem setCursor_bound : (s.setCursor p l).bound = s.bound := rfl
@[simp] theorem setCursor_masks : (s.setCursor p l).masks = s.masks := rfl
@[simp] theorem setCursor_timing : (s.setCursor p l).timing = s.timing := rfl
@[simp] theorem setCursor_strays : (s.setCursor p l).strays = s.strays := rfl
@[simp] theorem setCursor_polls : (s.setCursor p l).polls = s.polls := rfl
@[simp] theorem setCursor_holds : (s.setCursor p l).holds = s.holds := rfl
@[simp] theorem setCursor_deferrals : (s.setCursor p l).deferrals = s.deferrals := rfl
@[simp] theorem setCursor_ring : (s.setCursor p l).ring = s.ring := rfl
@[simp] theorem setCursor_nextSeq : (s.setCursor p l).nextSeq = s.nextSeq := rfl
@[simp] theorem setCursor_snap : (s.setCursor p l).snap = s.snap := rfl
@[simp] theorem setCursor_snapFirst : (s.setCursor p l).snapFirst = s.snapFirst := rfl
@[simp] theorem setCursor_snapLast : (s.setCursor p l).snapLast = s.snapLast := rfl
@[simp] theorem setCursor_snapRecords : (s.setCursor p l).snapRecords = s.snapRecords := rfl
@[simp] theorem setCursor_lastGranted : (s.setCursor p l).lastGranted = s.lastGranted := rfl
@[simp] theorem setCursor_draws : (s.setCursor p l).draws = s.draws := rfl
@[simp] theorem setCursor_pending : (s.setCursor p l).pending = s.pending := rfl
@[simp] theorem setCursor_bay : (s.setCursor p l).bay b' = s.bay b' := rfl
@[simp] theorem setCursor_content : (s.setCursor p l).content l' = s.content l' := rfl
@[simp] theorem setCursor_hold : (s.setCursor p l).hold p' = s.hold p' := rfl
@[simp] theorem setCursor_fitted : (s.setCursor p l).fitted b' = s.fitted b' := rfl
@[simp] theorem setCursor_inService : (s.setCursor p l).inService = s.inService := rfl
@[simp] theorem setCursor_needsCopy : (s.setCursor p l).needsCopy l' = s.needsCopy l' := rfl

/-! ### setSlot -/

@[simp] theorem setSlot_phase : (s.setSlot p slot).phase = s.phase := rfl
@[simp] theorem setSlot_rst : (s.setSlot p slot).rst = s.rst := rfl
@[simp] theorem setSlot_startCause : (s.setSlot p slot).startCause = s.startCause := rfl
@[simp] theorem setSlot_strap : (s.setSlot p slot).strap = s.strap := rfl
@[simp] theorem setSlot_locked : (s.setSlot p slot).locked = s.locked := rfl
@[simp] theorem setSlot_count : (s.setSlot p slot).count = s.count := rfl
@[simp] theorem setSlot_unitInGroup : (s.setSlot p slot).unitInGroup = s.unitInGroup := rfl
@[simp] theorem setSlot_owes : (s.setSlot p slot).owes = s.owes := rfl
@[simp] theorem setSlot_prescaler : (s.setSlot p slot).prescaler = s.prescaler := rfl
@[simp] theorem setSlot_counter : (s.setSlot p slot).counter = s.counter := rfl
@[simp] theorem setSlot_points : (s.setSlot p slot).points = s.points := rfl
@[simp] theorem setSlot_enrolMap : (s.setSlot p slot).enrolMap = s.enrolMap := rfl
@[simp] theorem setSlot_bays : (s.setSlot p slot).bays = s.bays := rfl
@[simp] theorem setSlot_bound : (s.setSlot p slot).bound = s.bound := rfl
@[simp] theorem setSlot_masks : (s.setSlot p slot).masks = s.masks := rfl
@[simp] theorem setSlot_timing : (s.setSlot p slot).timing = s.timing := rfl
@[simp] theorem setSlot_strays : (s.setSlot p slot).strays = s.strays := rfl
@[simp] theorem setSlot_polls : (s.setSlot p slot).polls = s.polls := rfl
@[simp] theorem setSlot_holds : (s.setSlot p slot).holds = s.holds := rfl
@[simp] theorem setSlot_deferrals : (s.setSlot p slot).deferrals = s.deferrals := rfl
@[simp] theorem setSlot_ring : (s.setSlot p slot).ring = s.ring := rfl
@[simp] theorem setSlot_nextSeq : (s.setSlot p slot).nextSeq = s.nextSeq := rfl
@[simp] theorem setSlot_snap : (s.setSlot p slot).snap = s.snap := rfl
@[simp] theorem setSlot_snapFirst : (s.setSlot p slot).snapFirst = s.snapFirst := rfl
@[simp] theorem setSlot_snapLast : (s.setSlot p slot).snapLast = s.snapLast := rfl
@[simp] theorem setSlot_snapRecords : (s.setSlot p slot).snapRecords = s.snapRecords := rfl
@[simp] theorem setSlot_lastGranted : (s.setSlot p slot).lastGranted = s.lastGranted := rfl
@[simp] theorem setSlot_draws : (s.setSlot p slot).draws = s.draws := rfl
@[simp] theorem setSlot_pending : (s.setSlot p slot).pending = s.pending := rfl
@[simp] theorem setSlot_bay : (s.setSlot p slot).bay b' = s.bay b' := rfl
@[simp] theorem setSlot_content : (s.setSlot p slot).content l' = s.content l' := rfl
@[simp] theorem setSlot_hold : (s.setSlot p slot).hold p' = s.hold p' := rfl
@[simp] theorem setSlot_fitted : (s.setSlot p slot).fitted b' = s.fitted b' := rfl
@[simp] theorem setSlot_inService : (s.setSlot p slot).inService = s.inService := rfl
@[simp] theorem setSlot_needsCopy : (s.setSlot p slot).needsCopy l' = s.needsCopy l' := rfl

/-! ### departOldest -/

@[simp] theorem departOldest_phase : (s.departOldest).phase = s.phase := by
  unfold State.departOldest; split
  · rfl
  · split <;> rfl
@[simp] theorem departOldest_rst : (s.departOldest).rst = s.rst := by
  unfold State.departOldest; split
  · rfl
  · split <;> rfl
@[simp] theorem departOldest_startCause : (s.departOldest).startCause = s.startCause := by
  unfold State.departOldest; split
  · rfl
  · split <;> rfl
@[simp] theorem departOldest_strap : (s.departOldest).strap = s.strap := by
  unfold State.departOldest; split
  · rfl
  · split <;> rfl
@[simp] theorem departOldest_locked : (s.departOldest).locked = s.locked := by
  unfold State.departOldest; split
  · rfl
  · split <;> rfl
@[simp] theorem departOldest_count : (s.departOldest).count = s.count := by
  unfold State.departOldest; split
  · rfl
  · split <;> rfl
@[simp] theorem departOldest_unitInGroup : (s.departOldest).unitInGroup = s.unitInGroup := by
  unfold State.departOldest; split
  · rfl
  · split <;> rfl
@[simp] theorem departOldest_owes : (s.departOldest).owes = s.owes := by
  unfold State.departOldest; split
  · rfl
  · split <;> rfl
@[simp] theorem departOldest_prescaler : (s.departOldest).prescaler = s.prescaler := by
  unfold State.departOldest; split
  · rfl
  · split <;> rfl
@[simp] theorem departOldest_counter : (s.departOldest).counter = s.counter := by
  unfold State.departOldest; split
  · rfl
  · split <;> rfl
@[simp] theorem departOldest_points : (s.departOldest).points = s.points := by
  unfold State.departOldest; split
  · rfl
  · split <;> rfl
@[simp] theorem departOldest_enrolMap : (s.departOldest).enrolMap = s.enrolMap := by
  unfold State.departOldest; split
  · rfl
  · split <;> rfl
@[simp] theorem departOldest_bays : (s.departOldest).bays = s.bays := by
  unfold State.departOldest; split
  · rfl
  · split <;> rfl
@[simp] theorem departOldest_bound : (s.departOldest).bound = s.bound := by
  unfold State.departOldest; split
  · rfl
  · split <;> rfl
@[simp] theorem departOldest_masks : (s.departOldest).masks = s.masks := by
  unfold State.departOldest; split
  · rfl
  · split <;> rfl
@[simp] theorem departOldest_timing : (s.departOldest).timing = s.timing := by
  unfold State.departOldest; split
  · rfl
  · split <;> rfl
@[simp] theorem departOldest_strays : (s.departOldest).strays = s.strays := by
  unfold State.departOldest; split
  · rfl
  · split <;> rfl
@[simp] theorem departOldest_polls : (s.departOldest).polls = s.polls := by
  unfold State.departOldest; split
  · rfl
  · split <;> rfl
@[simp] theorem departOldest_holds : (s.departOldest).holds = s.holds := by
  unfold State.departOldest; split
  · rfl
  · split <;> rfl
@[simp] theorem departOldest_deferrals : (s.departOldest).deferrals = s.deferrals := by
  unfold State.departOldest; split
  · rfl
  · split <;> rfl
@[simp] theorem departOldest_nextSeq : (s.departOldest).nextSeq = s.nextSeq := by
  unfold State.departOldest; split
  · rfl
  · split <;> rfl
@[simp] theorem departOldest_snap : (s.departOldest).snap = s.snap := by
  unfold State.departOldest; split
  · rfl
  · split <;> rfl
@[simp] theorem departOldest_snapFirst : (s.departOldest).snapFirst = s.snapFirst := by
  unfold State.departOldest; split
  · rfl
  · split <;> rfl
@[simp] theorem departOldest_snapLast : (s.departOldest).snapLast = s.snapLast := by
  unfold State.departOldest; split
  · rfl
  · split <;> rfl
@[simp] theorem departOldest_snapRecords : (s.departOldest).snapRecords = s.snapRecords := by
  unfold State.departOldest; split
  · rfl
  · split <;> rfl
@[simp] theorem departOldest_lastGranted : (s.departOldest).lastGranted = s.lastGranted := by
  unfold State.departOldest; split
  · rfl
  · split <;> rfl
@[simp] theorem departOldest_draws : (s.departOldest).draws = s.draws := by
  unfold State.departOldest; split
  · rfl
  · split <;> rfl
@[simp] theorem departOldest_pending : (s.departOldest).pending = s.pending := by
  unfold State.departOldest; split
  · rfl
  · split <;> rfl
@[simp] theorem departOldest_bay : (s.departOldest).bay b' = s.bay b' := by
  unfold State.departOldest; split
  · rfl
  · split <;> rfl
@[simp] theorem departOldest_content : (s.departOldest).content l' = s.content l' := by
  unfold State.departOldest; split
  · rfl
  · split <;> rfl
@[simp] theorem departOldest_hold : (s.departOldest).hold p' = s.hold p' := by
  unfold State.departOldest; split
  · rfl
  · split <;> rfl
@[simp] theorem departOldest_fitted : (s.departOldest).fitted b' = s.fitted b' := by
  unfold State.departOldest; split
  · rfl
  · split <;> rfl
@[simp] theorem departOldest_inService : (s.departOldest).inService = s.inService := by
  unfold State.departOldest; split
  · rfl
  · split <;> rfl
@[simp] theorem departOldest_needsCopy : (s.departOldest).needsCopy l' = s.needsCopy l' := by
  unfold State.departOldest; split
  · rfl
  · split <;> rfl

/-! ### append -/

@[simp] theorem append_phase : (s.append body).phase = s.phase := departOldest_phase s
@[simp] theorem append_rst : (s.append body).rst = s.rst := departOldest_rst s
@[simp] theorem append_startCause : (s.append body).startCause = s.startCause := departOldest_startCause s
@[simp] theorem append_strap : (s.append body).strap = s.strap := departOldest_strap s
@[simp] theorem append_locked : (s.append body).locked = s.locked := departOldest_locked s
@[simp] theorem append_count : (s.append body).count = s.count := departOldest_count s
@[simp] theorem append_unitInGroup : (s.append body).unitInGroup = s.unitInGroup := departOldest_unitInGroup s
@[simp] theorem append_owes : (s.append body).owes = s.owes := departOldest_owes s
@[simp] theorem append_prescaler : (s.append body).prescaler = s.prescaler := departOldest_prescaler s
@[simp] theorem append_counter : (s.append body).counter = s.counter := departOldest_counter s
@[simp] theorem append_points : (s.append body).points = s.points := departOldest_points s
@[simp] theorem append_enrolMap : (s.append body).enrolMap = s.enrolMap := departOldest_enrolMap s
@[simp] theorem append_bays : (s.append body).bays = s.bays := departOldest_bays s
@[simp] theorem append_bound : (s.append body).bound = s.bound := departOldest_bound s
@[simp] theorem append_masks : (s.append body).masks = s.masks := departOldest_masks s
@[simp] theorem append_timing : (s.append body).timing = s.timing := departOldest_timing s
@[simp] theorem append_strays : (s.append body).strays = s.strays := departOldest_strays s
@[simp] theorem append_polls : (s.append body).polls = s.polls := departOldest_polls s
@[simp] theorem append_holds : (s.append body).holds = s.holds := departOldest_holds s
@[simp] theorem append_deferrals : (s.append body).deferrals = s.deferrals := departOldest_deferrals s
@[simp] theorem append_snap : (s.append body).snap = s.snap := departOldest_snap s
@[simp] theorem append_snapFirst : (s.append body).snapFirst = s.snapFirst := departOldest_snapFirst s
@[simp] theorem append_snapLast : (s.append body).snapLast = s.snapLast := departOldest_snapLast s
@[simp] theorem append_snapRecords : (s.append body).snapRecords = s.snapRecords := departOldest_snapRecords s
@[simp] theorem append_lastGranted : (s.append body).lastGranted = s.lastGranted := departOldest_lastGranted s
@[simp] theorem append_draws : (s.append body).draws = s.draws := departOldest_draws s
@[simp] theorem append_pending : (s.append body).pending = s.pending := departOldest_pending s
@[simp] theorem append_bay : (s.append body).bay b' = s.bay b' := departOldest_bay s b'
@[simp] theorem append_content : (s.append body).content l' = s.content l' := departOldest_content s l'
@[simp] theorem append_hold : (s.append body).hold p' = s.hold p' := departOldest_hold s p'
@[simp] theorem append_fitted : (s.append body).fitted b' = s.fitted b' := departOldest_fitted s b'
@[simp] theorem append_inService : (s.append body).inService = s.inService := departOldest_inService s
@[simp] theorem append_needsCopy : (s.append body).needsCopy l' = s.needsCopy l' := departOldest_needsCopy s l'

/-! ### upsetPoint -/

@[simp] theorem upsetPoint_phase : (s.upsetPoint l c).phase = s.phase := by
  unfold State.upsetPoint; split <;> rfl
@[simp] theorem upsetPoint_rst : (s.upsetPoint l c).rst = s.rst := by
  unfold State.upsetPoint; split <;> rfl
@[simp] theorem upsetPoint_startCause : (s.upsetPoint l c).startCause = s.startCause := by
  unfold State.upsetPoint; split <;> rfl
@[simp] theorem upsetPoint_strap : (s.upsetPoint l c).strap = s.strap := by
  unfold State.upsetPoint; split <;> rfl
@[simp] theorem upsetPoint_locked : (s.upsetPoint l c).locked = s.locked := by
  unfold State.upsetPoint; split <;> rfl
@[simp] theorem upsetPoint_count : (s.upsetPoint l c).count = s.count := by
  unfold State.upsetPoint; split <;> rfl
@[simp] theorem upsetPoint_unitInGroup : (s.upsetPoint l c).unitInGroup = s.unitInGroup := by
  unfold State.upsetPoint; split <;> rfl
@[simp] theorem upsetPoint_owes : (s.upsetPoint l c).owes = s.owes := by
  unfold State.upsetPoint; split <;> rfl
@[simp] theorem upsetPoint_prescaler : (s.upsetPoint l c).prescaler = s.prescaler := by
  unfold State.upsetPoint; split <;> rfl
@[simp] theorem upsetPoint_counter : (s.upsetPoint l c).counter = s.counter := by
  unfold State.upsetPoint; split <;> rfl
@[simp] theorem upsetPoint_enrolMap : (s.upsetPoint l c).enrolMap = s.enrolMap := by
  unfold State.upsetPoint; split <;> rfl
@[simp] theorem upsetPoint_bays : (s.upsetPoint l c).bays = s.bays := by
  unfold State.upsetPoint; split <;> rfl
@[simp] theorem upsetPoint_bound : (s.upsetPoint l c).bound = s.bound := by
  unfold State.upsetPoint; split <;> rfl
@[simp] theorem upsetPoint_masks : (s.upsetPoint l c).masks = s.masks := by
  unfold State.upsetPoint; split <;> rfl
@[simp] theorem upsetPoint_timing : (s.upsetPoint l c).timing = s.timing := by
  unfold State.upsetPoint; split <;> rfl
@[simp] theorem upsetPoint_strays : (s.upsetPoint l c).strays = s.strays := by
  unfold State.upsetPoint; split <;> rfl
@[simp] theorem upsetPoint_polls : (s.upsetPoint l c).polls = s.polls := by
  unfold State.upsetPoint; split <;> rfl
@[simp] theorem upsetPoint_holds : (s.upsetPoint l c).holds = s.holds := by
  unfold State.upsetPoint; split <;> rfl
@[simp] theorem upsetPoint_deferrals : (s.upsetPoint l c).deferrals = s.deferrals := by
  unfold State.upsetPoint; split <;> rfl
@[simp] theorem upsetPoint_ring : (s.upsetPoint l c).ring = s.ring := by
  unfold State.upsetPoint; split <;> rfl
@[simp] theorem upsetPoint_nextSeq : (s.upsetPoint l c).nextSeq = s.nextSeq := by
  unfold State.upsetPoint; split <;> rfl
@[simp] theorem upsetPoint_snap : (s.upsetPoint l c).snap = s.snap := by
  unfold State.upsetPoint; split <;> rfl
@[simp] theorem upsetPoint_snapFirst : (s.upsetPoint l c).snapFirst = s.snapFirst := by
  unfold State.upsetPoint; split <;> rfl
@[simp] theorem upsetPoint_snapLast : (s.upsetPoint l c).snapLast = s.snapLast := by
  unfold State.upsetPoint; split <;> rfl
@[simp] theorem upsetPoint_snapRecords : (s.upsetPoint l c).snapRecords = s.snapRecords := by
  unfold State.upsetPoint; split <;> rfl
@[simp] theorem upsetPoint_ports : (s.upsetPoint l c).ports = s.ports := by
  unfold State.upsetPoint; split <;> rfl
@[simp] theorem upsetPoint_lastGranted : (s.upsetPoint l c).lastGranted = s.lastGranted := by
  unfold State.upsetPoint; split <;> rfl
@[simp] theorem upsetPoint_draws : (s.upsetPoint l c).draws = s.draws := by
  unfold State.upsetPoint; split <;> rfl
@[simp] theorem upsetPoint_pending : (s.upsetPoint l c).pending = s.pending := by
  unfold State.upsetPoint; split <;> rfl
@[simp] theorem upsetPoint_port : (s.upsetPoint l c).port p' = s.port p' := by
  unfold State.upsetPoint; split <;> rfl
@[simp] theorem upsetPoint_bay : (s.upsetPoint l c).bay b' = s.bay b' := by
  unfold State.upsetPoint; split <;> rfl
@[simp] theorem upsetPoint_hold : (s.upsetPoint l c).hold p' = s.hold p' := by
  unfold State.upsetPoint; split <;> rfl
@[simp] theorem upsetPoint_fitted : (s.upsetPoint l c).fitted b' = s.fitted b' := by
  unfold State.upsetPoint; split <;> rfl
@[simp] theorem upsetPoint_inService : (s.upsetPoint l c).inService = s.inService := by
  unfold State.upsetPoint; split <;> rfl
@[simp] theorem upsetPoint_needsCopy : (s.upsetPoint l c).needsCopy l' = s.needsCopy l' := by
  unfold State.upsetPoint; split <;> rfl

/-! ### pollAdd -/

@[simp] theorem pollAdd_phase : (s.pollAdd m i).phase = s.phase := by
  unfold State.pollAdd; split
  · rfl
  · split <;> rfl
@[simp] theorem pollAdd_rst : (s.pollAdd m i).rst = s.rst := by
  unfold State.pollAdd; split
  · rfl
  · split <;> rfl
@[simp] theorem pollAdd_startCause : (s.pollAdd m i).startCause = s.startCause := by
  unfold State.pollAdd; split
  · rfl
  · split <;> rfl
@[simp] theorem pollAdd_strap : (s.pollAdd m i).strap = s.strap := by
  unfold State.pollAdd; split
  · rfl
  · split <;> rfl
@[simp] theorem pollAdd_locked : (s.pollAdd m i).locked = s.locked := by
  unfold State.pollAdd; split
  · rfl
  · split <;> rfl
@[simp] theorem pollAdd_count : (s.pollAdd m i).count = s.count := by
  unfold State.pollAdd; split
  · rfl
  · split <;> rfl
@[simp] theorem pollAdd_unitInGroup : (s.pollAdd m i).unitInGroup = s.unitInGroup := by
  unfold State.pollAdd; split
  · rfl
  · split <;> rfl
@[simp] theorem pollAdd_owes : (s.pollAdd m i).owes = s.owes := by
  unfold State.pollAdd; split
  · rfl
  · split <;> rfl
@[simp] theorem pollAdd_prescaler : (s.pollAdd m i).prescaler = s.prescaler := by
  unfold State.pollAdd; split
  · rfl
  · split <;> rfl
@[simp] theorem pollAdd_counter : (s.pollAdd m i).counter = s.counter := by
  unfold State.pollAdd; split
  · rfl
  · split <;> rfl
@[simp] theorem pollAdd_points : (s.pollAdd m i).points = s.points := by
  unfold State.pollAdd; split
  · rfl
  · split <;> rfl
@[simp] theorem pollAdd_enrolMap : (s.pollAdd m i).enrolMap = s.enrolMap := by
  unfold State.pollAdd; split
  · rfl
  · split <;> rfl
@[simp] theorem pollAdd_bays : (s.pollAdd m i).bays = s.bays := by
  unfold State.pollAdd; split
  · rfl
  · split <;> rfl
@[simp] theorem pollAdd_bound : (s.pollAdd m i).bound = s.bound := by
  unfold State.pollAdd; split
  · rfl
  · split <;> rfl
@[simp] theorem pollAdd_masks : (s.pollAdd m i).masks = s.masks := by
  unfold State.pollAdd; split
  · rfl
  · split <;> rfl
@[simp] theorem pollAdd_timing : (s.pollAdd m i).timing = s.timing := by
  unfold State.pollAdd; split
  · rfl
  · split <;> rfl
@[simp] theorem pollAdd_strays : (s.pollAdd m i).strays = s.strays := by
  unfold State.pollAdd; split
  · rfl
  · split <;> rfl
@[simp] theorem pollAdd_holds : (s.pollAdd m i).holds = s.holds := by
  unfold State.pollAdd; split
  · rfl
  · split <;> rfl
@[simp] theorem pollAdd_deferrals : (s.pollAdd m i).deferrals = s.deferrals := by
  unfold State.pollAdd; split
  · rfl
  · split <;> rfl
@[simp] theorem pollAdd_ring : (s.pollAdd m i).ring = s.ring := by
  unfold State.pollAdd; split
  · rfl
  · split <;> rfl
@[simp] theorem pollAdd_nextSeq : (s.pollAdd m i).nextSeq = s.nextSeq := by
  unfold State.pollAdd; split
  · rfl
  · split <;> rfl
@[simp] theorem pollAdd_snap : (s.pollAdd m i).snap = s.snap := by
  unfold State.pollAdd; split
  · rfl
  · split <;> rfl
@[simp] theorem pollAdd_snapFirst : (s.pollAdd m i).snapFirst = s.snapFirst := by
  unfold State.pollAdd; split
  · rfl
  · split <;> rfl
@[simp] theorem pollAdd_snapLast : (s.pollAdd m i).snapLast = s.snapLast := by
  unfold State.pollAdd; split
  · rfl
  · split <;> rfl
@[simp] theorem pollAdd_snapRecords : (s.pollAdd m i).snapRecords = s.snapRecords := by
  unfold State.pollAdd; split
  · rfl
  · split <;> rfl
@[simp] theorem pollAdd_lastGranted : (s.pollAdd m i).lastGranted = s.lastGranted := by
  unfold State.pollAdd; split
  · rfl
  · split <;> rfl
@[simp] theorem pollAdd_draws : (s.pollAdd m i).draws = s.draws := by
  unfold State.pollAdd; split
  · rfl
  · split <;> rfl
@[simp] theorem pollAdd_pending : (s.pollAdd m i).pending = s.pending := by
  unfold State.pollAdd; split
  · rfl
  · split <;> rfl
@[simp] theorem pollAdd_bay : (s.pollAdd m i).bay b' = s.bay b' := by
  unfold State.pollAdd; split
  · rfl
  · split <;> rfl
@[simp] theorem pollAdd_content : (s.pollAdd m i).content l' = s.content l' := by
  unfold State.pollAdd; split
  · rfl
  · split <;> rfl
@[simp] theorem pollAdd_hold : (s.pollAdd m i).hold p' = s.hold p' := by
  unfold State.pollAdd; split
  · rfl
  · split <;> rfl
@[simp] theorem pollAdd_fitted : (s.pollAdd m i).fitted b' = s.fitted b' := by
  unfold State.pollAdd; split
  · rfl
  · split <;> rfl
@[simp] theorem pollAdd_inService : (s.pollAdd m i).inService = s.inService := by
  unfold State.pollAdd; split
  · rfl
  · split <;> rfl
@[simp] theorem pollAdd_needsCopy : (s.pollAdd m i).needsCopy l' = s.needsCopy l' := by
  unfold State.pollAdd; split
  · rfl
  · split <;> rfl

end Sys2Proof.Machine.State
end

