-- ==== Sys2Proof/Laws/Stores.lean ====
section
/-! SUPPORT. What reading a store after writing it gives: keyed tables, one value for each port and sender, the bay
table, the point table and the ports. -/

namespace Sys2Proof

theorem Loc.key_injective : Function.Injective Loc.key := by
  rintro ⟨b, p⟩ ⟨b', p'⟩ h
  simp only [Loc.key] at h
  have := p.isLt
  have := p'.isLt
  have hb : b = b' := Fin.ext (by omega)
  have hp : p = p' := Fin.ext (by omega)
  rw [hb, hp]

@[simp] theorem Loc.key_inj (l l' : Loc) : l.key = l'.key ↔ l = l' := Loc.key_injective.eq_iff

theorem Loc.key_lt (l : Loc) : l.key < 512 := by
  have := l.bay.isLt
  have := l.point.isLt
  simp only [Loc.key]
  omega

@[simp] theorem Loc.ofKey_key (l : Loc) : Loc.ofKey l.key = l := by
  have := l.bay.isLt
  have := l.point.isLt
  apply Loc.key_injective
  simp only [Loc.key, Loc.ofKey]
  omega

theorem Loc.key_div (l : Loc) : l.key / 16 = l.bay.val := by
  have := l.point.isLt
  simp only [Loc.key]
  omega

theorem Bay.mem_locs (b : Bay) (l : Loc) : l ∈ b.locs ↔ l.bay = b := by
  constructor
  · intro h
    obtain ⟨p, -, rfl⟩ := List.mem_map.mp h
    rfl
  · rintro rfl
    exact List.mem_map.mpr ⟨l.point, List.mem_finRange _, rfl⟩

theorem Bay.mem_all (b : Bay) : b ∈ Bay.all := List.mem_finRange b

theorem Port.mem_all (p : Port) : p ∈ Port.all := by cases p <;> decide

theorem Sender.mem_all (n : Sender) : n ∈ Sender.all := by cases n <;> decide

namespace Machine

/-! ### Keyed tables -/

namespace Table

variable {α : Type} (t : Table α) (k k' : Nat) (a : α)

@[simp] theorem find_nil : Table.find ([] : Table α) k = none := rfl

theorem find_cons (e : Nat × α) : Table.find (e :: t) k = if e.1 = k then some e.2 else Table.find t k := rfl

theorem find_insert : (Table.insert t k a).find k' = if k = k' then some a else t.find k' := by
  induction t with
  | nil => simp [Table.insert, find_cons]
  | cons e t ih =>
    obtain ⟨j, b⟩ := e
    simp only [Table.insert]
    split
    · simp [find_cons]
    · split
      · subst_vars
        simp only [find_cons]
        split <;> rfl
      · simp only [find_cons, ih]
        split
        · have : ¬ k = k' := by rintro rfl; simp_all
          simp_all
        · rfl

@[simp] theorem find_insert_self : (Table.insert t k a).find k = some a := by simp [find_insert]

theorem find_insert_ne (h : k ≠ k') : (Table.insert t k a).find k' = t.find k' := by simp [find_insert, h]

theorem mem_insert {e : Nat × α} (h : e ∈ Table.insert t k a) : e = (k, a) ∨ e ∈ t := by
  induction t with
  | nil => simpa [Table.insert] using h
  | cons d t ih =>
    obtain ⟨j, b⟩ := d
    simp only [Table.insert] at h
    split at h
    · simpa using h
    · split at h
      · rcases List.mem_cons.mp h with h | h
        · exact .inl h
        · exact .inr (List.mem_cons_of_mem _ h)
      · rcases List.mem_cons.mp h with h | h
        · exact .inr (by simp [h])
        · rcases ih h with h | h
          · exact .inl h
          · exact .inr (List.mem_cons_of_mem _ h)

theorem mem_of_find {t : Table α} {k : Nat} {a : α} (h : t.find k = some a) : (k, a) ∈ t := by
  induction t with
  | nil => simp at h
  | cons e t ih =>
    rw [find_cons] at h
    split at h
    · next hk => simp only [Option.some.injEq] at h; subst hk h; simp
    · exact List.mem_cons_of_mem _ (ih h)

theorem isSome_find_of_mem {t : Table α} {e : Nat × α} (h : e ∈ t) : (t.find e.1).isSome = true := by
  induction t with
  | nil => simp at h
  | cons d t ih =>
    rw [find_cons]
    split
    · rfl
    · next hk =>
      rcases List.mem_cons.mp h with h | h
      · exact absurd (by rw [h]) hk
      · exact ih h

/-- The canonical form says that the keys rise strictly. -/
theorem sorted_iff : Table.sorted t = true ↔ t.Pairwise (fun x y => x.1 < y.1) := by
  induction t with
  | nil => simp [Table.sorted]
  | cons e t ih =>
    cases t with
    | nil => simp [Table.sorted]
    | cons d t =>
      simp only [Table.sorted, Bool.and_eq_true, decide_eq_true_eq, ih]
      constructor
      · rintro ⟨h1, h2⟩
        refine List.pairwise_cons.mpr ⟨?_, h2⟩
        intro x hx
        rcases List.mem_cons.mp hx with rfl | hx
        · exact h1
        · exact lt_trans h1 ((List.pairwise_cons.mp h2).1 x hx)
      · intro h
        exact ⟨(List.pairwise_cons.mp h).1 d (by simp), (List.pairwise_cons.mp h).2⟩

theorem sorted_filter (f : Nat × α → Bool) (h : Table.sorted t = true) :
    Table.sorted (α := α) (t.filter f) = true := by
  rw [sorted_iff] at *
  exact h.filter f

theorem sorted_insert (h : Table.sorted t = true) : Table.sorted (Table.insert t k a) = true := by
  rw [sorted_iff] at *
  induction t with
  | nil => simp [Table.insert]
  | cons e t ih =>
    obtain ⟨j, b⟩ := e
    obtain ⟨h1, h2⟩ := List.pairwise_cons.mp h
    simp only [Table.insert]
    split
    · next hk =>
      refine List.pairwise_cons.mpr ⟨?_, h⟩
      intro x hx
      rcases List.mem_cons.mp hx with rfl | hx
      · exact hk
      · exact lt_trans hk (h1 x hx)
    · split
      · next hk => subst hk; exact List.pairwise_cons.mpr ⟨h1, h2⟩
      · next hk1 hk2 =>
        refine List.pairwise_cons.mpr ⟨?_, ih h2⟩
        intro x hx
        rcases mem_insert t k a hx with rfl | hx
        · simp only; omega
        · exact h1 x hx

/-- In the canonical form a listed entry is what its key finds. -/
theorem find_of_mem {t : Table α} (h : Table.sorted t = true) {e : Nat × α} (he : e ∈ t) : t.find e.1 = some e.2 := by
  rw [sorted_iff] at h
  induction t with
  | nil => simp at he
  | cons d t ih =>
    obtain ⟨h1, h2⟩ := List.pairwise_cons.mp h
    rw [find_cons]
    rcases List.mem_cons.mp he with rfl | he
    · simp
    · have := h1 e he
      rw [if_neg (by omega), ih h2 he]

/-- What a count over a table in its canonical form becomes when a value is put under a key. -/
theorem countP_insert (f : Nat × α → Bool) (h : Table.sorted t = true) :
    (Table.insert t k a).countP f + (match Table.find t k with
      | some b => if f (k, b) then 1 else 0
      | none => 0) = t.countP f + if f (k, a) then 1 else 0 := by
  rw [sorted_iff] at h
  induction t with
  | nil => simp [Table.insert, List.countP_cons]
  | cons e t ih =>
    obtain ⟨j, b⟩ := e
    obtain ⟨h1, h2⟩ := List.pairwise_cons.mp h
    simp only [Table.insert, find_cons]
    have gone : k ≤ j → Table.find t k = none := by
      intro hk
      by_contra hne
      obtain ⟨c, hc⟩ := Option.ne_none_iff_exists'.mp hne
      have := h1 _ (mem_of_find hc)
      dsimp only at this
      omega
    split
    · next hlt =>
      rw [if_neg (by omega), gone (by omega)]
      simp only [List.countP_cons]
      omega
    · split
      · next hj =>
        subst hj
        simp only [List.countP_cons]
        omega
      · next hj =>
        simp only [List.countP_cons]
        have := ih h2
        omega
theorem find_filter_key (f : Nat → Bool) :
    Table.find (α := α) (t.filter (fun e => f e.1)) k = if f k then t.find k else none := by
  induction t with
  | nil => simp
  | cons e t ih =>
    by_cases he : f e.1 = true
    · simp only [List.filter_cons, he, if_true, find_cons, ih]
      by_cases hk : e.1 = k
      · subst hk; simp [he]
      · simp [hk]
    · simp only [List.filter_cons, he, Bool.false_eq_true, if_false, find_cons, ih]
      by_cases hk : e.1 = k
      · subst hk; simp [he]
      · simp [hk]

theorem find_erase : (Table.erase t k).find k' = if k = k' then none else t.find k' := by
  rw [Table.erase, find_filter_key t k' (fun j => j != k)]
  by_cases h : k = k'
  · subst h; simp
  · simp [h, Ne.symm h]

theorem sorted_erase (h : Table.sorted t = true) : Table.sorted (Table.erase t k) = true := sorted_filter t _ h

theorem mem_erase {e : Nat × α} : e ∈ Table.erase t k ↔ e ∈ t ∧ e.1 ≠ k := by simp [Table.erase]

end Table

/-! ### One value for each port, sender and area -/

theorem PerPort.get_set {α : Type} (v : PerPort α) (p p' : Port) (a : α) :
    (v.set p a).get p' = if p = p' then a else v.get p' := by cases p <;> cases p' <;> rfl

@[simp] theorem PerPort.get_map {α β : Type} (f : Port → α → β) (v : PerPort α) (p : Port) :
    (v.map f).get p = f p (v.get p) := by cases p <;> rfl

theorem PerSender.get_set {α : Type} (v : PerSender α) (n n' : Sender) (a : α) :
    (v.set n a).get n' = if n = n' then a else v.get n' := by cases n <;> cases n' <;> rfl

@[simp] theorem PerSender.get_map {α β : Type} (f : α → β) (v : PerSender α) (n : Sender) :
    (v.map f).get n = f (v.get n) := by cases n <;> rfl

theorem PerArea.get_set {α : Type} (v : PerArea α) (b b' : Area) (a : α) :
    (v.set b a).get b' = if b = b' then a else v.get b' := by
  match b, b' with
  | 0, 0 | 0, 1 | 0, 2 | 0, 3 | 1, 0 | 1, 1 | 1, 2 | 1, 3 | 2, 0 | 2, 1 | 2, 2 | 2, 3 | 3, 0 | 3, 1 | 3, 2 | 3, 3 => rfl

namespace State

variable (s : State) (p p' : Port) (b b' : Bay) (l l' : Loc) (c : PointContent)

/-! ### Ports -/

theorem port_setPort (x : PortState) : (s.setPort p x).port p' = if p = p' then x else s.port p' :=
  PerPort.get_set _ _ _ _

@[simp] theorem port_setPort_self (x : PortState) : (s.setPort p x).port p = x := by simp [port_setPort]

theorem port_setPort_ne (x : PortState) (h : p ≠ p') : (s.setPort p x).port p' = s.port p' := by
  simp [port_setPort, h]

@[simp] theorem port_mapPorts (g : Port → PortState → PortState) : (s.mapPorts g).port p = g p (s.port p) :=
  PerPort.get_map _ _ _

theorem port_raiseWhere (w : Port → Bool) (e : Event) :
    (s.raiseWhere w e).port p = if w p then (s.port p).raise e else s.port p := port_mapPorts _ _ _

@[simp] theorem port_raiseAll (e : Event) : (s.raiseAll e).port p = (s.port p).raise e := port_mapPorts _ _ _

theorem port_raiseOn (e : Event) :
    (s.raiseOn p e).port p' = if p' = p then (s.port p').raise e else s.port p' := by
  simp [State.raiseOn, port_raiseWhere]

theorem port_respond (r : Request) (a : Answer) : (s.respond p r a).port p' =
    if p = p' then
      { s.port p with slot := .done { tag := r.tag, code := r.code.code, result := a.result, payload := a.payload } }
    else s.port p' := port_setPort _ _ _ _

theorem port_setSub (n : Option SeqNum) :
    (s.setSub p n).port p' = if p = p' then { s.port p with sub := n } else s.port p' := port_setPort _ _ _ _

/-! ### Bay table -/

theorem bay_setBay (r : BayRecord) : (s.setBay b r).bay b' = if b = b' then r else s.bay b' := by
  simp only [State.bay, State.setBay, Vector.get_eq_getElem]
  rw [Vector.getElem_set]
  simp only [Fin.val_inj]

@[simp] theorem bay_mapBays (f : Bay → BayRecord → BayRecord) : (s.mapBays f).bay b = f b (s.bay b) := by
  simp only [State.bay, State.mapBays, Vector.get_eq_getElem, Vector.getElem_ofFn, Fin.eta]

theorem bay_setOwed (v : Bool) :
    (s.setOwed b v).bay b' = if b = b' then { s.bay b with owed := v } else s.bay b' := bay_setBay _ _ _ _

theorem bay_setMode (m : BayMode) :
    (s.setMode b m).bay b' = if b = b' then { s.bay b with mode := m } else s.bay b' := bay_setBay _ _ _ _

theorem bay_setPartner (q : Option Bay) :
    (s.setPartner b q).bay b' = if b = b' then { s.bay b with partner := q } else s.bay b' := bay_setBay _ _ _ _

/-! ### Point table -/

theorem content_writePoint : (s.writePoint l c).content l' = if l = l' then some c else s.content l' := by
  simp only [State.content, State.writePoint, Table.find_insert, Loc.key_inj]
  split <;> rfl

@[simp] theorem content_writePoint_self : (s.writePoint l c).content l = some c := by simp [content_writePoint]

theorem content_erasePoint : (s.erasePoint l).content l' = if l = l' then none else s.content l' := by
  simp only [State.content, State.erasePoint, Table.find_erase, Loc.key_inj]
  split <;> rfl

theorem content_upsetPoint : (s.upsetPoint l c).content l' =
    if l = l' ∧ (s.content l).isSome then some c else s.content l' := by
  unfold State.upsetPoint
  cases h : s.points.find l.key with
  | none => simp [State.content, h]
  | some r =>
    simp only [State.content, Table.find_insert, Loc.key_inj, h]
    by_cases hl : l = l' <;> simp [hl]

/-- A content is that of a listed record. -/
theorem mem_points_of_content {l : Loc} {c : PointContent} (h : s.content l = some c) :
    ∃ r, (l.key, r) ∈ s.points ∧ r.content = c := by
  simp only [State.content, Option.map_eq_some_iff] at h
  obtain ⟨r, hr, rfl⟩ := h
  exact ⟨r, Table.mem_of_find hr, rfl⟩

/-! ### Holds -/

theorem hold_setHold (h : Option Hold) : (s.setHold p h).hold p' = if p = p' then h else s.hold p' :=
  PerPort.get_set _ _ _ _

theorem holder_eq_some {p : Port} {b : Bay} (h : s.holder b = some p) : ∃ k, s.hold p = some k ∧ k.bay = b := by
  have := List.find?_some h
  cases hp : s.hold p with
  | none => simp [hp] at this
  | some k => exact ⟨k, rfl, by simpa [hp] using this⟩

theorem holder_eq_none {b : Bay} (h : s.holder b = none) {p : Port} {k : Hold} (hk : s.hold p = some k) :
    k.bay ≠ b := by
  have := List.find?_eq_none.mp h p (Port.mem_all p)
  simpa [hk] using this

theorem holder_of_hold {b : Bay} {k : Hold} (hs : s.holdsSound) (hk : s.hold p = some k) (hb : k.bay = b) :
    s.holder b = some p := by
  cases h : s.holder b with
  | none => exact absurd hb (s.holder_eq_none h hk)
  | some q =>
    obtain ⟨k', hk', hb'⟩ := s.holder_eq_some h
    rw [hs q p k' k hk' hk (hb'.trans hb.symm)]

theorem held_iff : s.held b = true ↔ ∃ p k, s.hold p = some k ∧ k.bay = b := by
  constructor
  · intro h
    obtain ⟨p, hp⟩ := Option.isSome_iff_exists.mp h
    exact ⟨p, s.holder_eq_some hp⟩
  · rintro ⟨p, k, hk, hb⟩
    unfold State.held
    cases h : s.holder b with
    | none => exact absurd hb (s.holder_eq_none h hk)
    | some q => rfl

end State
end Machine
end Sys2Proof
end

