-- ==== Sys2Proof/Laws/Contents.lean ====
section
/-! SUPPORT. The contents that the part writes keep the presence rules of Table 1.2 and the order of a link list
(R15): one lemma for each way a content is made from another. -/

namespace Sys2Proof

/-! ### Link lists (R15, R16, R17) -/

theorem linksOrdered_iff (ls : List Link) : linksOrdered ls = true ↔ ls.Pairwise (fun a b => b.margin ≤ a.margin) := by
  induction ls with
  | nil => simp [linksOrdered]
  | cons a ls ih =>
    cases ls with
    | nil => simp [linksOrdered]
    | cons b ls =>
      simp only [linksOrdered, Bool.and_eq_true, decide_eq_true_eq, ih]
      constructor
      · rintro ⟨h1, h2⟩
        refine List.pairwise_cons.mpr ⟨?_, h2⟩
        intro x hx
        rcases List.mem_cons.mp hx with rfl | hx
        · exact h1
        · exact le_trans ((List.pairwise_cons.mp h2).1 x hx) h1
      · intro h
        exact ⟨(List.pairwise_cons.mp h).1 b (by simp), (List.pairwise_cons.mp h).2⟩

theorem linksDistinct_iff (ls : List Link) : linksDistinct ls = true ↔ (ls.map (·.sender)).Nodup := by
  induction ls with
  | nil => simp [linksDistinct]
  | cons a ls ih =>
    simp only [linksDistinct, Bool.and_eq_true, List.all_eq_true, bne_iff_ne, ih, List.map_cons, List.nodup_cons,
      List.mem_map, not_exists, not_and]

/-- A link list is sound when it has at most three entries, of non-increasing margins and distinct senders. -/
theorem linksFit_iff (ls : List Link) : linksFit ls = true ↔
    ls.length ≤ 3 ∧ ls.Pairwise (fun a b => b.margin ≤ a.margin) ∧ (ls.map (·.sender)).Nodup := by
  simp only [linksFit, Bool.and_eq_true, decide_eq_true_eq, linksOrdered_iff, linksDistinct_iff, and_assoc]
  rfl

theorem mem_insertLink (k x : Link) (ls : List Link) : x ∈ insertLink k ls ↔ x = k ∨ x ∈ ls := by
  induction ls with
  | nil => simp [insertLink]
  | cons a ls ih =>
    simp only [insertLink]
    split
    · simp
    · simp only [List.mem_cons, ih]; tauto

theorem length_insertLink (k : Link) (ls : List Link) : (insertLink k ls).length = ls.length + 1 := by
  induction ls with
  | nil => rfl
  | cons a ls ih =>
    simp only [insertLink]
    split
    · rfl
    · simp [ih]

theorem insertLink_ordered (k : Link) (ls : List Link) (h : ls.Pairwise (fun a b => b.margin ≤ a.margin)) :
    (insertLink k ls).Pairwise (fun a b => b.margin ≤ a.margin) := by
  induction ls with
  | nil => simp [insertLink]
  | cons a ls ih =>
    obtain ⟨h1, h2⟩ := List.pairwise_cons.mp h
    simp only [insertLink]
    split
    · next hk =>
      refine List.pairwise_cons.mpr ⟨?_, h⟩
      intro x hx
      rcases List.mem_cons.mp hx with rfl | hx
      · exact hk
      · exact le_trans (h1 x hx) hk
    · next hk =>
      refine List.pairwise_cons.mpr ⟨?_, ih h2⟩
      intro x hx
      rcases (mem_insertLink k x ls).mp hx with rfl | hx
      · exact le_of_lt (not_le.mp hk)
      · exact h1 x hx

theorem insertLink_distinct (k : Link) (ls : List Link) (h : (ls.map (·.sender)).Nodup)
    (hk : ∀ x ∈ ls, x.sender ≠ k.sender) : ((insertLink k ls).map (·.sender)).Nodup := by
  induction ls with
  | nil => simp [insertLink]
  | cons a ls ih =>
    rw [List.map_cons, List.nodup_cons] at h
    simp only [insertLink]
    split
    · rw [List.map_cons, List.nodup_cons, List.map_cons, List.nodup_cons]
      refine ⟨?_, h⟩
      rintro hx
      rcases List.mem_cons.mp hx with hx | hx
      · exact hk a (by simp) hx.symm
      · obtain ⟨x, hx1, hx2⟩ := List.mem_map.mp hx
        exact hk x (List.mem_cons_of_mem _ hx1) hx2
    · rw [List.map_cons, List.nodup_cons]
      refine ⟨?_, ih h.2 (fun x hx => hk x (List.mem_cons_of_mem _ hx))⟩
      intro hx
      obtain ⟨x, hx1, hx2⟩ := List.mem_map.mp hx
      rcases (mem_insertLink k x ls).mp hx1 with rfl | hx1
      · exact hk a (by simp) hx2.symm
      · exact h.1 (List.mem_map.mpr ⟨x, hx1, hx2⟩)

/-- The update of R16 keeps a link list sound. -/
theorem linksFit_updateLinks (n : Sender) (m : Fin 64) (ls : List Link) (h : linksFit ls = true) :
    linksFit (updateLinks n m ls) = true := by
  rw [linksFit_iff] at *
  obtain ⟨h1, h2, h3⟩ := h
  have hcap : Config.linkCapacity = 3 := rfl
  simp only [updateLinks]
  have hsub : ∀ (us : List Link), us.Sublist ls → (us.map (·.sender)).Nodup := fun us hus => h3.sublist (hus.map _)
  split
  · next hany =>
    have hlt : (ls.filter (fun k => decide (k.sender ≠ n))).length < ls.length := by
      obtain ⟨x, hx, hn⟩ := List.any_eq_true.mp hany
      exact List.length_filter_lt_length_iff_exists.mpr ⟨x, hx, by simpa using hn⟩
    refine ⟨by rw [length_insertLink]; omega, insertLink_ordered _ _ (h2.filter _),
      insertLink_distinct _ _ (hsub _ List.filter_sublist) ?_⟩
    intro x hx
    simpa using (List.mem_filter.mp hx).2
  · next hany =>
    have hne : ∀ x ∈ ls, x.sender ≠ n := by
      intro x hx hn
      exact hany (List.any_eq_true.mpr ⟨x, hx, by simpa using hn⟩)
    by_cases hlen : ls.length < Config.linkCapacity
    · simp only [if_pos hlen]
      exact ⟨by rw [length_insertLink]; omega, insertLink_ordered _ _ h2, insertLink_distinct _ _ h3 hne⟩
    · simp only [if_neg hlen]
      cases hlast : ls.getLast? with
      | some last =>
        by_cases hm : last.margin < m
        · simp only [if_pos hm]
          refine ⟨by rw [length_insertLink, List.length_dropLast]; omega,
            insertLink_ordered _ _ (h2.sublist (List.dropLast_sublist ls)),
            insertLink_distinct _ _ (hsub _ (List.dropLast_sublist ls)) ?_⟩
          intro x hx
          exact hne x (List.mem_of_mem_dropLast hx)
        · simp only [if_neg hm]
          exact ⟨h1, h2, h3⟩
      | none =>
        rw [List.getLast?_eq_none_iff] at hlast
        subst hlast
        simp [hcap] at hlen

/-- The ageing of R17 keeps a link list sound. -/
theorem linksFit_agedLinks (ls : List Link) (h : linksFit ls = true) : linksFit (agedLinks ls) = true := by
  rw [linksFit_iff] at *
  obtain ⟨h1, h2, h3⟩ := h
  have key : ∀ a b : Link, (if h : a.age.val + 1 < 3 then some ({ a with age := ⟨a.age.val + 1, h⟩ } : Link) else none) = some b →
      b.margin = a.margin ∧ b.sender = a.sender := by
    intro a b hb
    split at hb
    · simp only [Option.some.injEq] at hb; subst hb; exact ⟨rfl, rfl⟩
    · simp at hb
  refine ⟨le_trans (List.length_filterMap_le _ _) h1, ?_, ?_⟩
  · refine List.Pairwise.filterMap _ ?_ h2
    intro a a' haa b hb b' hb'
    rw [(key a b hb).1, (key a' b' hb').1]
    exact haa
  · rw [List.nodup_iff_pairwise_ne, List.pairwise_map] at *
    refine List.Pairwise.filterMap _ ?_ h3
    intro a a' haa b hb b' hb'
    rw [(key a b hb).2, (key a' b' hb').2]
    exact haa

theorem linksFit_nil : linksFit [] = true := by decide

/-! ### Contents -/

namespace PointContent

variable {c : PointContent}

theorem sound_iff : c.sound = true ↔
    serialValid c.serial = true ∧ c.confirmationFits = true ∧ c.ackFits = true ∧ linksFit c.links = true := by
  simp [PointContent.sound, and_assoc]

theorem sound_of_fits (h : c.fits = true) : c.sound = true := by
  simp only [PointContent.fits, PointContent.sound, Bool.and_eq_true] at *
  tauto

/-- Any entry to a condition other than PENDING leaves a sound content. -/
theorem sound_entering (h : c.sound = true) {new : Condition} (hn : new ≠ .pending) : (c.entering new).sound = true := by
  rw [sound_iff] at *
  refine ⟨h.1, ?_, ?_, h.2.2.2⟩
  · simpa [PointContent.entering, PointContent.confirmationFits] using hn
  · simp [PointContent.entering, PointContent.ackFits]

theorem sound_toAlarm (h : c.sound = true) : c.toAlarm.sound = true := by
  have := sound_entering h (new := .alarm) (by decide)
  rw [sound_iff] at *
  exact this

theorem sound_pending (h : c.sound = true) (f : Confirmation) :
    ({ c.entering .pending with confirmation := some f } : PointContent).sound = true := by
  rw [sound_iff] at *
  exact ⟨h.1, rfl, rfl, h.2.2.2⟩

theorem sound_rebuilt (h : c.sound = true) : c.rebuilt.sound = true := by
  unfold PointContent.rebuilt
  have h1 : ({ c with suspect := true, links := [], lastSeq := none } : PointContent).sound = true := by
    rw [sound_iff] at *
    exact ⟨h.1, h.2.1, h.2.2.1, linksFit_nil⟩
  simp only
  split
  · exact h1
  · exact sound_entering h1 (by decide)

theorem sound_ack (h : c.sound = true) (hn : c.condition.needsAck = true) (n : Sender) :
    ({ c with ack := some n } : PointContent).sound = true := by
  rw [sound_iff] at *
  refine ⟨h.1, h.2.1, ?_, h.2.2.2⟩
  cases hc : c.condition <;> simp_all [PointContent.ackFits, Condition.needsAck]

theorem sound_afterResetLine (h : c.sound = true) : c.afterResetLine.sound = true := by
  rw [sound_iff] at *
  refine ⟨h.1, ?_, rfl, linksFit_nil⟩
  simp only [PointContent.afterResetLine, PointContent.confirmationFits]
  cases c.suspect <;> rfl

/-- A content that differs in the fields that no presence rule concerns is as sound. -/
theorem sound_of_same {d : PointContent} (h : c.sound = true) (h1 : d.serial = c.serial)
    (h2 : d.condition = c.condition) (h3 : d.ack = c.ack) (h4 : d.confirmation = c.confirmation)
    (h5 : linksFit d.links = true) : d.sound = true := by
  rw [sound_iff] at *
  refine ⟨h1 ▸ h.1, ?_, ?_, h5⟩
  · simp only [PointContent.confirmationFits, h2, h4]; exact h.2.1
  · simp only [PointContent.ackFits, h2, h3]; exact h.2.2.1

theorem links_of_sound (h : c.sound = true) : linksFit c.links = true := (sound_iff.mp h).2.2.2

/-- What the rebuilt content of a failed record is: in ALARM or FAULT(INTEGRITY) (R171). -/
theorem needsAck_rebuilt : c.rebuilt.condition.needsAck = true := by
  unfold PointContent.rebuilt
  simp only
  split
  · next h => rcases h with h | h <;> simp [h, Condition.needsAck]
  · rfl

end PointContent

namespace Machine

theorem sound_acceptedContent {c : PointContent} (h : c.sound = true) (t : Timing) (r : Report) :
    (acceptedContent t r c).sound = true :=
  PointContent.sound_of_same h rfl rfl rfl rfl (linksFit_updateLinks _ _ _ (PointContent.links_of_sound h))

theorem sound_toMissing {c : PointContent} (h : c.sound = true) : (toMissing c).sound = true := by
  have := PointContent.sound_entering h (new := .missing) (by decide)
  exact PointContent.sound_of_same this rfl rfl rfl rfl (PointContent.links_of_sound this)

theorem sound_enrolledContent {n : Serial} (h : serialValid n = true) (k : PointKind) :
    (enrolledContent n k).sound = true := by
  rw [PointContent.sound_iff]
  exact ⟨h, rfl, rfl, linksFit_nil⟩

theorem sound_repairedContent {n : Serial} (hn : serialValid n = true) (k : PointKind) {c : PointContent}
    (h : c.sound = true) : (repairedContent n k c).sound = true := by
  unfold repairedContent
  have h1 : ({ c with serial := n, kind := k, suspect := false, age := 0, lastSeq := none, links := [] } :
      PointContent).sound = true := by
    rw [PointContent.sound_iff] at *
    exact ⟨hn, h.2.1, h.2.2.1, linksFit_nil⟩
  simp only
  split
  · exact h1
  · exact PointContent.sound_entering h1 (by decide)

end Machine
end Sys2Proof
end

