-- ==== Sys2Proof/Laws/Image.lean ====
section
/-! SUPPORT. What the events on the point image can do, said once: every operation on points, from the handling of a
failed record to a visit and an applied report, is a sequence of the single changes of `ImageChange`. Whatever every
single change keeps, each of those operations keeps. -/

namespace Sys2Proof.Machine

/-- One single change of the point image and of what follows it: a record, the enrolment map, the ring, a snapshot
record, an event flag, the stray list or a poll queue. -/
inductive ImageChange : State → State → Prop
  /-- an enrolled record is rewritten with a content as sound as before, where no snapshot still needs a copy -/
  | write (s : State) (l : Loc) (c d : PointContent) (hd : s.content l = some d) (hs : d.sound = true → c.sound = true)
      (hcopy : s.needsCopy l = false) : ImageChange s (s.writePoint l c)
  | mapDrop (s : State) (l : Loc) : ImageChange s (s.mapDrop l)
  | mapAdd (s : State) (n : Serial) (l : Loc) (h : (s.content l).isSome = true) : ImageChange s (s.mapAdd n l)
  | append (s : State) (b : ChangeBody) : ImageChange s (s.append b)
  | copyIn (s : State) (l : Loc) (bad : Bool) (h : s.needsCopy l = true) : ImageChange s (s.copyIn l bad)
  | stray (s : State) : ImageChange s (s.raiseAll .stray)
  | strayHear (s : State) (r : Report) : ImageChange s (s.strayHear r)
  | strayDrop (s : State) (n : Serial) : ImageChange s (s.strayDrop n)
  | pollAdd (s : State) (n : Sender) (i : PollItem) : ImageChange s (s.pollAdd n i)
  | pollsDrop (s : State) (l : Loc) : ImageChange s (s.pollsDrop l)

/-- Any number of single changes of the image. -/
def ImageChanges : State → State → Prop := Relation.ReflTransGen ImageChange

theorem ImageChanges.refl (s : State) : ImageChanges s s := Relation.ReflTransGen.refl

theorem ImageChanges.one {s t : State} (h : ImageChange s t) : ImageChanges s t := Relation.ReflTransGen.single h

theorem ImageChanges.trans {s t u : State} (h : ImageChanges s t) (k : ImageChanges t u) : ImageChanges s u :=
  Relation.ReflTransGen.trans h k

/-- What every single change keeps, any number of them keeps. -/
theorem ImageChanges.keeps {P : State → Prop} (hP : ∀ s t, ImageChange s t → P s → P t) {s t : State}
    (h : ImageChanges s t) (hs : P s) : P t := by
  induction h with
  | refl => exact hs
  | tail _ k ih => exact hP _ _ k ih

theorem ImageChanges.foldl {α : Type} {f : State → α → State} (hf : ∀ s a, ImageChanges s (f s a)) (s : State)
    (as : List α) : ImageChanges s (as.foldl f s) := by
  induction as generalizing s with
  | nil => exact .refl _
  | cons a as ih => exact (hf s a).trans (ih (f s a))

/-- The events that a change of the image can set (R55, R111, R115, R140). -/
def Event.ofImage : Event → Bool
  | .changes => true
  | .lag => true
  | .polls => true
  | .stray => true
  | .holdEnded => false
  | .snapshotReady => false
  | .snapshotEnded => false
  | .fire => false
  | .restart => false

/-- What no change of the image touches, and what it does of a snapshot that is being copied: a record marked copied
stays, and a location still to be copied keeps its content or is copied as it stood (R160). -/
structure ImageFrame (s t : State) : Prop where
  phase : t.phase = s.phase
  rst : t.rst = s.rst
  startCause : t.startCause = s.startCause
  strap : t.strap = s.strap
  locked : t.locked = s.locked
  count : t.count = s.count
  unitInGroup : t.unitInGroup = s.unitInGroup
  owes : t.owes = s.owes
  prescaler : t.prescaler = s.prescaler
  counter : t.counter = s.counter
  bays : t.bays = s.bays
  bound : t.bound = s.bound
  masks : t.masks = s.masks
  timing : t.timing = s.timing
  holds : t.holds = s.holds
  deferrals : t.deferrals = s.deferrals
  snap : t.snap = s.snap
  snapFirst : t.snapFirst = s.snapFirst
  snapLast : t.snapLast = s.snapLast
  lastGranted : t.lastGranted = s.lastGranted
  draws : t.draws = s.draws
  pending : t.pending = s.pending
  slot : ∀ p, (t.port p).slot = (s.port p).slot
  copy : ∀ p, (t.port p).copy = (s.port p).copy
  cursor : ∀ p, (t.port p).cursor = (s.port p).cursor
  mask : ∀ p, (t.port p).mask = (s.port p).mask
  holdEnd : ∀ p, (t.port p).holdEnd = (s.port p).holdEnd
  subscribed : ∀ p, (t.port p).sub.isSome = (s.port p).sub.isSome
  quiet : ∀ (p : Port) (e : Event), e.ofImage = false → e.isIn (t.port p).flags = e.isIn (s.port p).flags
  enrolled : ∀ l, (t.content l).isSome = (s.content l).isSome
  recorded : ∀ (l : Loc) (r : SnapRecord), s.snapRecords.find l.key = some r → t.snapRecords.find l.key = some r
  shown : ∀ l, s.needsCopy l = true → (t.needsCopy l = true ∧ t.content l = s.content l) ∨
    ∃ bad, t.snapRecords.find l.key = some { bad := bad, content := s.content l }

theorem ImageFrame.refl (s : State) : ImageFrame s s := by
  constructor
  case shown => exact fun _ h => .inl ⟨h, rfl⟩
  all_goals intros; first | rfl | assumption

/-- A location is marked copied, and stays so. -/
theorem ImageFrame.copied {s t : State} (h : ImageFrame s t) (l : Loc) (hl : s.copied l) : t.copied l := by
  unfold State.copied at *
  obtain ⟨r, hr⟩ := Option.isSome_iff_exists.mp hl
  rw [h.recorded l r hr]
  rfl

theorem ImageFrame.trans {s t u : State} (h : ImageFrame s t) (k : ImageFrame t u) : ImageFrame s u := by
  constructor
  case recorded => exact fun l r hr => k.recorded l r (h.recorded l r hr)
  case shown =>
    intro l hl
    rcases h.shown l hl with ⟨h1, h2⟩ | ⟨bad, h1⟩
    · rcases k.shown l h1 with ⟨k1, k2⟩ | ⟨bad, k1⟩
      · exact .inl ⟨k1, k2.trans h2⟩
      · exact .inr ⟨bad, h2 ▸ k1⟩
    · exact .inr ⟨bad, k.recorded l _ h1⟩
  case quiet => exact fun p e he => (k.quiet p e he).trans (h.quiet p e he)
  case enrolled => exact fun l => (k.enrolled l).trans (h.enrolled l)
  case phase => exact k.phase.trans h.phase
  case rst => exact k.rst.trans h.rst
  case startCause => exact k.startCause.trans h.startCause
  case strap => exact k.strap.trans h.strap
  case locked => exact k.locked.trans h.locked
  case count => exact k.count.trans h.count
  case unitInGroup => exact k.unitInGroup.trans h.unitInGroup
  case owes => exact k.owes.trans h.owes
  case prescaler => exact k.prescaler.trans h.prescaler
  case counter => exact k.counter.trans h.counter
  case bays => exact k.bays.trans h.bays
  case bound => exact k.bound.trans h.bound
  case masks => exact k.masks.trans h.masks
  case timing => exact k.timing.trans h.timing
  case holds => exact k.holds.trans h.holds
  case deferrals => exact k.deferrals.trans h.deferrals
  case snap => exact k.snap.trans h.snap
  case snapFirst => exact k.snapFirst.trans h.snapFirst
  case snapLast => exact k.snapLast.trans h.snapLast
  case lastGranted => exact k.lastGranted.trans h.lastGranted
  case draws => exact k.draws.trans h.draws
  case pending => exact k.pending.trans h.pending
  case slot => exact fun p => (k.slot p).trans (h.slot p)
  case copy => exact fun p => (k.copy p).trans (h.copy p)
  case cursor => exact fun p => (k.cursor p).trans (h.cursor p)
  case mask => exact fun p => (k.mask p).trans (h.mask p)
  case holdEnd => exact fun p => (k.holdEnd p).trans (h.holdEnd p)
  case subscribed => exact fun p => (k.subscribed p).trans (h.subscribed p)

/-- An update of the ports that leaves of each port the fields that no image change touches. -/
theorem ImageFrame.mapPorts (s : State) (g : Port → PortState → PortState)
    (h : ∀ p q, (g p q).slot = q.slot ∧ (g p q).copy = q.copy ∧ (g p q).cursor = q.cursor ∧ (g p q).mask = q.mask ∧
      (g p q).holdEnd = q.holdEnd ∧ (g p q).sub.isSome = q.sub.isSome)
    (he : ∀ (p : Port) (q : PortState) (e : Event), e.ofImage = false → Event.isIn e (g p q).flags = e.isIn q.flags) : ImageFrame s (s.mapPorts g) := by
  constructor
  case slot => intro p; simpa using (h p _).1
  case copy => intro p; simpa using (h p _).2.1
  case cursor => intro p; simpa using (h p _).2.2.1
  case mask => intro p; simpa using (h p _).2.2.2.1
  case holdEnd => intro p; simpa using (h p _).2.2.2.2.1
  case subscribed => intro p; simpa using (h p _).2.2.2.2.2
  case quiet => intro p e hn; simpa using he p _ e hn
  case shown => exact fun l hl => .inl ⟨by simpa using hl, by simp⟩
  all_goals first | rfl | exact fun _ => rfl | exact fun _ _ hl => hl

/-- Setting one event leaves every other as it stands. -/
theorem PortState.isIn_raise (q : PortState) (e e' : Event) :
    Event.isIn e (q.raise e').flags = (Event.isIn e q.flags || decide (e = e')) := by
  simp only [PortState.raise, Event.isIn]
  generalize q.flags = f
  revert f
  cases e <;> cases e' <;> decide +kernel

theorem ImageFrame.raiseWhere (s : State) (w : Port → Bool) (e : Event) (he : e.ofImage = true) :
    ImageFrame s (s.raiseWhere w e) := by
  apply ImageFrame.mapPorts
  · intro p q
    split <;> exact ⟨rfl, rfl, rfl, rfl, rfl, rfl⟩
  · intro p q e' he'
    have hne : e' ≠ e := fun h => by rw [h, he] at he'; simp at he'
    split
    · rw [PortState.isIn_raise, decide_eq_false hne, Bool.or_false]
    · rfl

theorem ImageFrame.departOldest (s : State) : ImageFrame s s.departOldest := by
  unfold State.departOldest
  split
  · exact .refl s
  · split
    · exact .refl s
    · next old rest _ _ =>
      have h1 : ImageFrame s { s with ring := rest } := by
        constructor
        case shown => exact fun _ h => .inl ⟨h, rfl⟩
        all_goals intros; first | rfl | assumption
      refine h1.trans (ImageFrame.mapPorts _ _ ?_ ?_)
      · intro p q
        split
        · next hq => exact ⟨rfl, rfl, rfl, rfl, rfl, by rw [hq]; rfl⟩
        · exact ⟨rfl, rfl, rfl, rfl, rfl, rfl⟩
      · intro p q e he
        split
        · rw [PortState.isIn_raise]
          cases e <;> simp_all [Event.ofImage]
        · rfl

theorem ImageFrame.append (s : State) (b : ChangeBody) : ImageFrame s (s.append b) := by
  have h1 := ImageFrame.departOldest s
  have h2 : ImageFrame s.departOldest
      { s.departOldest with
        ring := s.departOldest.ring ++ [{ seq := s.departOldest.nextSeq, body := b }]
        nextSeq := s.departOldest.nextSeq + 1 } := by
    constructor
    case shown => exact fun _ h => .inl ⟨h, rfl⟩
    all_goals intros; first | rfl | assumption
  refine (h1.trans h2).trans (ImageFrame.mapPorts _ _ ?_ ?_)
  · intro p q
    split <;> exact ⟨rfl, rfl, rfl, rfl, rfl, rfl⟩
  · intro p q e he
    split
    · rw [PortState.isIn_raise]
      cases e <;> simp_all [Event.ofImage]
    · rfl

theorem ImageFrame.pollAdd (s : State) (n : Sender) (i : PollItem) : ImageFrame s (s.pollAdd n i) := by
  unfold State.pollAdd
  split
  · exact .refl s
  · split
    · have h1 : ImageFrame s { s with polls := s.polls.set n (s.polls.get n ++ [i]) } := by
        constructor
        case shown => exact fun _ h => .inl ⟨h, rfl⟩
        all_goals intros; first | rfl | assumption
      exact h1.trans (ImageFrame.raiseWhere _ _ _ rfl)
    · exact .refl s

/-- A location that has been copied needs no copy. -/
theorem State.needsCopy_copyIn (s : State) (l : Loc) (bad : Bool) : (s.copyIn l bad).needsCopy l = false := by
  unfold State.needsCopy State.copyIn
  cases s.snap <;> simp

theorem State.find_of_needsCopy {s : State} {l : Loc} (h : s.needsCopy l = true) : s.snapRecords.find l.key = none := by
  unfold State.needsCopy at h
  cases hs : s.snap <;> simp_all

theorem ImageChange.frame {s t : State} (h : ImageChange s t) : ImageFrame s t := by
  cases h with
  | append b => exact .append s b
  | stray => exact .raiseWhere s _ _ rfl
  | pollAdd n i => exact .pollAdd s n i
  | write l c d hd hs hcopy =>
    constructor
    case enrolled =>
      intro k
      rw [State.content_writePoint]
      split
      · next h => subst h; rw [hd]; rfl
      · rfl
    case shown =>
      intro k hk
      refine .inl ⟨hk, ?_⟩
      rw [State.content_writePoint, if_neg]
      rintro rfl
      rw [hcopy] at hk
      simp at hk
    all_goals intros; first | rfl | assumption
  | copyIn l bad hc =>
    constructor
    case recorded =>
      intro k r hk
      simp only [State.copyIn, Table.find_insert]
      split
      · next h => rw [← h, State.find_of_needsCopy hc] at hk; simp at hk
      · exact hk
    case shown =>
      intro k hk
      by_cases hkl : k = l
      · subst hkl
        exact .inr ⟨bad, by simp [State.copyIn]⟩
      · refine .inl ⟨?_, by simp⟩
        have hne : l.key ≠ k.key := fun h => hkl (Loc.key_injective h.symm)
        unfold State.needsCopy State.copyIn at *
        simp only [Table.find_insert, if_neg hne]
        exact hk
    all_goals intros; rfl
  | _ =>
    constructor
    case shown => exact fun _ h => .inl ⟨h, rfl⟩
    all_goals intros; first | rfl | assumption

/-- Whatever the events on the image do, they leave the rest of the state as it stands. -/
theorem ImageChanges.frame {s t : State} (h : ImageChanges s t) : ImageFrame s t := by
  induction h with
  | refl => exact .refl s
  | tail _ k ih => exact ih.trans k.frame

theorem ImageFrame.port_hold {s t : State} (h : ImageFrame s t) (p : Port) : t.hold p = s.hold p := by
  rw [State.hold, State.hold, h.holds]

theorem ImageFrame.bay {s t : State} (h : ImageFrame s t) (b : Bay) : t.bay b = s.bay b := by
  rw [State.bay, State.bay, h.bays]

theorem ImageFrame.held {s t : State} (h : ImageFrame s t) (b : Bay) : t.held b = s.held b := by
  unfold State.held State.holder State.hold
  rw [h.holds]

theorem ImageFrame.fitted {s t : State} (h : ImageFrame s t) (b : Bay) : t.fitted b = s.fitted b := by
  unfold State.fitted State.fittedCount
  rw [h.strap]

/-- A record that is there, and that no snapshot needs a copy of, is rewritten. -/
theorem ImageChanges.rewrite {s : State} {l : Loc} {c d : PointContent} (hc : s.content l = some c)
    (hn : s.needsCopy l = false) (h : c.sound = true → d.sound = true) : ImageChanges s (s.writePoint l d) :=
  .one (.write s l d c hc h hn)

theorem ImageChanges.andAppend {s t : State} (h : ImageChanges s t) (b : ChangeBody) : ImageChanges s (t.append b) :=
  h.trans (.one (.append t b))

namespace State

variable (s : State) (l : Loc)

/-! ### Integrity and copies (Chapter 9, R160) -/

theorem handleFailure_changes : ImageChanges s (s.handleFailure l) := by
  unfold State.handleFailure
  split
  · exact .refl s
  · next c hc =>
    have h1 : ImageChanges s (if s.needsCopy l then s.copyIn l true else s) := by
      split
      · next h => exact .one (.copyIn s l true h)
      · exact .refl s
    have hc1 : (if s.needsCopy l then s.copyIn l true else s).content l = some c := by
      split
      · simpa using hc
      · exact hc
    have hn1 : (if s.needsCopy l then s.copyIn l true else s).needsCopy l = false := by
      split
      · exact s.needsCopy_copyIn l true
      · next h => simpa using h
    generalize (if s.needsCopy l then s.copyIn l true else s) = s1 at h1 hc1 hn1 ⊢
    refine ((h1.trans (.one (.mapDrop s1 l))).trans (.one (.pollsDrop _ l))).trans ?_
    refine (ImageChanges.one (.append _ (integrityChange l c.condition c.rebuilt.condition))).trans ?_
    exact .rewrite (c := c) (by simpa using hc1) (by simpa using hn1) PointContent.sound_rebuilt

theorem copyBefore_changes : ImageChanges s (s.copyBefore l) := by
  unfold State.copyBefore
  split
  · next h =>
    split
    · exact .one (.copyIn s l false h)
    · exact s.handleFailure_changes l
  · exact .refl s

/-- After copy-before-write no snapshot needs a copy of the location (R160). -/
@[simp] theorem needsCopy_copyBefore : (s.copyBefore l).needsCopy l = false := by
  unfold State.copyBefore
  split
  · next h =>
    split
    · exact s.needsCopy_copyIn l false
    · next hv =>
      unfold State.handleFailure
      split
      · next hc =>
        have hp : s.points.find l.key = none := by simpa [State.content] using hc
        exact absurd (by simp [State.verified, hp]) hv
      · rw [if_pos h]
        simp [s.needsCopy_copyIn l true]
  · next h => simpa using h

/-- A location that needs no copy needs none after any change of the image. -/
theorem needsCopy_mono {t : State} (h : ImageChanges s t) (hn : s.needsCopy l = false) : t.needsCopy l = false := by
  have f := h.frame
  unfold State.needsCopy at *
  rw [f.snap, f.snapFirst, f.snapLast]
  cases hs : s.snap with
  | copying o m c b =>
    rw [hs] at hn
    simp only [Bool.and_eq_false_iff] at hn ⊢
    rcases hn with hn | hn
    · exact .inl hn
    · right
      cases hr : s.snapRecords.find l.key with
      | none => rw [hr] at hn; simp at hn
      | some r => rw [f.recorded l r hr]; rfl
  | idle => rfl
  | ready _ _ _ _ => rfl

theorem verify_changes : ImageChanges s (s.verify l) := by
  unfold State.verify
  split
  · exact .refl s
  · exact s.handleFailure_changes l

theorem lookup_changes (n : Serial) : ImageChanges s (s.lookup n).1 := by
  unfold State.lookup
  split
  · exact .refl s
  · split
    · exact .refl s
    · split
      · exact .refl s
      · exact s.handleFailure_changes _

/-! ### Conditions (Chapter 4) -/

theorem enterCondition_changes {c d : PointContent} (hc : s.content l = some c) (hn : s.needsCopy l = false)
    (h : c.sound = true → d.sound = true) (cause : Cause) (doneBy : Option Sender) :
    ImageChanges s (s.enterCondition l c d cause doneBy) :=
  (ImageChanges.rewrite hc hn h).andAppend _

theorem promoteOne_changes (entering : Loc) (doneBy : Sender) : ImageChanges s (s.promoteOne entering doneBy l) := by
  unfold State.promoteOne
  split
  · exact .refl s
  · split
    · exact .refl s
    · split
      · refine (s.copyBefore_changes l).trans ?_
        have hn1 := s.needsCopy_copyBefore l
        generalize s.copyBefore l = s1 at hn1 ⊢
        dsimp only
        split
        · exact .refl s1
        · next c1 hc1 =>
          split
          · exact s1.enterCondition_changes l hc1 hn1 PointContent.sound_toAlarm _ _
          · exact .refl s1
      · exact .refl s

theorem promoteSet_changes (entering : Loc) (doneBy : Sender) : ImageChanges s (s.promoteSet entering doneBy) :=
  .foldl (fun s l => s.promoteOne_changes l entering doneBy) s _

theorem enterAlarm_changes {c : PointContent} (hc : s.content l = some c) (hn : s.needsCopy l = false) (cause : Cause)
    (doneBy : Sender) : ImageChanges s (s.enterAlarm l c cause doneBy) := by
  unfold State.enterAlarm
  have h1 := s.enterCondition_changes l hc hn PointContent.sound_toAlarm cause (some doneBy)
  dsimp only
  split
  · exact h1.trans (promoteSet_changes _ _ _)
  · exact h1

theorem enterPending_changes {c : PointContent} (hc : s.content l = some c) (hn : s.needsCopy l = false)
    (doneBy : Sender) : ImageChanges s (s.enterPending l c doneBy) := by
  unfold State.enterPending
  split
  · exact s.enterAlarm_changes l hc hn _ _
  · exact s.enterCondition_changes l hc hn (fun h => PointContent.sound_pending h _) _ _

theorem applyHandover_changes (hn : s.needsCopy l = false) (h : Handover) (doneBy : Sender) :
    ImageChanges s (s.applyHandover l h doneBy) := by
  unfold State.applyHandover
  split
  · exact .refl s
  · next c hc =>
    have enter : ∀ new : Condition, new ≠ .pending → ImageChanges s
        (s.enterCondition l c (c.entering new) .report (some doneBy)) :=
      fun new hp => s.enterCondition_changes l hc hn (fun hs => PointContent.sound_entering hs hp) _ _
    split
    · exact .one (.append s _)
    · cases h with
      | status =>
        show ImageChanges s (s.applyStatus l c doneBy)
        unfold State.applyStatus
        split <;> first | exact enter _ (by decide) | exact .refl s
      | prealarm =>
        show ImageChanges s (s.applyPrealarm l c doneBy)
        unfold State.applyPrealarm
        split <;> first | exact enter _ (by decide) | exact .refl s
      | cleared =>
        show ImageChanges s (s.applyCleared l c doneBy)
        unfold State.applyCleared
        split
        all_goals first
          | exact enter _ (by decide)
          | exact .refl s
          | exact .rewrite hc hn (fun hs => PointContent.sound_of_same hs rfl rfl rfl rfl (PointContent.links_of_sound hs))
      | alarm =>
        show ImageChanges s (s.applyAlarm l c doneBy)
        unfold State.applyAlarm
        split
        · exact .rewrite hc hn (fun hs => PointContent.sound_of_same hs rfl rfl rfl rfl (PointContent.links_of_sound hs))
        · split
          · split
            · exact s.enterAlarm_changes l hc hn _ _
            · exact .refl s
          · exact s.enterAlarm_changes l hc hn _ _
        all_goals
          split
          · exact s.enterPending_changes l hc hn _
          · exact s.enterAlarm_changes l hc hn _ _
      | fault cause =>
        show ImageChanges s (s.applyFault l c cause doneBy)
        unfold State.applyFault
        split
        all_goals first
          | exact enter _ (by simp)
          | exact .one (.append s _)
          | (split
             · exact .refl s
             · exact enter _ (by simp))

theorem pendingToQuiet_changes (cause : Cause) (doneBy : Option Sender) :
    ImageChanges s (s.pendingToQuiet l cause doneBy) := by
  unfold State.pendingToQuiet
  split
  · exact .refl s
  · split
    · refine (s.copyBefore_changes l).trans ?_
      have hn1 := s.needsCopy_copyBefore l
      generalize s.copyBefore l = s1 at hn1 ⊢
      dsimp only
      split
      · exact .refl s1
      · next c1 hc1 =>
        split
        · exact s1.enterCondition_changes l hc1 hn1 (fun hs => PointContent.sound_entering hs (by decide)) _ _
        · exact .refl s1
    · exact .refl s

/-! ### Reports (Chapter 3) -/

theorem strayStep_changes (r : Report) : ImageChanges s (s.strayStep r) := by
  unfold State.strayStep
  have h1 : ImageChanges s (s.strayHear r) := .one (.strayHear s r)
  dsimp only
  split
  · exact (h1.andAppend _).trans (.one (.stray _))
  · exact h1

theorem batteryRecord_changes (c : PointContent) (r : Report) : ImageChanges s (s.batteryRecord l c r) := by
  unfold State.batteryRecord
  split
  · split
    · exact .refl s
    · exact .one (.append s _)
  · exact .refl s

@[simp] theorem content_batteryRecord (l' : Loc) (c : PointContent) (r : Report) :
    (s.batteryRecord l c r).content l' = s.content l' := by
  unfold State.batteryRecord
  split
  · split
    · rfl
    · simp
  · rfl

theorem applyHandovers_changes (hn : s.needsCopy l = false) (hs : List Handover) (doneBy : Sender) :
    ImageChanges s (hs.foldl (fun s h => s.applyHandover l h doneBy) s) := by
  induction hs generalizing s with
  | nil => exact .refl s
  | cons h hs ih =>
    have h1 := s.applyHandover_changes l hn h doneBy
    exact h1.trans (ih _ (s.needsCopy_mono l h1 hn))

theorem applyAccepted_changes (r : Report) : ImageChanges s (s.applyAccepted l r) := by
  unfold State.applyAccepted
  refine (s.copyBefore_changes l).trans ?_
  have hn1 := s.needsCopy_copyBefore l
  generalize s.copyBefore l = s1 at hn1 ⊢
  dsimp only
  split
  · exact .refl s1
  · next c hc =>
    have h1 := s1.batteryRecord_changes l c r
    have hn2 := s1.needsCopy_mono l h1 hn1
    refine h1.trans ?_
    refine (ImageChanges.rewrite (c := c) (by simpa using hc) hn2 (fun hs => sound_acceptedContent hs s1.timing r)).trans ?_
    refine (ImageChanges.one (.pollsDrop _ l)).trans ?_
    exact applyHandovers_changes _ l (by simpa using hn2) _ _

theorem applyDuplicate_changes (r : Report) : ImageChanges s (s.applyDuplicate l r) := by
  unfold State.applyDuplicate
  refine (s.copyBefore_changes l).trans ?_
  have hn1 := s.needsCopy_copyBefore l
  generalize s.copyBefore l = s1 at hn1 ⊢
  dsimp only
  split
  · exact .refl s1
  · next c hc =>
    refine (ImageChanges.rewrite hc hn1 (fun hs => ?_)).trans (.one (.pollsDrop _ l))
    exact PointContent.sound_of_same hs rfl rfl rfl rfl (linksFit_updateLinks _ _ _ (PointContent.links_of_sound hs))

theorem sequenceStep_changes (r : Report) : ImageChanges s (s.sequenceStep l r).1 := by
  unfold State.sequenceStep
  split
  · exact .refl s
  · dsimp only
    split
    · exact s.applyAccepted_changes l r
    · exact s.applyDuplicate_changes l r
    · exact .refl s

/-! ### The sweep (Chapter 5) -/

theorem pollRule_changes (c : PointContent) : ImageChanges s (s.pollRule l c) := by
  unfold State.pollRule
  split
  · exact .foldl (fun s n => .one (.pollAdd s n _)) s _
  · exact .refl s

theorem agePoint_changes {c : PointContent} (hc : s.content l = some c) (hn : s.needsCopy l = false) :
    ImageChanges s (s.agePoint l c) := by
  unfold State.agePoint
  have haged : c.sound = true → ({ c with age := ageUp c.age, links := agedLinks c.links } : PointContent).sound = true :=
    fun hs => PointContent.sound_of_same hs rfl rfl rfl rfl (linksFit_agedLinks _ (PointContent.links_of_sound hs))
  dsimp only
  split
  · exact ((ImageChanges.rewrite hc hn (fun hs => sound_toMissing (haged hs))).andAppend _).trans (pollRule_changes _ _ _)
  · exact (ImageChanges.rewrite hc hn haged).trans (pollRule_changes _ _ _)

theorem visitPoint_changes : ImageChanges s (s.visitPoint l) := by
  unfold State.visitPoint
  split
  · exact .refl s
  · refine ((s.copyBefore_changes l).trans (verify_changes _ l)).trans ?_
    have hn1 := needsCopy_mono _ l (verify_changes (s.copyBefore l) l) (s.needsCopy_copyBefore l)
    generalize (s.copyBefore l).verify l = s1 at hn1 ⊢
    dsimp only
    split
    · exact .refl s1
    · next c hc => exact s1.agePoint_changes l hc hn1

theorem visitBay_changes (b : Bay) : ImageChanges s (s.visitBay b) := .foldl State.visitPoint_changes s _

theorem rewarmPoint_changes : ImageChanges s (s.rewarmPoint l) := by
  unfold State.rewarmPoint
  split
  · exact .refl s
  · split
    · refine (s.copyBefore_changes l).trans ?_
      have hn1 := s.needsCopy_copyBefore l
      generalize s.copyBefore l = s1 at hn1 ⊢
      dsimp only
      split
      · exact .refl s1
      · next c1 hc1 =>
        split
        · refine .rewrite hc1 hn1 (fun hs => ?_)
          have := PointContent.sound_entering hs (new := .unheard) (by decide)
          exact PointContent.sound_of_same this rfl rfl rfl rfl (PointContent.links_of_sound this)
        · exact .refl s1
    · exact .refl s

theorem clearHeard_changes : ImageChanges s (s.clearHeard l) := by
  unfold State.clearHeard
  split
  · exact .refl s
  · split
    · refine (s.copyBefore_changes l).trans ?_
      have hn1 := s.needsCopy_copyBefore l
      generalize s.copyBefore l = s1 at hn1 ⊢
      dsimp only
      split
      · exact .refl s1
      · next c1 hc1 =>
        exact .rewrite hc1 hn1 (fun hs => PointContent.sound_of_same hs rfl rfl rfl rfl (PointContent.links_of_sound hs))
    · exact .refl s

theorem rewarm_changes (doneBy : Sender) : ImageChanges s (s.rewarm doneBy) :=
  ((ImageChanges.foldl State.rewarmPoint_changes s _).trans (.foldl State.clearHeard_changes _ _)).andAppend _

/-! ### Reads, panel requests and commissioning -/

theorem verifyAll_changes (ls : List Loc) : ImageChanges s (ls.foldl State.verify s) :=
  .foldl State.verify_changes s ls

theorem readRecord_changes : ImageChanges s (s.readRecord l).1 := by
  unfold State.readRecord
  split
  · exact .refl s
  · dsimp only
    split <;> exact s.verify_changes l

/-- A content that a copy has left is the one before it or its rebuilt form. -/
theorem content_copyBefore {c d : PointContent} (hc : s.content l = some c) (hd : (s.copyBefore l).content l = some d) :
    d = c ∨ d = c.rebuilt := by
  unfold State.copyBefore at hd
  split at hd
  · split at hd
    · left
      rw [copyIn_content, hc] at hd
      exact (Option.some.inj hd).symm
    · right
      unfold State.handleFailure at hd
      simp only [hc, content_writePoint_self] at hd
      exact (Option.some.inj hd).symm
  · left
    rw [hc] at hd
    exact (Option.some.inj hd).symm

theorem panelWrite_changes {change : State → PointContent → State × Answer}
    (h : ∀ s c, s.content l = some c → s.needsCopy l = false → ImageChanges s (change s c).1) :
    ImageChanges s (s.panelWrite l change).1 := by
  unfold State.panelWrite
  refine (s.copyBefore_changes l).trans ?_
  dsimp only
  split
  · exact .refl _
  · next c hc => exact h _ c hc (s.needsCopy_copyBefore l)

theorem repair_changes {n : Serial} (hn : serialValid n = true) (k : PointKind) (doneBy : Sender) :
    ImageChanges s (s.repair l n k doneBy).1 := by
  unfold State.repair
  refine (s.copyBefore_changes l).trans ?_
  have hn1 := s.needsCopy_copyBefore l
  generalize s.copyBefore l = s1 at hn1 ⊢
  dsimp only
  split
  · exact .refl s1
  · next c hc =>
    refine (((ImageChanges.rewrite hc hn1 (fun hs => sound_repairedContent hn k hs)).trans
      (.one (.mapAdd _ n l ?_))).trans (.one (.strayDrop _ n))).andAppend _
    simp

end State
end Sys2Proof.Machine
end

