-- ==== Sys2Proof/Laws/Changes.lean ====
section
/-! SUPPORT. What a step can do, said once: whatever the command, the next state comes about by a sequence of the
single changes of `Change`, each with the condition under which the part makes it, and sorted into five classes, so that a
claim can say which classes a command makes (`exec_effects`). An invariant that every `Change` keeps is kept by every
step. -/

namespace Sys2Proof.Machine

/-- The classes of single changes: the part's own work, the arbiter and the slots of the ports with the copies shifted out,
the start of a snapshot, a storage upset, and the device resets. -/
inductive ChangeClass
  | own | slot | start | upset | reset
deriving DecidableEq, Repr

/-- One single change of the state, with what holds where the part makes it. -/
inductive Change : State → ChangeClass → State → Prop
  | image {s t : State} (h : ImageChange s t) : Change s .own t
  /-- on an unlocked part, a location of a fitted bay is enrolled or, enrolled, written anew -/
  | enrol (s : State) (l : Loc) (c : PointContent) (hl : s.locked = false) (hf : s.fitted l.bay = true)
      (hc : c.sound = true) (hcopy : s.needsCopy l = false) : Change s .own (s.writePoint l c)
  /-- on an unlocked part, a record that no map entry names is set to unenrolled -/
  | erase (s : State) (l : Loc) (hl : s.locked = false) (h : ∀ e ∈ s.enrolMap, e.2 ≠ l)
      (hcopy : s.needsCopy l = false) : Change s .own (s.erasePoint l)
  | raise (s : State) (which : Port → Bool) (e : Event) : Change s .own (s.raiseWhere which e)
  /-- state that no invariant concerns -/
  | plain (s : State) (phase : Phase) (rst : Bool) (count : Count) (unitInGroup : Fin 10) (owes : List TimeBlock)
      (counter : Bay) : Change s .own
        { s with
          phase := phase, rst := rst, count := count, unitInGroup := unitInGroup, owes := owes, counter := counter }
  | lock (s : State) : Change s .own { s with locked := true }
  | rights (s : State) (bound : PerPort SenderSet) (masks : PerSender (PerArea GroupSet)) (hl : s.locked = false) :
      Change s .own { s with bound := bound, masks := masks }
  | port (s : State) (p : Port) (x : PortState)
      (hsub : ∀ n, x.sub = some n → s.ringSound → s.cursorsSound → s.waiting n ≤ s.ring.length)
      (hslot : x.slot = (s.port p).slot) (hcopy : x.copy = (s.port p).copy) : Change s .own (s.setPort p x)
  | granting (s : State) (p : Port) : Change s .slot (s.granting p)
  | slot (s : State) (p : Port) (x : Slot) (y : Option Slot)
      (h : s.slotsSound → s.straysSound → x.sound ∧ ∀ c, y = some c → c.sound) :
      Change s .slot (s.setPort p { s.port p with slot := x, copy := y })
  | dropCopies (s : State) : Change s .slot (s.mapPorts (fun _ q => { q with copy := none }))
  | start (s : State) (p : Port) (mark : SeqNum) (c : Count) (hi : s.snap = .idle) :
      Change s .start { s with snap := .copying p mark c s.snapFirst, snapRecords := [] }
  | upset (s : State) (l : Loc) (c : PointContent) (h : c.sound = true) : Change s .upset (s.upsetPoint l c)
  | clearStrays (s : State) : Change s .own { s with strays := [] }
  | takePolls (s : State) (n : Sender) (k : Nat) : Change s .own (s.pollsTake n k)
  | defer (s : State) (r : Report) (b : Bay) (hk : r.kind ≠ .alarm) (hb : s.held b = true)
      (hl : s.deferrals.length < Config.deferralCapacity) : Change s .own (s.defer r b)
  | redefer (s : State) (r : Report) (b b' : Bay) (hd : ∃ d ∈ s.deferrals, d.bay = b ∧ d.report = r)
      (hb : s.held b' = true) : Change s .own ((s.undefer b).defer r b')
  | undefer (s : State) (b : Bay) : Change s .own (s.undefer b)
  | hold (s : State) (p : Port) (h : Hold) (hfree : s.holder h.bay = none) (hp : s.hold p = none)
      (ht : s.timingSound → 1 ≤ h.timer.left ∧ h.timer.left ≤ 255) : Change s .own (s.setHold p (some h))
  | holdDrop (s : State) (p : Port) (h : ∀ k, s.hold p = some k → ∀ d ∈ s.deferrals, d.bay ≠ k.bay) :
      Change s .own (s.setHold p none)
  | holdTick (s : State) : Change s .own { s with holds := s.holds.map (fun _ h => h.map Hold.tick) }
  | owed (s : State) (b : Bay) (v : Bool) : Change s .own (s.setOwed b v)
  | mode (s : State) (b : Bay) (m : BayMode)
      (ht : s.timingSound → ∀ t, m = .service t → 1 ≤ t.left ∧ t.left ≤ 153000) : Change s .own (s.setMode b m)
  | bayTick (s : State) : Change s .own (s.mapBays (fun _ r => r.tick))
  | pair (s : State) (b : Bay) (q : Option Bay) (hl : s.locked = false) (h : q ≠ some b) :
      Change s .own (s.pair b q)
  | timing (s : State) (t : Timing) (hl : s.locked = false) (h : t.inRange = true) :
      Change s .own { s with timing := t, prescaler := 0 }
  | prescaler (s : State) (n : Nat) (h0 : s.timing.sweepPeriod = 0 → n = 0)
      (h : s.timing.sweepPeriod ≠ 0 → n < s.timing.sweepPeriod.toNat) : Change s .own { s with prescaler := n }
  | snapEnd (s : State) : Change s .own s.snapEnd
  | snapRange (s : State) (first last : Bay) (hi : s.snap = .idle) (h : first ≤ last) (hf : s.fitted last = true) :
      Change s .own { s with snapFirst := first, snapLast := last }
  | snapNext (s : State) (o : Port) (m : SeqNum) (c : Count) (b : Bay) (hs : s.snap = .copying o m c b)
      (hc : s.snapSound → ∀ l : Loc, l.bay = b → s.copied l) (hb : b ≠ s.snapLast) :
      Change s .own { s with snap := .copying o m c (b + 1) }
  | snapReady (s : State) (o : Port) (m : SeqNum) (c : Count) (t : Countdown) (hs : s.snap = .copying o m c s.snapLast)
      (hc : s.snapSound → ∀ l : Loc, l.bay = s.snapLast → s.copied l)
      (ht : s.timingSound → 1 ≤ t.left ∧ t.left ≤ 2550) : Change s .own { s with snap := .ready o m c t }
  | snapTick (s : State) : Change s .own { s with snap := s.snap.tick }
  | powerOn (s : State) (strap : BitVec 2) : Change s .reset (s.powerOn strap)
  | resetLine (s : State) : Change s .reset s.resetLine
  | removePower (s : State) : Change s .reset s.removePower

/-- Any number of the part's own single changes. -/
def Changes : State → State → Prop := Relation.ReflTransGen (fun s t => Change s .own t)

namespace Changes

theorem refl (s : State) : Changes s s := Relation.ReflTransGen.refl

theorem one {s t : State} (h : Change s .own t) : Changes s t := Relation.ReflTransGen.single h

theorem trans {s t u : State} (h : Changes s t) (k : Changes t u) : Changes s u := Relation.ReflTransGen.trans h k

theorem image {s t : State} (h : ImageChanges s t) : Changes s t :=
  h.keeps (fun _ _ k hu => hu.trans (.one (.image k))) (refl s)

/-- What every single change of the part's own keeps, any number of them keeps. -/
theorem keeps {P : State → Prop} (hP : ∀ s t, Change s .own t → P s → P t) {s t : State} (h : Changes s t)
    (hs : P s) : P t := by
  induction h with
  | refl => exact hs
  | tail _ k ih => exact hP _ _ k ih

end Changes

/-- Any number of single changes of some classes. -/
def Effects (classes : List ChangeClass) : State → State → Prop :=
  Relation.ReflTransGen (fun s t => ∃ k ∈ classes, Change s k t)

namespace Effects

theorem trans {ks : List ChangeClass} {s t u : State} (h : Effects ks s t) (k : Effects ks t u) : Effects ks s u :=
  Relation.ReflTransGen.trans h k

theorem one {ks : List ChangeClass} {k : ChangeClass} (hk : k ∈ ks) {s t : State} (h : Change s k t) :
    Effects ks s t := .single ⟨k, hk, h⟩

theorem changes {ks : List ChangeClass} (hk : .own ∈ ks) {s t : State} (h : Changes s t) : Effects ks s t :=
  h.keeps (P := fun u => Effects ks s u) (fun _ _ k hu => Relation.ReflTransGen.tail hu ⟨_, hk, k⟩) .refl

/-- What every single change of some classes keeps, any number of them keeps. -/
theorem keeps {ks : List ChangeClass} {P : State → Prop} (hP : ∀ k ∈ ks, ∀ s t, Change s k t → P s → P t)
    {s t : State} (h : Effects ks s t) (hs : P s) : P t := by
  induction h with
  | refl => exact hs
  | tail _ k ih =>
    obtain ⟨k, hk, h⟩ := k
    exact hP k hk _ _ h ih

end Effects

theorem upsetPoint_eq (s : State) (l : Loc) (c : PointContent) : ∃ pts, s.upsetPoint l c = { s with points := pts } := by
  unfold State.upsetPoint
  split
  · exact ⟨s.points, rfl⟩
  · exact ⟨_, rfl⟩

theorem unpair_eq (s : State) (b : Bay) : ∃ v, s.unpair b = { s with bays := v } := by
  unfold State.unpair
  split
  · exact ⟨s.bays, rfl⟩
  · exact ⟨_, rfl⟩

theorem pair_eq (s : State) (b : Bay) (q : Option Bay) : ∃ v, s.pair b q = { s with bays := v } := by
  unfold State.pair
  split
  · exact unpair_eq s b
  · next x =>
    split
    · exact ⟨s.bays, rfl⟩
    · obtain ⟨v, hv⟩ := unpair_eq s b
      obtain ⟨w, hw⟩ := unpair_eq (s.unpair b) x
      rw [hw, hv]
      exact ⟨_, rfl⟩

/-- The part's own changes leave the arbiter, every slot and every copy that a transaction shifts out. -/
theorem Change.slots {s t : State} (h : Change s .own t) :
    t.lastGranted = s.lastGranted ∧
      ∀ p, (t.port p).slot = (s.port p).slot ∧ (t.port p).copy = (s.port p).copy := by
  cases h with
  | image h => exact ⟨h.frame.lastGranted, fun p => ⟨h.frame.slot p, h.frame.copy p⟩⟩
  | raise w e =>
    refine ⟨rfl, fun p => ?_⟩
    rw [State.port_raiseWhere]
    split <;> exact ⟨rfl, rfl⟩
  | port q x _ h1 h2 =>
    refine ⟨rfl, fun p => ?_⟩
    rw [State.port_setPort]
    split
    · next hq => exact hq ▸ ⟨h1, h2⟩
    · exact ⟨rfl, rfl⟩
  | bayTick => simp
  | pair b q _ _ =>
    obtain ⟨v, hv⟩ := pair_eq s b q
    rw [hv]
    exact ⟨rfl, fun _ => ⟨rfl, rfl⟩⟩
  | _ => exact ⟨rfl, fun _ => ⟨rfl, rfl⟩⟩

theorem Changes.slots {s t : State} (h : Changes s t) :
    t.lastGranted = s.lastGranted ∧
      ∀ p, (t.port p).slot = (s.port p).slot ∧ (t.port p).copy = (s.port p).copy :=
  h.keeps (P := fun u => u.lastGranted = s.lastGranted ∧
      ∀ p, (u.port p).slot = (s.port p).slot ∧ (u.port p).copy = (s.port p).copy)
    (fun _ _ k hu => ⟨k.slots.1.trans hu.1, fun p => ⟨(k.slots.2 p).1.trans (hu.2 p).1, (k.slots.2 p).2.trans (hu.2 p).2⟩⟩)
    ⟨rfl, fun _ => ⟨rfl, rfl⟩⟩

namespace Changes

/-- A port whose slot, copy and subscription stay may change otherwise. -/
theorem portKeep (s : State) (p : Port) (x : PortState) (h1 : x.slot = (s.port p).slot) (h2 : x.copy = (s.port p).copy)
    (h3 : x.sub = (s.port p).sub) : Changes s (s.setPort p x) := by
  exact .one (.port s p x (fun n hn _ hc => hc p n (h3 ▸ hn)) h1 h2)

theorem raise (s : State) (w : Port → Bool) (e : Event) : Changes s (s.raiseWhere w e) := .one (.raise s w e)

theorem settleFire (before : State) {s t : State} (h : Changes s t) : Changes s (before.settleFire t) := by
  unfold State.settleFire
  split
  · exact h.trans (.raise t _ _)
  · exact h

end Changes

namespace State

variable (s : State)

/-! ### The end of a hold (R133) -/

theorem lookup_at {n : Serial} {l : Loc} (h : (s.lookup n).2 = .at l) : (s.lookup n).1 = s := by
  unfold State.lookup at *
  split
  · rfl
  · split
    · rfl
    · split
      · rfl
      · simp_all

theorem waitingFor_undefer {b : Bay} {r : Report} {rs : List Report} (h : s.waitingFor b = r :: rs) :
    (s.undefer b).waitingFor b = rs := by
  unfold State.waitingFor State.undefer at *
  dsimp only
  generalize s.deferrals = ds at *
  induction ds with
  | nil => simp at h
  | cons d ds ih =>
    by_cases hd : d.bay = b
    · simp only [hd, decide_true, List.filter_cons_of_pos, List.map_cons, List.cons.injEq] at h
      simp [hd, h.2]
    · simp only [hd, decide_false, Bool.false_eq_true, not_false_eq_true, List.filter_cons_of_neg] at h
      simp [hd, ih h]

theorem waitingFor_defer_ne {b b' : Bay} (r : Report) (h : b' ≠ b) : (s.defer r b').waitingFor b = s.waitingFor b := by
  simp [State.waitingFor, State.defer, h]

theorem waitingFor_of_frame {t : State} (h : t.deferrals = s.deferrals) (b : Bay) : t.waitingFor b = s.waitingFor b := by
  rw [State.waitingFor, State.waitingFor, h]

theorem exists_of_waitingFor {b : Bay} {r : Report} {rs : List Report} (h : s.waitingFor b = r :: rs) :
    ∃ d ∈ s.deferrals, d.bay = b ∧ d.report = r := by
  have hr : r ∈ s.waitingFor b := by simp [h]
  obtain ⟨d, hd, rfl⟩ := List.mem_map.mp hr
  exact ⟨d, (List.mem_filter.mp hd).1, by simpa using (List.mem_filter.mp hd).2, rfl⟩

/-- One deferred report at the drain leaves the queue, for this bay, one shorter, and every hold as it stands. -/
theorem drainOne_changes {b : Bay} {r : Report} {rs : List Report} (h : s.waitingFor b = r :: rs) :
    Changes s (State.drainOne b s r) ∧ (State.drainOne b s r).waitingFor b = rs ∧
      (State.drainOne b s r).holds = s.holds := by
  have hw := s.waitingFor_undefer h
  have h0 : Changes s (s.undefer b) := .one (.undefer s b)
  have image : ∀ t, ImageChanges (s.undefer b) t → Changes s t ∧ t.waitingFor b = rs ∧ t.holds = s.holds := by
    intro t ht
    exact ⟨h0.trans (.image ht), (waitingFor_of_frame _ ht.frame.deferrals b).trans hw, ht.frame.holds⟩
  unfold State.drainOne
  dsimp only
  have hl := (s.undefer b).lookup_changes r.serial
  split
  · exact image _ (hl.trans (strayStep_changes _ r))
  · exact image _ (hl.trans (strayStep_changes _ r))
  · next l hat =>
    rw [(s.undefer b).lookup_at hat]
    split
    · exact image _ (.refl _)
    · split
      · next hb =>
        simp only [Bool.and_eq_true, decide_eq_true_eq] at hb
        refine ⟨.one (.redefer s r b l.bay (s.exists_of_waitingFor h) hb.2), ?_, rfl⟩
        exact (waitingFor_defer_ne _ r hb.1).trans hw
      · exact image _ (sequenceStep_changes _ l r)

theorem drain_changes (b : Bay) :
    Changes s (s.drain b) ∧ (s.drain b).waitingFor b = [] ∧ (s.drain b).holds = s.holds := by
  unfold State.drain
  have key : ∀ rs (s : State), s.waitingFor b = rs → Changes s (rs.foldl (State.drainOne b) s) ∧
      (rs.foldl (State.drainOne b) s).waitingFor b = [] ∧ (rs.foldl (State.drainOne b) s).holds = s.holds := by
    intro rs
    induction rs with
    | nil => intro s h; exact ⟨.refl s, h, rfl⟩
    | cons r rs ih =>
      intro s h
      obtain ⟨h1, h2, h3⟩ := s.drainOne_changes h
      obtain ⟨k1, k2, k3⟩ := ih _ h2
      exact ⟨h1.trans k1, k2, k3.trans h3⟩
  exact key _ s rfl

theorem owedVisit_changes (b : Bay) : Changes s (s.owedVisit b) := by
  unfold State.owedVisit
  split
  · exact (Changes.one (.owed s b false)).trans (.image (visitBay_changes _ b))
  · exact .refl s

theorem owedVisit_frame (b : Bay) : (s.owedVisit b).deferrals = s.deferrals ∧ (s.owedVisit b).holds = s.holds := by
  unfold State.owedVisit
  split
  · have h := ((s.setOwed b false).visitBay_changes b).frame
    exact ⟨h.deferrals, h.holds⟩
  · exact ⟨rfl, rfl⟩

theorem endHold_changes {p : Port} {h : Hold} (hp : s.hold p = some h) (reason : Option HoldEnd) :
    Changes s (s.endHold p h.bay reason) := by
  unfold State.endHold
  obtain ⟨h1, h2, h3⟩ := s.drain_changes h.bay
  have h4 := (s.drain h.bay).owedVisit_changes h.bay
  obtain ⟨h5, h6⟩ := (s.drain h.bay).owedVisit_frame h.bay
  have hdrop : Changes s ((((s.drain h.bay).owedVisit h.bay).setHold p none)) := by
    refine (h1.trans h4).trans (.one (.holdDrop _ p ?_))
    intro k hk d hd hb
    have hkh : k = h := by
      have : s.hold p = some k := by rw [← hk, State.hold, State.hold, h6, h3]
      rw [hp] at this
      exact (Option.some.inj this).symm
    rw [h5] at hd
    have hmem : d.report ∈ (s.drain h.bay).waitingFor h.bay :=
      List.mem_map.mpr ⟨d, List.mem_filter.mpr ⟨hd, by simp [hb, hkh]⟩, rfl⟩
    rw [h2] at hmem
    simp at hmem
  dsimp only
  split
  · exact hdrop
  · refine (hdrop.trans ?_).trans (Changes.raise _ _ _)
    exact .portKeep _ p _ rfl rfl rfl

theorem holdStep_changes (l : Loc) (r : Report) : Changes s (s.holdStep l r).1 := by
  unfold State.holdStep
  split
  · exact .image (s.sequenceStep_changes l r)
  · next p hp =>
    obtain ⟨k, hk, hb⟩ := s.holder_eq_some hp
    split
    · exact (hb ▸ s.endHold_changes hk _).trans (.image (sequenceStep_changes _ l r))
    · next hkind =>
      split
      · next hlen =>
        exact .one (.defer s r l.bay hkind ((s.held_iff l.bay).mpr ⟨p, k, hk, hb⟩) hlen)
      · exact (hb ▸ s.endHold_changes hk _).trans (.image (sequenceStep_changes _ l r))

theorem takeReport_changes (r : Report) : Changes s (s.takeReport r).1 := by
  unfold State.takeReport
  split
  · exact .refl s
  · have hl := s.lookup_changes r.serial
    dsimp only
    split
    · exact .image (hl.trans (strayStep_changes _ r))
    · exact .image (hl.trans (strayStep_changes _ r))
    · split
      · exact .image hl
      · exact (Changes.image hl).trans (holdStep_changes _ _ r)

/-! ### Enrolling and withdrawing (R34, R36) -/

theorem enrol_changes (l : Loc) {n : Serial} (hn : serialValid n = true) (k : PointKind) (doneBy : Sender)
    (hl : s.locked = false) (hf : s.fitted l.bay = true) : Changes s (s.enrol l n k doneBy) := by
  unfold State.enrol
  have h1 := s.copyBefore_changes l
  have hf1 : (s.copyBefore l).fitted l.bay = true := by rw [h1.frame.fitted]; exact hf
  have hl1 : (s.copyBefore l).locked = false := h1.frame.locked.trans hl
  refine ((Changes.image h1).trans (.one (.enrol _ l _ hl1 hf1 (sound_enrolledContent hn k) (by simp)))).trans (.image ?_)
  refine ((ImageChanges.one (.mapAdd _ n l ?_)).trans (.one (.strayDrop _ n))).andAppend _
  simp

theorem withdraw_changes (l : Loc) (doneBy : Sender) (hl : s.locked = false) : Changes s (s.withdraw l doneBy) := by
  unfold State.withdraw
  refine (Changes.image (s.copyBefore_changes l)).trans ?_
  have hn1 := s.needsCopy_copyBefore l
  have hl1 : (s.copyBefore l).locked = false := (s.copyBefore_changes l).frame.locked.trans hl
  generalize s.copyBefore l = s1 at hn1 hl1 ⊢
  dsimp only
  split
  · exact .refl s1
  · refine (Changes.image ((ImageChanges.one (.mapDrop s1 l)).trans (.one (.pollsDrop _ l)))).trans ?_
    refine (Changes.one (.erase _ l (by simpa using hl1) ?_ (by simpa using hn1))).trans (.image (.one (.append _ _)))
    intro e he
    have : e ∈ s1.enrolMap.filter (fun e => e.2 ≠ l) := he
    simpa using (List.mem_filter.mp this).2

theorem sweepStep_changes : Changes s s.sweepStep := by
  unfold State.sweepStep
  have h1 : Changes s (if s.fitted s.counter = true then
      (if s.held s.counter = true then s.setOwed s.counter true else s.visitBay s.counter) else s) := by
    split
    · split
      · exact .one (.owed s _ true)
      · exact .image (s.visitBay_changes _)
    · exact .refl s
  exact h1.trans (.one (.plain _ _ _ _ _ _ (s.counter + 1)))

end State

/-! ### Grants (R185) -/

/-- What the body of a request does, for the grant of it: single changes, and an answer that fits a frame (R179). -/
def BodySound (body : Port → Request → State → State × Answer) : Prop :=
  ∀ p r s, Changes s (body p r s).1 ∧ ((body p r s).1.straysSound → (body p r s).2.payload.length ≤ 96)

/-- A grant that takes place: the body's changes, then the answer in the slot. -/
theorem grantRaw_effects {body : Port → Request → State → State × Answer} (h : BodySound body) (s : State)
    (code : ReqCode) : Effects [.own, .slot] s (s.grantRaw code body) := by
  unfold State.grantRaw
  split
  · exact .refl
  · next p r _ =>
    have h0 : Effects [.own, .slot] s (s.granting p) := .one (k := .slot) (by simp) (.granting s p)
    obtain ⟨h1, h2⟩ := h p r (s.granting p)
    refine (h0.trans (.changes (by simp) h1)).trans ?_
    exact .one (k := .slot) (by simp) (.slot _ p _ _ (fun hs hst => ⟨h2 hst, (hs p).2⟩))

theorem BodySound.settled {body : Port → Request → State → State × Answer} (h : BodySound body) :
    BodySound (settled body) := by
  intro p r s
  obtain ⟨h1, h2⟩ := h p r s
  refine ⟨h1.settleFire s, fun hs => h2 ?_⟩
  unfold Machine.settled State.settleFire at hs
  dsimp only at hs
  split at hs
  · exact hs
  · exact hs

theorem grant_effects {body : Port → Request → State → State × Answer} (h : BodySound body) (s : State)
    (code : ReqCode) : Effects [.own, .slot] s (s.grant code body) := grantRaw_effects h.settled s code

theorem BodySound.reading {answer : Port → Request → State → Answer}
    (h : ∀ p r s, s.straysSound → (answer p r s).payload.length ≤ 96) : BodySound (reading answer) :=
  fun p r s => ⟨.refl s, h p r s⟩

/-! ### Lengths of answers (section 10.6) -/

theorem length_pointBytes (draw : Nat) (now : Count) (l : Loc) (c : PointContent) :
    (pointBytes draw now l c).length = 28 := by
  unfold pointBytes
  have hu : ∀ d u, (unitsBytes d u).length = 2 := by
    intro d u; unfold unitsBytes; split <;> rfl
  have h9 : (((c.links.flatMap linkBytes) ++ List.replicate 9 (0 : Byte)).take 9).length = 9 := by
    simp
  simp only [List.length_append, h9]
  cases c.confirmation with
  | none => rfl
  | some f => simp only [List.length_append, hu]; rfl

theorem length_changeBytes (r : ChangeRecord) : (changeBytes r).length = 12 := rfl

theorem length_strayBytes (e : Stray) : (strayBytes e).length = 7 := rfl

theorem length_pollBytes (i : PollItem) : (pollBytes i).length = 7 := rfl

theorem length_sliceBytes (draw : Nat) (p : Fin 16) (f : SliceField) (c : PointContent) :
    (sliceBytes draw p f c).length = 2 := by
  unfold sliceBytes
  cases f <;> dsimp only <;> first | rfl | (split <;> rfl)

theorem length_flatMap_le {α β : Type} (f : α → List β) (k n : Nat) (hf : ∀ a, (f a).length = k) (as : List α)
    (h : as.length ≤ n) : (as.flatMap f).length ≤ n * k := by
  rw [List.length_flatMap]
  have : as.map (fun a => (f a).length) = as.map (fun _ => k) := by simp [hf]
  rw [this, List.map_const', List.sum_replicate]
  exact Nat.mul_le_mul_right k h

theorem length_bayAnswer (s : State) (b : Bay) : (bayAnswer s b).length = 16 := by
  unfold bayAnswer countList
  dsimp only
  simp only [List.length_append, List.length_map, List.length_cons, List.length_nil]
  cases (s.holder b).bind s.hold <;> rfl

theorem length_summaryAnswer (s : State) : (summaryAnswer s).length = 13 := rfl

theorem length_settingsAnswer (s : State) : (settingsAnswer s).length = 41 := rfl

theorem length_deviceAnswer (s : State) : (deviceAnswer s).length = 19 := by
  unfold deviceAnswer
  simp only [Port.all, List.flatMap_cons, List.flatMap_nil]
  cases s.hold .p0 <;> cases s.hold .p1 <;> cases s.hold .p2 <;> cases s.hold .p3 <;> cases s.snap <;> rfl

theorem length_locBytes (l : Loc) : (locBytes l).length = 2 := rfl

end Sys2Proof.Machine
end

