-- ==== Sys2Proof/Laws/Steps.lean ====
section
/-! SUPPORT. Every command is a sequence of single changes: one lemma for the body of each request, one for each event
of time and power, and `exec_effects` and `step_effects` over all of them. -/

namespace Sys2Proof.Machine

/-! ### Reading requests -/

theorem readRecord_answer (s : State) (l : Loc) : (s.readRecord l).2.payload.length ≤ 96 := by
  unfold State.readRecord
  split
  · exact Nat.zero_le _
  · dsimp only
    split
    · exact Nat.zero_le _
    · simp [length_pointBytes]

theorem readPoint_sound : BodySound readPointBody := by
  intro p r s
  unfold readPointBody
  split
  · exact ⟨.refl s, fun _ => Nat.zero_le _⟩
  · next l _ => exact ⟨.image (s.readRecord_changes l), fun _ => readRecord_answer s l⟩

theorem length_slice (f : Loc → List Byte) (hf : ∀ l, (f l).length = 2) (b : Bay) : (b.locs.flatMap f).length ≤ 96 := by
  have := length_flatMap_le f 2 16 hf b.locs (by simp [Bay.locs])
  omega

theorem length_sliceValues (s : State) (b : Bay) (f : SliceField) : (sliceValues s b f).length ≤ 96 := by
  unfold sliceValues
  refine length_slice _ (fun l => ?_) _
  cases s.content l with
  | none => rfl
  | some c => exact length_sliceBytes _ _ _ _

theorem readSlice_sound : BodySound readSliceBody := by
  intro p r s
  unfold readSliceBody
  split
  · next b f _ _ =>
    split
    · have h1 := s.verifyAll_changes b.locs
      generalize b.locs.foldl State.verify s = s1 at h1 ⊢
      exact ⟨.image h1, fun _ => length_sliceValues s1 b f⟩
    · exact ⟨.refl s, fun _ => length_slice (fun l => sliceAbsent s.draws l.point f) (fun _ => rfl) b⟩
  · exact ⟨.refl s, fun _ => Nat.zero_le _⟩

theorem readBay_sound : BodySound readBayBody := by
  refine .reading (fun p r s _ => ?_)
  split
  · exact Nat.zero_le _
  · split
    · simp [Answer.doneWith, length_bayAnswer]
    · exact Nat.zero_le _

theorem readSummary_sound : BodySound readSummaryBody := .reading (fun _ _ s _ => by
  simp [Answer.doneWith, length_summaryAnswer])

theorem readDevice_sound : BodySound readDeviceBody := .reading (fun _ _ s _ => by
  simp [Answer.doneWith, length_deviceAnswer])

theorem readSettings_sound : BodySound readSettingsBody := .reading (fun _ _ s _ => by
  simp [Answer.doneWith, length_settingsAnswer])

theorem lookupSerial_sound : BodySound lookupSerialBody := by
  intro p r s
  unfold lookupSerialBody
  split
  · exact ⟨.refl s, fun _ => Nat.zero_le _⟩
  · next n _ =>
    refine ⟨.image (s.lookup_changes n), fun _ => ?_⟩
    dsimp only
    split <;> simp [Answer.bare, Answer.doneWith, length_locBytes]

theorem setCursor_changes (s : State) (p : Port) (l : Loc) : Changes s (s.setCursor p l) :=
  .portKeep s p _ rfl rfl rfl

theorem setCursor_sound : BodySound setCursorBody := by
  intro p r s
  unfold setCursorBody
  split
  · exact ⟨.refl s, fun _ => Nat.zero_le _⟩
  · split
    · exact ⟨setCursor_changes s p _, fun _ => Nat.zero_le _⟩
    · exact ⟨.refl s, fun _ => Nat.zero_le _⟩

theorem readNext_sound : BodySound readNextBody := by
  intro p r s
  unfold readNextBody
  split
  · exact ⟨.refl s, fun _ => Nat.zero_le _⟩
  · next l _ =>
    exact ⟨(Changes.image (s.readRecord_changes l)).trans (setCursor_changes _ p _), fun _ => readRecord_answer s l⟩

theorem readStrays_sound : BodySound readStraysBody := by
  refine .reading (fun p r s hs => ?_)
  have := length_flatMap_le strayBytes 7 8 length_strayBytes s.strays hs.1
  simp only [Answer.doneWith]
  omega

/-! ### Radio requests -/

theorem report_sound : BodySound reportBody := by
  intro p r s
  unfold reportBody
  split
  · exact ⟨.refl s, fun _ => Nat.zero_le _⟩
  · refine ⟨s.takeReport_changes _, fun _ => ?_⟩
    dsimp only
    split <;> simp [length_locBytes]

theorem takePolls_sound : BodySound takePollsBody := by
  intro p r s
  unfold takePollsBody
  dsimp only
  split
  · exact ⟨.refl s, fun _ => Nat.zero_le _⟩
  · next hn =>
    split
    · exact ⟨.refl s, fun _ => Nat.zero_le _⟩
    · refine ⟨.one (.takePolls s _ _), fun _ => ?_⟩
      have hlen : ((s.polls.get r.sender).take (r.op 1).toNat).length ≤ 8 := by
        rw [List.length_take]
        omega
      have := length_flatMap_le pollBytes 7 8 length_pollBytes _ hlen
      simp only [Answer.doneWith]
      omega

/-! ### Panel requests -/

theorem bayTests_answer {s : State} {p : Port} {n : Sender} {g : Group} {lockActs : Bool} {b : Bay} {a : Answer}
    (h : s.bayTests p n g lockActs b = some a) : a.payload.length ≤ 1 := by
  unfold State.bayTests at h
  split at h
  · simp only [Option.some.injEq] at h; subst h; exact Nat.zero_le _
  · split at h
    · simp only [Option.some.injEq] at h; subst h; exact Nat.zero_le _
    · split at h
      · simp only [Option.some.injEq] at h; subst h; exact Nat.zero_le _
      · split at h
        · simp only [Option.some.injEq] at h; subst h; exact Nat.le_refl _
        · simp at h

theorem bayTests_none {s : State} {p : Port} {n : Sender} {g : Group} {lockActs : Bool} {b : Bay}
    (h : s.bayTests p n g lockActs b = none) :
    s.may n g b.area = true ∧ (lockActs = true → s.locked = false) ∧ s.fitted b = true ∧ s.heldByOther p b = none := by
  unfold State.bayTests at h
  split at h
  · simp at h
  · split at h
    · simp at h
    · split at h
      · simp at h
      · split at h
        · simp at h
        · next h1 h2 h3 _ h4 =>
          refine ⟨by simpa using h1, ?_, by simpa using h3, h4⟩
          intro hl
          simpa [hl] using h2

theorem storeTests_answer {s : State} {n : Sender} {a : Answer} (h : s.storeTests n = some a) :
    a.payload.length = 0 := by
  unfold State.storeTests at h
  split at h
  · simp only [Option.some.injEq] at h; subst h; rfl
  · split at h
    · simp only [Option.some.injEq] at h; subst h; rfl
    · simp at h

theorem panelRequest_sound {g : Group} {own : Request → State → Loc → PointContent → State × Answer}
    (h : ∀ r s l c, s.content l = some c → Changes s (own r s l c).1 ∧ (own r s l c).2.payload.length ≤ 96) :
    BodySound (panelRequest g own) := by
  intro p r s
  unfold panelRequest
  split
  · exact ⟨.refl s, fun _ => Nat.zero_le _⟩
  · next l _ =>
    split
    · next a ha => exact ⟨.refl s, fun _ => le_trans (bayTests_answer ha) (by decide)⟩
    · split
      · exact ⟨.refl s, fun _ => Nat.zero_le _⟩
      · next c hc => exact ⟨(h r s l c hc).1, fun _ => (h r s l c hc).2⟩

theorem panelWrite_answer {s : State} {l : Loc} {change : State → PointContent → State × Answer}
    (h : ∀ s c, (change s c).2.payload.length ≤ 1) : (s.panelWrite l change).2.payload.length ≤ 96 := by
  unfold State.panelWrite
  dsimp only
  split
  · exact Nat.zero_le _
  · exact le_trans (h _ _) (by decide)

theorem acknowledge_sound : BodySound acknowledgeBody := by
  refine panelRequest_sound (fun r s l c hc => ?_)
  split
  · next hn =>
    split
    · exact ⟨.refl s, by simp⟩
    · refine ⟨?_, panelWrite_answer (fun _ _ => Nat.zero_le _)⟩
      unfold State.panelWrite
      refine (Changes.image (s.copyBefore_changes l)).trans ?_
      dsimp only
      split
      · exact .refl _
      · next d hd =>
        refine .image ((ImageChanges.rewrite hd (s.needsCopy_copyBefore l) (fun hs => PointContent.sound_ack hs ?_ _)).andAppend _)
        rcases s.content_copyBefore l hc hd with rfl | rfl
        · exact hn
        · exact PointContent.needsAck_rebuilt
  · exact ⟨.refl s, Nat.zero_le _⟩

theorem resetCondition_ne (c : PointContent) : resetCondition c ≠ .pending := by
  unfold resetCondition
  split <;> decide

theorem resetPoint_sound : BodySound resetPointBody := by
  refine panelRequest_sound (fun r s l c _ => ?_)
  split
  · exact ⟨.refl s, Nat.zero_le _⟩
  · split
    · exact ⟨.refl s, Nat.zero_le _⟩
    · split
      · exact ⟨.refl s, Nat.zero_le _⟩
      · refine ⟨.image (s.panelWrite_changes l (fun s c hc hn => ?_)), panelWrite_answer (fun _ _ => Nat.le_refl _)⟩
        exact (ImageChanges.rewrite hc hn (fun hs => PointContent.sound_entering hs (resetCondition_ne c))).andAppend _

theorem isolate_sound : BodySound isolateBody := by
  refine panelRequest_sound (fun r s l c _ => ?_)
  split
  · exact ⟨.refl s, Nat.zero_le _⟩
  · refine ⟨.image (s.panelWrite_changes l (fun s c hc hn => ?_)), panelWrite_answer (fun _ _ => Nat.zero_le _)⟩
    refine ImageChanges.andAppend ?_ _
    exact .rewrite hc hn (fun hs => PointContent.sound_of_same hs rfl rfl rfl rfl (PointContent.links_of_sound hs))

theorem restore_sound : BodySound restoreBody := by
  refine panelRequest_sound (fun r s l c _ => ?_)
  split
  · exact ⟨.refl s, Nat.zero_le _⟩
  · refine ⟨.image (s.panelWrite_changes l (fun s c hc hn => ?_)), panelWrite_answer (fun _ _ => Nat.zero_le _)⟩
    refine ImageChanges.andAppend ?_ _
    exact .rewrite hc hn (fun hs => PointContent.sound_of_same hs rfl rfl rfl rfl (PointContent.links_of_sound hs))

theorem serviceStart_bound {t : Timing} (h : t.inRange = true) :
    1 ≤ (serviceStart t).left ∧ (serviceStart t).left ≤ 153000 := by
  simp only [Timing.inRange, Bool.and_eq_true, decide_eq_true_eq] at h
  have h1 : 10 ≤ t.serviceLimit.toNat := h.1.1.2
  have h2 : t.serviceLimit.toNat < 256 := t.serviceLimit.isLt
  simp only [serviceStart, Countdown.start, Config.unitsPerMinute]
  omega

theorem changeMode_changes (s : State) (b : Bay) (m : ModeName) (n : Sender) : Changes s (s.changeMode b m n) := by
  have set : ∀ m' : BayMode, (s.timingSound → ∀ t, m' = .service t → 1 ≤ t.left ∧ t.left ≤ 153000) → ∀ c,
      Changes s ((s.setMode b m').append c) :=
    fun m' h c => (Changes.one (.mode s b m' h)).trans (.image (.one (.append _ c)))
  unfold State.changeMode
  dsimp only
  split
  · split
    · exact .refl s
    · exact set _ (fun _ t h => by simp at h) _
  · refine set _ (fun hs t h => ?_) _
    simp only [BayMode.service.injEq] at h
    subst h
    exact serviceStart_bound hs.1
  · split
    · exact .refl s
    · refine Changes.trans (set .works (fun _ t h => by simp at h) _) (.image (.foldl ?_ _ _))
      exact fun s l => s.pendingToQuiet_changes l _ _

theorem setMode_sound : BodySound setModeBody := by
  intro p r s
  unfold setModeBody
  split
  · split
    · next a ha => exact ⟨.refl s, fun _ => le_trans (bayTests_answer ha) (by decide)⟩
    · exact ⟨changeMode_changes s _ _ _, fun _ => Nat.zero_le _⟩
  · exact ⟨.refl s, fun _ => Nat.zero_le _⟩

/-! ### Holds -/

theorem holdBay_sound : BodySound holdBayBody := by
  intro p r s
  unfold holdBayBody
  split
  · exact ⟨.refl s, fun _ => Nat.zero_le _⟩
  · next b _ =>
    split
    · next a ha => exact ⟨.refl s, fun _ => le_trans (bayTests_answer ha) (by decide)⟩
    · next ht =>
      split
      · exact ⟨.refl s, fun _ => Nat.zero_le _⟩
      · next hp =>
        have hp : s.hold p = none := by simpa using hp
        refine ⟨.one (.hold s p _ ?_ hp ?_), fun _ => by simp [Answer.doneWith]⟩
        · have h4 := (bayTests_none ht).2.2.2
          unfold State.heldByOther at h4
          dsimp only
          cases hh : s.holder b with
          | none => rfl
          | some q =>
            rw [hh] at h4
            dsimp only at h4
            split at h4
            · next hq =>
              subst hq
              obtain ⟨k, hk, -⟩ := s.holder_eq_some hh
              rw [hp] at hk
              simp at hk
            · simp at h4
        · intro hs
          have h := hs.1
          simp only [Timing.inRange, Bool.and_eq_true, decide_eq_true_eq] at h
          have h1 := h.1.2
          have h2 := s.timing.holdLimit.isLt
          simp only [Countdown.start]
          omega

theorem releaseBay_sound : BodySound releaseBayBody := by
  intro p r s
  unfold releaseBayBody
  split
  · exact ⟨.refl s, fun _ => Nat.zero_le _⟩
  · next h hp => exact ⟨s.endHold_changes hp none, fun _ => by simp [Answer.doneWith]⟩

/-! ### Ring and events -/

theorem setSub_changes {s : State} {p : Port} {sub : Option SeqNum}
    (h : ∀ n, sub = some n → s.ringSound → s.cursorsSound → s.waiting n ≤ s.ring.length) : Changes s (s.setSub p sub) :=
  .one (.port s p _ h rfl rfl)

theorem subscribe_sound : BodySound subscribeBody := by
  intro p r s
  refine ⟨setSub_changes (fun n hn _ _ => ?_), fun _ => by simp [subscribeBody, Answer.doneWith, bytes2]⟩
  simp only [Option.some.injEq] at hn
  subst hn
  simp [State.waiting]

/-- Under the numbering of R139 a number lies in the window exactly where no more records wait from it than are held. -/
theorem waiting_of_inWindow {s : State} (h : s.ringSound) {n : SeqNum} (hn : s.inWindow n = true) :
    s.waiting n ≤ s.ring.length := by
  obtain ⟨hlen, hseq⟩ := h
  have hold : s.oldestSeq = s.nextSeq - BitVec.ofNat 16 s.ring.length := by
    unfold State.oldestSeq
    cases hr : s.ring with
    | nil => simp
    | cons a rest =>
      have := hseq 0 (by simp [hr])
      simpa [hr] using this
  simp only [State.inWindow, hold, decide_eq_true_eq] at hn
  simp only [State.waiting]
  have hcap : Config.ringCapacity = 256 := rfl
  have h1 := s.nextSeq.isLt
  have h2 := n.isLt
  rw [BitVec.toNat_sub, BitVec.toNat_sub, BitVec.toNat_ofNat] at hn
  rw [BitVec.toNat_sub]
  omega

theorem subscribeFrom_sound : BodySound subscribeFromBody := by
  intro p r s
  unfold subscribeFromBody
  dsimp only
  split
  · next hw =>
    refine ⟨setSub_changes (fun n hn hs _ => ?_), fun _ => by simp [Answer.doneWith, bytes2]⟩
    simp only [Option.some.injEq] at hn
    subst hn
    exact waiting_of_inWindow hs hw
  · exact ⟨.refl s, fun _ => Nat.zero_le _⟩

theorem unsubscribe_sound : BodySound unsubscribeBody := by
  intro p r s
  unfold unsubscribeBody
  split
  · exact ⟨setSub_changes (fun n hn => by simp at hn), fun _ => Nat.zero_le _⟩
  · exact ⟨.refl s, fun _ => Nat.zero_le _⟩

theorem readChanges_sound : BodySound readChangesBody := by
  intro p r s
  unfold readChangesBody
  dsimp only
  split
  · exact ⟨.refl s, fun _ => Nat.zero_le _⟩
  · next hn =>
    split
    · exact ⟨.refl s, fun _ => Nat.zero_le _⟩
    · next cursor hc =>
      have hlen : ((s.waitingRecords cursor).take (r.op 0).toNat).length ≤ 8 := by
        rw [List.length_take]
        omega
      refine ⟨setSub_changes (fun n hn hs hcs => ?_), fun _ => ?_⟩
      · have hw := hcs p cursor hc
        have hcap : s.ring.length ≤ 256 := hs.1
        have hle : ((s.waitingRecords cursor).take (r.op 0).toNat).length ≤ s.waiting cursor := by
          rw [List.length_take, State.waitingRecords, List.length_drop]
          omega
        simp only [Option.some.injEq] at hn
        subst hn
        generalize ((s.waitingRecords cursor).take (r.op 0).toNat).length = k at hle hlen ⊢
        simp only [State.waiting] at *
        have h1 := s.nextSeq.isLt
        have h2 := cursor.isLt
        rw [BitVec.toNat_sub] at hw hle
        rw [BitVec.toNat_sub, BitVec.toNat_add, BitVec.toNat_ofNat]
        omega
      · have := length_flatMap_le changeBytes 12 8 length_changeBytes _ hlen
        simp only [Answer.doneWith]
        omega

theorem readEvents_sound : BodySound readEventsBody := .reading (fun _ _ _ _ => by simp [Answer.doneWith, bytes2])

theorem clearEvents_sound : BodySound clearEventsBody := by
  intro p r s
  unfold clearEventsBody
  split
  · exact ⟨.refl s, fun _ => Nat.zero_le _⟩
  · exact ⟨.portKeep s p _ rfl rfl rfl, fun _ => Nat.zero_le _⟩

theorem setEventMask_sound : BodySound setEventMaskBody := by
  intro p r s
  unfold setEventMaskBody
  split
  · exact ⟨.refl s, fun _ => Nat.zero_le _⟩
  · exact ⟨.portKeep s p _ rfl rfl rfl, fun _ => Nat.zero_le _⟩

/-! ### Snapshot -/

theorem snapshotRange_sound : BodySound snapshotRangeBody := by
  intro p r s
  unfold snapshotRangeBody
  split
  · split
    · exact ⟨.refl s, fun _ => Nat.zero_le _⟩
    · split
      · exact ⟨.refl s, fun _ => Nat.zero_le _⟩
      · split
        · exact ⟨.refl s, fun _ => Nat.zero_le _⟩
        · next h1 h2 h3 =>
          refine ⟨.one (.snapRange s _ _ (by simpa using h3) (not_lt.mp h1) ?_), fun _ => by simp [Answer.doneWith]⟩
          simp only [Bool.or_eq_true, Bool.not_eq_true', not_or, Bool.not_eq_false] at h2
          exact h2.2
  · exact ⟨.refl s, fun _ => Nat.zero_le _⟩

theorem snapshotStart_effects (s : State) :
    Effects [.own, .slot, .start] s (s.grant .snapshotStart snapshotStartBody) := by
  unfold State.grant State.grantRaw
  split
  · exact .refl
  · next p r _ =>
    have h0 : Effects [.own, .slot, .start] s (s.granting p) := .one (k := .slot) (by simp) (.granting s p)
    have answer : ∀ (t : State) (a : Answer), a.payload.length ≤ 96 →
        Effects [.own, .slot, .start] t (t.respond p r a) :=
      fun t a ha => .one (k := .slot) (by simp) (.slot t p _ _ (fun hs _ => ⟨ha, (hs p).2⟩))
    refine h0.trans ?_
    unfold settled snapshotStartBody
    dsimp only
    split
    · exact (Effects.changes (by simp) (Changes.settleFire (s.granting p) (.refl _))).trans (answer _ _ (Nat.zero_le _))
    · next hi =>
      have h1 : Effects [.own, .slot, .start] (s.granting p) _ :=
        .one (k := .start) (by simp) (.start _ p (s.granting p).nextSeq (s.granting p).count (by simpa using hi))
      refine h1.trans ((Effects.changes (by simp) (Changes.settleFire (s.granting p) (.refl _))).trans ?_)
      exact answer _ _ (by simp [Answer.doneWith, bytes2, bytes4])

theorem snapshotAnswer_length (s : State) (start : Count) (l : Loc) :
    (snapshotAnswer s start l).payload.length ≤ 96 := by
  unfold snapshotAnswer
  split
  · exact Nat.zero_le _
  · split
    · exact Nat.zero_le _
    · simp [length_pointBytes]

theorem snapshotRead_sound : BodySound snapshotReadBody := by
  refine .reading (fun p r s _ => ?_)
  split
  · exact Nat.zero_le _
  · split
    · exact Nat.zero_le _
    · split <;> exact Nat.zero_le _
    · split
      · exact Nat.zero_le _
      · split
        · exact snapshotAnswer_length _ _ _
        · exact Nat.zero_le _

theorem snapshotRelease_sound : BodySound snapshotReleaseBody := by
  intro p r s
  unfold snapshotReleaseBody
  split
  · exact ⟨.refl s, fun _ => Nat.zero_le _⟩
  · split
    · exact ⟨.one (.snapEnd s), fun _ => Nat.zero_le _⟩
    · exact ⟨.refl s, fun _ => Nat.zero_le _⟩

/-! ### Commissioning -/

theorem serial?_valid {r : Request} {k : Nat} {n : Serial} (h : r.serial? k = some n) : serialValid n = true := by
  unfold Request.serial? at h
  split at h
  · next hv => simp only [Option.some.injEq] at h; subst h; exact hv
  · simp at h

theorem enrol_sound : BodySound enrolBody := by
  intro p r s
  unfold enrolBody
  split
  · next l n k _ hn _ =>
    split
    · next a ha => exact ⟨.refl s, fun _ => le_trans (bayTests_answer ha) (by decide)⟩
    · next ht =>
      split
      · exact ⟨.refl s, fun _ => Nat.zero_le _⟩
      · split
        · exact ⟨.refl s, fun _ => Nat.zero_le _⟩
        · exact ⟨s.enrol_changes l (serial?_valid hn) k _ ((bayTests_none ht).2.1 rfl) (bayTests_none ht).2.2.1, fun _ => Nat.zero_le _⟩
  · exact ⟨.refl s, fun _ => Nat.zero_le _⟩

theorem withdraw_sound : BodySound withdrawBody := by
  intro p r s
  unfold withdrawBody
  split
  · exact ⟨.refl s, fun _ => Nat.zero_le _⟩
  · split
    · next a ha => exact ⟨.refl s, fun _ => le_trans (bayTests_answer ha) (by decide)⟩
    · next ht =>
      split
      · exact ⟨.refl s, fun _ => Nat.zero_le _⟩
      · split
        · exact ⟨.refl s, fun _ => Nat.zero_le _⟩
        · exact ⟨s.withdraw_changes _ _ ((bayTests_none ht).2.1 rfl), fun _ => Nat.zero_le _⟩

theorem repair_answer (s : State) (l : Loc) (n : Serial) (k : PointKind) (doneBy : Sender) :
    (s.repair l n k doneBy).2.payload.length ≤ 96 := by
  unfold State.repair
  dsimp only
  split
  · exact Nat.zero_le _
  · simp [Answer.doneWith]

theorem repair_sound : BodySound repairBody := by
  intro p r s
  unfold repairBody
  split
  · next l n k _ hn _ =>
    split
    · next a ha => exact ⟨.refl s, fun _ => le_trans (bayTests_answer ha) (by decide)⟩
    · split
      · exact ⟨.refl s, fun _ => Nat.zero_le _⟩
      · split
        · exact ⟨.refl s, fun _ => Nat.zero_le _⟩
        · split
          · exact ⟨.refl s, fun _ => Nat.zero_le _⟩
          · exact ⟨.image (s.repair_changes l (serial?_valid hn) k _), fun _ => repair_answer _ _ _ _ _⟩
  · exact ⟨.refl s, fun _ => Nat.zero_le _⟩

theorem pairTests_answer {s : State} {p : Port} {n : Sender} {b : Bay} {q : Option Bay} {a : Answer}
    (h : s.pairTests p n b q = some a) : a.payload.length ≤ 1 := by
  unfold State.pairTests at h
  split at h
  · simp only [Option.some.injEq] at h; subst h; exact Nat.zero_le _
  · split at h
    · simp only [Option.some.injEq] at h; subst h; exact Nat.zero_le _
    · split at h
      · simp only [Option.some.injEq] at h; subst h; exact Nat.zero_le _
      · obtain ⟨q', -, rfl⟩ := Option.map_eq_some_iff.mp h
        exact Nat.le_refl _

theorem pairTests_none {s : State} {p : Port} {n : Sender} {b : Bay} {q : Option Bay}
    (h : s.pairTests p n b q = none) : s.locked = false := by
  unfold State.pairTests at h
  split at h
  · simp at h
  · split at h
    · simp at h
    · next hl => simpa using hl

theorem setBay_sound : BodySound setBayBody := by
  intro p r s
  unfold setBayBody
  split
  · split
    · exact ⟨.refl s, fun _ => Nat.zero_le _⟩
    · next hq =>
      split
      · next a ha => exact ⟨.refl s, fun _ => le_trans (pairTests_answer ha) (by decide)⟩
      · next ht => exact ⟨.one (.pair s _ _ (pairTests_none ht) hq), fun _ => Nat.zero_le _⟩
  · exact ⟨.refl s, fun _ => Nat.zero_le _⟩

theorem storeTests_none {s : State} {n : Sender} (h : s.storeTests n = none) : s.locked = false := by
  unfold State.storeTests at h
  split at h
  · simp at h
  · split at h
    · simp at h
    · next hl => simpa using hl

theorem storeRefused {s : State} {n : Sender} {a : Answer} (h : s.storeTests n = some a) : a.payload.length ≤ 96 := by
  rw [storeTests_answer h]
  exact Nat.zero_le _

theorem bindSenders_sound : BodySound bindSendersBody := by
  intro p r s
  unfold bindSendersBody
  split
  · exact ⟨.refl s, fun _ => Nat.zero_le _⟩
  · next q _ =>
    split
    · exact ⟨.refl s, fun _ => Nat.zero_le _⟩
    · split
      · next a ha => exact ⟨.refl s, fun _ => storeRefused ha⟩
      · next ht => exact ⟨.one (.rights _ _ _ (storeTests_none ht)), fun _ => Nat.zero_le _⟩

theorem setMask_sound : BodySound setMaskBody := by
  intro p r s
  unfold setMaskBody
  split
  · split
    · exact ⟨.refl s, fun _ => Nat.zero_le _⟩
    · split
      · next a ha => exact ⟨.refl s, fun _ => storeRefused ha⟩
      · next ht => exact ⟨.one (.rights _ _ _ (storeTests_none ht)), fun _ => Nat.zero_le _⟩
  · exact ⟨.refl s, fun _ => Nat.zero_le _⟩

theorem retime_changes (s : State) {t : Timing} (hl : s.locked = false) (h : t.inRange = true) (doneBy : Sender) :
    Changes s (s.retime t doneBy) := by
  unfold State.retime
  have h1 : Changes s { s with timing := t, prescaler := 0 } := .one (.timing s t hl h)
  dsimp only
  split
  · exact h1.trans (.image (State.rewarm_changes _ _))
  · exact h1

theorem setTiming_sound : BodySound setTimingBody := by
  intro p r s
  unfold setTimingBody
  split
  · exact ⟨.refl s, fun _ => Nat.zero_le _⟩
  · next h =>
    split
    · next a ha => exact ⟨.refl s, fun _ => storeRefused ha⟩
    · next ht => exact ⟨retime_changes s (storeTests_none ht) (by simpa using h) _, fun _ => Nat.zero_le _⟩

theorem lock_sound : BodySound lockBody := by
  intro p r s
  unfold lockBody
  split
  · next a ha => exact ⟨.refl s, fun _ => storeRefused ha⟩
  · refine ⟨Changes.trans (t := { s with locked := true }) ?_ (.image (.one (.append _ _))), fun _ => Nat.zero_le _⟩
    exact .one (.lock s)

theorem sweepStep_sound : BodySound sweepStepBody := by
  intro p r s
  unfold sweepStepBody
  split
  · next a ha => exact ⟨.refl s, fun _ => storeRefused ha⟩
  · split
    · exact ⟨.refl s, fun _ => Nat.zero_le _⟩
    · exact ⟨s.sweepStep_changes, fun _ => by simp [Answer.doneWith]⟩

theorem clearStrays_sound : BodySound clearStraysBody := by
  intro p r s
  unfold clearStraysBody
  split
  · next a ha => exact ⟨.refl s, fun _ => storeRefused ha⟩
  · exact ⟨.one (.clearStrays s), fun _ => Nat.zero_le _⟩

theorem portReset_sound : BodySound portResetBody := by
  intro p r s
  unfold portResetBody
  refine ⟨?_, fun _ => Nat.zero_le _⟩
  have h1 : Changes s (s.endOwned p) := by
    unfold State.endOwned
    have end_ : ∀ s1, Changes s s1 → Changes s (if s1.snap.owner = some p then s1.snapEnd else s1) := by
      intro s1 h2
      split
      · exact h2.trans (.one (.snapEnd s1))
      · exact h2
    cases hp : s.hold p with
    | none => exact end_ s (.refl s)
    | some h => exact end_ _ (s.endHold_changes hp none)
  refine (h1.settleFire s).trans (.one (.port _ p _ ?_ rfl rfl))
  intro n hn
  simp [PortState.afterReset] at hn

/-! ### Events of time -/

theorem takeUnit_eq {s t : State} {b : TimeBlock} (h : s.takeUnit b = some t) :
    ∃ owes k, t = { s with owes := owes, unitInGroup := k } := by
  unfold State.takeUnit at h
  split at h
  · simp at h
  · split at h
    · exact ⟨_, _, (Option.some.inj h).symm⟩
    · split at h
      · exact ⟨_, _, (Option.some.inj h).symm⟩
      · simp at h

theorem takeUnit_changes {s t : State} {b : TimeBlock} (h : s.takeUnit b = some t) : Changes s t := by
  obtain ⟨owes, k, rfl⟩ := takeUnit_eq h
  exact .one (.plain _ _ _ _ k owes _)

theorem unitEnd_changes (s : State) (b : TimeBlock) : Changes s (s.unitEnd b) := by
  unfold State.unitEnd
  split
  · exact .refl s
  · next s1 h1 =>
    have h := takeUnit_changes h1
    obtain ⟨owes, k, rfl⟩ := takeUnit_eq h1
    cases b with
    | engine => exact h.trans (.one (.plain _ _ _ (s.count + 1) _ _ _))
    | bayTable => exact h.trans (.one (.bayTick _))
    | holdUnit => exact h.trans (.one (.holdTick _))
    | snapshotUnit =>
      dsimp only
      split
      · exact .refl s
      · exact h.trans (.one (.snapTick _))
    | sweep =>
      dsimp only
      split
      · exact .refl s
      · next hc =>
        split
        · exact h
        · next hz =>
          refine h.trans (.one (.prescaler _ _ (fun h0 => absurd h0 hz) (fun _ => ?_)))
          have hz' : (s.timing.sweepPeriod != 0) = true := by simpa using hz
          simp only [State.completesPeriod, hz', Bool.true_and, decide_eq_true_eq] at hc
          dsimp only
          omega

theorem periodicStep_changes (s : State) : Changes s s.periodicStep := by
  unfold State.periodicStep
  split
  · next hc =>
    split
    · exact .refl s
    · next s1 h1 =>
      refine Changes.settleFire s ?_
      have h := takeUnit_changes h1
      obtain ⟨owes, k, rfl⟩ := takeUnit_eq h1
      refine (h.trans (.one (.prescaler _ 0 (fun _ => rfl) (fun hz => ?_)))).trans (State.sweepStep_changes _)
      dsimp only at hz ⊢
      exact Nat.pos_of_ne_zero (fun h0 => hz (BitVec.eq_of_toNat_eq (by simpa using h0)))
  · exact .refl s

/-- Copying the locations of a bay of the range leaves each of them marked copied (R159). -/
theorem copied_of_copyBefore {s : State} {l : Loc} {o : Port} {m : SeqNum} {c : Count} {b : Bay}
    (hs : s.snap = .copying o m c b) (h1 : s.snapFirst ≤ l.bay) (h2 : l.bay ≤ s.snapLast) :
    (s.copyBefore l).copied l := by
  unfold State.copyBefore
  split
  · next hn =>
    split
    · simp [State.copied, State.copyIn]
    · unfold State.handleFailure
      split
      · next hv _ hc =>
        have hp : s.points.find l.key = none := by simpa [State.content] using hc
        exact absurd (by simp [State.verified, hp]) hv
      · rw [if_pos hn]
        simp [State.copied, State.copyIn]
  · next hn =>
    simp only [State.needsCopy, hs, h1, h2, decide_true, Bool.true_and, Option.isNone_iff_eq_none] at hn
    exact Option.isSome_iff_ne_none.mpr hn

theorem copied_of_fold {o : Port} {m : SeqNum} {c : Count} {b : Bay} (ls : List Loc) (s : State)
    (hs : s.snap = .copying o m c b) (h : ∀ l ∈ ls, s.snapFirst ≤ l.bay ∧ l.bay ≤ s.snapLast) :
    ∀ l ∈ ls, (ls.foldl State.copyLoc s).copied l := by
  induction ls generalizing s with
  | nil => simp
  | cons a ls ih =>
    have h0 := (s.copyBefore_changes a).frame
    intro l hl
    rcases List.mem_cons.mp hl with rfl | hl
    · have := copied_of_copyBefore hs (h l (by simp)).1 (h l (by simp)).2
      exact (ImageChanges.foldl State.copyBefore_changes (s.copyBefore l) ls).frame.copied l this
    · refine ih (s.copyBefore a) (h0.snap.trans hs) ?_ l hl
      intro k hk
      rw [h0.snapFirst, h0.snapLast]
      exact h k (List.mem_cons_of_mem _ hk)

theorem copyBay_changes {s : State} {o : Port} {m : SeqNum} {c : Count} {b : Bay} (hs : s.snap = .copying o m c b) :
    Changes s (s.copyBay o m c b) := by
  unfold State.copyBay
  have h1 : ImageChanges s (b.locs.foldl State.copyLoc s) := .foldl State.copyBefore_changes s _
  have hf := h1.frame
  have hcop : (b.locs.foldl State.copyLoc s).snapSound →
      ∀ l : Loc, l.bay = b → (b.locs.foldl State.copyLoc s).copied l := by
    intro hsn l hl
    refine copied_of_fold _ s hs (fun k hk => ?_) l ((Bay.mem_locs b l).mpr hl)
    have hk := (Bay.mem_locs b k).mp hk
    obtain ⟨-, -, -, h4⟩ := hsn
    rw [hf.snap, hs] at h4
    rw [hk, ← hf.snapFirst, ← hf.snapLast]
    exact ⟨h4.1, h4.2.1⟩
  dsimp only
  split
  · next hb =>
    subst hb
    refine ((Changes.image h1).trans (.one (.snapReady _ o m c _ ?_ ?_ ?_))).trans (.raise _ _ _)
    · rw [hf.snap, hf.snapLast]; exact hs
    · rw [hf.snapLast]; exact hcop
    · intro ht
      have h := ht.1
      rw [hf.timing] at h
      simp only [Timing.inRange, Bool.and_eq_true, decide_eq_true_eq] at h
      have h1 := h.2
      have h2 := s.timing.snapshotKeep.isLt
      simp only [Countdown.start, Config.unitsPerSecond]
      omega
  · next hb =>
    refine (Changes.image h1).trans (.one (.snapNext _ o m c b (hf.snap.trans hs) hcop ?_))
    rw [hf.snapLast]
    exact hb

theorem copyStep_changes (s : State) : Changes s s.copyStep := by
  unfold State.copyStep
  split
  · next hs =>
    split
    · exact .refl s
    · next s1 h1 =>
      refine Changes.settleFire s ((takeUnit_changes h1).trans (copyBay_changes ?_))
      obtain ⟨owes, k, rfl⟩ := takeUnit_eq h1
      exact hs
  · exact .refl s
  · exact .refl s

theorem confirmationExpiry_changes (s : State) (l : Loc) : Changes s (s.confirmationExpiry l) := by
  unfold State.confirmationExpiry
  split
  · exact .refl s
  · split
    · exact Changes.settleFire s (.image (s.pendingToQuiet_changes l _ _))
    · exact .refl s

theorem serviceExpiry_changes (s : State) (b : Bay) : Changes s (s.serviceExpiry b) := by
  unfold State.serviceExpiry
  split
  · exact (Changes.one (.mode s b .normal (fun _ t h => by simp at h))).trans (.image (.one (.append _ _)))
  · exact .refl s

theorem holdExpiry_changes (s : State) (p : Port) : Changes s (s.holdExpiry p) := by
  unfold State.holdExpiry
  split
  · exact .refl s
  · next h hp =>
    split
    · exact Changes.settleFire s (s.endHold_changes hp _)
    · exact .refl s

theorem keepExpiry_changes (s : State) : Changes s s.keepExpiry := by
  unfold State.keepExpiry
  split
  · split
    · exact (Changes.one (.snapEnd s)).trans (.raise _ _ _)
    · exact .refl s
  · exact .refl s
  · exact .refl s

theorem upset_effects (s : State) (l : Loc) (c : PointContent) : Effects [.upset] s (s.upset l c) := by
  unfold State.upset
  split
  · next h => exact .one (k := .upset) (by simp) (.upset s l c (PointContent.sound_of_fits h.2))
  · exact .refl

/-! ### Transactions and resets -/

theorem setSlot_effects (s : State) (p : Port) (x : Slot) (h : x.sound) : Effects [.slot] s (s.setSlot p x) :=
  .one (k := .slot) (by simp) (.slot s p _ _ (fun hs _ => ⟨h, (hs p).2⟩))

/-- What an arriving request makes of a slot is sound (R182). -/
theorem arrival_sound (bound : SenderSet) (bytes : List Byte) : (arrival bound bytes).sound := by
  unfold arrival
  split
  · exact Nat.zero_le _
  · next c hc =>
    split
    · exact Nat.zero_le _
    · split
      · unfold frameCode at hc
        split at hc
        · simp at hc
        · dsimp only at hc
          split at hc
          · next h =>
            simp only [Option.some.injEq] at hc
            subst hc
            simp only [Slot.sound, List.length_take, List.length_drop]
            omega
          · simp at hc
      · exact Nat.zero_le _

theorem takeFrame_effects (s : State) (p : Port) (bytes : List Byte) : Effects [.slot] s (s.takeFrame p bytes) := by
  unfold State.takeFrame
  split
  · exact .refl
  · split
    · exact .refl
    · exact setSlot_effects s p _ (arrival_sound _ _)

theorem beginTransaction_effects (s : State) (p : Port) : Effects [.slot] s (s.beginTransaction p) := by
  unfold State.beginTransaction
  split
  · refine .one (k := .slot) (by simp) (.slot s p _ (some (s.port p).slot) (fun hs _ => ⟨(hs p).1, ?_⟩))
    intro c hc
    simp only [Option.some.injEq] at hc
    subst hc
    exact (hs p).1
  · exact .refl

theorem endTransaction_effects (s : State) (p : Port) (sdi : List Bool) :
    Effects [.slot] s (s.endTransaction p sdi) := by
  unfold State.endTransaction
  split
  · exact .refl
  · split
    · have h1 : Effects [.slot] s (s.setPort p { s.port p with copy := none }) :=
        .one (k := .slot) (by simp) (.slot s p _ none (fun hs _ => ⟨(hs p).1, by simp⟩))
      dsimp only
      split
      · exact h1.trans (takeFrame_effects _ _ _)
      · exact h1
      · split
        · exact h1
        · exact (h1.trans (setSlot_effects _ p .empty trivial)).trans (takeFrame_effects _ _ _)
    · exact .refl

theorem releaseRst_effects (s : State) : Effects [.own, .reset] s s.releaseRst := by
  unfold State.releaseRst
  split
  · exact .changes (by simp) (.one (.plain _ _ false _ _ _ _))
  · exact .changes (by simp) (.one (.plain _ .running false _ _ _ _))
  · exact .one (k := .reset) (by simp) (.resetLine s)

theorem assertRst_effects (s : State) : Effects [.own, .slot] s s.assertRst := by
  refine Effects.trans (t := s.mapPorts (fun _ q => { q with copy := none })) ?_ (.changes (by simp) ?_)
  · exact .one (k := .slot) (by simp) (.dropCopies s)
  · exact .one (.plain _ _ true _ _ _ _)

theorem Effects.mono {ks ks' : List ChangeClass} (hk : ∀ k ∈ ks, k ∈ ks') {s t : State} (h : Effects ks s t) :
    Effects ks' s t :=
  h.keeps (P := fun u => Effects ks' s u) (fun k hm _ _ c hu => hu.tail ⟨k, hk k hm, c⟩) .refl

/-- The classes of single changes that a command can make. -/
def classesOf : Instr → List ChangeClass
  | .snapshotStart => [.own, .slot, .start]
  | .storageUpset _ _ => [.upset]
  | .powerOn _ => [.reset]
  | .resetLine => [.own, .reset]
  | .powerRemoval => [.reset]
  | _ => [.own, .slot]

/-- Whatever the command, the next state comes about by single changes of its classes. -/
theorem exec_effects {c : Instr} {s t : State} (h : exec c s = .next t) : Effects (classesOf c) s t := by
  cases c <;>
    simp only [exec, execPowerOn, execResetLine, execTransactionBegin, execTransactionEnd, execReadPoint,
      execReadSlice, execReadBay, execReadSummary, execReadDevice, execReadSettings, execLookupSerial, execSetCursor,
      execReadNext, execReadStrays, execReport, execTakePolls, execAcknowledge, execResetPoint, execIsolate, execRestore,
      execSetMode, execHoldBay, execReleaseBay, execSubscribe, execSubscribeFrom, execUnsubscribe, execReadChanges,
      execReadEvents, execClearEvents, execSetEventMask, execSnapshotRange, execSnapshotStart, execSnapshotRead,
      execSnapshotRelease, execEnrol, execWithdraw, execRepair, execSetBay, execBindSenders, execSetMask, execSetTiming,
      execLock, execSweepStep, execClearStrays, execPortReset, execTimebaseUnitEnd, execPeriodicSweepStep,
      execConfirmationTimerExpiry, execServiceTimerExpiry, execHoldTimerExpiry, execCopyStep, execKeepTimerExpiry,
      execStorageUpset, execRstAssertion, execPowerRemoval, Host.Outcome.next.injEq] at h <;>
    subst h
  case powerOn strap => exact .one (k := .reset) (by simp [classesOf]) (.powerOn s strap)
  case resetLine => exact releaseRst_effects s
  case transactionBegin p => exact .mono (by simp [classesOf]) (beginTransaction_effects s p)
  case transactionEnd p sdi => exact .mono (by simp [classesOf]) (endTransaction_effects s p sdi)
  case readPoint => exact grant_effects readPoint_sound s _
  case readSlice => exact grant_effects readSlice_sound s _
  case readBay => exact grant_effects readBay_sound s _
  case readSummary => exact grant_effects readSummary_sound s _
  case readDevice => exact grant_effects readDevice_sound s _
  case readSettings => exact grant_effects readSettings_sound s _
  case lookupSerial => exact grant_effects lookupSerial_sound s _
  case setCursor => exact grant_effects setCursor_sound s _
  case readNext => exact grant_effects readNext_sound s _
  case readStrays => exact grant_effects readStrays_sound s _
  case report => exact grant_effects report_sound s _
  case takePolls => exact grant_effects takePolls_sound s _
  case acknowledge => exact grant_effects acknowledge_sound s _
  case resetPoint => exact grant_effects resetPoint_sound s _
  case isolate => exact grant_effects isolate_sound s _
  case restore => exact grant_effects restore_sound s _
  case setMode => exact grant_effects setMode_sound s _
  case holdBay => exact grant_effects holdBay_sound s _
  case releaseBay => exact grant_effects releaseBay_sound s _
  case subscribe => exact grant_effects subscribe_sound s _
  case subscribeFrom => exact grant_effects subscribeFrom_sound s _
  case unsubscribe => exact grant_effects unsubscribe_sound s _
  case readChanges => exact grant_effects readChanges_sound s _
  case readEvents => exact grant_effects readEvents_sound s _
  case clearEvents => exact grant_effects clearEvents_sound s _
  case setEventMask => exact grant_effects setEventMask_sound s _
  case snapshotRange => exact grant_effects snapshotRange_sound s _
  case snapshotStart => exact snapshotStart_effects s
  case snapshotRead => exact grant_effects snapshotRead_sound s _
  case snapshotRelease => exact grant_effects snapshotRelease_sound s _
  case enrol => exact grant_effects enrol_sound s _
  case withdraw => exact grant_effects withdraw_sound s _
  case repair => exact grant_effects repair_sound s _
  case setBay => exact grant_effects setBay_sound s _
  case bindSenders => exact grant_effects bindSenders_sound s _
  case setMask => exact grant_effects setMask_sound s _
  case setTiming => exact grant_effects setTiming_sound s _
  case lock => exact grant_effects lock_sound s _
  case sweepStep => exact grant_effects sweepStep_sound s _
  case clearStrays => exact grant_effects clearStrays_sound s _
  case portReset => exact grantRaw_effects portReset_sound s _
  case timebaseUnitEnd b => exact .changes (by simp [classesOf]) (unitEnd_changes s b)
  case periodicSweepStep => exact .changes (by simp [classesOf]) (periodicStep_changes s)
  case confirmationTimerExpiry l => exact .changes (by simp [classesOf]) (confirmationExpiry_changes s l)
  case serviceTimerExpiry b => exact .changes (by simp [classesOf]) (serviceExpiry_changes s b)
  case holdTimerExpiry p => exact .changes (by simp [classesOf]) (holdExpiry_changes s p)
  case copyStep => exact .changes (by simp [classesOf]) (copyStep_changes s)
  case keepTimerExpiry => exact .changes (by simp [classesOf]) (keepExpiry_changes s)
  case storageUpset l c => exact upset_effects s l c
  case rstAssertion => exact assertRst_effects s
  case powerRemoval => exact .one (k := .reset) (by simp [classesOf]) (.removePower s)

/-- A step takes a command out of the queue and makes single changes of its classes, or leaves the state as it is. -/
theorem step_effects {s t : State} (h : step s = .next t) :
    t = s ∨ ∃ c rest, s.pending = c :: rest ∧ Effects (classesOf c) { s with pending := rest } t := by
  unfold step at h
  split at h
  · left
    simp only [Host.Outcome.next.injEq] at h
    exact h.symm
  · next c rest hp => exact .inr ⟨c, rest, hp, exec_effects h⟩

end Sys2Proof.Machine
end

