-- ==== Sys2Proof/Laws/Invariants.lean ====
section
/-! SUPPORT. Every single change keeps each invariant of Sys2Proof/Safety.lean: one lemma for each block's invariant.
With `Effects.keeps` and `step_effects` they say what every step keeps. -/

namespace Sys2Proof.Machine

/-! ### The change ring and its cursors (R139, R140, R143, R148) -/

theorem departOldest_ring (s : State) : s.departOldest.ring =
    if s.ring.length < Config.ringCapacity then s.ring else s.ring.tail := by
  unfold State.departOldest
  split
  · next h => simp [h]
  · next old rest h =>
    split
    · rfl
    · rw [h]
      rfl

theorem departOldest_port (s : State) (p : Port) : s.departOldest.port p =
    match s.ring with
    | [] => s.port p
    | old :: rest =>
      if s.ring.length < Config.ringCapacity then s.port p
      else if (s.port p).sub = some old.seq then
        { s.port p with sub := some { s with ring := rest : State }.oldestSeq }.raise .lag
      else s.port p := by
  unfold State.departOldest
  split
  · next h => simp only [h]
  · next old rest h =>
    split
    · simp only [h]
    · simp only [State.port_mapPorts, h]
      rfl

theorem SeqNum.one_toNat : (1 : SeqNum).toNat = 1 := rfl

theorem append_ring (s : State) (b : ChangeBody) :
    (s.append b).ring = s.departOldest.ring ++ [{ seq := s.nextSeq, body := b }] := by
  simp only [State.append, State.mapPorts, State.departOldest_nextSeq]

theorem append_nextSeq (s : State) (b : ChangeBody) : (s.append b).nextSeq = s.nextSeq + 1 := by
  simp only [State.append, State.mapPorts, State.departOldest_nextSeq]

theorem append_port (s : State) (b : ChangeBody) (p : Port) : (s.append b).port p =
    if (s.departOldest.port p).sub.isSome then (s.departOldest.port p).raise .changes else s.departOldest.port p := by
  simp only [State.append, State.port_mapPorts]
  rfl

theorem append_sub (s : State) (b : ChangeBody) (p : Port) :
    ((s.append b).port p).sub = (s.departOldest.port p).sub := by
  rw [append_port]
  split <;> rfl

theorem ringSound_departOldest {s : State} (h : s.ringSound) :
    s.departOldest.ringSound ∧ s.departOldest.ring.length < Config.ringCapacity := by
  obtain ⟨hlen, hseq⟩ := h
  have hcap : Config.ringCapacity = 256 := rfl
  unfold State.ringSound
  rw [departOldest_ring, State.departOldest_nextSeq]
  split
  · next hlt => exact ⟨⟨hlen, hseq⟩, hlt⟩
  · next hge =>
    refine ⟨⟨by rw [List.length_tail]; omega, ?_⟩, by rw [List.length_tail]; omega⟩
    intro i hi
    rw [List.length_tail] at hi
    rw [List.getElem_tail, hseq (i + 1) (by omega), List.length_tail]
    congr 2
    omega

theorem ringSound_append {s : State} (h : s.ringSound) (b : ChangeBody) : (s.append b).ringSound := by
  obtain ⟨⟨hlen, hseq⟩, hlt⟩ := ringSound_departOldest h
  unfold State.ringSound
  rw [append_ring, append_nextSeq]
  rw [State.departOldest_nextSeq] at hseq
  generalize s.departOldest.ring = ring at *
  refine ⟨by rw [List.length_append]; exact hlt, ?_⟩
  intro i hi
  rw [List.length_append, List.length_singleton] at hi
  by_cases hin : i < ring.length
  · rw [List.getElem_append_left hin, hseq i hin, List.length_append, List.length_singleton]
    have : ring.length + 1 - i = (ring.length - i) + 1 := by omega
    rw [this, BitVec.ofNat_add]
    apply BitVec.eq_of_toNat_eq
    simp only [BitVec.toNat_sub, BitVec.toNat_add, BitVec.toNat_ofNat, SeqNum.one_toNat]
    omega
  · have hie : i = ring.length := by omega
    subst hie
    simp

/-- After the append a cursor still lies between the oldest and the next sequence number (R140, R148). -/
theorem cursorsSound_append {s : State} (h : s.ringSound) (hc : s.cursorsSound) (b : ChangeBody) :
    (s.append b).cursorsSound := by
  have hcap : Config.ringCapacity = 256 := rfl
  intro p n hn
  rw [append_sub, departOldest_port] at hn
  rw [append_ring, departOldest_ring, List.length_append, List.length_singleton]
  unfold State.waiting
  rw [append_nextSeq]
  have hnx := s.nextSeq.isLt
  have hnl := n.isLt
  obtain ⟨hlen, hseq⟩ := h
  cases hr : s.ring with
  | nil =>
    rw [hr] at hn hlen
    have hw := hc p n hn
    rw [hr] at hw
    simp only [State.waiting, List.length_nil, BitVec.toNat_sub] at hw
    rw [if_pos (by simp [hcap])]
    simp only [List.length_nil, BitVec.toNat_sub, BitVec.toNat_add, SeqNum.one_toNat]
    omega
  | cons old rest =>
    rw [hr] at hn
    dsimp only at hn
    rw [hr] at hlen
    have hold : old.seq = s.nextSeq - BitVec.ofNat 16 (rest.length + 1) := by
      have := hseq 0 (by simp [hr])
      simpa [hr] using this
    split at hn
    · next hlt =>
      have hw := hc p n hn
      rw [hr] at hw
      rw [if_pos hlt]
      simp only [State.waiting, BitVec.toNat_sub] at hw
      simp only [BitVec.toNat_sub, BitVec.toNat_add, SeqNum.one_toNat]
      omega
    · next hge =>
      rw [if_neg hge]
      simp only [List.tail_cons, List.length_cons] at hlen hge ⊢
      split at hn
      · simp only [PortState.raise, Option.some.injEq] at hn
        subst hn
        cases rest with
        | nil => simp [hcap] at hge
        | cons a rest =>
          have ha : a.seq = s.nextSeq - BitVec.ofNat 16 (rest.length + 1) := by
            have := hseq 1 (by simp [hr])
            simpa [hr] using this
          simp only [State.oldestSeq, ha, List.length_cons] at *
          simp only [BitVec.toNat_sub, BitVec.toNat_add, BitVec.toNat_ofNat, SeqNum.one_toNat]
          omega
      · next hne =>
        have hw := hc p n hn
        rw [hr] at hw
        have hno : n ≠ old.seq := by rintro rfl; exact hne hn
        have hno' : n.toNat ≠ old.seq.toNat := fun e => hno (BitVec.eq_of_toNat_eq e)
        rw [hold] at hno'
        simp only [State.waiting, List.length_cons, BitVec.toNat_sub] at hw
        simp only [BitVec.toNat_sub, BitVec.toNat_ofNat] at hno'
        simp only [BitVec.toNat_sub, BitVec.toNat_add, SeqNum.one_toNat]
        omega

/-- An update of the ports that leaves every subscription as it is. -/
theorem cursorsSound_of_sub {s t : State} (hp : ∀ p, (t.port p).sub = (s.port p).sub) (hr : t.ring = s.ring)
    (hn : t.nextSeq = s.nextSeq) (h : s.cursorsSound) : t.cursorsSound := by
  intro p n hs
  rw [hp] at hs
  have := h p n hs
  unfold State.waiting at *
  rw [hr, hn]
  exact this

theorem ringSound_of_eq {s t : State} (hr : t.ring = s.ring) (hn : t.nextSeq = s.nextSeq) (h : s.ringSound) :
    t.ringSound := by
  obtain ⟨h1, h2⟩ := h
  refine ⟨hr ▸ h1, ?_⟩
  intro i hi
  have hi' : i < s.ring.length := hr ▸ hi
  rw [hn]
  simp only [hr]
  exact h2 i hi'

theorem raiseWhere_sub (s : State) (w : Port → Bool) (e : Event) (p : Port) :
    ((s.raiseWhere w e).port p).sub = (s.port p).sub := by
  rw [State.port_raiseWhere]
  split <;> rfl

theorem pollAdd_port (s : State) (n : Sender) (i : PollItem) (p : Port) :
    (s.pollAdd n i).port p = s.port p ∨ (s.pollAdd n i).port p = (s.port p).raise .polls := by
  unfold State.pollAdd
  split
  · exact .inl rfl
  · split
    · rw [State.port_raiseWhere]
      split
      · exact .inr rfl
      · exact .inl rfl
    · exact .inl rfl

theorem pollAdd_sub (s : State) (n : Sender) (i : PollItem) (p : Port) :
    ((s.pollAdd n i).port p).sub = (s.port p).sub := by
  rcases pollAdd_port s n i p with h | h
  · rw [h]
  · rw [h]
    rfl

/-- The ring keeps its numbering and every cursor its place (R139, R143). -/
theorem ring_change {k : ChangeClass} {s t : State} (h : Change s k t) (hs : s.ringSound ∧ s.cursorsSound) :
    t.ringSound ∧ t.cursorsSound := by
  obtain ⟨h1, h2⟩ := hs
  have reset : ∀ t : State, t.ring = [] → (∀ p, (t.port p).sub = none) → t.ringSound ∧ t.cursorsSound := by
    intro t ht hp
    refine ⟨⟨by simp [ht], by intro i hi; simp [ht] at hi⟩, ?_⟩
    intro p n hn
    rw [hp] at hn
    simp at hn
  cases h with
  | image h =>
    cases h with
    | append b => exact ⟨ringSound_append h1 b, cursorsSound_append h1 h2 b⟩
    | stray => exact ⟨h1, cursorsSound_of_sub (raiseWhere_sub s _ _) rfl rfl h2⟩
    | pollAdd n i =>
      exact ⟨ringSound_of_eq (by simp) (by simp) h1, cursorsSound_of_sub (pollAdd_sub s n i) (by simp) (by simp) h2⟩
    | _ => exact ⟨h1, h2⟩
  | raise w e => exact ⟨h1, cursorsSound_of_sub (raiseWhere_sub s w e) rfl rfl h2⟩
  | slot p x y _ => exact ⟨h1, cursorsSound_of_sub (s := s) (fun q => by rw [State.port_setPort]; split <;> simp_all) rfl rfl h2⟩
  | port p x hsub hslot =>
    refine ⟨h1, ?_⟩
    intro q n hn
    rw [State.port_setPort] at hn
    split at hn
    · exact hsub n hn h1 h2
    · exact h2 q n hn
  | dropCopies =>
    exact ⟨h1, cursorsSound_of_sub (s := s) (fun p => by rw [State.port_mapPorts]) rfl rfl h2⟩
  | pair b q _ _ =>
    obtain ⟨v, hv⟩ := pair_eq s b q
    rw [hv]
    exact ⟨h1, h2⟩
  | bayTick => exact ⟨ringSound_of_eq (by simp) (by simp) h1, cursorsSound_of_sub (by simp) (by simp) (by simp) h2⟩
  | powerOn strap => exact reset _ rfl (fun p => by cases p <;> rfl)
  | resetLine => exact reset _ rfl (fun p => by cases p <;> rfl)
  | removePower => exact reset _ rfl (fun p => by cases p <;> rfl)
  | upset l c _ =>
    obtain ⟨pts, hp⟩ := upsetPoint_eq s l c
    rw [hp]
    exact ⟨h1, h2⟩
  | _ => exact ⟨h1, h2⟩

/-! ### The stray list (R54, R55, R57) -/

theorem straysSound_filter {s : State} (h : s.straysSound) (f : Stray → Bool) :
    { s with strays := s.strays.filter f : State }.straysSound :=
  ⟨le_trans (List.length_filter_le _ _) h.1, h.2.sublist (List.filter_sublist.map _)⟩

theorem straysSound_hear {s : State} (h : s.straysSound) (r : Report) : (s.strayHear r).straysSound := by
  have hcap : Config.strayCapacity = 8 := rfl
  unfold State.straysSound State.strayHear
  dsimp only
  constructor
  · rw [List.length_cons, List.length_take]
    omega
  · rw [List.map_cons, List.nodup_cons]
    constructor
    · intro hm
      obtain ⟨e, he, hse⟩ := List.mem_map.mp hm
      have := (List.mem_filter.mp (List.mem_of_mem_take he)).2
      simp [hse] at this
    · exact h.2.sublist (((List.take_sublist _ _).trans List.filter_sublist).map _)

theorem strays_change {k : ChangeClass} {s t : State} (h : Change s k t) (hs : s.straysSound) : t.straysSound := by
  have keep : ∀ t : State, t.strays = s.strays → t.straysSound := by
    intro t ht
    unfold State.straysSound
    rw [ht]
    exact hs
  have empty : ∀ t : State, t.strays = [] → t.straysSound := by
    intro t ht
    unfold State.straysSound
    rw [ht]
    exact ⟨Nat.zero_le _, List.nodup_nil⟩
  cases h with
  | image h =>
    cases h with
    | strayHear r => exact straysSound_hear hs r
    | strayDrop n => exact straysSound_filter hs _
    | _ => exact keep _ (by simp)
  | clearStrays => exact empty _ rfl
  | powerOn strap => exact empty _ rfl
  | resetLine => exact empty _ rfl
  | removePower => exact empty _ rfl
  | pair b q _ _ =>
    obtain ⟨v, hv⟩ := pair_eq s b q
    exact keep _ (by rw [hv])
  | _ => exact keep _ (by simp)

/-! ### The poll queues (R111, R113) -/

theorem pollsSound_of_sublist {s t : State} (h : ∀ n, ((t.polls.get n).Sublist (s.polls.get n))) (hs : s.pollsSound) :
    t.pollsSound :=
  fun n => ⟨le_trans (h n).length_le (hs n).1, (hs n).2.sublist ((h n).map _)⟩

theorem pollsSound_add {s : State} (hs : s.pollsSound) (m : Sender) (i : PollItem) : (s.pollAdd m i).pollsSound := by
  unfold State.pollAdd
  split
  · exact hs
  · next hhas =>
    split
    · next hlen =>
      intro n
      show ((s.polls.set m (s.polls.get m ++ [i])).get n).length ≤ _ ∧ _
      have hget : ({ s with polls := s.polls.set m (s.polls.get m ++ [i]) : State }.raiseWhere
          (fun p => (s.bound.get p).has m) .polls).polls = s.polls.set m (s.polls.get m ++ [i]) := rfl
      rw [hget, PerSender.get_set]
      split
      · refine ⟨by rw [List.length_append]; exact hlen, ?_⟩
        rw [List.map_append, List.nodup_append]
        refine ⟨(hs m).2, by simp, ?_⟩
        intro a ha b hb hab
        obtain ⟨j, hj, rfl⟩ := List.mem_map.mp ha
        simp only [List.map_cons, List.map_nil, List.mem_singleton] at hb
        exact hhas (List.any_eq_true.mpr ⟨j, hj, by simp [hab, hb]⟩)
      · exact hs n
    · exact hs

theorem polls_change {k : ChangeClass} {s t : State} (h : Change s k t) (hs : s.pollsSound) : t.pollsSound := by
  have keep : ∀ t : State, t.polls = s.polls → t.pollsSound := by
    intro t ht n
    rw [ht]
    exact hs n
  have empty : ∀ t : State, t.polls = ⟨[], [], [], [], [], [], []⟩ → t.pollsSound := by
    intro t ht n
    rw [ht]
    cases n <;> exact ⟨Nat.zero_le _, List.nodup_nil⟩
  cases h with
  | image h =>
    cases h with
    | pollAdd n i => exact pollsSound_add hs n i
    | pollsDrop l =>
      refine pollsSound_of_sublist (fun n => ?_) hs
      simp only [State.pollsDrop, PerSender.get_map]
      exact List.filter_sublist
    | _ => exact keep _ (by simp)
  | takePolls n k =>
    refine pollsSound_of_sublist (fun m => ?_) hs
    simp only [State.pollsTake, PerSender.get_set]
    split
    · next h => subst h; exact List.drop_sublist _ _
    · exact List.Sublist.refl _
  | powerOn strap => exact empty _ rfl
  | resetLine => exact empty _ rfl
  | removePower => exact empty _ rfl
  | pair b q _ _ =>
    obtain ⟨v, hv⟩ := pair_eq s b q
    exact keep _ (by rw [hv])
  | _ => exact keep _ (by simp)

/-! ### Holds and the deferral queue (R123, R129) -/

theorem hold_tick (s : State) (p : Port) :
    { s with holds := s.holds.map (fun _ h => h.map Hold.tick) : State }.hold p = (s.hold p).map Hold.tick := by
  simp only [State.hold, PerPort.get_map]

theorem hold_of_eq {s t : State} (h : t.holds = s.holds) (p : Port) : t.hold p = s.hold p := by
  rw [State.hold, State.hold, h]

theorem holds_change {k : ChangeClass} {s t : State} (h : Change s k t) (hs : s.holdsSound) : t.holdsSound := by
  have keep : ∀ t : State, t.holds = s.holds → t.holdsSound := by
    intro t ht p q a b ha hb
    rw [hold_of_eq ht] at ha hb
    exact hs p q a b ha hb
  have empty : ∀ t : State, t.holds = ⟨none, none, none, none⟩ → t.holdsSound := by
    intro t ht p q a b ha
    rw [State.hold, ht] at ha
    cases p <;> simp [PerPort.get] at ha
  cases h with
  | image h => exact keep _ h.frame.holds
  | hold p h hfree hp _ =>
    intro q1 q2 a b ha hb hab
    rw [State.hold_setHold] at ha hb
    split at ha
    · next e1 =>
      split at hb
      · next e2 => exact e1.symm.trans e2
      · simp only [Option.some.injEq] at ha
        subst ha
        exact absurd hab.symm (s.holder_eq_none hfree hb)
    · split at hb
      · simp only [Option.some.injEq] at hb
        subst hb
        exact absurd hab (s.holder_eq_none hfree ha)
      · exact hs q1 q2 a b ha hb hab
  | holdDrop p h =>
    intro q1 q2 a b ha hb hab
    rw [State.hold_setHold] at ha hb
    split at ha
    · simp at ha
    · split at hb
      · simp at hb
      · exact hs q1 q2 a b ha hb hab
  | holdTick =>
    intro q1 q2 a b ha hb hab
    rw [hold_tick, Option.map_eq_some_iff] at ha hb
    obtain ⟨a', ha', rfl⟩ := ha
    obtain ⟨b', hb', rfl⟩ := hb
    exact hs q1 q2 a' b' ha' hb' hab
  | powerOn strap => exact empty _ rfl
  | resetLine => exact empty _ rfl
  | removePower => exact empty _ rfl
  | pair b q _ _ =>
    obtain ⟨v, hv⟩ := pair_eq s b q
    exact keep _ (by rw [hv])
  | _ => exact keep _ (by simp)

theorem deferrals_change {k : ChangeClass} {s t : State} (h : Change s k t) (hs : s.deferralsSound) : t.deferralsSound := by
  have keep : ∀ t : State, t.deferrals = s.deferrals → t.holds = s.holds → t.deferralsSound := by
    intro t h1 h2
    unfold State.deferralsSound
    rw [h1]
    refine ⟨hs.1, fun d hd => ⟨(hs.2 d hd).1, ?_⟩⟩
    obtain ⟨p, k, hk, hb⟩ := (hs.2 d hd).2
    exact ⟨p, k, by rw [hold_of_eq h2]; exact hk, hb⟩
  have empty : ∀ t : State, t.deferrals = [] → t.deferralsSound := by
    intro t ht
    unfold State.deferralsSound
    rw [ht]
    exact ⟨Nat.zero_le _, fun d hd => by simp at hd⟩
  cases h with
  | image h => exact keep _ h.frame.deferrals h.frame.holds
  | defer r b hk hb hl =>
    refine ⟨by simp only [State.defer, List.length_append]; exact hl, ?_⟩
    intro d hd
    simp only [State.defer, List.mem_append, List.mem_singleton] at hd
    rcases hd with hd | rfl
    · exact hs.2 d hd
    · exact ⟨hk, (s.held_iff b).mp hb⟩
  | redefer r b b' hd hb =>
    obtain ⟨d0, hd0, hb0, hr0⟩ := hd
    have hlen : (s.deferrals.eraseP (fun d => decide (d.bay = b))).length = s.deferrals.length - 1 :=
      List.length_eraseP_of_mem hd0 (by simpa using hb0)
    have hpos := List.length_pos_of_mem hd0
    have h1 := hs.1
    refine ⟨?_, ?_⟩
    · simp only [State.defer, State.undefer, List.length_append, List.length_singleton, hlen]
      omega
    · intro d hd
      simp only [State.defer, State.undefer, List.mem_append, List.mem_singleton] at hd
      rcases hd with hd | rfl
      · exact hs.2 d (List.mem_of_mem_eraseP hd)
      · exact ⟨hr0 ▸ (hs.2 d0 hd0).1, (s.held_iff b').mp hb⟩
  | undefer b =>
    refine ⟨le_trans (List.length_eraseP_le) hs.1, fun d hd => ?_⟩
    exact hs.2 d (List.mem_of_mem_eraseP hd)
  | hold p h hfree hp _ =>
    refine ⟨hs.1, fun d hd => ⟨(hs.2 d hd).1, ?_⟩⟩
    obtain ⟨q, k, hk, hb⟩ := (hs.2 d hd).2
    refine ⟨q, k, ?_, hb⟩
    rw [State.hold_setHold, if_neg]
    · exact hk
    · rintro rfl
      rw [hp] at hk
      simp at hk
  | holdDrop p h =>
    refine ⟨hs.1, fun d hd => ⟨(hs.2 d hd).1, ?_⟩⟩
    obtain ⟨q, k, hk, hb⟩ := (hs.2 d hd).2
    refine ⟨q, k, ?_, hb⟩
    rw [State.hold_setHold, if_neg]
    · exact hk
    · rintro rfl
      exact h k hk d hd hb.symm
  | holdTick =>
    refine ⟨hs.1, fun d hd => ⟨(hs.2 d hd).1, ?_⟩⟩
    obtain ⟨q, k, hk, hb⟩ := (hs.2 d hd).2
    exact ⟨q, k.tick, by rw [hold_tick, hk]; rfl, hb⟩
  | powerOn strap => exact empty _ rfl
  | resetLine => exact empty _ rfl
  | removePower => exact empty _ rfl
  | pair b q _ _ =>
    obtain ⟨v, hv⟩ := pair_eq s b q
    exact keep _ (by rw [hv]) (by rw [hv])
  | _ => exact keep _ (by simp) (by simp)

/-! ### Pairing (R37, R84) -/

theorem partner_setPartner (s : State) (b x : Bay) (q : Option Bay) :
    ((s.setPartner b q).bay x).partner = if b = x then q else (s.bay x).partner := by
  rw [State.bay_setPartner]
  split <;> rfl

theorem partner_unpair (s : State) (b x : Bay) : ((s.unpair b).bay x).partner =
    if x = b ∨ (s.bay b).partner = some x then none else (s.bay x).partner := by
  unfold State.unpair
  cases h : (s.bay b).partner with
  | none =>
    by_cases hx : x = b
    · subst hx; simp [h]
    · simp [hx]
  | some y =>
    simp only [partner_setPartner, Option.some.injEq]
    by_cases hb : b = x
    · simp [hb]
    · by_cases hy : y = x
      · simp [hy]
      · simp [hb, hy, Ne.symm hb]

/-- What a SET-BAY leaves as the partner of each bay (R37). -/
theorem partner_pair (s : State) (b x y : Bay) (hne : (s.bay b).partner ≠ some x) :
    ((s.pair b (some x)).bay y).partner =
      if y = x then some b
      else if y = b then some x
      else if (s.bay b).partner = some y ∨ ((s.unpair b).bay x).partner = some y then none
      else (s.bay y).partner := by
  unfold State.pair
  dsimp only
  rw [if_neg hne]
  simp only [partner_setPartner, partner_unpair (s.unpair b) x y, partner_unpair s b y]
  by_cases h1 : y = x
  · subst h1; simp
  · by_cases h2 : y = b
    · subst h2
      rw [if_neg (Ne.symm h1)]
      simp [h1]
    · rw [if_neg (Ne.symm h1), if_neg (Ne.symm h2)]
      by_cases h3 : (s.bay b).partner = some y
      · by_cases h4 : ((s.unpair b).bay x).partner = some y <;> simp [h1, h2, h3, h4]
      · by_cases h4 : ((s.unpair b).bay x).partner = some y <;> simp [h1, h2, h3, h4]

theorem pairingSound_unpair {s : State} (hs : s.pairingSound) (b : Bay) : (s.unpair b).pairingSound := by
  intro y q hq
  rw [partner_unpair] at hq ⊢
  split at hq
  · simp at hq
  · next h =>
    obtain ⟨h1, h2⟩ := hs y q hq
    refine ⟨h1, ?_⟩
    rw [if_neg]
    · exact h2
    · rintro (rfl | hb)
      · exact h (.inr h2)
      · have := (hs b q hb).2
        rw [h2, Option.some.injEq] at this
        exact h (.inl this)

theorem pairingSound_pair {s : State} (hs : s.pairingSound) (b : Bay) (q : Option Bay) (hq : q ≠ some b) :
    (s.pair b q).pairingSound := by
  cases q with
  | none => exact pairingSound_unpair hs b
  | some x =>
    by_cases hne : (s.bay b).partner = some x
    · unfold State.pair
      dsimp only
      rw [if_pos hne]
      exact hs
    · have hxb : x ≠ b := fun h => hq (by rw [h])
      have hu := pairingSound_unpair hs b
      intro y z hz
      rw [partner_pair s b x y hne] at hz
      rw [partner_pair s b x z hne]
      split at hz
      · next h1 =>
        simp only [Option.some.injEq] at hz
        subst h1 hz
        exact ⟨hxb.symm, by rw [if_neg hxb.symm, if_pos rfl]⟩
      · next h1 =>
        split at hz
        · next h2 =>
          simp only [Option.some.injEq] at hz
          subst h2 hz
          exact ⟨h1 ∘ Eq.symm, by rw [if_pos rfl]⟩
        · next h2 =>
          split at hz
          · simp at hz
          · next h3 =>
            obtain ⟨k1, k2⟩ := hs y z hz
            refine ⟨k1, ?_⟩
            have hzb : z ≠ b := by rintro rfl; exact h3 (.inl k2)
            have hyz : ((s.unpair b).bay y).partner = some z := by
              rw [partner_unpair, if_neg (by rintro (h | h); exacts [h2 h, h3 (.inl h)])]
              exact hz
            have hzx : z ≠ x := by rintro rfl; exact h3 (.inr (hu y z hyz).2)
            rw [if_neg hzx, if_neg hzb, if_neg]
            · exact k2
            · rintro (h | h)
              · have := (hs b z h).2
                rw [k2, Option.some.injEq] at this
                exact h2 this
              · have := (hu x z h).2
                rw [(hu y z hyz).2, Option.some.injEq] at this
                exact h1 this

theorem pairing_change {k : ChangeClass} {s t : State} (h : Change s k t) (hs : s.pairingSound) : t.pairingSound := by
  have keep : ∀ t : State, (∀ b, (t.bay b).partner = (s.bay b).partner) → t.pairingSound := by
    intro t ht b q hq
    rw [ht] at hq ⊢
    exact hs b q hq
  have fresh : ∀ t : State, t.bays = State.reset.bays → t.pairingSound := by
    intro t ht b q hq
    have : (t.bay b).partner = none := by
      rw [State.bay, ht]
      simp only [State.reset, Vector.get_eq_getElem, Vector.getElem_ofFn]
      rfl
    rw [this] at hq
    simp at hq
  cases h with
  | image h => exact keep _ (fun b => by rw [h.frame.bay])
  | owed b v => exact keep _ (fun x => by rw [State.bay_setOwed]; split <;> simp_all)
  | mode b m _ => exact keep _ (fun x => by rw [State.bay_setMode]; split <;> simp_all)
  | bayTick =>
    refine keep _ (fun b => ?_)
    rw [State.bay_mapBays]
    unfold BayRecord.tick
    split <;> rfl
  | pair b q _ hq => exact pairingSound_pair hs b q hq
  | powerOn strap => exact fresh _ rfl
  | removePower => exact fresh _ rfl
  | resetLine =>
    refine keep _ (fun b => ?_)
    simp only [State.bay, State.resetLine, Vector.get_eq_getElem, Vector.getElem_ofFn]
  | upset l c _ =>
    obtain ⟨pts, hp⟩ := upsetPoint_eq s l c
    exact keep _ (fun b => by rw [hp]; rfl)
  | _ => exact keep _ (fun b => rfl)

/-! ### Settings and timers (R39, R105, Table 2.5) -/

theorem timing_change {k : ChangeClass} {s t : State} (h : Change s k t) (hs : s.timingSound) : t.timingSound := by
  have keep : ∀ t : State, t.timing = s.timing → t.prescaler = s.prescaler → t.timingSound := by
    intro t h1 h2
    unfold State.timingSound
    rw [h1, h2]
    exact hs
  have zero : ∀ t : State, t.timing.inRange = true → t.prescaler = 0 → t.timingSound := by
    intro t h1 h2
    refine ⟨h1, fun _ => h2, fun hz => ?_⟩
    rw [h2]
    exact Nat.pos_of_ne_zero (fun h0 => hz (BitVec.eq_of_toNat_eq (by simpa using h0)))
  cases h with
  | image h => exact keep _ h.frame.timing h.frame.prescaler
  | timing t _ ht => exact zero _ ht rfl
  | prescaler n h0 h => exact ⟨hs.1, h0, h⟩
  | powerOn strap => exact zero _ rfl rfl
  | removePower => exact zero _ rfl rfl
  | resetLine => exact zero _ hs.1 rfl
  | pair b q _ _ =>
    obtain ⟨v, hv⟩ := pair_eq s b q
    exact keep _ (by rw [hv]) (by rw [hv])
  | _ => exact keep _ (by simp) (by simp)

theorem Countdown.tick_le {t : Countdown} {n : Nat} (h : 1 ≤ t.left ∧ t.left ≤ n) : 1 ≤ t.tick.left ∧ t.tick.left ≤ n := by
  unfold Countdown.tick
  split
  · exact h
  · dsimp only
    omega

theorem timers_change {k : ChangeClass} {s t : State} (h : Change s k t) (hs : s.timingSound ∧ s.timersSound) : t.timersSound := by
  obtain ⟨ht, h1, h2, h3⟩ := hs
  have keep : ∀ t : State, t.holds = s.holds → (∀ b, (t.bay b).mode = (s.bay b).mode) → t.snap = s.snap →
      t.timersSound := by
    intro t k1 k2 k3
    refine ⟨fun p h hp => h1 p h (by rw [← hold_of_eq k1]; exact hp), fun b t hb => h2 b t (by rw [← k2]; exact hb), ?_⟩
    intro o m c t hsn
    rw [k3] at hsn
    exact h3 o m c t hsn
  have fresh : ∀ t : State, t.holds = ⟨none, none, none, none⟩ → (∀ b, (t.bay b).mode = .normal) → t.snap = .idle →
      t.timersSound := by
    intro t k1 k2 k3
    refine ⟨fun p h hp => ?_, fun b t hb => ?_, fun o m c t hsn => ?_⟩
    · rw [State.hold, k1] at hp
      cases p <;> simp [PerPort.get] at hp
    · rw [k2] at hb
      simp at hb
    · rw [k3] at hsn
      simp at hsn
  have freshBays : ∀ b, (State.reset.bay b).mode = .normal := by
    intro b
    simp only [State.bay, State.reset, Vector.get_eq_getElem, Vector.getElem_ofFn]
    rfl
  cases h with
  | image h => exact keep _ h.frame.holds (fun b => by rw [h.frame.bay]) h.frame.snap
  | hold p h hfree hp hb =>
    refine ⟨fun q k hk => ?_, h2, h3⟩
    rw [State.hold_setHold] at hk
    split at hk
    · simp only [Option.some.injEq] at hk
      subst hk
      exact hb ht
    · exact h1 q k hk
  | holdDrop p h =>
    refine ⟨fun q k hk => ?_, h2, h3⟩
    rw [State.hold_setHold] at hk
    split at hk
    · simp at hk
    · exact h1 q k hk
  | holdTick =>
    refine ⟨fun q k hk => ?_, h2, h3⟩
    rw [hold_tick, Option.map_eq_some_iff] at hk
    obtain ⟨k', hk', rfl⟩ := hk
    exact Countdown.tick_le (h1 q k' hk')
  | owed b v => exact keep _ rfl (fun x => by rw [State.bay_setOwed]; split <;> simp_all) rfl
  | mode b m hm =>
    refine ⟨h1, fun x t hx => ?_, h3⟩
    rw [State.bay_setMode] at hx
    split at hx
    · exact hm ht t hx
    · exact h2 x t hx
  | bayTick =>
    refine ⟨fun p k hk => h1 p k (by simpa using hk), fun b t hb => ?_, fun o m c t hsn => h3 o m c t (by simpa using hsn)⟩
    rw [State.bay_mapBays] at hb
    unfold BayRecord.tick at hb
    cases hm : (s.bay b).mode with
    | service k =>
      rw [hm] at hb
      simp only [BayMode.service.injEq] at hb
      subst hb
      exact Countdown.tick_le (h2 b k hm)
    | normal => simp [hm] at hb
    | works => simp [hm] at hb
  | pair b q _ _ =>
    obtain ⟨v, hv⟩ := pair_eq s b q
    refine keep _ (by rw [hv]) (fun x => ?_) (by rw [hv])
    have single : ∀ (s : State) (b : Bay) (q : Option Bay) (x : Bay),
        ((s.setPartner b q).bay x).mode = (s.bay x).mode := by
      intro s b q x
      rw [State.bay_setPartner]
      split
      · next h => subst h; rfl
      · rfl
    have un : ∀ (s : State) (b x : Bay), ((s.unpair b).bay x).mode = (s.bay x).mode := by
      intro s b x
      unfold State.unpair
      split
      · rfl
      · rw [single, single]
    unfold State.pair
    split
    · exact un s b x
    · split
      · rfl
      · rw [single, single, un, un]
  | snapEnd => exact ⟨h1, h2, fun o m c t hsn => by simp [State.snapEnd] at hsn⟩
  | snapNext o m c b _ _ _ => exact ⟨h1, h2, fun o m c t hsn => by simp at hsn⟩
  | snapReady o m c t _ _ hb =>
    refine ⟨h1, h2, fun o' m' c' t' hsn => ?_⟩
    simp only [SnapState.ready.injEq] at hsn
    obtain ⟨-, -, -, rfl⟩ := hsn
    exact hb ht
  | snapTick =>
    refine ⟨h1, h2, fun o m c t hsn => ?_⟩
    unfold SnapState.tick at hsn
    cases hc : s.snap with
    | ready o' m' c' t' =>
      rw [hc] at hsn
      simp only [SnapState.ready.injEq] at hsn
      obtain ⟨-, -, -, rfl⟩ := hsn
      exact Countdown.tick_le (h3 _ _ _ _ hc)
    | idle => simp [hc] at hsn
    | copying _ _ _ _ => simp [hc] at hsn
  | powerOn strap => exact fresh _ rfl freshBays rfl
  | removePower => exact fresh _ rfl freshBays rfl
  | resetLine =>
    refine fresh _ rfl (fun b => ?_) rfl
    simp only [State.bay, State.resetLine, Vector.get_eq_getElem, Vector.getElem_ofFn]
    rfl
  | upset l c _ =>
    obtain ⟨pts, hp⟩ := upsetPoint_eq s l c
    exact keep _ (by rw [hp]) (fun b => by rw [hp]; rfl) (by rw [hp])
  | start p mark c hi => exact ⟨h1, h2, fun o m c t hsn => by simp at hsn⟩
  | _ => exact keep _ rfl (fun b => rfl) rfl

/-! ### The point table and the enrolment map (R3, R18, Table 1.2) -/

theorem sound_of_content {s : State} (hs : s.pointsSound) {l : Loc} {c : PointContent} (h : s.content l = some c) :
    c.sound = true ∧ s.fitted l.bay = true := by
  obtain ⟨r, hr, rfl⟩ := s.mem_points_of_content h
  obtain ⟨h1, l', h2, h3⟩ := hs.2 _ hr
  have : l = l' := Loc.key_injective h2
  exact ⟨h1, this ▸ h3⟩

theorem pointsSound_insert {s : State} (hs : s.pointsSound) {l : Loc} {r : PointRecord} (hr : r.content.sound = true)
    (hf : s.fitted l.bay = true) : { s with points := s.points.insert l.key r : State }.pointsSound := by
  refine ⟨Table.sorted_insert _ _ _ hs.1, fun e he => ?_⟩
  rcases Table.mem_insert _ _ _ he with rfl | he
  · exact ⟨hr, l, rfl, hf⟩
  · exact hs.2 e he

theorem points_change {k : ChangeClass} {s t : State} (h : Change s k t) (hs : s.pointsSound) : t.pointsSound := by
  have keep : ∀ t : State, t.points = s.points → t.strap = s.strap → t.pointsSound := by
    intro t h1 h2
    unfold State.pointsSound State.fitted State.fittedCount
    rw [h1, h2]
    exact hs
  have empty : ∀ t : State, t.points = [] → t.pointsSound := by
    intro t ht
    unfold State.pointsSound
    rw [ht]
    exact ⟨rfl, fun e he => by simp at he⟩
  cases h with
  | image h =>
    cases h with
    | write l c d hd h _ =>
      obtain ⟨h1, h2⟩ := sound_of_content hs hd
      exact pointsSound_insert hs (h h1) h2
    | _ => exact keep _ (by simp) (by simp)
  | enrol l c _ hf hc _ => exact pointsSound_insert hs hc hf
  | erase l _ h _ => exact ⟨Table.sorted_erase _ _ hs.1, fun e he => hs.2 e (List.mem_of_mem_filter he)⟩
  | powerOn strap => exact empty _ rfl
  | removePower => exact empty _ rfl
  | resetLine =>
    constructor
    · show Table.sorted (s.points.map (fun e => (e.1, e.2.afterResetLine))) = true
      have h1 := hs.1
      rw [Table.sorted_iff] at h1 ⊢
      exact List.pairwise_map.mpr h1
    · intro e he
      have he : e ∈ s.points.map (fun e => (e.1, e.2.afterResetLine)) := he
      obtain ⟨d, hd, rfl⟩ := List.mem_map.mp he
      obtain ⟨h1, l, h2, h3⟩ := hs.2 d hd
      exact ⟨PointContent.sound_afterResetLine h1, l, h2, h3⟩
  | pair b q _ _ =>
    obtain ⟨v, hv⟩ := pair_eq s b q
    exact keep _ (by rw [hv]) (by rw [hv])
  | upset l c hc =>
    unfold State.upsetPoint
    split
    · exact hs
    · next r hr =>
      have : s.content l = some r.content := by simp [State.content, hr]
      exact pointsSound_insert hs hc (sound_of_content hs this).2
  | _ => exact keep _ (by simp) (by simp)

theorem Table.find_map {α β : Type} (t : Table α) (f : α → β) (k : Nat) :
    Table.find (α := β) (t.map (fun e => (e.1, f e.2))) k = (t.find k).map f := by
  induction t with
  | nil => rfl
  | cons e t ih =>
    simp only [List.map_cons, Table.find_cons, ih]
    split <;> rfl

theorem Table.nodup_insert {α : Type} (t : Table α) (k : Nat) (a : α) (h : (t.map (·.2)).Nodup)
    (ha : ∀ e ∈ t, e.2 ≠ a) : ((t.insert k a).map (·.2)).Nodup := by
  induction t with
  | nil => simp [Table.insert]
  | cons e t ih =>
    obtain ⟨j, b⟩ := e
    rw [List.map_cons, List.nodup_cons] at h
    have hb : b ≠ a := ha (j, b) (by simp)
    have hat : a ∉ t.map (·.2) := by
      intro hm
      obtain ⟨x, hx, hxa⟩ := List.mem_map.mp hm
      exact ha x (List.mem_cons_of_mem _ hx) hxa
    simp only [Table.insert]
    split
    · simp only [List.map_cons, List.nodup_cons, List.mem_cons]
      refine ⟨?_, h⟩
      rintro (h1 | h1)
      · exact hb h1.symm
      · exact hat h1
    · split
      · simp only [List.map_cons, List.nodup_cons]
        exact ⟨hat, h.2⟩
      · simp only [List.map_cons, List.nodup_cons]
        refine ⟨?_, ih h.2 (fun e he => ha e (List.mem_cons_of_mem _ he))⟩
        intro hm
        obtain ⟨x, hx, hxb⟩ := List.mem_map.mp hm
        rcases Table.mem_insert _ _ _ hx with rfl | hx
        · exact hb hxb.symm
        · exact h.1 (List.mem_map.mpr ⟨x, hx, hxb⟩)

theorem map_change {k : ChangeClass} {s t : State} (h : Change s k t) (hs : s.mapSound) : t.mapSound := by
  obtain ⟨h1, h2, h3⟩ := hs
  have keep : ∀ t : State, t.enrolMap = s.enrolMap →
      (∀ l, (s.content l).isSome = true → (∃ e ∈ s.enrolMap, e.2 = l) → (t.content l).isSome = true) →
      t.mapSound := by
    intro t k1 k2
    unfold State.mapSound
    rw [k1]
    exact ⟨h1, fun e he => k2 _ (h2 e he) ⟨e, he, rfl⟩, h3⟩
  have same : ∀ t : State, t.enrolMap = s.enrolMap → t.points = s.points → t.mapSound := by
    intro t k1 k2
    refine keep t k1 (fun l hl _ => ?_)
    rw [State.content, k2]
    exact hl
  have written : ∀ l c, (s.writePoint l c).mapSound := by
    intro l c
    refine keep _ rfl (fun k hk _ => ?_)
    rw [State.content_writePoint]
    split
    · rfl
    · exact hk
  have empty : ∀ t : State, t.enrolMap = [] → t.mapSound := by
    intro t ht
    unfold State.mapSound
    rw [ht]
    exact ⟨rfl, fun e he => by simp at he, List.nodup_nil⟩
  have dropped : ∀ l : Loc, Table.sorted (α := Loc) (s.enrolMap.filter (fun e => e.2 ≠ l)) = true ∧
      ((s.enrolMap.filter (fun e => e.2 ≠ l)).map (·.2)).Nodup :=
    fun l => ⟨Table.sorted_filter _ _ h1, h3.sublist (List.filter_sublist.map _)⟩
  cases h with
  | image h =>
    cases h with
    | write l c d hd h _ => exact written l c
    | mapDrop l =>
      exact ⟨(dropped l).1, fun e he => h2 e (List.mem_of_mem_filter he), (dropped l).2⟩
    | mapAdd n l hl =>
      refine ⟨Table.sorted_insert _ _ _ (dropped l).1, fun e he => ?_, Table.nodup_insert _ _ _ (dropped l).2 ?_⟩
      · rcases Table.mem_insert _ _ _ he with rfl | he
        · exact hl
        · exact h2 e (List.mem_of_mem_filter he)
      · intro e he
        simpa using (List.mem_filter.mp he).2
    | _ => exact same _ (by simp) (by simp)
  | enrol l c _ _ _ _ => exact written l c
  | erase l _ h _ =>
    refine keep _ rfl (fun k hk ⟨e, he, hek⟩ => ?_)
    rw [State.content_erasePoint, if_neg]
    · exact hk
    · rintro rfl
      exact h e he hek
  | powerOn strap => exact empty _ rfl
  | removePower => exact empty _ rfl
  | resetLine =>
    refine keep _ rfl (fun k hk _ => ?_)
    have : s.resetLine.points = s.points.map (fun e => (e.1, e.2.afterResetLine)) := rfl
    rw [State.content, this, Table.find_map]
    rw [State.content] at hk
    cases hp : s.points.find k.key with
    | none => rw [hp] at hk; simp at hk
    | some r => rfl
  | pair b q _ _ =>
    obtain ⟨v, hv⟩ := pair_eq s b q
    exact same _ (by rw [hv]) (by rw [hv])
  | upset l c hc =>
    refine keep _ (by simp) (fun k hk _ => ?_)
    rw [State.content_upsetPoint]
    split
    · rfl
    · exact hk
  | _ => exact same _ (by simp) (by simp)

/-! ### The snapshot store (R156, R159, R162) -/

/-- The last fitted bay is fitted (R2). -/
theorem fitted_lastFitted (t : State) (h : t.snapLast = lastFitted t.strap) : t.fitted t.snapLast = true := by
  rw [State.fitted, State.fittedCount, h]
  have : ∀ c : BitVec 2, decide ((lastFitted c).val < 8 * (c.toNat + 1)) = true := by decide
  exact this t.strap

theorem snap_change {k : ChangeClass} {s t : State} (h : Change s k t) (hs : s.snapSound) : t.snapSound := by
  have keep : ∀ t : State, t.snap = s.snap → t.snapFirst = s.snapFirst → t.snapLast = s.snapLast →
      t.snapRecords = s.snapRecords → t.strap = s.strap → t.snapSound := by
    intro t k1 k2 k3 k4 k5
    unfold State.snapSound State.fitted State.fittedCount State.copied
    rw [k1, k2, k3, k4, k5]
    exact hs
  obtain ⟨h1, h2, h3, h4⟩ := hs
  cases h with
  | image h =>
    cases h with
    | copyIn l bad hc =>
      refine ⟨Table.sorted_insert _ _ _ h1, h2, h3, ?_⟩
      have mono : ∀ k, s.copied k → (s.copyIn l bad).copied k := (ImageChange.copyIn s l bad hc).frame.copied
      show (match s.snap with
        | .idle => (s.copyIn l bad).snapRecords = []
        | .copying _ _ _ position => s.snapFirst ≤ position ∧ position ≤ s.snapLast ∧
            ∀ k : Loc, s.snapFirst ≤ k.bay → k.bay < position → (s.copyIn l bad).copied k
        | .ready _ _ _ _ => ∀ k : Loc, s.snapFirst ≤ k.bay → k.bay ≤ s.snapLast → (s.copyIn l bad).copied k)
      unfold State.needsCopy at hc
      cases hsn : s.snap with
      | idle => simp [hsn] at hc
      | ready _ _ _ _ => simp [hsn] at hc
      | copying o m c b =>
        rw [hsn] at h4
        exact ⟨h4.1, h4.2.1, fun k hk1 hk2 => mono k (h4.2.2 k hk1 hk2)⟩
    | _ => exact keep _ (by simp) (by simp) (by simp) (by simp) (by simp)
  | snapEnd => exact ⟨rfl, h2, h3, rfl⟩
  | snapRange first last hi hle hf =>
    refine ⟨h1, hle, hf, ?_⟩
    rw [hi] at h4
    show (match s.snap with
      | .idle => s.snapRecords = []
      | .copying _ _ _ position => _
      | .ready _ _ _ _ => _)
    rw [hi]
    exact h4
  | snapNext o m c b hsn hcop hb =>
    have hcop := hcop ⟨h1, h2, h3, h4⟩
    rw [hsn] at h4
    have hlt : b < s.snapLast := lt_of_le_of_ne h4.2.1 hb
    have hval : (b + 1 : Bay).val = b.val + 1 := by
      have hb1 : b.val < s.snapLast.val := hlt
      have := s.snapLast.isLt
      rw [Fin.val_add]
      have : ((1 : Bay).val) = 1 := rfl
      omega
    refine ⟨h1, h2, h3, ?_⟩
    refine ⟨?_, ?_, fun l hl1 hl2 => ?_⟩
    · have : s.snapFirst.val ≤ b.val := h4.1
      rw [Fin.le_def, hval]
      exact Nat.le_succ_of_le this
    · rw [Fin.le_def, hval]
      exact hlt
    · rw [Fin.lt_def, hval] at hl2
      by_cases hlb : l.bay = b
      · exact hcop l hlb
      · have hne : l.bay.val ≠ b.val := fun e => hlb (Fin.ext e)
        exact h4.2.2 l hl1 (by rw [Fin.lt_def]; omega)
  | snapReady o m c t hsn hcop _ =>
    have hcop := hcop ⟨h1, h2, h3, h4⟩
    rw [hsn] at h4
    refine ⟨h1, h2, h3, ?_⟩
    intro l hl1 hl2
    by_cases hlb : l.bay = s.snapLast
    · exact hcop l hlb
    · exact h4.2.2 l hl1 (lt_of_le_of_ne hl2 hlb)
  | snapTick =>
    refine ⟨h1, h2, h3, ?_⟩
    show (match s.snap.tick with
      | .idle => s.snapRecords = []
      | .copying _ _ _ position => s.snapFirst ≤ position ∧ position ≤ s.snapLast ∧
          ∀ k : Loc, s.snapFirst ≤ k.bay → k.bay < position → s.copied k
      | .ready _ _ _ _ => ∀ k : Loc, s.snapFirst ≤ k.bay → k.bay ≤ s.snapLast → s.copied k)
    cases hsn : s.snap <;> rw [hsn] at h4 <;> exact h4
  | powerOn strap =>
    refine ⟨rfl, Fin.zero_le _, ?_, rfl⟩
    exact fitted_lastFitted _ rfl
  | removePower => exact ⟨rfl, Fin.zero_le _, fitted_lastFitted _ rfl, rfl⟩
  | resetLine =>
    refine ⟨rfl, Fin.zero_le _, ?_, rfl⟩
    exact fitted_lastFitted _ rfl
  | pair b q _ _ =>
    obtain ⟨v, hv⟩ := pair_eq s b q
    exact keep _ (by rw [hv]) (by rw [hv]) (by rw [hv]) (by rw [hv]) (by rw [hv])
  | start p mark c hi =>
    refine ⟨rfl, h2, h3, ?_⟩
    refine ⟨le_refl _, h2, fun l hl1 hl2 => ?_⟩
    exact absurd hl2 (not_lt.mpr hl1)
  | _ => exact keep _ (by simp) (by simp) (by simp) (by simp) (by simp)

/-! ### The slots (R179, R182) -/

theorem slots_change {k : ChangeClass} {s t : State} (h : Change s k t) (hs : s.straysSound ∧ s.slotsSound) : t.slotsSound := by
  obtain ⟨h1, h2⟩ := hs
  have keep : ∀ t : State, (∀ p, (t.port p).slot = (s.port p).slot ∧ (t.port p).copy = (s.port p).copy) →
      t.slotsSound := by
    intro t ht p
    rw [(ht p).1, (ht p).2]
    exact h2 p
  have fresh : ∀ t : State, t.ports = State.reset.ports → t.slotsSound := by
    intro t ht p
    rw [State.port, ht]
    cases p <;> exact ⟨trivial, fun c hc => by simp [State.reset, PerPort.get, PortState.fresh] at hc⟩
  cases h with
  | image h => exact keep _ (fun p => ⟨h.frame.slot p, h.frame.copy p⟩)
  | raise w e => exact keep _ (fun p => by rw [State.port_raiseWhere]; split <;> exact ⟨rfl, rfl⟩)
  | port p x _ h3 h4 =>
    refine keep _ (fun q => ?_)
    rw [State.port_setPort]
    split
    · next hq => exact hq ▸ ⟨h3, h4⟩
    · exact ⟨rfl, rfl⟩
  | slot p x y h =>
    intro q
    rw [State.port_setPort]
    split
    · exact h h2 h1
    · exact h2 q
  | dropCopies =>
    intro p
    rw [State.port_mapPorts]
    exact ⟨(h2 p).1, fun c hc => by simp at hc⟩
  | powerOn strap => exact fresh _ rfl
  | removePower => exact fresh _ rfl
  | resetLine => exact fresh _ rfl
  | bayTick => exact keep _ (fun p => by simp)
  | pair b q _ _ =>
    obtain ⟨v, hv⟩ := pair_eq s b q
    exact keep _ (fun p => by rw [hv]; exact ⟨rfl, rfl⟩)
  | upset l c _ => exact keep _ (fun p => by simp)
  | _ => exact keep _ (fun p => ⟨rfl, rfl⟩)

/-- A step keeps what every single change keeps, where taking a command out of the queue does. -/
theorem step_keeps {P : State → Prop} (hP : ∀ k s t, Change s k t → P s → P t)
    (hq : ∀ (s : State) (rest : List Instr), P s → P { s with pending := rest }) {s t : State} (h : step s = .next t)
    (hs : P s) : P t := by
  rcases step_effects h with rfl | ⟨c, rest, _, h⟩
  · exact hs
  · exact h.keeps (fun k _ => hP k) (hq s rest hs)

/-! ### What the body of a request leaves to the grant (R185) -/

/-- The body of a request answers with a payload that fits a frame, and touches neither the arbiter nor a slot. -/
def BodyPlaces (body : Port → Request → State → State × Answer) : Prop :=
  ∀ p r s, s.straysSound → (body p r s).2.payload.length ≤ 96 ∧ (body p r s).1.lastGranted = s.lastGranted ∧
    ∀ q, ((body p r s).1.port q).slot = (s.port q).slot ∧ ((body p r s).1.port q).copy = (s.port q).copy

theorem BodySound.places {body : Port → Request → State → State × Answer} (h : BodySound body) : BodyPlaces body := by
  intro p r s hs
  obtain ⟨h1, h2⟩ := h p r s
  exact ⟨h2 (h1.keeps (fun _ _ k => strays_change k) hs), h1.slots⟩

theorem snapshotStart_places : BodyPlaces (settled snapshotStartBody) := by
  intro p r s _
  unfold settled snapshotStartBody
  dsimp only
  split
  · exact ⟨Nat.zero_le _, (Changes.settleFire s (.refl s)).slots⟩
  · refine ⟨by simp [Answer.doneWith, bytes2, bytes4], ?_⟩
    exact (Changes.settleFire s (.refl { s with snap := .copying p s.nextSeq s.count s.snapFirst, snapRecords := [] })).slots

/-- Every request command is the grant of its code with a body that leaves slots and arbiter to the grant. -/
theorem command_places (code : ReqCode) :
    ∃ body, (∀ s, exec code.command s = .next (s.grantRaw code body)) ∧ BodyPlaces body := by
  cases code
  case readPoint => exact ⟨_, fun _ => rfl, readPoint_sound.settled.places⟩
  case readSlice => exact ⟨_, fun _ => rfl, readSlice_sound.settled.places⟩
  case readBay => exact ⟨_, fun _ => rfl, readBay_sound.settled.places⟩
  case readSummary => exact ⟨_, fun _ => rfl, readSummary_sound.settled.places⟩
  case readDevice => exact ⟨_, fun _ => rfl, readDevice_sound.settled.places⟩
  case readSettings => exact ⟨_, fun _ => rfl, readSettings_sound.settled.places⟩
  case lookupSerial => exact ⟨_, fun _ => rfl, lookupSerial_sound.settled.places⟩
  case setCursor => exact ⟨_, fun _ => rfl, setCursor_sound.settled.places⟩
  case readNext => exact ⟨_, fun _ => rfl, readNext_sound.settled.places⟩
  case readStrays => exact ⟨_, fun _ => rfl, readStrays_sound.settled.places⟩
  case report => exact ⟨_, fun _ => rfl, report_sound.settled.places⟩
  case takePolls => exact ⟨_, fun _ => rfl, takePolls_sound.settled.places⟩
  case acknowledge => exact ⟨_, fun _ => rfl, acknowledge_sound.settled.places⟩
  case resetPoint => exact ⟨_, fun _ => rfl, resetPoint_sound.settled.places⟩
  case isolate => exact ⟨_, fun _ => rfl, isolate_sound.settled.places⟩
  case restore => exact ⟨_, fun _ => rfl, restore_sound.settled.places⟩
  case setMode => exact ⟨_, fun _ => rfl, setMode_sound.settled.places⟩
  case holdBay => exact ⟨_, fun _ => rfl, holdBay_sound.settled.places⟩
  case releaseBay => exact ⟨_, fun _ => rfl, releaseBay_sound.settled.places⟩
  case subscribe => exact ⟨_, fun _ => rfl, subscribe_sound.settled.places⟩
  case subscribeFrom => exact ⟨_, fun _ => rfl, subscribeFrom_sound.settled.places⟩
  case unsubscribe => exact ⟨_, fun _ => rfl, unsubscribe_sound.settled.places⟩
  case readChanges => exact ⟨_, fun _ => rfl, readChanges_sound.settled.places⟩
  case readEvents => exact ⟨_, fun _ => rfl, readEvents_sound.settled.places⟩
  case clearEvents => exact ⟨_, fun _ => rfl, clearEvents_sound.settled.places⟩
  case setEventMask => exact ⟨_, fun _ => rfl, setEventMask_sound.settled.places⟩
  case snapshotRange => exact ⟨_, fun _ => rfl, snapshotRange_sound.settled.places⟩
  case snapshotStart => exact ⟨_, fun _ => rfl, snapshotStart_places⟩
  case snapshotRead => exact ⟨_, fun _ => rfl, snapshotRead_sound.settled.places⟩
  case snapshotRelease => exact ⟨_, fun _ => rfl, snapshotRelease_sound.settled.places⟩
  case enrol => exact ⟨_, fun _ => rfl, enrol_sound.settled.places⟩
  case withdraw => exact ⟨_, fun _ => rfl, withdraw_sound.settled.places⟩
  case repair => exact ⟨_, fun _ => rfl, repair_sound.settled.places⟩
  case setBay => exact ⟨_, fun _ => rfl, setBay_sound.settled.places⟩
  case bindSenders => exact ⟨_, fun _ => rfl, bindSenders_sound.settled.places⟩
  case setMask => exact ⟨_, fun _ => rfl, setMask_sound.settled.places⟩
  case setTiming => exact ⟨_, fun _ => rfl, setTiming_sound.settled.places⟩
  case lock => exact ⟨_, fun _ => rfl, lock_sound.settled.places⟩
  case sweepStep => exact ⟨_, fun _ => rfl, sweepStep_sound.settled.places⟩
  case clearStrays => exact ⟨_, fun _ => rfl, clearStrays_sound.settled.places⟩
  case portReset => exact ⟨_, fun _ => rfl, portReset_sound.places⟩

end Sys2Proof.Machine
end

