-- ==== Sys2Proof/Laws/Views.lean ====
section
/-! SUPPORT. One location seen alone: an operation on another location leaves its record, its check, its map entry and
its snapshot record (`View`), so a pass over distinct locations does at each what the operation alone does there. And the
grant of a request, said once in terms of its body. -/

namespace Sys2Proof.Machine

theorem Loc.key_ne {l l' : Loc} (h : l ≠ l') : l.key ≠ l'.key := fun h' => h (Loc.key_injective h')

theorem Bay.nodup_locs (b : Bay) : b.locs.Nodup := by
  refine (List.nodup_finRange 16).map ?_
  intro x y h
  simpa using h

theorem Loc.mem_all (l : Loc) : l ∈ Loc.all := List.mem_flatMap.mpr ⟨l.bay, Bay.mem_all _, (Bay.mem_locs _ _).mpr rfl⟩

theorem Loc.nodup_all : Loc.all.Nodup := by
  unfold Loc.all
  rw [List.nodup_flatMap]
  refine ⟨fun b _ => Bay.nodup_locs b, (List.nodup_finRange 32).imp ?_⟩
  intro a b hab x hx hy
  rw [Bay.mem_locs] at hx hy
  exact hab (hx.symm.trans hy)

theorem State.mem_enrolledLocs (s : State) (l : Loc) : l ∈ s.enrolledLocs ↔ (s.content l).isSome = true := by
  simp [State.enrolledLocs, Loc.mem_all]

theorem State.nodup_enrolledLocs (s : State) : s.enrolledLocs.Nodup := Loc.nodup_all.filter _

/-- Nothing that the part knows of location `x` has changed. -/
structure View (s t : State) (x : Loc) : Prop where
  points : t.points.find x.key = s.points.find x.key
  mapped : t.mappedAt x = s.mappedAt x
  snap : t.snap = s.snap
  first : t.snapFirst = s.snapFirst
  last : t.snapLast = s.snapLast
  recorded : t.snapRecords.find x.key = s.snapRecords.find x.key

namespace View

theorem refl (s : State) (x : Loc) : View s s x := ⟨rfl, rfl, rfl, rfl, rfl, rfl⟩

theorem trans {s t u : State} {x : Loc} (h : View s t x) (k : View t u x) : View s u x :=
  ⟨k.points.trans h.points, k.mapped.trans h.mapped, k.snap.trans h.snap, k.first.trans h.first, k.last.trans h.last,
    k.recorded.trans h.recorded⟩

theorem content {s t : State} {x : Loc} (h : View s t x) : t.content x = s.content x := by
  rw [State.content, State.content, h.points]

theorem verified {s t : State} {x : Loc} (h : View s t x) : t.verified x = s.verified x := by
  rw [State.verified, State.verified, h.points, h.mapped]

theorem needsCopy {s t : State} {x : Loc} (h : View s t x) : t.needsCopy x = s.needsCopy x := by
  rw [State.needsCopy, State.needsCopy, h.snap, h.first, h.last, h.recorded]

theorem append (s : State) (b : ChangeBody) (x : Loc) : View s (s.append b) x := by
  constructor <;> simp [State.mappedAt]

theorem pollAdd (s : State) (n : Sender) (i : PollItem) (x : Loc) : View s (s.pollAdd n i) x := by
  constructor <;> simp [State.mappedAt]

theorem writePoint (s : State) (l : Loc) (c : PointContent) (x : Loc) (h : x ≠ l) : View s (s.writePoint l c) x := by
  constructor <;> try rfl
  exact Table.find_insert_ne _ _ _ _ (Loc.key_ne (Ne.symm h))

theorem copyIn (s : State) (l : Loc) (bad : Bool) (x : Loc) (h : x ≠ l) : View s (s.copyIn l bad) x := by
  constructor <;> try rfl
  exact Table.find_insert_ne _ _ _ _ (Loc.key_ne (Ne.symm h))

theorem mapDrop (s : State) (l x : Loc) (h : x ≠ l) : View s (s.mapDrop l) x := by
  constructor <;> try rfl
  unfold State.mappedAt State.mapDrop
  rw [List.find?_filter]
  congr 1
  refine List.find?_congr (fun e _ => ?_)
  by_cases he : e.2 = x
  · simp [he, h]
  · simp [he]

theorem handleFailure (s : State) (l x : Loc) (h : x ≠ l) : View s (s.handleFailure l) x := by
  unfold State.handleFailure
  split
  · exact refl s x
  · have h0 : View s (if s.needsCopy l = true then s.copyIn l true else s) x := by
      split
      · exact copyIn s l true x h
      · exact refl s x
    have h1 : ∀ t : State, View t (t.pollsDrop l) x := fun t => ⟨rfl, rfl, rfl, rfl, rfl, rfl⟩
    exact (((h0.trans (mapDrop _ l x h)).trans (h1 _)).trans (append _ _ x)).trans (writePoint _ l _ x h)

theorem copyBefore (s : State) (l x : Loc) (h : x ≠ l) : View s (s.copyBefore l) x := by
  unfold State.copyBefore
  split
  · split
    · exact copyIn s l _ x h
    · exact handleFailure s l x h
  · exact refl s x

theorem verify (s : State) (l x : Loc) (h : x ≠ l) : View s (s.verify l) x := by
  unfold State.verify
  split
  · exact refl s x
  · exact handleFailure s l x h

theorem enterCondition (s : State) (l : Loc) (c d : PointContent) (cause : Cause) (doneBy : Option Sender) (x : Loc)
    (h : x ≠ l) : View s (s.enterCondition l c d cause doneBy) x :=
  (writePoint s l d x h).trans (append _ _ x)

theorem promoteOne (s : State) (entering : Loc) (doneBy : Sender) (l x : Loc) (h : x ≠ l) :
    View s (s.promoteOne entering doneBy l) x := by
  unfold State.promoteOne
  split
  · exact refl s x
  · split
    · exact refl s x
    · split
      · have h1 := copyBefore s l x h
        dsimp only
        split
        · exact h1
        · split
          · exact h1.trans (enterCondition _ l _ _ _ _ x h)
          · exact h1
      · exact refl s x

theorem pendingToQuiet (s : State) (l : Loc) (cause : Cause) (doneBy : Option Sender) (x : Loc) (h : x ≠ l) :
    View s (s.pendingToQuiet l cause doneBy) x := by
  unfold State.pendingToQuiet
  split
  · exact refl s x
  · split
    · have h1 := copyBefore s l x h
      dsimp only
      split
      · exact h1
      · split
        · exact h1.trans (enterCondition _ l _ _ _ _ x h)
        · exact h1
    · exact refl s x

theorem pollRule (s : State) (l : Loc) (c : PointContent) (x : Loc) : View s (s.pollRule l c) x := by
  unfold State.pollRule
  split
  · next hc =>
    clear hc
    generalize s.pollTargets l c = ns
    induction ns generalizing s with
    | nil => exact refl s x
    | cons n ns ih => exact (pollAdd s n _ x).trans (ih _)
  · exact refl s x

theorem visitPoint (s : State) (l x : Loc) (h : x ≠ l) : View s (s.visitPoint l) x := by
  unfold State.visitPoint
  split
  · exact refl s x
  · have h1 := (copyBefore s l x h).trans (verify _ l x h)
    dsimp only
    split
    · exact h1
    · refine h1.trans ?_
      unfold State.agePoint
      dsimp only
      split
      · exact ((writePoint _ l _ x h).trans (append _ _ x)).trans (pollRule _ l _ x)
      · exact (writePoint _ l _ x h).trans (pollRule _ l _ x)

theorem rewarmPoint (s : State) (l x : Loc) (h : x ≠ l) : View s (s.rewarmPoint l) x := by
  unfold State.rewarmPoint
  split
  · exact refl s x
  · split
    · have h1 := copyBefore s l x h
      dsimp only
      split
      · exact h1
      · split
        · exact h1.trans (writePoint _ l _ x h)
        · exact h1
    · exact refl s x

theorem clearHeard (s : State) (l x : Loc) (h : x ≠ l) : View s (s.clearHeard l) x := by
  unfold State.clearHeard
  split
  · exact refl s x
  · split
    · have h1 := copyBefore s l x h
      dsimp only
      split
      · exact h1
      · exact h1.trans (writePoint _ l _ x h)
    · exact refl s x

variable {f : State → Loc → State} (hf : ∀ s l x, x ≠ l → View s (f s l) x)

include hf in
/-- A pass over locations that `x` is not among. -/
theorem foldl (ls : List Loc) (s : State) (x : Loc) (h : x ∉ ls) : View s (ls.foldl f s) x := by
  induction ls generalizing s with
  | nil => exact refl s x
  | cons a ls ih =>
    rw [List.mem_cons, not_or] at h
    exact (hf s a x h.1).trans (ih _ h.2)

include hf in
/-- A pass over distinct locations does at each of them what the operation alone does there. -/
theorem foldl_at (ls : List Loc) (hn : ls.Nodup) (s : State) (x : Loc) (h : x ∈ ls) :
    ∃ before : List Loc, View s (before.foldl f s) x ∧ View (f (before.foldl f s) x) (ls.foldl f s) x := by
  obtain ⟨a, b, rfl⟩ := List.append_of_mem h
  obtain ⟨-, hb, hab⟩ := List.nodup_append.mp hn
  rw [List.foldl_append, List.foldl_cons]
  refine ⟨a, foldl hf a s x (fun hx => hab x hx x (by simp) rfl), ?_⟩
  exact foldl hf b _ x (List.nodup_cons.mp hb).1

end View

/-- The content that copy-before-write leaves to be written: as found, or rebuilt where the copy was due and its
verification failed (R160, R161, R173). -/
theorem State.content_copyBefore_self (s : State) (l : Loc) {c : PointContent} (h : s.content l = some c) :
    (s.copyBefore l).content l =
      some (if s.needsCopy l = true ∧ s.verified l = false then c.rebuilt else c) := by
  unfold State.copyBefore
  by_cases h1 : s.needsCopy l = true
  · by_cases h2 : s.verified l = true
    · simp [h1, h2, h]
    · have h2' : s.verified l = false := by simpa using h2
      simp only [h1, if_true, h2', Bool.false_eq_true, if_false, and_self]
      unfold State.handleFailure
      simp [h]
  · simp [h1, h]

/-- What the handling of a failure leaves (R171). -/
theorem State.content_handleFailure (s : State) (l : Loc) {c : PointContent} (h : s.content l = some c) :
    (s.handleFailure l).content l = some c.rebuilt := by
  unfold State.handleFailure
  simp [h]

/-- A record just handled passes its verification (R170, R171). -/
theorem State.verified_handleFailure (s : State) (l : Loc) {c : PointContent} (h : s.content l = some c) :
    (s.handleFailure l).verified l = true := by
  have hr : c.rebuilt.suspect = true := by
    unfold PointContent.rebuilt
    dsimp only
    split <;> rfl
  unfold State.verified State.handleFailure
  simp only [h]
  rw [State.writePoint]
  simp only [Table.find_insert_self, hr, if_true, Bool.true_and]
  simp [State.mappedAt, State.mapDrop, State.pollsDrop, List.find?_eq_none]

/-! ### The grant of a request (R185) -/

/-- A grant that takes place runs the body on the state with the arbiter moved on, ends the event, and answers. -/
theorem State.grant_eq {s : State} {code : ReqCode} {p : Port} {r : Request}
    (body : Port → Request → State → State × Answer) (h : s.grantOf code = some (p, r)) :
    s.grant code body =
      (s.settleFire (body p r (s.granting p)).1).respond p r (body p r (s.granting p)).2 := by
  unfold State.grant State.grantRaw
  rw [h]
  rfl

/-- The same where the body leaves the alarm count, and so every FIRE flag, as it was. -/
theorem State.grant_eq_of_quiet {s : State} {code : ReqCode} {p : Port} {r : Request}
    {body : Port → Request → State → State × Answer} (h : s.grantOf code = some (p, r)) {t : State} {a : Answer}
    (hb : body p r (s.granting p) = (t, a)) (ht : t.alarmCount = s.alarmCount) :
    s.grant code body = t.respond p r a := by
  rw [State.grant_eq body h, hb]
  unfold State.settleFire
  rw [ht]
  split
  · next hc =>
    exact absurd hc.1 hc.2
  · rfl

/-- A grant that is not the arbiter's next leaves the state as it is (log 2). -/
theorem State.grant_of_none {s : State} {code : ReqCode} (body : Port → Request → State → State × Answer)
    (h : s.grantOf code = none) : s.grant code body = s := by
  unfold State.grant State.grantRaw
  rw [h]

end Sys2Proof.Machine
end

