-- ==== Sys2Proof/Tests/Slice0.lean ====
section
/-! SUPPORT. The author's own tests: the well-formedness smoke tests, one or two steps of each command on a small state,
and for each statement of Sys2Proof/Certificates/Slice0/Obligations.lean that has hypotheses a state that meets them. -/

namespace Sys2Proof.Tests

set_option Elab.async false

open Machine

/-! ### Well-formedness: each check refuses a term that fails it alone -/

/-- A quiet SMOKE point as it stands after its first reports. -/
def quiet : PointContent :=
  { serial := 1000, kind := .smoke, condition := .quiet, suspect := false, lastSeq := some 5, age := 1,
    heardStopped := false, battery := some .good, links := [⟨.s4, 30, 0⟩, ⟨.s3, 12, 2⟩], ack := none,
    isolation := none, confirmation := none, clearSeen := false }

/-- A PENDING point with the confirmation of a report at count 0. -/
def pending : PointContent := { quiet with condition := .pending, confirmation := some ⟨0, 200⟩ }

/-- A point in ALARM, not acknowledged. -/
def alarming : PointContent := { quiet with condition := .alarm }

def upsetOf (c : PointContent) : Instr := .storageUpset ⟨0, 0⟩ c

theorem test_wf_upset : [upsetOf quiet, upsetOf pending, upsetOf alarming].all Instr.wf = true := by decide

theorem test_wf_refuses_serials :
    [upsetOf { quiet with serial := 0 }, upsetOf { quiet with serial := 0xFFFFFF }].any Instr.wf = false := by decide

theorem test_wf_refuses_confirmation_out_of_pending :
    [upsetOf { quiet with confirmation := some ⟨0, 200⟩ }, upsetOf { pending with confirmation := none }].any Instr.wf =
      false := by decide

theorem test_wf_refuses_acknowledged_quiet : (upsetOf { quiet with ack := some .s1 }).wf = false := by decide

theorem test_wf_refuses_last_sequence_after_integrity :
    (upsetOf { quiet with condition := .fault .integrity }).wf = false := by decide

theorem test_wf_refuses_four_links :
    (upsetOf { quiet with links := [⟨.s4, 30, 0⟩, ⟨.s3, 12, 2⟩, ⟨.s2, 12, 0⟩, ⟨.s1, 1, 0⟩] }).wf = false := by decide

theorem test_wf_refuses_rising_margins :
    (upsetOf { quiet with links := [⟨.s4, 12, 0⟩, ⟨.s3, 30, 2⟩] }).wf = false := by decide

theorem test_wf_refuses_one_sender_twice :
    (upsetOf { quiet with links := [⟨.s4, 30, 0⟩, ⟨.s4, 12, 2⟩] }).wf = false := by decide

/-! ### Small states -/

/-- A point enrolled and verified at a location. -/
def place (s : State) (l : Loc) (c : PointContent) : State :=
  { s with
    points := s.points.insert l.key { content := c, codeHolds := true, written := c }
    enrolMap := Table.insert s.enrolMap c.serial.toNat l }

/-- A request of sender 1 waiting at a port. -/
def ask (s : State) (p : Port) (code : ReqCode) (operands : List Byte) : State :=
  { s with ports := s.ports.set p { s.port p with
      slot := .waiting { tag := 0x40, code := code, sender := .s1, operands := operands } } }

/-- The request that `ask` leaves waiting. -/
def asked (code : ReqCode) (operands : List Byte) : Request :=
  { tag := 0x40, code := code, sender := .s1, operands := operands }

/-- The state after a command; as it was where the command stops. -/
def after (c : Instr) (s : State) : State :=
  match exec c s with
  | .next t => t
  | .fault _ => s
  | .refused _ => s

/-- The answer in the slot of port 0. -/
def answer (s : State) : Option (Result × List Byte) :=
  match (s.port .p0).slot with
  | .done a => some (a.result, a.payload)
  | .empty => none
  | .waiting _ => none

/-- The answer to a request of sender 1 at port 0, and the state that it leaves. -/
def run (code : ReqCode) (operands : List Byte) (s : State) : Option (Result × List Byte) × State :=
  let t := after code.command (ask s .p0 code operands)
  (answer t, t)

/-- One point, at location (0, 0). -/
def one (c : PointContent) : State := place State.reset ⟨0, 0⟩ c

/-- The record of the one point, at fault for its check. -/
def failing (c : PointContent) : State :=
  let s := one c
  { s with points := s.points.map (fun e => (e.1, { e.2 with codeHolds := false })) }

/-- Port 1 holds bay 0. -/
def heldByP1 (s : State) : State :=
  { s with holds := s.holds.set .p1 (some { bay := 0, timer := { left := 1, runOut := true } }) }

/-- Port 0 takes a snapshot of bay 0 alone. -/
def copying (s : State) : State := { s with snap := .copying .p0 0 0 0, snapFirst := 0, snapLast := 0 }

/-- The snapshot of bay 0 is ready for port 0, its keep timer run out. -/
def ready (s : State) : State :=
  { s with
    snap := .ready .p0 0 0 { left := 1, runOut := true }, snapFirst := 0, snapLast := 0
    snapRecords := (Bay.locs 0).map (fun l => (l.key, { bad := l.point == 3, content := if l.point = 2 then none else some quiet })) }

/-- The kinds of the records in the ring. -/
def kinds (s : State) : List RecordKind := s.ring.map (·.body.kind)

/-- The condition at a location. -/
def cond (s : State) (l : Loc) : Option Condition := (s.content l).map (·.condition)

/-! ### Each command once or twice -/

theorem test_powerOn_fits_by_strap :
    [0, 1, 2, 3].map (fun c => (after (.powerOn c) State.reset).fittedCount) = [8, 16, 24, 32] := by decide +kernel

theorem test_resetLine_restarts :
    let t := after .resetLine (one alarming)
    t.startCause = .resetLine ∧ cond t ⟨0, 0⟩ = some .unheard ∧ t.fireLine = false := by decide +kernel

theorem test_rstAssertion_deasserts :
    (one alarming).fireLine = true ∧ (after .rstAssertion (one alarming)).fireLine = false := by decide +kernel

theorem test_powerRemoval_stops : (after .powerRemoval (one alarming)).inService = false := by decide +kernel

theorem test_transactionBegin_copies : ((after (.transactionBegin .p2) State.reset).port .p2).copy = some .empty := by
  decide +kernel

theorem test_transactionEnd_takes_request :
    ((after (.transactionEnd .p0 ((Claims.requestFrame .readPoint 0x40 .s1 [3, 4]).flatMap Claims.bitsOf))
      (after (.transactionBegin .p0) State.reset)).port .p0).slot = .waiting (asked .readPoint [3, 4]) := by
  decide +kernel

theorem test_crc8_check_value : crc8 [0x31, 0x32, 0x33, 0x34, 0x35, 0x36, 0x37, 0x38, 0x39] = 0xF4 := by decide +kernel

theorem test_readPoint_record :
    (run .readPoint [0, 0] (one quiet)).1 = some (.done,
      [0, 0, 0x03, 0x00, 0x03, 0xE8, 0x01, 0x02, 0x00, 5, 1, 0x01, 0, 0, 0, 0, 0, 0, 2,
       4, 30, 0, 3, 12, 2, 0, 0, 0]) := by decide +kernel

theorem test_readPoint_failing :
    let x := run .readPoint [0, 0] (failing quiet)
    x.1.map (·.1) = some .suspect ∧ kinds x.2 = [.integrity] ∧ cond x.2 ⟨0, 0⟩ = some (.fault .integrity) ∧
      x.2.enrolMap = [] := by decide +kernel

theorem test_readSlice_margins :
    ((run .readSlice [0, 0x01] (one quiet)).1.map (fun a => (a.1, a.2.length, a.2.take 2))) =
      some (.done, 32, [0x02, 0x00]) := by decide +kernel

/-- NONE at the first location and ABSENT at the second, each with 00h after it (R191). -/
theorem test_readSlice_none_absent :
    ((run .readSlice [0, 0x03] (one quiet)).1.map (fun a => a.2.take 4)) = some [0xFF, 0x00, 0xFE, 0x00] := by
  decide +kernel

theorem test_readBay_counts :
    (run .readBay [0] (one alarming)).1 = some (.done,
      [0, 0, 0x21, 0, 0, 0, 0xFF, 0xFF, 0, 0, 1, 0, 0, 0, 1, 1]) := by decide +kernel

theorem test_readSummary_counts :
    (run .readSummary [] (one alarming)).1 = some (.done, [0, 1, 0, 0, 0, 0, 0, 0, 0, 1, 0, 1, 1]) := by decide +kernel

theorem test_readDevice_powerOn :
    (run .readDevice [] State.reset).1 = some (.done,
      [0x01, 0, 32, 25, 0, 0x00, 0xFF, 0, 0, 0, 0, 0xFF, 0, 0xFF, 0, 0xFF, 0, 0xFF, 0]) := by decide +kernel

theorem test_readSettings_defaults :
    (run .readSettings [] State.reset).1.map (fun a => (a.1, a.2.take 13, a.2.length)) =
      some (.done, [25, 2, 4, 20, 90, 180, 20, 60, 0, 0x02, 0x04, 0x08, 0x10], 41) := by decide +kernel

theorem test_lookupSerial_finds :
    (run .lookupSerial [0x00, 0x03, 0xE8] (one quiet)).1 = some (.done, [0, 0]) ∧
      (run .lookupSerial [0x00, 0x03, 0xE9] (one quiet)).1 = some (.absent, []) := by decide +kernel

theorem test_setCursor_places : ((run .setCursor [7, 9] State.reset).2.port .p0).cursor = ⟨7, 9⟩ := by decide +kernel

theorem test_readNext_wraps :
    let x := run .readNext [] (run .setCursor [0, 1] (one quiet)).2
    x.1.map (fun a => (a.1, a.2.take 2)) = some (.done, [0, 0]) ∧ (x.2.port .p0).cursor = ⟨0, 1⟩ := by decide +kernel

theorem test_readStrays_empty : (run .readStrays [] State.reset).1 = some (.done, []) := by decide +kernel

theorem test_report_smoke_alarm_is_pending :
    let x := run .report [0x00, 0x03, 0xE8, 6, 0x03, 0x01, 20] (one quiet)
    x.1 = some (.accepted, [0, 0]) ∧ cond x.2 ⟨0, 0⟩ = some .pending ∧ kinds x.2 = [.condition] := by decide +kernel

theorem test_report_stray_alarm :
    let x := run .report [0x00, 0x00, 0x07, 6, 0x03, 0x01, 20] (one quiet)
    x.1 = some (.unknown, []) ∧ x.2.strays.map (·.count) = [1] ∧ kinds x.2 = [.strayAlarm] ∧
      Event.isIn .stray (x.2.port .p3).flags = true := by decide +kernel

theorem test_takePolls_takes :
    let s := (one quiet).pollRule ⟨0, 0⟩ { quiet with age := 2 }
    (run .takePolls [1, 8] s).1 = some (.done, []) ∧ (run .takePolls [4, 8] s).1 = some (.range, []) ∧
      (s.polls.get .s4).length = 1 := by decide +kernel

theorem test_acknowledge_alarm :
    let x := run .acknowledge [0, 0] (one alarming)
    x.1 = some (.done, []) ∧ x.2.unackCount = 0 ∧ (run .acknowledge [0, 0] x.2).1 = some (.already, [1]) := by
  decide +kernel

theorem test_resetPoint_in_order :
    (run .resetPoint [0, 0] (one alarming)).1 = some (.notAcked, []) ∧
      (run .resetPoint [0, 0] (one { alarming with ack := some .s1 })).1 = some (.notClear, []) ∧
      (run .resetPoint [0, 0] (one { alarming with ack := some .s1, clearSeen := true })).1 = some (.done, [0x02]) := by
  decide +kernel

theorem test_isolate_restore :
    let x := run .isolate [0, 0] (one alarming)
    x.1 = some (.done, []) ∧ x.2.fireLine = false ∧ (run .restore [0, 0] x.2).2.fireLine = true := by decide +kernel

theorem test_setMode_works_quietens :
    let x := run .setMode [0, 0x23] (one pending)
    x.1 = some (.done, []) ∧ kinds x.2 = [.mode, .condition] ∧ cond x.2 ⟨0, 0⟩ = some .quiet := by decide +kernel

theorem test_holdBay_releaseBay :
    let x := run .holdBay [5] State.reset
    x.1 = some (.done, [5, 20]) ∧ (run .holdBay [6] x.2).1 = some (.state, []) ∧
      (run .releaseBay [] x.2).1 = some (.done, [5]) := by decide +kernel

theorem test_subscribe_readChanges :
    let s := (run .subscribe [] State.reset).2
    let s := (run .setMode [1, 0x23] s).2
    (run .readChanges [8] s).1 = some (.done, [0, 0, 0x06, 1, 0xFF, 0x21, 0x23, 0x04, 1, 0, 0, 0]) := by decide +kernel

theorem test_subscribeFrom_unsubscribe :
    (run .subscribeFrom [0, 1] State.reset).1 = some (.range, []) ∧
      (run .unsubscribe [] (run .subscribeFrom [0, 0] State.reset).2).1 = some (.done, []) := by decide +kernel

theorem test_events_cleared_and_masked :
    (run .readEvents [] State.reset).1 = some (.done, [0x01, 0x00, 0x00]) ∧
      (run .readEvents [] (run .clearEvents [0x01, 0x00] State.reset).2).1 = some (.done, [0, 0, 0]) ∧
      (run .setEventMask [0x00, 0xFF] State.reset).2.attnLine .p0 = false := by decide +kernel

theorem test_snapshot_range_start_release :
    let s := (run .snapshotRange [0, 2] (one quiet)).2
    let x := run .snapshotStart [] s
    x.1 = some (.done, [0, 0, 0, 2, 0, 0, 0, 0]) ∧ (run .snapshotRange [0, 0] x.2).1 = some (.busy, []) ∧
      (run .snapshotRelease [] x.2).2.snap = .idle := by decide +kernel

theorem test_snapshotRead_record :
    (run .snapshotRead [0, 2] (ready State.reset)).1 = some (.absent, []) ∧
      ((run .snapshotRead [0, 3] (ready State.reset)).1.map (·.1)) = some .bad ∧
      ((run .snapshotRead [0, 4] (ready State.reset)).1.map (fun a => (a.1, a.2.length))) = some (.done, 28) := by
  decide +kernel

theorem test_enrol_withdraw :
    let x := run .enrol [2, 3, 0, 0, 9, 0x02] State.reset
    x.1 = some (.done, []) ∧ cond x.2 ⟨2, 3⟩ = some .unheard ∧ kinds x.2 = [.enrol] ∧
      (run .withdraw [2, 3] x.2).2.points = [] := by decide +kernel

theorem test_repair_suspect :
    let s := (run .readPoint [0, 0] (failing quiet)).2
    let x := run .repair [0, 0, 0x00, 0x03, 0xE8, 0x02] s
    x.1 = some (.done, [0x01]) ∧ x.2.enrolMap = [(1000, ⟨0, 0⟩)] ∧ x.2.faultLine = false := by decide +kernel

theorem test_setBay_pairs :
    let s := (run .setBay [3, 4] State.reset).2
    let t := (run .setBay [4, 5] s).2
    (s.bay 4).partner = some 3 ∧ (t.bay 3).partner = none ∧ (t.bay 5).partner = some 4 := by decide +kernel

theorem test_bindSenders_and_setMask :
    (run .bindSenders [1, 0x01] State.reset).1 = some (.range, []) ∧
      ((run .bindSenders [1, 0xFE] State.reset).2.bound.get .p1) = 0xFE ∧
      ((run .setMask [7, 3, 0x11] State.reset).2.masks.get .s7).get 3 = 0x11 := by decide +kernel

theorem test_setTiming_replaces_all :
    let x := run .setTiming [0, 14, 15, 5, 5, 10, 5, 10] { State.reset with prescaler := 9 }
    x.1 = some (.done, []) ∧ x.2.timing = ⟨0, 14, 15, 5, 5, 10, 5, 10⟩ ∧ x.2.prescaler = 0 ∧
      (run .setTiming [0, 4, 4, 5, 5, 10, 5, 10] State.reset).1 = some (.range, []) := by decide +kernel

theorem test_setTiming_rewarms :
    let s := (run .setTiming [0, 2, 4, 20, 90, 180, 20, 60] (place (one quiet) ⟨0, 1⟩
      { quiet with serial := 2000, heardStopped := true })).2
    let x := run .setTiming [25, 2, 4, 20, 90, 180, 20, 60] s
    x.1 = some (.done, []) ∧ cond x.2 ⟨0, 0⟩ = some .unheard ∧ kinds x.2 = [.rewarm] ∧
      (x.2.content ⟨0, 1⟩).map (fun c => (c.condition, c.heardStopped)) = some (.quiet, false) := by decide +kernel

theorem test_lock_then_refuses :
    let x := run .lock [] State.reset
    x.1 = some (.done, []) ∧ (run .clearStrays [] x.2).1 = some (.locked, []) := by decide +kernel

theorem test_sweepStep_stopped_only :
    (run .sweepStep [] State.reset).1 = some (.state, []) ∧
      (run .sweepStep [] { State.reset with timing := { Timing.default with sweepPeriod := 0 } }).2.counter = 1 := by
  decide +kernel

theorem test_clearStrays_clears :
    (run .clearStrays [] { State.reset with strays := [⟨7, .s1, 3, 1, .status⟩] }).2.strays = [] := by decide +kernel

theorem test_portReset_ends_own :
    let x := run .portReset [] (ready (run .holdBay [5] State.reset).2)
    x.1 = some (.done, []) ∧ x.2.snap = .idle ∧ x.2.hold .p0 = none ∧ (x.2.port .p0).flags = 0 := by decide +kernel

theorem test_timebaseUnitEnd_counts :
    let t := after (.timebaseUnitEnd .engine) State.reset
    t.count = 1 ∧ t.owes = [.bayTable, .holdUnit, .snapshotUnit, .sweep] ∧
      after (.timebaseUnitEnd .engine) t = t := by decide +kernel

theorem test_periodicSweepStep_visits :
    let t := after .periodicSweepStep { one quiet with prescaler := 24 }
    t.counter = 1 ∧ t.prescaler = 0 ∧ (t.content ⟨0, 0⟩).map (fun c => (c.age, c.links.length)) = some (2, 1) ∧
      (t.polls.get .s4).length = 1 := by decide +kernel

theorem test_confirmationTimerExpiry_quietens :
    let t := after (.confirmationTimerExpiry ⟨0, 0⟩) { one pending with count := 200 }
    cond t ⟨0, 0⟩ = some .quiet ∧ kinds t = [.condition] := by decide +kernel

theorem test_serviceTimerExpiry_normal :
    let s := (run .setMode [0, 0x22] State.reset).2
    after (.serviceTimerExpiry 0) s = s ∧
      ((after (.serviceTimerExpiry 0) (s.setMode 0 (.service { left := 1, runOut := true }))).bay 0).mode = .normal := by
  decide +kernel

theorem test_holdTimerExpiry_ends :
    let t := after (.holdTimerExpiry .p1) (heldByP1 State.reset)
    t.hold .p1 = none ∧ (t.port .p1).holdEnd = .expired ∧ Event.isIn .holdEnded (t.port .p1).flags = true := by
  decide +kernel

theorem test_copyStep_readies :
    let t := after .copyStep (copying (one quiet))
    t.snap = .ready .p0 0 0 { left := 600, runOut := false } ∧ t.snapRecords.length = 16 ∧
      t.snapRecords.find 0 = some { bad := false, content := some quiet } := by decide +kernel

theorem test_keepTimerExpiry_ends :
    let t := after .keepTimerExpiry (ready State.reset)
    t.snap = .idle ∧ Event.isIn .snapshotEnded (t.port .p0).flags = true := by decide +kernel

theorem test_storageUpset_breaks_check :
    let t := after (.storageUpset ⟨0, 0⟩ alarming) (one quiet)
    cond t ⟨0, 0⟩ = some .alarm ∧ t.verified ⟨0, 0⟩ = false ∧ t.fireLine = false := by decide +kernel

/-- A HEAT alarm promotes a PENDING point of its bay, and a suspect one never (R86, R87). -/
theorem test_report_promotes_unless_suspect :
    let promoted (mark : Bool) : State := (run .report [0x00, 0x03, 0xE8, 6, 3, 1, 20]
      (place (one { quiet with kind := .heat }) ⟨0, 15⟩ { pending with serial := 2000, suspect := mark })).2
    cond (promoted false) ⟨0, 15⟩ = some .alarm ∧ kinds (promoted false) = [.condition, .condition] ∧
      cond (promoted true) ⟨0, 15⟩ = some .pending ∧ kinds (promoted true) = [.condition] := by decide +kernel

/-- An upset of the check code alone. -/
theorem test_storageUpset_of_check_code :
    let t := after (.storageUpset ⟨0, 0⟩ quiet) (one quiet)
    t.content ⟨0, 0⟩ = some quiet ∧ t.verified ⟨0, 0⟩ = false := by decide +kernel

theorem test_step_takes_front :
    (match step { State.reset with pending := [.rstAssertion, .powerRemoval] } with
      | .next t => t.rst && decide (t.pending = [.powerRemoval])
      | .fault _ => false
      | .refused _ => false) = true := by decide +kernel

/-! ### States that meet the hypotheses of the statements

Each theorem below shows, for the statement that its name ends in, that its hypotheses can be met together; where a
statement has several clauses, each of them, at the ends of the ranges that they name. -/

open Sys2Proof.Claims

/-- Every request can be granted: all that PlainReadsAnswerTheirState, ReadPointOutcomes, ReadSliceOutcomes,
TakePollsOutcomes and PortResetOutcomes ask. -/
theorem witness_every_request_granted :
    ∀ code ∈ ReqCode.all, (ask State.reset .p0 code []).grantOf code = some (.p0, asked code []) := by decide +kernel

theorem witness_StepRunsFrontCommand :
    { State.reset with pending := [.copyStep, .lock] }.pending = .copyStep :: [.lock] ∧ State.reset.pending = [] := by
  decide +kernel

theorem witness_EventsNotDueChangeNothing :
    State.reset.grantOf .lock = none ∧
      (TimeBlock.sweep ∉ { State.reset with owes := [TimeBlock.engine] }.owes ∧
        { State.reset with owes := [TimeBlock.engine] }.unitDone = false) ∧
      State.reset.completesPeriod = false ∧ State.reset.snap.isCopying = false ∧
      (State.reset.bay 31).serviceOut = false ∧ State.reset.holdOut .p3 = false ∧ State.reset.snap.keepOut = false ∧
      { State.reset with rst := true }.inService = false ∧ takenInReset .lock = false := by decide +kernel

theorem witness_EventsNotDueChangeNothing_confirmation :
    ∀ c, (one pending).content ⟨0, 0⟩ = some c → (one pending).confirmationDue c = false := by
  intro c h
  have : (one pending).content ⟨0, 0⟩ = some pending := by decide +kernel
  rw [this] at h
  obtain rfl := Option.some.inj h
  decide +kernel

theorem witness_ResetLineGivesResetLineValues :
    State.reset.phase = .running ∧ { State.reset with phase := .powerOnUnderRst, rst := true }.phase = .powerOnUnderRst ∧
      { State.reset with phase := .unpowered }.phase = .unpowered ∧
      (one quiet).points.find (Loc.key ⟨0, 0⟩) = some { content := quiet, codeHolds := true, written := quiet } := by
  decide +kernel

theorem witness_RstAndPowerRemovalPutInReset :
    (∃ t, exec .rstAssertion State.reset = .next t) ∧ ∃ t, exec .powerRemoval State.reset = .next t :=
  ⟨⟨_, rfl⟩, ⟨_, rfl⟩⟩

theorem witness_TransactionsActByTheCopy :
    State.reset.inService = true ∧ (State.reset.port .p0).copy = none ∧
      ((after (.transactionBegin .p0) State.reset).port .p0).copy = some .empty ∧
      (after (.transactionBegin .p0) State.reset).inService = true := by decide +kernel

theorem witness_RequestFrameArrivesWhole :
    let s := after (.transactionBegin .p0) State.reset
    s.inService = true ∧ (s.port .p0).copy = some .empty ∧ [(0x1F : Byte), 0x0F].length = ReqCode.readPoint.operandLength ∧
      SenderSet.has (s.bound.get .p0) .s1 = true ∧ [true, false, true, true, false, false, true].length < 8 := by
  decide +kernel

theorem witness_RequestFrameArrivesWhole_copy : ∀ r, Slot.empty ≠ .waiting r := by
  intro r h
  cases h

/-- Five first bytes of a request frame that each fail one arrival check: the code, the length, the bytes sent, the check
byte, the sender. -/
theorem witness_BadFramesRefusedOnArrival :
    (∀ c ∈ ReqCode.all, c.code ≠ [(0x0B : Byte)].getD 0 0) ∧
      ReqCode.readBay.code = [(0x03 : Byte), 1, 1, 2].getD 0 0 ∧
      ([(0x03 : Byte), 1, 1, 2].getD 3 0).toNat ≠ ReqCode.readBay.operandLength ∧
      [(0x03 : Byte), 1, 1, 1, 31].length < 5 + ReqCode.readBay.operandLength ∧
      ((requestFrame .readBay 1 .s1 [31]).take 5 ++ [(0x00 : Byte)]).getD 5 0 ≠
        crc8 (((requestFrame .readBay 1 .s1 [31]).take 5 ++ [(0x00 : Byte)]).take 5) ∧
      ((requestFrame .readBay 1 .s7 [31]).getD 3 0).toNat = ReqCode.readBay.operandLength ∧
      (requestFrame .readBay 1 .s7 [31]).getD 5 0 = crc8 ((requestFrame .readBay 1 .s7 [31]).take 5) ∧
      Sender.s7.number = ((requestFrame .readBay 1 .s7 [31]).getD 2 0).toNat ∧
      SenderSet.has 0x02 .s7 = false := by decide +kernel

theorem witness_BadFramesRefusedOnArrival_all : ∀ c : ReqCode, c ∈ ReqCode.all := by
  intro c
  cases c <;> decide

theorem witness_ArbiterGrantsRoundRobin :
    let s := ask (ask State.reset .p1 .lock []) .p3 .subscribe []
    (s.port .p3).slot = .waiting (asked .subscribe []) ∧ s.nextGrant = some (.p1, asked .lock []) := by decide +kernel

theorem witness_GrantPlacesResponse :
    (ask State.reset .p0 .lock []).grantOf .lock = some (.p0, asked .lock []) ∧
      (ask State.reset .p0 .lock []).straysSound := by
  refine ⟨by decide +kernel, ?_, ?_⟩ <;> decide +kernel

/-- The last bay of the largest part, and the first bay that the smallest part has not. -/
theorem witness_BayAndSummaryReads :
    let full := ask State.reset .p0 .readBay [31]
    let small := ask { State.reset with strap := 0 } .p0 .readBay [8]
    full.grantOf .readBay = some (.p0, asked .readBay [31]) ∧ (asked .readBay [31]).op 0 = byteOf (31 : Bay).val ∧
      full.fitted 31 = true ∧ small.grantOf .readBay = some (.p0, asked .readBay [8]) ∧ small.fitted 7 = true := by
  decide +kernel

theorem witness_BayAndSummaryReads_unfitted :
    ∀ b : Bay, (asked .readBay [8]).op 0 = byteOf b.val → { State.reset with strap := 0 }.fitted b = false := by
  decide +kernel

theorem witness_LookupAndCursorRequests :
    (asked .lookupSerial [0, 0, 0]).op3 0 = 0 ∧ (asked .lookupSerial [0xFF, 0xFF, 0xFF]).op3 0 = 0xFFFFFF ∧
      ((asked .lookupSerial [0, 0, 1]).op3 0 ≠ 0 ∧ (one quiet).enrolMap.find ((asked .lookupSerial [0, 0, 1]).op3 0).toNat = none) ∧
      ((asked .lookupSerial [0, 3, 0xE8]).op3 0 ≠ 0xFFFFFF ∧
        (one quiet).enrolMap.find ((asked .lookupSerial [0, 3, 0xE8]).op3 0).toNat = some ⟨0, 0⟩ ∧
        (one quiet).points.find (Loc.key ⟨0, 0⟩) = some { content := quiet, codeHolds := true, written := quiet }) := by
  decide +kernel

/-- The last location that a READ-NEXT comes to, from a cursor on the location after it. -/
theorem witness_LookupAndCursorRequests_readNext :
    let s := place State.reset ⟨31, 15⟩ quiet
    (511 : Nat) < 512 ∧ (⟨31, 15⟩ : Loc) = Loc.ofKey ((s.port .p0).cursor.key + 511) ∧
      s.content ⟨31, 15⟩ = some quiet ∧
      ∀ j, j < 511 → s.content (Loc.ofKey ((s.port .p0).cursor.key + j)) = none := by decide +kernel

theorem witness_LookupAndCursorRequests_empty : ∀ l, (ask State.reset .p0 .readNext []).content l = none := fun _ => rfl

theorem witness_RecordLayouts :
    let c := { pending with links := [⟨.s1, 63, 2⟩, ⟨.s2, 63, 0⟩, ⟨.s7, 0, 1⟩], confirmation := some ⟨0, 65535⟩ }
    c.links.length ≤ 3 ∧ c.confirmation = some ⟨0, 65535⟩ ∧ ((0 : Count) - 0).toNat < 65536 ∧
      ((65535 : Count) - 0).toNat < 65536 := by decide +kernel

/-- The operands of a REPORT of serial 1000. -/
def reportOps (sequence kind battery margin : Byte) : List Byte := [0x00, 0x03, 0xE8, sequence, kind, battery, margin]

/-- The report of `reportOps 6 kind 1 20` from sender 1. -/
def reported (kind : ReportKind) : Report :=
  { serial := 1000, sequence := 6, kind := kind, battery := .good, margin := 20, sender := .s1 }

theorem witness_reports_read :
    (asked .report (reportOps 6 3 1 20)).report? = some (reported .alarm) ∧
      (asked .report (reportOps 6 1 1 20)).report? = some (reported .status) ∧
      [reportOps 6 0 1 20, reportOps 6 7 1 20, reportOps 6 1 0 20, reportOps 6 1 4 20, reportOps 6 1 1 64].map
        (fun ops => (asked .report ops).report?) = [none, none, none, none, none] := by decide +kernel

/-- The masks of sender 1 without RADIO, in the areas given. -/
def deafIn (s : State) (areas : List Area) : State :=
  { s with masks := { s.masks with s1 := areas.foldl (fun m a => m.set a 0x1E) s.masks.s1 } }

theorem witness_ReportRefusedOrStray :
    let r := asked .report (reportOps 6 1 1 20)
    ((ask (deafIn State.reset [0, 1, 2, 3]) .p0 .report (reportOps 6 1 1 20)).grantOf .report = some (.p0, r) ∧
        (deafIn State.reset [0, 1, 2, 3]).mayAnywhere .s1 .radio = false) ∧
      (State.reset.mayAnywhere .s1 .radio = true ∧ State.reset.enrolMap.find (1000 : Serial).toNat = none) ∧
      ((failing quiet).enrolMap.find (1000 : Serial).toNat = some ⟨0, 0⟩ ∧
        ((failing quiet).points.find (Loc.key ⟨0, 0⟩)).map (·.codeHolds) = some false) ∧
      ((deafIn (one quiet) [0]).mayAnywhere .s1 .radio = true ∧ (deafIn (one quiet) [0]).may .s1 .radio 0 = false) := by
  decide +kernel

theorem witness_knownAt : knownAt (one quiet) 1000 ⟨0, 0⟩ :=
  ⟨by decide +kernel, { content := quiet, codeHolds := true, written := quiet }, by decide +kernel, rfl, rfl, by decide⟩

/-- Both clauses: a STATUS while the queue has its last place, and while it has none. -/
theorem witness_ReportForHeldBay :
    let full (n : Nat) : State :=
      { heldByP1 (one quiet) with deferrals := List.replicate n { report := reported .status, bay := 0 } }
    (full 15).holder 0 = some .p1 ∧ (full 15).may .s1 .radio 0 = true ∧ (reported .status).kind ≠ .alarm ∧
      (full 15).deferrals.length < 16 ∧ 16 ≤ (full 16).deferrals.length ∧
      (ask (full 16) .p0 .report (reportOps 6 1 1 20)).grantOf .report = some (.p0, asked .report (reportOps 6 1 1 20)) := by
  decide +kernel

theorem witness_ReportForHeldBay_known :
    knownAt (ask (heldByP1 (one quiet)) .p0 .report (reportOps 6 3 1 20)) 1000 ⟨0, 0⟩ := witness_knownAt

theorem witness_ReportForFreeBay :
    let s := ask (one quiet) .p0 .report (reportOps 6 3 1 20)
    s.grantOf .report = some (.p0, asked .report (reportOps 6 3 1 20)) ∧ s.may .s1 .radio 0 = true ∧
      s.holder 0 = none ∧ s.content ⟨0, 0⟩ = some quiet := by decide +kernel

/-- Half the sequence numbers behind. -/
theorem witness_StaleReportChangesNothing :
    quiet.lastSeq = some 5 ∧ 128 ≤ ((133 : Byte) - 5).toNat ∧
      (asked .report (reportOps 133 1 1 20)).report? = some { reported .status with sequence := 133 } ∧
      (one quiet).holder 0 = none ∧ (one quiet).content ⟨0, 0⟩ = some quiet := by decide +kernel

/-- ReportApplicationSteps and FailureHandlingFollowsR171. -/
theorem witness_enrolled_point : (one quiet).content ⟨0, 0⟩ = some quiet := by decide +kernel

theorem witness_ApplicationFollowsTable42 :
    let works : State := (one quiet).setMode 0 .works
    (works.bay 0).mode = .works ∧ works.content ⟨0, 0⟩ = some quiet ∧ (one pending).content ⟨0, 0⟩ = some pending := by
  decide +kernel

theorem witness_EntryToAlarmPromotesTheSet :
    let s := place (one quiet) ⟨0, 15⟩ { pending with serial := 2000 }
    s.content ⟨0, 0⟩ = some quiet ∧ (⟨0, 15⟩ : Loc) ≠ ⟨0, 0⟩ ∧ s.content ⟨0, 15⟩ = some { pending with serial := 2000 } := by
  decide +kernel

/-- The four cases of R16: a sender in the list, a list with room, and a full list whose last margin is below, or is not. -/
theorem witness_LinkListFollowsR16 :
    let full : List Link := [⟨.s4, 30, 0⟩, ⟨.s3, 12, 2⟩, ⟨.s2, 12, 0⟩]
    linksFit full = true ∧ linksFit quiet.links = true ∧ (∃ k ∈ quiet.links, k.sender = .s4) ∧
      (∀ k ∈ quiet.links, k.sender ≠ .s1) ∧ quiet.links.length < 3 ∧ (∀ k ∈ full, k.sender ≠ .s1) ∧ full.length = 3 ∧
      full.getLast? = some ⟨.s2, 12, 0⟩ ∧ (12 : Fin 64) < 13 ∧ (12 : Fin 64) ≤ 12 := by decide +kernel

theorem witness_BayRequestsRefusedInOrder :
    (∀ code ∈ [ReqCode.acknowledge, .resetPoint, .isolate, .restore, .withdraw],
      (ask (one quiet) .p0 code [32, 0]).grantOf code = some (.p0, asked code [32, 0]) ∧
        (asked code [32, 0]).loc? = none ∧ (asked code [0, 16]).loc? = none ∧ (asked code [0, 0]).loc? = some ⟨0, 0⟩ ∧
        refusal (heldByP1 (one quiet)) .p0 .s1 .ack false 0 = some (.held, [1]) ∧
        refusal State.reset .p0 .s1 .ack false 31 = none ∧ State.reset.content ⟨31, 15⟩ = none) ∧
      (∀ code ∈ [ReqCode.enrol, .repair],
        (asked code [32, 0, 0, 0, 9, 1]).loc? = none ∧ (asked code [0, 0, 0, 0, 0, 1]).serial? 2 = none ∧
          PointKind.ofByte? ((asked code [0, 0, 0, 0, 9, 5]).op 5) = none ∧
          (asked code [0, 0, 0, 0, 9, 4]).serial? 2 = some 9 ∧
          PointKind.ofByte? ((asked code [0, 0, 0, 0, 9, 4]).op 5) = some .call) ∧
      refusal { State.reset with locked := true } .p0 .s1 .commission true 0 = some (.locked, []) ∧
      refusal { State.reset with strap := 0 } .p0 .s1 .commission true 8 = some (.range, []) ∧
      refusal (deafIn State.reset [0]) .p0 .s1 .radio false 0 = some (.masked, []) ∧
      ModeName.ofByte? 0x20 = none ∧ ModeName.ofByte? 0x24 = none ∧ ModeName.ofByte? 0x23 = some .works ∧
      Bay.ofByte? 32 = none ∧ Bay.ofByte? 31 = some 31 ∧ 1 < (asked .setMode [31, 0x23]).operands.length ∧
      (heldByP1 State.reset).holder 0 = some .p1 := by decide +kernel

/-- AcknowledgeOutcomes and ResetIsolateRestoreOutcomes. -/
theorem witness_point_requests_pass :
    ∀ x ∈ [(ReqCode.acknowledge, Group.ack), (.resetPoint, .ack), (.isolate, .isolate), (.restore, .isolate)],
      (ask (one alarming) .p0 x.1 [0, 0]).grantOf x.1 = some (.p0, asked x.1 [0, 0]) ∧
        refusal (ask (one alarming) .p0 x.1 [0, 0]) .p0 .s1 x.2 false 0 = none ∧
        (asked x.1 [0, 0]).loc? = some ⟨0, 0⟩ ∧ (one alarming).content ⟨0, 0⟩ = some alarming := by decide +kernel

theorem witness_SetModeOutcomes :
    refusal State.reset .p0 .s1 .mode false 31 = none ∧ Bay.ofByte? ((asked .setMode [31, 0x23]).op 0) = some 31 ∧
      ModeName.ofByte? ((asked .setMode [31, 0x23]).op 1) = some .works := by decide +kernel

theorem witness_HoldBayOutcomes :
    refusal State.reset .p0 .s1 .mode false 31 = none ∧ Bay.ofByte? ((asked .holdBay [31]).op 0) = some 31 ∧
      State.reset.hold .p0 = none ∧ (run .holdBay [31] State.reset).2.hold .p0 ≠ none := by decide +kernel

theorem witness_ReleaseAndEndOfHold :
    (heldByP1 State.reset).hold .p1 = some { bay := 0, timer := { left := 1, runOut := true } } := by decide +kernel

/-- A full ring, its cursors on the oldest record and on none. -/
def fullRing : State :=
  { State.reset with
    ring := (List.range 256).map (fun i =>
      { seq := BitVec.ofNat 16 (i + 65536 - 100), body := deviceRecord .lock .request .s1 none })
    nextSeq := 156
    ports := State.reset.ports.set .p1 { PortState.fresh with sub := some 65436 } }

theorem witness_AppendFollowsR140 : fullRing.ringSound ∧ fullRing.ring.length = 256 ∧
    (fullRing.port .p1).sub = some (fullRing.nextSeq - 256) ∧ (fullRing.port .p0).sub = none := by
  refine ⟨⟨by decide +kernel, by decide +kernel⟩, ?_⟩
  decide +kernel

theorem witness_SubscriptionRequests_cursors : fullRing.cursorsSound := by
  intro p n h
  cases p with
  | p1 =>
    have hs : (fullRing.port .p1).sub = some 65436 := by decide +kernel
    rw [hs] at h
    obtain rfl := Option.some.inj h
    decide +kernel
  | p0 =>
    have hs : (fullRing.port .p0).sub = none := by decide +kernel
    rw [hs] at h
    cases h
  | p2 =>
    have hs : (fullRing.port .p2).sub = none := by decide +kernel
    rw [hs] at h
    cases h
  | p3 =>
    have hs : (fullRing.port .p3).sub = none := by decide +kernel
    rw [hs] at h
    cases h

theorem witness_EventRequests :
    512 ≤ ((asked .clearEvents [0x02, 0x00]).op2 0).toNat ∧ ((asked .clearEvents [0x01, 0xFF]).op2 0).toNat < 512 := by
  decide +kernel

theorem one_pointsSound {c : PointContent} (h : c.sound = true) : (one c).pointsSound :=
  pointsSound_insert (s := State.reset) (l := ⟨0, 0⟩) (r := { content := c, codeHolds := true, written := c })
    ⟨rfl, fun _ he => by cases he⟩ h (by decide +kernel)

theorem witness_FireAndFaultLines :
    let heat := one { quiet with kind := .heat }
    heat.alarmCount = 0 ∧ (run .report (reportOps 6 3 1 20) heat).2.alarmCount = 1 := by decide +kernel

theorem witness_FireAndFaultLines_sound : (one alarming).pointsSound := one_pointsSound (by decide)

theorem witness_SnapshotRequests :
    (asked .snapshotRead [32, 0]).loc? = none ∧ State.reset.snap = .idle ∧
      (ready State.reset).snap.owner = some .p0 ∧ Port.p0 ≠ .p3 ∧
      (copying State.reset).snap = .copying .p0 0 0 0 ∧
      (ready State.reset).snap = .ready .p0 0 0 { left := 1, runOut := true } ∧
      (ready State.reset).snapLast < (⟨1, 0⟩ : Loc).bay ∧ (ready State.reset).snapFirst ≤ (⟨0, 2⟩ : Loc).bay ∧
      { ready State.reset with snapFirst := 1, snapLast := 1 }.snapFirst > (⟨0, 0⟩ : Loc).bay ∧
      ((ready State.reset).snapRecords.find (Loc.key ⟨0, 2⟩)).map (·.content) = some none ∧
      ((ready State.reset).snapRecords.find (Loc.key ⟨0, 15⟩)).map (·.content) = some (some quiet) := by decide +kernel

theorem witness_CopyStepCopiesTheBay :
    (copying (one quiet)).snap = .copying .p0 0 0 0 ∧ ((copying (one quiet)).takeUnit .snapshotUnit).isSome = true := by
  decide +kernel

/-- An ENROL in a bay that is still to be copied. -/
theorem witness_SnapshotShowsTheStart :
    let s := ask (copying State.reset) .p0 .enrol [0, 5, 0, 0, 9, 1]
    s.snap = .copying .p0 0 0 0 ∧ s.snapFirst ≤ (⟨0, 5⟩ : Loc).bay ∧ (⟨0, 5⟩ : Loc).bay ≤ s.snapLast ∧
      s.snapRecords.find (Loc.key ⟨0, 5⟩) = none ∧ (after .enrol s).content ⟨0, 5⟩ ≠ s.content ⟨0, 5⟩ ∧
      (after .enrol s).snapRecords.find (Loc.key ⟨0, 5⟩) = some { bad := false, content := none } := by decide +kernel

theorem witness_SnapshotShowsTheStart_sound : (ask (copying State.reset) .p0 .enrol [0, 5, 0, 0, 9, 1]).snapSound := by
  refine ⟨by decide +kernel, by decide +kernel, by decide +kernel, by decide +kernel, by decide +kernel, ?_⟩
  intro l _ h
  exact absurd h (Nat.not_lt_zero _)

theorem witness_SnapshotShowsTheStart_recorded :
    (ready State.reset).snap ≠ .idle ∧ (ready State.reset).snapRecords.find (Loc.key ⟨0, 3⟩) =
      some { bad := true, content := some quiet } := by decide +kernel

theorem witness_EnrolAndWithdrawOutcomes :
    let e := asked .enrol [31, 15, 0xFF, 0xFF, 0xFE, 4]
    e.loc? = some ⟨31, 15⟩ ∧ e.serial? 2 = some 0xFFFFFE ∧ PointKind.ofByte? (e.op 5) = some .call ∧
      refusal State.reset .p0 .s1 .commission true 31 = none ∧
      (one quiet).content ⟨0, 0⟩ = some quiet ∧ refusal (one quiet) .p0 .s1 .commission true 0 = none := by decide +kernel

theorem witness_RepairOutcomes :
    let r := asked .repair [0, 0, 0, 0, 1, 1]
    r.loc? = some ⟨0, 0⟩ ∧ r.serial? 2 = some 1 ∧ PointKind.ofByte? (r.op 5) = some .smoke ∧
      refusal { one quiet with locked := true } .p0 .s1 .commission false 0 = none := by decide +kernel

theorem witness_SetBayOutcomes :
    Bay.ofByte? ((asked .setBay [32, 1]).op 0) = none ∧ partnerOfByte? ((asked .setBay [0, 32]).op 1) = none ∧
      partnerOfByte? ((asked .setBay [0, 0xFF]).op 1) = some none ∧
      partnerOfByte? ((asked .setBay [0, 31]).op 1) = some (some 31) ∧
      (State.reset.may .s1 .commission (Bay.area 0) = true ∧ State.reset.may .s1 .commission (Bay.area 31) = true) ∧
      { State.reset with masks := { State.reset.masks with s1 := ⟨0x1F, 0x1F, 0x1F, 0x0F⟩ } }.may .s1 .commission
        (Bay.area 31) = false ∧
      { State.reset with strap := 2 }.fitted 31 = false ∧ (heldByP1 State.reset).heldByOther .p0 0 = some .p1 ∧
      (heldByP1 State.reset).heldByOther .p1 0 = none ∧ State.reset.heldByOther .p0 31 = none := by decide +kernel

theorem witness_SetBayOutcomes_pairing : State.reset.pairingSound := by
  intro b q h
  have hb : (State.reset.bay b).partner = none := by
    clear h
    revert b
    decide +kernel
  rw [hb] at h
  cases h

theorem witness_StoreRequests :
    storeRefusal State.reset .s1 = none ∧ storeRefusal { State.reset with locked := true } .s1 = some .locked ∧
      Port.ofByte? 4 = none ∧ Port.ofByte? 3 = some .p3 ∧ Sender.ofByte? 0 = none ∧ Sender.ofByte? 8 = none ∧
      Sender.ofByte? 7 = some .s7 ∧ Area.ofByte? 4 = none ∧ Area.ofByte? 3 = some 3 := by decide +kernel

/-- The ends of the ranges of Table 2.5, on both sides, and the four clauses. -/
theorem witness_SetTimingOutcomes :
    let t (ops : List Byte) : Bool := (asked .setTiming ops).timing.inRange
    t [0, 1, 2, 5, 5, 10, 5, 10] = true ∧ t [255, 14, 15, 255, 255, 255, 255, 255] = true ∧
      [[0, 0, 2, 5, 5, 10, 5, 10], [0, 1, 1, 5, 5, 10, 5, 10], [0, 14, 16, 5, 5, 10, 5, 10], [0, 1, 2, 4, 5, 10, 5, 10],
        [0, 1, 2, 5, 4, 10, 5, 10], [0, 1, 2, 5, 5, 9, 5, 10], [0, 1, 2, 5, 5, 10, 4, 10], [0, 1, 2, 5, 5, 10, 5, 9]].any t =
        false ∧
      storeRefusal { State.reset with locked := true } .s1 = some .locked ∧ storeRefusal State.reset .s1 = none ∧
      State.reset.timing.sweepPeriod ≠ 0 ∧
      { State.reset with timing := { Timing.default with sweepPeriod := 0 } }.timing.sweepPeriod = 0 ∧
      (asked .setTiming [255, 14, 15, 255, 255, 255, 255, 255]).timing.sweepPeriod ≠ 0 := by decide +kernel

theorem witness_SweepSteps :
    let s : State := { State.reset with prescaler := 24 }
    s.timing.sweepPeriod ≠ 0 ∧ s.timing.sweepPeriod.toNat ≤ s.prescaler + 1 ∧ (s.takeUnit .sweep).isSome = true := by
  decide +kernel

/-- Ageing with and without the MISSING rule, and the poll rule where it adds an item and where it does not. -/
theorem witness_VisitFollowsR108 :
    (one quiet).content ⟨0, 0⟩ = some quiet ∧ (one quiet).content ⟨0, 1⟩ = none ∧ (⟨1, 0⟩ : Loc).bay ≠ 0 ∧
      (quiet.suspect = false ∧ (one quiet).timing.pollAge.toNat ≤ ({ quiet with age := 2 } : PointContent).age.val ∧
        (one quiet).polls.get .s4 = [] ∧ SenderSet.has ((run .bindSenders [2, 0x18] (one quiet)).2.bound.get .p2) .s4 = true) ∧
      ¬ (one quiet).timing.pollAge.toNat ≤ quiet.age.val := by decide +kernel

theorem witness_LockedPartKeepsCommissioning :
    { State.reset with locked := true }.locked = true ∧ Instr.setBay ≠ .resetLine ∧ Instr.setBay ≠ .powerRemoval ∧
      ∃ t, exec .setBay { State.reset with locked := true } = .next t :=
  ⟨rfl, by decide, by decide, _, rfl⟩

theorem witness_UnitEndAtEachBlock :
    ∀ b ∈ TimeBlock.all, State.reset.inService = true ∧ b ∉ State.reset.owes ∧ State.reset.unitDone = true ∧
      b ∈ { State.reset with owes := TimeBlock.all }.owes := by decide +kernel

theorem witness_ExpiriesAndUpsets :
    ((one pending).content ⟨0, 0⟩ = some pending ∧ pending.confirmation = some ⟨0, 200⟩ ∧
        { one pending with count := 200 }.count = 200) ∧
      ((State.reset.setMode 31 (.service { left := 1, runOut := true })).bay 31).mode =
        .service { left := 1, runOut := true } ∧
      ((heldByP1 State.reset).hold .p1).map (·.timer.runOut) = some true ∧
      (ready State.reset).snap = .ready .p0 0 0 { left := 1, runOut := true } ∧
      (State.reset.phase ≠ .unpowered ∧ alarming.fits = true ∧ quiet.fits = true ∧
        (one quiet).content ⟨0, 0⟩ = some quiet) := by decide +kernel

theorem witness_ExpiriesAndUpsets_sound : (one quiet).pointsSound := one_pointsSound (by decide)

theorem witness_PointRequestsFrame :
    ∃ t, exec .readPoint (ask (failing quiet) .p0 .readPoint [0, 0]) = .next t ∧
      (ask (failing quiet) .p0 .readPoint [0, 0]).grantOf .readPoint = some (.p0, asked .readPoint [0, 0]) ∧
      (asked .readPoint [0, 0]).loc? = some ⟨0, 0⟩ ∧ (1 : Nat) ≠ Loc.key ⟨0, 0⟩ :=
  ⟨_, rfl, by decide +kernel⟩

/-- The part just powered on, with one command waiting. -/
def waitingOne : State := { State.reset with pending := [.copyStep] }

theorem noneHeld (p : Port) : waitingOne.hold p = none := by cases p <;> rfl

theorem freshBay (b : Bay) : waitingOne.bay b = BayRecord.fresh := by
  revert b
  decide +kernel

theorem freshPort (p : Port) : waitingOne.port p = PortState.fresh := by cases p <;> rfl

theorem witness_StepKeepsRingAndCursors :
    waitingOne.ringSound ∧ waitingOne.cursorsSound ∧ ∃ t, step waitingOne = .next t := by
  refine ⟨⟨by decide, fun i h => absurd h (Nat.not_lt_zero i)⟩, ?_, _, rfl⟩
  intro p n h
  rw [freshPort] at h
  cases h

theorem witness_StepKeepsListsAndSlots : waitingOne.straysSound ∧ waitingOne.pollsSound ∧ waitingOne.slotsSound := by
  refine ⟨⟨by decide, by decide⟩, fun n => by cases n <;> exact ⟨by decide, by decide⟩, fun p => ?_⟩
  rw [freshPort]
  exact ⟨trivial, fun c h => by cases h⟩

theorem witness_StepKeepsHoldsAndPairs :
    waitingOne.holdsSound ∧ waitingOne.deferralsSound ∧ waitingOne.pairingSound := by
  refine ⟨fun p q h k hp => ?_, ⟨by decide, fun d hd => by cases hd⟩, fun b q h => ?_⟩
  · rw [noneHeld] at hp
    cases hp
  · rw [freshBay] at h
    cases h

theorem witness_StepKeepsTiming : waitingOne.timingSound ∧ waitingOne.timersSound := by
  refine ⟨⟨by decide, by decide, by decide⟩, fun p h hp => ?_, fun b t h => ?_, fun o m c t h => by cases h⟩
  · rw [noneHeld] at hp
    cases hp
  · rw [freshBay] at h
    cases h

theorem witness_StepKeepsPointsAndMap : waitingOne.pointsSound ∧ waitingOne.mapSound :=
  ⟨⟨rfl, fun _ h => absurd h (List.not_mem_nil)⟩, rfl, fun _ h => absurd h (List.not_mem_nil), by decide⟩

theorem witness_StepKeepsSnapshot : waitingOne.snapSound := ⟨rfl, by decide, by decide, rfl⟩

end Sys2Proof.Tests
end

