-- ==== Sys2Proof/Proofs/Invariants.lean ====
section
/-! SUPPORT. What every step keeps of settings, timers, point table and enrolment map, and that every invariant holds
right after power-on. -/

namespace Sys2Proof.Machine

/-! ### The state right after power-on -/

@[simp] theorem State.reset_bay (b : Bay) : State.reset.bay b = BayRecord.fresh := by
  simp only [State.bay, State.reset, Vector.get_eq_getElem, Vector.getElem_ofFn]

@[simp] theorem State.reset_port (p : Port) : State.reset.port p = PortState.fresh := by cases p <;> rfl

@[simp] theorem State.reset_hold (p : Port) : State.reset.hold p = none := by cases p <;> rfl

theorem State.reset_ringSound : State.reset.ringSound := ⟨by decide, fun i h => absurd h (Nat.not_lt_zero i)⟩

theorem State.reset_cursorsSound : State.reset.cursorsSound := by
  intro p n h
  rw [State.reset_port] at h
  cases h

theorem State.reset_pollsSound : State.reset.pollsSound := by
  intro n
  cases n <;> exact ⟨Nat.zero_le _, List.nodup_nil⟩

theorem State.reset_holdsSound : State.reset.holdsSound := by
  intro p q h k hp
  rw [State.reset_hold] at hp
  cases hp

theorem State.reset_deferralsSound : State.reset.deferralsSound := ⟨Nat.zero_le _, fun _ hd => absurd hd List.not_mem_nil⟩

theorem State.reset_pairingSound : State.reset.pairingSound := by
  intro b q h
  rw [State.reset_bay] at h
  cases h

theorem State.reset_timingSound : State.reset.timingSound := ⟨by decide, by decide, by decide⟩

theorem State.reset_timersSound : State.reset.timersSound := by
  refine ⟨fun p h hp => ?_, fun b t h => ?_, fun o m c t h => by cases h⟩
  · rw [State.reset_hold] at hp
    cases hp
  · rw [State.reset_bay] at h
    cases h

theorem State.reset_pointsSound : State.reset.pointsSound := ⟨rfl, fun _ he => absurd he List.not_mem_nil⟩

theorem State.reset_mapSound : State.reset.mapSound := ⟨rfl, fun _ he => absurd he List.not_mem_nil, List.nodup_nil⟩

theorem State.reset_slotsSound : State.reset.slotsSound := by
  intro p
  rw [State.reset_port]
  exact ⟨trivial, fun c h => by cases h⟩

/-- Settles O54: one lemma for each block's invariant. -/
theorem invariantsHoldAtReset : Obligations.InvariantsHoldAtReset :=
  ⟨State.reset_ringSound, State.reset_cursorsSound, ⟨Nat.zero_le _, List.nodup_nil⟩, State.reset_pollsSound,
    State.reset_holdsSound, State.reset_deferralsSound, State.reset_pairingSound, State.reset_timingSound,
    State.reset_timersSound, State.reset_pointsSound, State.reset_mapSound, ⟨rfl, by decide, by decide, rfl⟩,
    State.reset_slotsSound⟩

/-! ### What every step keeps -/

/-- Settings and timers stand together: the lengths of the timers a change starts come from settings in range. -/
theorem timing_timers_change (k : ChangeClass) (s t : State) (h : Change s k t)
    (hs : s.timingSound ∧ s.timersSound) : t.timingSound ∧ t.timersSound :=
  ⟨timing_change h hs.1, timers_change h hs⟩

/-- Settles O58: every single change keeps settings and timers, and so every step does. -/
theorem stepKeepsTiming : Obligations.StepKeepsTiming :=
  fun _ _ ht hm h => step_keeps timing_timers_change (fun _ _ hs => hs) h ⟨ht, hm⟩

/-- Settles O59: every single change keeps the point table's form and the map's, and so every step does. -/
theorem stepKeepsPointsAndMap : Obligations.StepKeepsPointsAndMap :=
  fun _ _ h => ⟨step_keeps (fun _ _ _ => points_change) (fun _ _ hs => hs) h,
    step_keeps (fun _ _ _ => map_change) (fun _ _ hs => hs) h⟩

end Sys2Proof.Machine
end

