-- ==== Sys2Proof/Proofs/Resets.lean ====
section
/-! SUPPORT. What power and the reset line leave (R2, R14, R188). -/

namespace Sys2Proof.Machine

theorem lastFitted_val (strap : BitVec 2) : (lastFitted strap).val + 1 = 8 * (strap.toNat + 1) := by
  simp only [lastFitted]
  omega

theorem State.powerOn_inService (s : State) (strap : BitVec 2) :
    (s.powerOn strap).inService = true ↔ s.rst = false := by
  simp only [State.inService, State.powerOn]
  cases s.rst <;> decide

theorem State.reset_masks (n : Sender) (a : Area) : (State.reset.masks.get n).get a = 0x1F := by
  revert a
  cases n <;> decide

theorem State.reset_polls (n : Sender) : State.reset.polls.get n = [] := by cases n <;> rfl

/-- Settles O4: each piece of state read off `State.reset`, but for the strap and what follows it. -/
theorem powerOnGivesPowerOnValues : Obligations.PowerOnGivesPowerOnValues := by
  intro s strap
  refine ⟨s.powerOn strap, rfl, rfl, rfl, rfl, rfl, rfl, s.powerOn_inService strap, rfl, rfl, rfl, rfl, rfl, fun _ => rfl,
    rfl, State.reset_bay, rfl, State.reset_masks, rfl, rfl, State.reset_polls, State.reset_hold, rfl, rfl, rfl, rfl, rfl,
    lastFitted_val strap, rfl, State.reset_port, rfl⟩

/-- The record of a bay after the reset line: its pairing kept, the rest as at power-on (R45, R88, R107). -/
theorem State.resetLine_bay (s : State) (b : Bay) :
    s.resetLine.bay b = { mode := .normal, partner := (s.bay b).partner, owed := false } := by
  simp only [State.bay, State.resetLine, Vector.get_eq_getElem, Vector.getElem_ofFn]
  rfl

theorem State.resetLine_find (s : State) (l : Loc) :
    s.resetLine.points.find l.key = (s.points.find l.key).map PointRecord.afterResetLine :=
  Table.find_map s.points PointRecord.afterResetLine l.key

theorem State.resetLine_content (s : State) (l : Loc) :
    s.resetLine.content l = (s.content l).map PointContent.afterResetLine := by
  rw [State.content, State.resetLine_find, State.content, Option.map_map, Option.map_map]
  rfl

/-- The reset line writes every record anew, with a fresh check code (R14, R178). -/
theorem State.resetLine_fresh (s : State) (l : Loc) (e : PointRecord) (h : s.resetLine.points.find l.key = some e) :
    e.codeHolds = true ∧ e.written = e.content := by
  rw [State.resetLine_find, Option.map_eq_some_iff] at h
  obtain ⟨r, -, rfl⟩ := h
  exact ⟨rfl, rfl⟩

/-- Settles O5, phase by phase: a part that has run takes its reset-line values, any other only comes out of reset. -/
theorem resetLineGivesResetLineValues : Obligations.ResetLineGivesResetLineValues := by
  have release (s : State) : exec .resetLine s = .next s.releaseRst := rfl
  refine ⟨fun s h => ⟨s.resetLine, ?_, ?_⟩, fun s h => ?_, fun s h => ?_⟩
  · rw [release, State.releaseRst, h]
  · exact ⟨rfl, rfl, rfl, rfl, rfl, rfl, rfl, rfl, s.resetLine_bay, s.resetLine_content, s.resetLine_fresh, rfl, rfl, rfl,
      rfl, rfl, rfl, State.reset_polls, State.reset_hold, rfl, rfl, rfl, rfl, rfl, lastFitted_val s.strap, rfl,
      State.reset_port, rfl⟩
  · rw [release, State.releaseRst, h]
  · rw [release, State.releaseRst, h]

/-- Out of service every line is deasserted (R103, R154, R188). -/
theorem State.lines_of_reset {s : State} (h : s.inService = false) :
    s.fireLine = false ∧ s.faultLine = false ∧ ∀ p, s.attnLine p = false := by
  simp [State.fireLine, State.faultLine, State.attnLine, h]

/-- Settles O6. -/
theorem rstAndPowerRemovalPutInReset : Obligations.RstAndPowerRemovalPutInReset := by
  refine ⟨fun s => rfl, fun s => ⟨s.removePower, rfl, rfl, fun p => by cases p <;> rfl⟩, fun c s t hc h => ?_⟩
  have out : t.inService = false := by
    rcases hc with rfl | rfl
    · obtain rfl : s.assertRst = t := Host.Outcome.next.inj h
      simp [State.inService, State.assertRst]
    · obtain rfl : s.removePower = t := Host.Outcome.next.inj h
      rfl
  exact ⟨out, State.lines_of_reset out⟩

end Sys2Proof.Machine
end

