-- ==== Sys2Proof/Proofs/Grants.lean ====
section
/-! SUPPORT. The grant of a request in the words of the statements (`Claims.granted`, `Claims.fired`,
`Claims.answered`), and how the operand codes are read. -/

namespace Sys2Proof

/-! ### Codes of operands (Tables 10.4 and 10.5) -/

@[simp] theorem Machine.byteOf_toNat (x : Byte) : Machine.byteOf x.toNat = x := BitVec.ofNat_toNat 8 x

theorem Machine.toNat_byteOf {n : Nat} (h : n < 256) : (Machine.byteOf n).toNat = n := by
  simpa [Machine.byteOf] using h

theorem Bay.ofByte?_eq_some (x : Byte) (b : Bay) : Bay.ofByte? x = some b ↔ b.val = x.toNat := by
  unfold Bay.ofByte?
  have := b.isLt
  split
  · simp [Fin.ext_iff, eq_comm]
  · simp only [reduceCtorEq, false_iff]
    omega

/-- A bay operand is the number of the bay as one byte. -/
theorem Bay.ofByte?_eq_some_byte (x : Byte) (b : Bay) : Bay.ofByte? x = some b ↔ x = Machine.byteOf b.val := by
  rw [Bay.ofByte?_eq_some]
  constructor
  · intro h
    rw [h, Machine.byteOf_toNat]
  · rintro rfl
    exact (Machine.toNat_byteOf (by omega)).symm

theorem serialValid_iff (n : Serial) : serialValid n = true ↔ n ≠ 0 ∧ n ≠ 0xFFFFFF := by
  simp [serialValid]

namespace Machine

open Claims

/-! ### Grants (R185) -/

theorem State.inService_of_grantOf {s : State} {code : ReqCode} {x : Port × Request} (h : s.grantOf code = some x) :
    s.inService = true := by
  unfold State.grantOf at h
  split at h
  · assumption
  · cases h

/-- The end of an event as the statements have it (R101). -/
theorem State.settleFire_eq (before s : State) : before.settleFire s = fired before s := rfl

/-- An event that leaves the alarm count sets no FIRE (R101). -/
theorem fired_of_alarmCount {s t : State} (h : t.alarmCount = s.alarmCount) : fired s t = t := by
  unfold fired
  rw [if_neg]
  rintro ⟨h0, h1⟩
  exact h1 (h.trans h0)

/-- A grant whose body comes to `t` with answer `a`. -/
theorem State.grant_answered {s t : State} {code : ReqCode} {p : Port} {r : Request} {a : Answer}
    {body : Port → Request → State → State × Answer} (h : s.grantOf code = some (p, r))
    (hb : body p r (granted s p) = (t, a)) :
    s.grant code body = answered (fired s t) p r a.result a.payload := by
  rw [State.grant_eq body h, show s.granting p = granted s p from rfl, hb]
  rfl

/-- A grant whose body changes nothing but by an alarm count that stays. -/
theorem State.grant_answered_quiet {s t : State} {code : ReqCode} {p : Port} {r : Request} {a : Answer}
    {body : Port → Request → State → State × Answer} (h : s.grantOf code = some (p, r))
    (hb : body p r (granted s p) = (t, a)) (ht : t.alarmCount = s.alarmCount) :
    s.grant code body = answered t p r a.result a.payload := by
  rw [State.grant_answered h hb, fired_of_alarmCount ht]

/-- A grant of a request that is only answered. -/
theorem State.grant_refused {s : State} {code : ReqCode} {p : Port} {r : Request} {a : Answer}
    {body : Port → Request → State → State × Answer} (h : s.grantOf code = some (p, r))
    (hb : body p r (granted s p) = (granted s p, a)) :
    s.grant code body = answered (granted s p) p r a.result a.payload :=
  State.grant_answered_quiet h hb rfl

/-- Two commands that come to one state. -/
theorem next_congr {s t : State} (h : s = t) :
    (Host.Outcome.next s : Host.Outcome State Fault Refusal) = .next t := by rw [h]

/-- A reading request is answered and changes nothing else. -/
theorem State.grant_reading {s : State} {code : ReqCode} {p : Port} {r : Request}
    {answer : Port → Request → State → Answer} (h : s.grantOf code = some (p, r)) :
    s.grant code (reading answer) =
      answered (granted s p) p r (answer p r (granted s p)).result (answer p r (granted s p)).payload :=
  State.grant_refused h rfl

end Machine
end Sys2Proof
end

