-- ==== Sys2Proof/Proofs/Reads.lean ====
section
/-! SUPPORT. The requests that read the image (R19 to R25): what each changes and answers. -/

namespace Sys2Proof

/-! ### The counts of Table 1.8 -/

namespace PointContent

variable (c : PointContent)

theorem inAlarmCount_iff : c.inAlarmCount = true ↔ c.isolation = none ∧ c.condition = .alarm := by
  simp [PointContent.inAlarmCount]

theorem inTroubleCount_iff : c.inTroubleCount = true ↔
    c.isolation = none ∧ (c.suspect = true ∨ c.condition = .missing ∨ ∃ x, c.condition = .fault x) := by
  simp only [PointContent.inTroubleCount, Bool.and_eq_true, Bool.or_eq_true, Option.isNone_iff_eq_none]
  cases c.condition <;> simp

theorem inUnackCount_iff : c.inUnackCount = true ↔ c.isolation = none ∧ c.ack = none ∧
    (c.condition = .alarm ∨ c.condition = .missing ∨ ∃ x, c.condition = .fault x) := by
  simp only [PointContent.inUnackCount, Bool.and_eq_true, Option.isNone_iff_eq_none]
  cases c.condition <;> simp [Condition.needsAck]

end PointContent

namespace Machine

open Claims

/-! ### READ-BAY and READ-SUMMARY (R24, R25) -/

theorem bayAnswer_eq (s : State) (b : Bay) : bayAnswer s b =
    [byteOf b.val, byteOf (b.val / 8)] ++
      (match (s.bay b).mode with
        | .normal => [0x21, 0x00, 0x00, 0x00]
        | .service t => [0x22] ++ bytes3 (BitVec.ofNat 24 t.left)
        | .works => [0x23, 0x00, 0x00, 0x00]) ++
      [(match (s.bay b).partner with
        | some q => byteOf q.val
        | none => 0xFF)] ++
      (match s.holder b with
        | some q => [byteOf q.number, (match s.hold q with
          | some h => byteOf h.timer.left
          | none => 0x00)]
        | none => [0xFF, 0x00]) ++
      [if (s.bay b).owed then 0x01 else 0x00] ++
      [byteOf (s.bayCountOf b (·.inAlarmCount)), byteOf (s.bayCountOf b (·.inTroubleCount)),
        byteOf (s.bayCountOf b (·.inPendingCount)), byteOf (s.bayCountOf b (·.inIsolatedCount)),
        byteOf (s.bayCountOf b (·.inUnackCount)), byteOf (s.bayCountOf b (·.inEnrolledCount))] := by
  unfold bayAnswer
  dsimp only
  cases (s.bay b).mode <;> cases s.holder b <;> rfl

theorem summaryAnswer_eq {s : State} (h : s.inService = true) : summaryAnswer s =
    [s.alarmCount, s.troubleCount, s.pendingCount, s.isolatedCount, s.unackCount, s.enrolledCount].flatMap
        (fun n => bytes2 (BitVec.ofNat 16 n)) ++
      [(if s.alarmCount = 0 then 0x00 else 0x01) ||| (if s.troubleCount = 0 then 0x00 else 0x02)] := by
  have hf : s.fireLine = !decide (s.alarmCount = 0) := by simp [State.fireLine, h, bne, beq_eq_decide]
  have ht : s.faultLine = !decide (s.troubleCount = 0) := by simp [State.faultLine, h, bne, beq_eq_decide]
  have bit (n : Nat) (x : Byte) : (if (!decide (n = 0)) = true then x else 0) = if n = 0 then 0 else x := by
    by_cases hn : n = 0 <;> simp [hn]
  unfold summaryAnswer
  rw [hf, ht, bit, bit]
  rfl

/-- Settles O14. -/
theorem bayAndSummaryReads : Obligations.BayAndSummaryReads := by
  refine ⟨fun c => ⟨c.inAlarmCount_iff, c.inTroubleCount_iff, ?_, ?_, c.inUnackCount_iff, rfl⟩,
    fun s => ⟨rfl, rfl, rfl, rfl, rfl, rfl⟩, fun s f => ⟨rfl, fun b => ?_⟩,
    fun s p r => ⟨fun h b hb hf => ?_, fun h hb => ?_, fun h => ?_⟩⟩
  · simp [PointContent.inPendingCount]
  · simp [PointContent.inIsolatedCount, Option.isSome_iff_ne_none]
  · rfl
  · refine next_congr ?_
    rw [readBayBody, State.grant_reading h]
    have hb : Bay.ofByte? (r.op 0) = some b := (Bay.ofByte?_eq_some_byte _ _).mpr hb
    have hf : (granted s p).fitted b = true := hf
    simp only [hb, hf, if_true, Answer.doneWith, bayAnswer_eq]
    rfl
  · refine next_congr ?_
    rw [readBayBody, State.grant_reading h]
    cases hx : Bay.ofByte? (r.op 0) with
    | none => rfl
    | some b =>
      have hf : (granted s p).fitted b = false := hb b ((Bay.ofByte?_eq_some_byte _ _).mp hx)
      simp only [hf, Bool.false_eq_true, if_false]
      rfl
  · refine next_congr ?_
    have hs : s.inService = true := State.inService_of_grantOf h
    rw [readSummaryBody, State.grant_reading h]
    simp only [Answer.doneWith, summaryAnswer_eq (s := granted s p) hs]
    rfl

/-! ### READ-POINT (R20, R172) -/

@[simp] theorem State.handleFailure_draws (s : State) (l : Loc) : (s.handleFailure l).draws = s.draws :=
  (s.handleFailure_changes l).frame.draws

@[simp] theorem State.handleFailure_count (s : State) (l : Loc) : (s.handleFailure l).count = s.count :=
  (s.handleFailure_changes l).frame.count

theorem State.readRecord_absent {s : State} {l : Loc} (h : s.content l = none) :
    s.readRecord l = (s, .bare .absent) := by
  simp only [State.readRecord, h]

theorem State.readRecord_verified {s : State} {l : Loc} {c : PointContent} (h : s.content l = some c)
    (hv : s.verified l = true) : s.readRecord l = (s, .doneWith (pointBytes s.draws s.count l c)) := by
  simp only [State.readRecord, State.verify, h, hv, if_true, Answer.doneWith]

theorem State.readRecord_failed {s : State} {l : Loc} {c : PointContent} (h : s.content l = some c)
    (hv : s.verified l = false) :
    s.readRecord l =
      (s.handleFailure l, { result := .suspect, payload := pointBytes s.draws s.count l c.rebuilt }) := by
  simp only [State.readRecord, State.verify, h, hv, Bool.false_eq_true, if_false, s.content_handleFailure l h,
    State.handleFailure_draws, State.handleFailure_count]

/-- Settles O15, along the outcomes of the read of one record. -/
theorem readPointOutcomes : Obligations.ReadPointOutcomes := by
  intro s p r h
  refine next_congr ?_
  cases hl : r.loc? with
  | none => exact State.grant_refused h (by simp only [readPointBody, hl]) (a := .bare .range)
  | some l =>
    have body : readPointBody p r (granted s p) = (granted s p).readRecord l := by simp only [readPointBody, hl]
    dsimp only
    cases hc : s.content l with
    | none => exact State.grant_refused h (body.trans (State.readRecord_absent hc))
    | some c =>
      dsimp only
      cases hv : s.verified l with
      | true => exact State.grant_refused h (body.trans (State.readRecord_verified hc hv))
      | false => exact State.grant_answered h (body.trans (State.readRecord_failed hc hv))

/-! ### READ-SLICE (R21, R172) -/

theorem SliceField.ofByte?_eq_some (x : Byte) (f : SliceField) : SliceField.ofByte? x = some f ↔ f.code = x := by
  constructor
  · intro h
    simpa using List.find?_some h
  · rintro rfl
    cases f <;> decide

theorem sliceSecond_eq (draw : Nat) (n : Fin 16) (f : SliceField) :
    sliceSecond draw n f = if f = .bestMargin then Config.sliceFill draw n else 0x00 := by
  cases f <;> rfl

/-- What the verification of a record leaves of its content. -/
theorem State.content_verify_self (s : State) (l : Loc) :
    (s.verify l).content l = (s.content l).map (fun c => if s.verified l then c else c.rebuilt) := by
  unfold State.verify
  cases hc : s.content l with
  | none => simp [State.handleFailure, hc]
  | some c => cases hv : s.verified l <;> simp [hc, s.content_handleFailure l hc]

/-- The verification of a bay leaves each of its records as the verification of that record alone does. -/
theorem State.content_verifyAll (s : State) {b : Bay} {l : Loc} (h : l ∈ b.locs) :
    (b.locs.foldl State.verify s).content l =
      (s.content l).map (fun c => if s.verified l then c else c.rebuilt) := by
  obtain ⟨before, h1, h2⟩ := View.foldl_at View.verify b.locs (Bay.nodup_locs b) s l h
  rw [h2.content, State.content_verify_self, h1.content, h1.verified]

theorem sliceValues_verifyAll (s : State) (b : Bay) (f : SliceField) :
    sliceValues (b.locs.foldl State.verify s) b f = b.locs.flatMap (fun l => match s.content l with
      | none => sliceAbsent s.draws l.point f
      | some c => sliceBytes s.draws l.point f (if s.verified l then c else c.rebuilt)) := by
  unfold sliceValues
  rw [(s.verifyAll_changes b.locs).frame.draws]
  refine List.flatMap_congr (fun l hl => ?_)
  rw [s.content_verifyAll hl]
  cases s.content l <;> rfl

/-- Settles O16. -/
theorem readSliceOutcomes : Obligations.ReadSliceOutcomes := by
  refine ⟨SliceField.ofByte?_eq_some, fun b => rfl, fun s p r h => ?_⟩
  refine next_congr ?_
  cases hb : Bay.ofByte? (r.op 0) with
  | none => exact State.grant_refused h (by simp only [readSliceBody, hb]) (a := .bare .range)
  | some b =>
    cases hf : SliceField.ofByte? (r.op 1) with
    | none => exact State.grant_refused h (by simp only [readSliceBody, hb, hf]) (a := .bare .range)
    | some f =>
      have absent (l : Loc) : sliceAbsent (granted s p).draws l.point f =
          [0xFE, if f = .bestMargin then Config.sliceFill (s.draws + 1) l.point else 0x00] := by
        rw [sliceAbsent, sliceSecond_eq]
        rfl
      cases hft : s.fitted b with
      | false =>
        have hft' : (granted s p).fitted b = false := hft
        refine (State.grant_refused h
          (a := .doneWith (b.locs.flatMap (fun l => sliceAbsent (granted s p).draws l.point f))) ?_).trans ?_
        · simp only [readSliceBody, hb, hf, hft', Bool.false_eq_true, if_false]
        · simp only [Answer.doneWith, absent, hft, Bool.false_eq_true, if_false]
      | true =>
        have hft' : (granted s p).fitted b = true := hft
        have body : readSliceBody p r (granted s p) = (b.locs.foldl State.verify (granted s p),
            { result := if b.locs.all (granted s p).verified then .done else .suspect,
              payload := sliceValues (b.locs.foldl State.verify (granted s p)) b f }) := by
          simp only [readSliceBody, hb, hf, hft', if_true]
        rw [State.grant_answered h body, sliceValues_verifyAll]
        simp only [absent, hft, if_true]
        rfl

/-! ### LOOKUP-SERIAL, SET-CURSOR and READ-NEXT (R19, R22, R23) -/

theorem Loc.ofKey_add_512 (k : Nat) : Loc.ofKey (k + 512) = Loc.ofKey k := by
  have h1 : (k + 512) / 16 % 32 = k / 16 % 32 := by omega
  have h2 : (k + 512) % 16 = k % 16 := by omega
  simp only [Loc.ofKey, h1, h2]

theorem State.lookup_nothing {s : State} {n : Serial} (h : s.enrolMap.find n.toNat = none) :
    s.lookup n = (s, .nothing) := by
  simp only [State.lookup, h]

/-- The lookup of a serial whose entry names an enrolled location (R19). -/
theorem State.lookup_entry {s : State} {n : Serial} {l : Loc} {e : PointRecord}
    (h : s.enrolMap.find n.toNat = some l) (he : s.points.find l.key = some e) :
    s.lookup n = if e.codeHolds = true ∧ e.content.suspect = false ∧ e.content.serial = n then (s, .at l)
      else (s.handleFailure l, .failed l) := by
  simp only [State.lookup, h, he, Bool.and_eq_true, Bool.not_eq_true', beq_iff_eq, and_assoc]

/-- A walk that meets only unenrolled locations. -/
theorem State.walk_none {s : State} (l : Loc) (h : ∀ x, s.content x = none) : s.walk l = none := by
  simp [State.walk, h]

/-- A walk ends at the first enrolled location (R23). -/
theorem State.walk_first {s : State} {l : Loc} {k : Nat} (hk : k < 512)
    (hc : (s.content (Loc.ofKey (l.key + k))).isSome = true)
    (hn : ∀ j, j < k → s.content (Loc.ofKey (l.key + j)) = none) : s.walk l = some (Loc.ofKey (l.key + k)) := by
  obtain ⟨m, hm⟩ : ∃ m, 512 = k + (m + 1) := ⟨511 - k, by omega⟩
  have before : (List.range k).findSome? (fun j =>
      if (s.content (Loc.ofKey (l.key + j))).isSome then some (Loc.ofKey (l.key + j)) else none) = none := by
    rw [List.findSome?_eq_none_iff]
    intro j hj
    rw [hn j (List.mem_range.mp hj)]
    rfl
  unfold State.walk
  rw [hm, List.range_add, List.findSome?_append]
  dsimp only
  rw [before, List.range_succ_eq_map]
  simp [hc]

/-- The answer of LOOKUP-SERIAL by what the lookup found (R19). -/
def lookupAnswer : Found → Answer
  | .nothing => .bare .absent
  | .at l => .doneWith (locBytes l)
  | .failed l => { result := .suspect, payload := locBytes l }

/-- LOOKUP-SERIAL of a valid serial is the lookup. -/
theorem lookupSerialBody_valid {s : State} {p : Port} {r : Request} (h0 : r.op3 0 ≠ 0) (h1 : r.op3 0 ≠ 0xFFFFFF) :
    lookupSerialBody p r s = ((s.lookup (r.op3 0)).1, lookupAnswer (s.lookup (r.op3 0)).2) := by
  have hv : serialValid (r.op3 0) = true := (serialValid_iff _).mpr ⟨h0, h1⟩
  simp only [lookupSerialBody, Request.serial?, hv, if_true]
  cases (s.lookup (r.op3 0)).2 <;> rfl

theorem lookupSerial_range {s : State} {p : Port} {r : Request} (h : s.grantOf .lookupSerial = some (p, r))
    (hn : r.op3 0 = 0 ∨ r.op3 0 = 0xFFFFFF) :
    exec .lookupSerial s = .next (answered (granted s p) p r .range []) := by
  have hv : serialValid (r.op3 0) = false := by
    rcases hn with hn | hn <;> rw [hn] <;> rfl
  refine next_congr (State.grant_refused h (a := .bare .range) ?_)
  simp [lookupSerialBody, Request.serial?, hv]

theorem lookupSerial_absent {s : State} {p : Port} {r : Request} (h : s.grantOf .lookupSerial = some (p, r))
    (h0 : r.op3 0 ≠ 0) (h1 : r.op3 0 ≠ 0xFFFFFF) (hm : s.enrolMap.find (r.op3 0).toNat = none) :
    exec .lookupSerial s = .next (answered (granted s p) p r .absent []) := by
  have hm' : (granted s p).enrolMap.find (r.op3 0).toNat = none := hm
  refine next_congr (State.grant_refused h (a := .bare .absent) ?_)
  rw [lookupSerialBody_valid h0 h1, State.lookup_nothing hm']
  rfl

theorem lookupSerial_entry {s : State} {p : Port} {r : Request} {l : Loc} {e : PointRecord}
    (h : s.grantOf .lookupSerial = some (p, r)) (h0 : r.op3 0 ≠ 0) (h1 : r.op3 0 ≠ 0xFFFFFF)
    (hm : s.enrolMap.find (r.op3 0).toNat = some l) (he : s.points.find l.key = some e) :
    exec .lookupSerial s = .next (
      if e.codeHolds = true ∧ e.content.suspect = false ∧ e.content.serial = r.op3 0 then
        answered (granted s p) p r .done (locBytes l)
      else answered (fired s ((granted s p).handleFailure l)) p r .suspect (locBytes l)) := by
  have hm' : (granted s p).enrolMap.find (r.op3 0).toNat = some l := hm
  have he' : (granted s p).points.find l.key = some e := he
  refine next_congr ?_
  split
  · next hp =>
    refine State.grant_refused h (a := .doneWith (locBytes l)) ?_
    rw [lookupSerialBody_valid h0 h1, State.lookup_entry hm' he', if_pos hp]
    rfl
  · next hp =>
    refine State.grant_answered h (a := { result := .suspect, payload := locBytes l }) ?_
    rw [lookupSerialBody_valid h0 h1, State.lookup_entry hm' he', if_neg hp]
    rfl

theorem exec_setCursor {s : State} {p : Port} {r : Request} (h : s.grantOf .setCursor = some (p, r)) :
    exec .setCursor s = .next (match r.loc? with
      | none => answered (granted s p) p r .range []
      | some l =>
        if s.fitted l.bay then answered (withPort (granted s p) p (fun q => { q with cursor := l })) p r .done []
        else answered (granted s p) p r .range []) := by
  refine next_congr ?_
  cases hl : r.loc? with
  | none => exact State.grant_refused h (by simp only [setCursorBody, hl]) (a := .bare .range)
  | some l =>
    dsimp only
    cases hf : s.fitted l.bay with
    | false =>
      refine State.grant_refused h (a := .bare .range) ?_
      have hf' : (granted s p).fitted l.bay = false := hf
      simp [setCursorBody, hl, hf']
    | true =>
      refine State.grant_answered_quiet h (a := .bare .done) ?_ rfl
      have hf' : (granted s p).fitted l.bay = true := hf
      simp only [setCursorBody, hl, hf', if_true]
      rfl

theorem readNext_absent {s : State} {p : Port} {r : Request} (h : s.grantOf .readNext = some (p, r))
    (hn : ∀ l, s.content l = none) : exec .readNext s = .next (answered (granted s p) p r .absent []) := by
  refine next_congr (State.grant_refused h (a := .bare .absent) ?_)
  have hw := State.walk_none (s := granted s p) ((granted s p).port p).cursor hn
  unfold readNextBody
  rw [hw]

theorem readNext_found {s : State} {p : Port} {r : Request} {l : Loc} {c : PointContent}
    (h : s.grantOf .readNext = some (p, r)) (hw : s.walk (s.port p).cursor = some l) (hc : s.content l = some c) :
    exec .readNext s = .next (
      let u := if s.verified l then granted s p else (granted s p).handleFailure l
      answered (fired s (withPort u p (fun q => { q with cursor := Loc.ofKey (l.key + 1) }))) p r
        (if s.verified l then .done else .suspect)
        (pointBytes (s.draws + 1) s.count l (if s.verified l then c else c.rebuilt))) := by
  have hw' : (granted s p).walk ((granted s p).port p).cursor = some l := hw
  have body : readNextBody p r (granted s p) =
      (((granted s p).readRecord l).1.setCursor p l.next, ((granted s p).readRecord l).2) := by
    unfold readNextBody
    rw [hw']
  refine next_congr ?_
  cases hv : s.verified l with
  | true =>
    rw [State.readRecord_verified (s := granted s p) hc hv] at body
    exact State.grant_answered h body
  | false =>
    rw [State.readRecord_failed (s := granted s p) hc hv] at body
    exact State.grant_answered h body

/-- Settles O17. -/
theorem lookupAndCursorRequests : Obligations.LookupAndCursorRequests := by
  refine ⟨fun l => ⟨?_, Loc.ofKey_key l⟩, Loc.ofKey_add_512, fun s p r h => ⟨lookupSerial_range h, lookupSerial_absent h,
    fun l e => lookupSerial_entry h⟩, fun s p r => ⟨exec_setCursor, readNext_absent, ?_⟩⟩
  · rw [Loc.key, Nat.mul_comm]
  · rintro k l c h hk rfl hc hn
    exact readNext_found h (State.walk_first hk (by rw [hc]; rfl) hn) hc

end Machine
end Sys2Proof
end

