-- ==== Sys2Proof/Proofs/Layouts.lean ====
section
/-! SUPPORT. The byte layouts that masters read (section 10.6): where each field of a record stands. -/

namespace Sys2Proof.Machine

/-! ### Numbers in bytes, most significant first -/

theorem bytes2_append (x y : Byte) : bytes2 (x ++ y) = [x, y] := by
  have hx : (x ++ y).extractLsb' 8 8 = x := BitVec.extractLsb'_append_eq_left
  have hy : (x ++ y).extractLsb' 0 8 = y := (BitVec.extractLsb'_append_eq_of_add_le (by decide)).trans (by simp)
  exact congrArg₂ (fun a b => [a, b]) hx hy

/-- The bytes below the first of a longer number are those of the number they make. -/
theorem bytes3_append (x : Byte) (n : BitVec 16) : bytes3 (x ++ n) = x :: bytes2 n := by
  have hx : (x ++ n).extractLsb' 16 8 = x := BitVec.extractLsb'_append_eq_left
  have low (k : Nat) (hk : k + 8 ≤ 16) : (x ++ n).extractLsb' k 8 = n.extractLsb' k 8 :=
    BitVec.extractLsb'_append_eq_of_add_le hk
  exact congrArg₂ List.cons hx (congrArg₂ (fun a b => [a, b]) (low 8 (by decide)) (low 0 (by decide)))

theorem bytes4_append (x : Byte) (n : BitVec 24) : bytes4 (x ++ n) = x :: bytes3 n := by
  have hx : (x ++ n).extractLsb' 24 8 = x := BitVec.extractLsb'_append_eq_left
  have low (k : Nat) (hk : k + 8 ≤ 24) : (x ++ n).extractLsb' k 8 = n.extractLsb' k 8 :=
    BitVec.extractLsb'_append_eq_of_add_le hk
  exact congrArg₂ List.cons hx (congrArg₂ List.cons (low 16 (by decide))
    (congrArg₂ (fun a b => [a, b]) (low 8 (by decide)) (low 0 (by decide))))

/-! ### A point record (Table 10.6) -/

/-- An optional sender as its byte. -/
theorem senderByte_eq (n : Option Sender) : senderByte n = byteOf ((n.map Sender.number).getD 0) := by cases n <;> rfl

/-- The bits of the presence byte, worth 1, 2, 4, 8 and 16. -/
theorem presenceByte_eq (c : PointContent) : presenceByte c =
    byteOf ((if c.lastSeq = none then 0 else 1) + (if c.battery = none then 0 else 2) +
      (if c.ack = none then 0 else 4) + (if c.isolation = none then 0 else 8) +
      (if c.confirmation = none then 0 else 16)) := by
  have sum : ∀ a b d e f : Bool,
      (if a then (0x01 : Byte) else 0) ||| (if b then 0x02 else 0) ||| (if d then 0x04 else 0) |||
          (if e then 0x08 else 0) ||| (if f then 0x10 else 0) =
        byteOf ((if a then 1 else 0) + (if b then 2 else 0) + (if d then 4 else 0) + (if e then 8 else 0) +
          (if f then 16 else 0)) := by decide
  have present {α : Type} (o : Option α) (n : Nat) (d : Decidable (o = none)) :
      (@ite _ (o = none) d 0 n) = if o.isSome then n else 0 := by
    cases o <;> simp
  simp only [present]
  exact sum _ _ _ _ _

theorem marksByte_eq (c : PointContent) : marksByte c =
    byteOf ((if c.suspect then 1 else 0) + (if c.heardStopped then 2 else 0) + (if c.clearSeen then 4 else 0)) := by
  unfold marksByte
  cases c.suspect <;> cases c.heardStopped <;> cases c.clearSeen <;> rfl

/-- Elapsed or remaining within two bytes (R189). -/
theorem unitsBytes_of_lt (draw : Nat) {units : Count} (h : units.toNat < 65536) :
    unitsBytes draw units = bytes2 (units.setWidth 16) := if_pos h

/-- The nineteen bytes of a point record before its links, where elapsed and remaining fit two bytes. -/
def pointHead (now : Count) (l : Loc) (c : PointContent) : List Byte :=
  [byteOf l.bay.val, byteOf l.point.val,
   byteOf ((if c.lastSeq = none then 0 else 1) + (if c.battery = none then 0 else 2) +
     (if c.ack = none then 0 else 4) + (if c.isolation = none then 0 else 8) +
     (if c.confirmation = none then 0 else 16))] ++
  bytes3 c.serial ++
  [c.kind.code, c.condition.code,
   byteOf ((if c.suspect then 1 else 0) + (if c.heardStopped then 2 else 0) + (if c.clearSeen then 4 else 0)),
   c.lastSeq.getD 0, byteOf c.age.val, ((c.battery.map Battery.code).getD 0),
   byteOf ((c.ack.map Sender.number).getD 0), byteOf ((c.isolation.map Sender.number).getD 0)] ++
  (match c.confirmation with
    | none => [0, 0, 0, 0]
    | some f => bytes2 ((now - f.start).setWidth 16) ++ bytes2 ((f.deadline - now).setWidth 16)) ++
  [byteOf c.links.length]

theorem length_pointHead (now : Count) (l : Loc) (c : PointContent) : (pointHead now l c).length = 19 := by
  unfold pointHead
  cases c.confirmation <;> rfl

/-- A point record is its head and nine bytes of links (Table 10.6). -/
theorem pointBytes_eq (draw : Nat) (now : Count) (l : Loc) (c : PointContent)
    (h : ∀ f, c.confirmation = some f → (now - f.start).toNat < 65536 ∧ (f.deadline - now).toNat < 65536) :
    pointBytes draw now l c = pointHead now l c ++ ((c.links.flatMap linkBytes) ++ List.replicate 9 0).take 9 := by
  unfold pointBytes pointHead
  rw [presenceByte_eq, marksByte_eq, senderByte_eq, senderByte_eq]
  cases hf : c.confirmation with
  | none => cases c.battery <;> rfl
  | some f =>
    obtain ⟨h1, h2⟩ := h f hf
    dsimp only [unitsBetween]
    rw [unitsBytes_of_lt _ h1, unitsBytes_of_lt _ h2]
    cases c.battery <;> rfl

/-- Up to three links in nine bytes, the rest 00h. -/
theorem linkArea_eq (ls : List Link) (h : ls.length ≤ 3) :
    ((ls.flatMap linkBytes) ++ List.replicate 9 0).take 9 =
      ls.flatMap linkBytes ++ List.replicate (9 - 3 * ls.length) 0 := by
  have hlen : (ls.flatMap linkBytes).length = 3 * ls.length := by
    induction ls with
    | nil => rfl
    | cons k ls ih =>
      rw [List.flatMap_cons, List.length_append, ih (by rw [List.length_cons] at h; omega), List.length_cons]
      simp only [linkBytes, List.length_cons, List.length_nil]
      omega
  rw [List.take_append, List.take_of_length_le (by omega), List.take_replicate, hlen]
  congr 2
  omega

/-! ### Change records and slice values (Table 10.7, R191) -/

theorem changeBytes_eq (e : ChangeRecord) : changeBytes e =
    bytes2 e.seq ++
    [e.body.kind.code, ((e.body.bay.map (fun b => byteOf b.val)).getD 0xFF),
     ((e.body.point.map (fun n => byteOf n.val)).getD 0xFF), ((e.body.old.map ChangeValue.code).getD 0),
     ((e.body.new.map ChangeValue.code).getD 0), e.body.cause.code, byteOf ((e.body.doneBy.map Sender.number).getD 0)] ++
    bytes3 (e.body.serial.getD 0) := by
  have bay (b : Option Bay) : bayByte b = (b.map (fun b => byteOf b.val)).getD 0xFF := by cases b <;> rfl
  unfold changeBytes
  rw [bay, senderByte_eq]
  cases e.body.point <;> cases e.body.old <;> cases e.body.new <;> rfl

theorem pollBytes_eq (i : PollItem) : pollBytes i =
    [byteOf i.loc.bay.val, byteOf i.loc.point.val] ++ bytes3 i.serial ++
      [byteOf i.ageAtEntry.val, if i.reason = .first then 0x01 else 0x02] := by
  unfold pollBytes
  cases i.reason <;> rfl

/-- A slice value field by field: the second byte is 00h but for the best margin's sender (R191; log 10). -/
theorem sliceBytes_eq (draw : Nat) (n : Fin 16) (f : SliceField) (c : PointContent) : sliceBytes draw n f c = match f with
    | .condition => [c.condition.code, 0x00]
    | .age => [byteOf c.age.val, 0x00]
    | .acknowledgement => [(c.ack.map (fun x => byteOf x.number)).getD 0xFF, 0x00]
    | .isolation => [(c.isolation.map (fun x => byteOf x.number)).getD 0xFF, 0x00]
    | .battery => [(c.battery.map Battery.code).getD 0xFF, 0x00]
    | .bestMargin => match c.links with
      | k :: _ => [byteOf k.margin.val, byteOf k.sender.number]
      | [] => [0xFF, Config.sliceFill draw n] := by
  unfold sliceBytes
  cases f with
  | condition => rfl
  | age => rfl
  | acknowledgement => cases c.ack <;> rfl
  | isolation => cases c.isolation <;> rfl
  | battery => cases c.battery <;> rfl
  | bestMargin => cases c.links <;> rfl

/-- Settles O18: the layouts by the lemmas above, the codes by their lists. -/
theorem recordLayouts : Obligations.RecordLayouts := by
  refine ⟨fun draw now l c hl hf => ⟨length_pointBytes draw now l c, ?_, ?_⟩, changeBytes_eq, pollBytes_eq, sliceBytes_eq,
    rfl, rfl, rfl, rfl, fun _ => rfl, rfl, rfl, rfl, rfl, rfl, rfl, rfl, rfl, rfl, fun _ => rfl, byteOf_toNat, bytes2_append,
    fun x y z => ?_, fun x y z w => ?_⟩
  · rw [pointBytes_eq draw now l c hf, List.take_left' (length_pointHead now l c)]
    rfl
  · rw [pointBytes_eq draw now l c hf, List.drop_left' (length_pointHead now l c)]
    exact linkArea_eq c.links hl
  · rw [bytes3_append, bytes2_append]
  · rw [bytes4_append, bytes3_append, bytes2_append]

end Sys2Proof.Machine
end

