-- ==== Sys2Proof/Proofs/Links.lean ====
section
/-! SUPPORT. The link list after a report and after a sweep visit (R16, R17). -/

namespace Sys2Proof

/-- The link list is put back together around a link of margin `m` (R16): the better ones, the link, the others. -/
theorem insertLink_eq (k : Link) (ls : List Link) (h : ls.Pairwise (fun a b => b.margin ≤ a.margin)) :
    insertLink k ls =
      ls.filter (fun a => k.margin < a.margin) ++ [k] ++ ls.filter (fun a => a.margin ≤ k.margin) := by
  induction ls with
  | nil => rfl
  | cons a ls ih =>
    obtain ⟨ha, hls⟩ := List.pairwise_cons.mp h
    by_cases hk : a.margin ≤ k.margin
    · have below : ∀ x ∈ a :: ls, x.margin ≤ k.margin := by
        intro x hx
        rcases List.mem_cons.mp hx with rfl | hx
        · exact hk
        · exact le_trans (ha x hx) hk
      have above : (a :: ls).filter (fun x => decide (k.margin < x.margin)) = [] :=
        List.filter_eq_nil_iff.mpr (fun x hx => by simpa using below x hx)
      rw [above, List.filter_eq_self.mpr (fun x hx => by simpa using below x hx), insertLink, if_pos hk]
      rfl
    · rw [insertLink, if_neg hk, ih hls, List.filter_cons_of_pos (by simpa using hk),
        List.filter_cons_of_neg (by simpa using hk)]
      rfl

section updateLinks

variable {n : Sender} {m : Fin 64} {ls : List Link}

theorem updateLinks_of_mem (h : ∃ k ∈ ls, k.sender = n) :
    updateLinks n m ls = insertLink { sender := n, margin := m, age := 0 } (ls.filter (fun k => k.sender ≠ n)) := by
  have hany : ls.any (fun k => k.sender = n) = true := by simpa using h
  simp only [updateLinks, hany, if_true]

theorem any_sender_of_not_mem (h : ∀ k ∈ ls, k.sender ≠ n) : ls.any (fun k => k.sender = n) = false := by
  simpa using h

theorem updateLinks_of_room (h : ∀ k ∈ ls, k.sender ≠ n) (hl : ls.length < 3) :
    updateLinks n m ls = insertLink { sender := n, margin := m, age := 0 } ls := by
  have hl' : ls.length < Config.linkCapacity := hl
  simp only [updateLinks, any_sender_of_not_mem h, Bool.false_eq_true, if_false, hl', if_true]

theorem updateLinks_of_full {k : Link} (h : ∀ k ∈ ls, k.sender ≠ n) (hl : ls.length = 3) (hk : ls.getLast? = some k) :
    updateLinks n m ls =
      if k.margin < m then insertLink { sender := n, margin := m, age := 0 } ls.dropLast else ls := by
  have hl' : ¬ ls.length < Config.linkCapacity := by rw [hl]; decide
  simp only [updateLinks, any_sender_of_not_mem h, Bool.false_eq_true, if_false, hl', hk]

end updateLinks

/-- The ageing of R17: the links that reach age 3 leave, the others are one round older. -/
theorem agedLinks_map (ls : List Link) : (agedLinks ls).map (fun k => (k.sender, k.margin, k.age.val)) =
    (ls.filter (fun k => k.age.val < 2)).map (fun k => (k.sender, k.margin, k.age.val + 1)) := by
  unfold agedLinks
  induction ls with
  | nil => rfl
  | cons a ls ih =>
    by_cases ha : a.age.val + 1 < 3
    · have ha' : a.age.val < 2 := by omega
      simp only [List.filterMap_cons, ha, dite_true, List.map_cons, ih, List.filter_cons, ha', decide_true, if_true]
    · have ha' : ¬ a.age.val < 2 := by omega
      simp only [List.filterMap_cons, ha, dite_false, ih, List.filter_cons, ha', decide_false, Bool.false_eq_true,
        if_false]

namespace Machine

/-- Settles O26, by the four cases of R16. -/
theorem linkListFollowsR16 : Obligations.LinkListFollowsR16 := by
  intro n m ls hfit
  obtain ⟨-, hord, -⟩ := (linksFit_iff ls).mp hfit
  refine ⟨fun h => ?_, fun h hl => ?_, fun k h hl hk hm => ?_, fun k h hl hk hm => ?_, linksFit_updateLinks n m ls hfit,
    agedLinks_map ls, linksFit_agedLinks ls hfit⟩
  · rw [updateLinks_of_mem h, insertLink_eq _ _ (hord.filter _)]
  · rw [updateLinks_of_room h hl, insertLink_eq _ _ hord]
  · rw [updateLinks_of_full h hl hk, if_pos hm, insertLink_eq _ _ (hord.sublist (List.dropLast_sublist ls))]
  · rw [updateLinks_of_full h hl hk, if_neg (not_lt.mpr hm)]

end Machine
end Sys2Proof
end

