-- ==== Sys2Proof/Proofs/Refusals.lean ====
section
/-! SUPPORT. How operands, rights, fitted bays and holds are read, and the tests of R30 in their order. -/

namespace Sys2Proof

theorem PointKind.ofByte?_eq_some (x : Byte) (k : PointKind) : PointKind.ofByte? x = some k ↔ k.code = x := by
  constructor
  · intro h
    simpa using List.find?_some h
  · rintro rfl
    cases k <;> decide

theorem Loc.ofBytes?_eq_some (x y : Byte) (l : Loc) :
    Loc.ofBytes? x y = some l ↔ l.bay.val = x.toNat ∧ l.point.val = y.toNat := by
  obtain ⟨b, n⟩ := l
  have := b.isLt
  have := n.isLt
  unfold Loc.ofBytes?
  split
  · simp [Fin.ext_iff, eq_comm]
  · simp only [reduceCtorEq, false_iff]
    omega

namespace Machine

open Claims

theorem ModeName.ofByte?_eq_some (x : Byte) (m : ModeName) : ModeName.ofByte? x = some m ↔ m.code = x := by
  constructor
  · intro h
    simpa using List.find?_some h
  · rintro rfl
    cases m <;> decide

theorem Request.getElem?_operands (r : Request) {k : Nat} (h : k < r.operands.length) :
    r.operands[k]? = some (r.op k) := by
  simp [Request.op, List.getD, h]

theorem Request.serial?_eq_some (r : Request) (k : Nat) (n : Serial) :
    r.serial? k = some n ↔ n = r.op3 k ∧ n ≠ 0 ∧ n ≠ 0xFFFFFF := by
  unfold Request.serial?
  constructor
  · intro h
    split at h
    · next hv =>
      obtain rfl := Option.some.inj h
      exact ⟨rfl, (serialValid_iff _).mp hv⟩
    · cases h
  · rintro ⟨rfl, hv⟩
    rw [if_pos ((serialValid_iff _).mpr hv)]

/-! ### Rights and holds (R28, R123) -/

/-- The place of a group's bit in a group set (Table 10.4). -/
theorem groupSet_has (g : Group) (m : GroupSet) : (m &&& g.bit != 0) = m.getLsbD (match g with
    | .radio => 0 | .ack => 1 | .isolate => 2 | .mode => 3 | .commission => 4) := by
  revert m
  cases g <;> decide

theorem State.mayAnywhere_iff (s : State) (n : Sender) (g : Group) :
    s.mayAnywhere n g = true ↔ ∃ a, s.may n g a = true := by
  simp only [State.mayAnywhere, Bool.or_eq_true, or_assoc]
  constructor
  · rintro (h | h | h | h)
    exacts [⟨0, h⟩, ⟨1, h⟩, ⟨2, h⟩, ⟨3, h⟩]
  · rintro ⟨a, h⟩
    match a with
    | 0 => exact .inl h
    | 1 => exact .inr (.inl h)
    | 2 => exact .inr (.inr (.inl h))
    | 3 => exact .inr (.inr (.inr h))

theorem State.mayEverywhere_iff (s : State) (n : Sender) (g : Group) :
    s.mayEverywhere n g = true ↔ ∀ a, s.may n g a = true := by
  simp only [State.mayEverywhere, Bool.and_eq_true, and_assoc]
  constructor
  · rintro ⟨h0, h1, h2, h3⟩ a
    match a with
    | 0 => exact h0
    | 1 => exact h1
    | 2 => exact h2
    | 3 => exact h3
  · exact fun h => ⟨h 0, h 1, h 2, h 3⟩

theorem State.holder_eq_none_iff (s : State) (b : Bay) :
    s.holder b = none ↔ ∀ q h, s.hold q = some h → h.bay ≠ b := by
  constructor
  · exact fun h q k hk => s.holder_eq_none h hk
  · intro h
    cases hq : s.holder b with
    | none => rfl
    | some q =>
      obtain ⟨k, hk, hb⟩ := s.holder_eq_some hq
      exact absurd hb (h q k hk)

theorem State.heldByOther_eq_some (s : State) (p : Port) (b : Bay) (q : Port) :
    s.heldByOther p b = some q ↔ s.holder b = some q ∧ q ≠ p := by
  unfold State.heldByOther
  cases s.holder b with
  | none => simp
  | some x =>
    by_cases hx : x = p
    · simp only [hx, if_true, reduceCtorEq, Option.some.injEq, false_iff, not_and, not_not]
      exact fun h => h.symm
    · simp only [hx, if_false, Option.some.injEq]
      exact ⟨fun h => ⟨h, h ▸ hx⟩, fun h => h.1⟩

/-! ### The tests of R30 -/

/-- Steps 2 to 5 of R30 as the statements have them. -/
theorem State.bayTests_eq (s : State) (p : Port) (n : Sender) (g : Group) (lockActs : Bool) (b : Bay) :
    s.bayTests p n g lockActs b =
      (refusal s p n g lockActs b).map (fun x => { result := x.1, payload := x.2 }) := by
  unfold State.bayTests refusal State.heldByOther
  cases s.may n g b.area with
  | false => rfl
  | true =>
    cases hl : lockActs && s.locked with
    | true =>
      obtain ⟨h1, h2⟩ := Bool.and_eq_true_iff.mp hl
      simp [h1, h2, Answer.bare]
    | false =>
      have hl' : ¬ (lockActs = true ∧ s.locked = true) := by simpa using hl
      cases s.fitted b with
      | false => simp [hl', Answer.bare]
      | true =>
        simp only [hl', Bool.not_true, Bool.false_eq_true, if_false, Bool.true_eq_false]
        cases s.holder b with
        | none => rfl
        | some q => by_cases hq : q = p <;> simp [hq, Answer.heldBy]

/-- A request on a named location: refused in the order of R30, then ABSENT where it needs an enrolled point and there is
none. -/
def RefusesInOrder (g : Group) (lockActs : Bool) (body : Port → Request → State → State × Answer) : Prop :=
  ∀ (p : Port) (r : Request) (s : State),
    (r.loc? = none → body p r s = (s, .bare .range)) ∧
    (∀ l a, r.loc? = some l → s.bayTests p r.sender g lockActs l.bay = some a → body p r s = (s, a)) ∧
    (∀ l, r.loc? = some l → s.bayTests p r.sender g lockActs l.bay = none → s.content l = none →
      body p r s = (s, .bare .absent))

theorem panelRequest_refusesInOrder (g : Group) (own : Request → State → Loc → PointContent → State × Answer) :
    RefusesInOrder g false (panelRequest g own) := by
  intro p r s
  refine ⟨fun h => ?_, fun l a h ha => ?_, fun l h ha hc => ?_⟩
  · simp only [panelRequest, h]
  · simp only [panelRequest, h, ha]
  · simp only [panelRequest, h, ha, hc]

theorem withdraw_refusesInOrder : RefusesInOrder .commission true withdrawBody := by
  intro p r s
  refine ⟨fun h => ?_, fun l a h ha => ?_, fun l h ha hc => ?_⟩
  · simp only [withdrawBody, h]
  · simp only [withdrawBody, h, ha]
  · simp only [withdrawBody, h, ha, hc]

/-- A grant refused by the tests of R30, the refusal as the statements have it. -/
theorem State.grant_refusal {s : State} {code : ReqCode} {p : Port} {r : Request} {g : Group} {lockActs : Bool} {b : Bay}
    {x : Result × List Byte} {body : Port → Request → State → State × Answer} (h : s.grantOf code = some (p, r))
    (hx : refusal s p r.sender g lockActs b = some x)
    (hb : ∀ a, (granted s p).bayTests p r.sender g lockActs b = some a → body p r (granted s p) = (granted s p, a)) :
    s.grant code body = answered (granted s p) p r x.1 x.2 := by
  refine State.grant_refused h (hb { result := x.1, payload := x.2 } ?_)
  have hx' : refusal (granted s p) p r.sender g lockActs b = some x := hx
  rw [State.bayTests_eq, hx']
  rfl

theorem State.bayTests_of_refusal_none {s : State} {p : Port} {n : Sender} {g : Group} {lockActs : Bool} {b : Bay}
    (hx : refusal s p n g lockActs b = none) : (granted s p).bayTests p n g lockActs b = none := by
  have hx' : refusal (granted s p) p n g lockActs b = none := hx
  rw [State.bayTests_eq, hx']
  rfl

theorem RefusesInOrder.grant {g : Group} {lockActs : Bool} {body : Port → Request → State → State × Answer}
    (hb : RefusesInOrder g lockActs body) {s : State} {code : ReqCode} {p : Port} {r : Request}
    (h : s.grantOf code = some (p, r)) :
    (r.loc? = none → s.grant code body = answered (granted s p) p r .range []) ∧
    (∀ l x, r.loc? = some l → refusal s p r.sender g lockActs l.bay = some x →
      s.grant code body = answered (granted s p) p r x.1 x.2) ∧
    (∀ l, r.loc? = some l → refusal s p r.sender g lockActs l.bay = none → s.content l = none →
      s.grant code body = answered (granted s p) p r .absent []) := by
  obtain ⟨hrange, htests, habsent⟩ := hb p r (granted s p)
  exact ⟨fun hl => State.grant_refused h (hrange hl),
    fun l x hl hx => State.grant_refusal h hx (fun a => htests l a hl),
    fun l hl hx hc => State.grant_refused h (habsent l hl (State.bayTests_of_refusal_none hx) hc)⟩

/-- A request whose operands are a location, a serial and a kind, refused in the order of R30 as far as the bay. -/
def CommissionsInOrder (lockActs : Bool) (body : Port → Request → State → State × Answer) : Prop :=
  ∀ (p : Port) (r : Request) (s : State),
    ((r.loc? = none ∨ r.serial? 2 = none ∨ PointKind.ofByte? (r.op 5) = none) → body p r s = (s, .bare .range)) ∧
    (∀ l n k a, r.loc? = some l → r.serial? 2 = some n → PointKind.ofByte? (r.op 5) = some k →
      s.bayTests p r.sender .commission lockActs l.bay = some a → body p r s = (s, a))

theorem enrol_commissionsInOrder : CommissionsInOrder true enrolBody := by
  intro p r s
  refine ⟨fun hn => ?_, fun l n k a hl hn hk ha => by simp only [enrolBody, hl, hn, hk, ha]⟩
  unfold enrolBody
  split
  · next hl hs hk => simp [hl, hs, hk] at hn
  · rfl

theorem repair_commissionsInOrder : CommissionsInOrder false repairBody := by
  intro p r s
  refine ⟨fun hn => ?_, fun l n k a hl hn hk ha => by simp only [repairBody, hl, hn, hk, ha]⟩
  unfold repairBody
  split
  · next hl hs hk => simp [hl, hs, hk] at hn
  · rfl

theorem CommissionsInOrder.command {lockActs : Bool} {body : Port → Request → State → State × Answer}
    (hb : CommissionsInOrder lockActs body) {s : State} {code : ReqCode} {p : Port} {r : Request}
    (hc : exec code.command s = .next (s.grant code body)) (h : s.grantOf code = some (p, r)) :
    ((r.loc? = none ∨ r.serial? 2 = none ∨ PointKind.ofByte? (r.op 5) = none) →
      exec code.command s = .next (answered (granted s p) p r .range [])) ∧
    (∀ l n k x, r.loc? = some l → r.serial? 2 = some n → PointKind.ofByte? (r.op 5) = some k →
      refusal s p r.sender .commission lockActs l.bay = some x →
      exec code.command s = .next (answered (granted s p) p r x.1 x.2)) := by
  rw [hc]
  obtain ⟨hrange, htests⟩ := hb p r (granted s p)
  exact ⟨fun hn => next_congr (State.grant_refused h (hrange hn)),
    fun l n k x hl hn hk hx => next_congr (State.grant_refusal h hx (fun a => htests l n k a hl hn hk))⟩

theorem setMode_refused {s : State} {p : Port} {r : Request} (h : s.grantOf .setMode = some (p, r)) :
    ((Bay.ofByte? (r.op 0) = none ∨ ModeName.ofByte? (r.op 1) = none) →
      s.grant .setMode setModeBody = answered (granted s p) p r .range []) ∧
    (∀ b m x, Bay.ofByte? (r.op 0) = some b → ModeName.ofByte? (r.op 1) = some m →
      refusal s p r.sender .mode false b = some x →
      s.grant .setMode setModeBody = answered (granted s p) p r x.1 x.2) := by
  refine ⟨fun hn => State.grant_refused h (a := .bare .range) ?_, fun b m x hb hm hx => State.grant_refusal h hx ?_⟩
  · unfold setModeBody
    split
    · next hb hm => simp [hb, hm] at hn
    · rfl
  · intro a ha
    simp only [setModeBody, hb, hm, ha]

theorem holdBay_refused {s : State} {p : Port} {r : Request} (h : s.grantOf .holdBay = some (p, r)) :
    (Bay.ofByte? (r.op 0) = none → s.grant .holdBay holdBayBody = answered (granted s p) p r .range []) ∧
    (∀ b x, Bay.ofByte? (r.op 0) = some b → refusal s p r.sender .mode false b = some x →
      s.grant .holdBay holdBayBody = answered (granted s p) p r x.1 x.2) := by
  refine ⟨fun hn => State.grant_refused h (a := .bare .range) ?_, fun b x hb hx => State.grant_refusal h hx ?_⟩
  · simp only [holdBayBody, hn]
  · intro a ha
    simp only [holdBayBody, hb, ha]

/-- A request in its order of refusals, from its grant to the command. -/
theorem RefusesInOrder.command {g : Group} {lockActs : Bool} {body : Port → Request → State → State × Answer}
    (hb : RefusesInOrder g lockActs body) {s : State} {code : ReqCode} {p : Port} {r : Request}
    (hc : exec code.command s = .next (s.grant code body)) (h : s.grantOf code = some (p, r)) :
    (r.loc? = none → exec code.command s = .next (answered (granted s p) p r .range [])) ∧
    (∀ l x, r.loc? = some l → refusal s p r.sender g lockActs l.bay = some x →
      exec code.command s = .next (answered (granted s p) p r x.1 x.2)) ∧
    (∀ l, r.loc? = some l → refusal s p r.sender g lockActs l.bay = none → s.content l = none →
      exec code.command s = .next (answered (granted s p) p r .absent [])) := by
  rw [hc]
  obtain ⟨hrange, htests, habsent⟩ := hb.grant h
  exact ⟨fun hl => next_congr (hrange hl), fun l x hl hx => next_congr (htests l x hl hx),
    fun l hl hx ha => next_congr (habsent l hl hx ha)⟩

/-- Settles O28: the reading of operands and rights, then the refusals request by request. -/
theorem bayRequestsRefusedInOrder : Obligations.BayRequestsRefusedInOrder := by
  refine ⟨fun r => ⟨fun k => r.getElem?_operands, fun _ => rfl, fun _ => rfl,
      fun l => Loc.ofBytes?_eq_some _ _ l, r.serial?_eq_some⟩,
    fun x => ⟨Bay.ofByte?_eq_some x, PointKind.ofByte?_eq_some x, ModeName.ofByte?_eq_some x⟩,
    fun s => ⟨fun n g a => groupSet_has g _, s.mayAnywhere_iff, s.mayEverywhere_iff, fun _ => rfl, rfl,
      fun b => by simp [State.fitted], fun b q => s.holder_eq_some, s.holder_eq_none_iff, s.heldByOther_eq_some⟩,
    fun s p r => ⟨fun code g lockActs hm h => ?_, fun code lockActs hm h => ?_, fun h => ?_, fun h => ?_⟩⟩
  · simp only [List.mem_cons, Prod.mk.injEq, List.not_mem_nil, or_false] at hm
    rcases hm with ⟨rfl, rfl, rfl⟩ | ⟨rfl, rfl, rfl⟩ | ⟨rfl, rfl, rfl⟩ | ⟨rfl, rfl, rfl⟩ | ⟨rfl, rfl, rfl⟩
    · exact (panelRequest_refusesInOrder .ack _).command rfl h
    · exact (panelRequest_refusesInOrder .ack _).command rfl h
    · exact (panelRequest_refusesInOrder .isolate _).command rfl h
    · exact (panelRequest_refusesInOrder .isolate _).command rfl h
    · exact withdraw_refusesInOrder.command rfl h
  · simp only [List.mem_cons, Prod.mk.injEq, List.not_mem_nil, or_false] at hm
    rcases hm with ⟨rfl, rfl⟩ | ⟨rfl, rfl⟩
    · exact enrol_commissionsInOrder.command rfl h
    · exact repair_commissionsInOrder.command rfl h
  · exact ⟨fun hn => next_congr ((setMode_refused h).1 hn),
      fun b m x hb hm hx => next_congr ((setMode_refused h).2 b m x hb hm hx)⟩
  · exact ⟨fun hn => next_congr ((holdBay_refused h).1 hn),
      fun b x hb hx => next_congr ((holdBay_refused h).2 b x hb hx)⟩

end Machine
end Sys2Proof
end

