-- ==== Sys2Proof/Proofs/Integrity.lean ====
section
/-! SUPPORT. The verification of a record, the handling of its failure and copy-before-write, each in one equation
(R13, R160, R170, R171). -/

namespace Sys2Proof

/-- The content rebuilt after a failure, field by field (R171). -/
theorem PointContent.rebuilt_eq (c : PointContent) : c.rebuilt =
    { c with
      suspect := true, links := [], lastSeq := none
      condition := if c.condition = .alarm ∨ c.condition = .fault .integrity then c.condition else .fault .integrity
      ack := if c.condition = .alarm ∨ c.condition = .fault .integrity then c.ack else none
      confirmation := if c.condition = .alarm ∨ c.condition = .fault .integrity then c.confirmation else none } := by
  unfold PointContent.rebuilt
  dsimp only
  split
  · rfl
  · rfl

theorem PointContent.rebuilt_ne_pending (c : PointContent) : c.rebuilt.condition ≠ .pending := by
  intro h
  have := c.needsAck_rebuilt
  rw [h] at this
  cases this

namespace Machine

open Claims

/-- The verification of R170: the check code, then the map's entry for the location. -/
theorem State.verified_eq (s : State) (l : Loc) : s.verified l = match s.points.find l.key with
    | none => true
    | some e => e.codeHolds && (match s.enrolMap.find? (fun x => x.2 = l) with
      | none => e.content.suspect
      | some x => !e.content.suspect && x.1 == e.content.serial.toNat) := by
  unfold State.verified State.mappedAt
  cases s.points.find l.key with
  | none => rfl
  | some e =>
    cases s.enrolMap.find? (fun x => x.2 = l) with
    | none => cases h : e.content.suspect <;> simp [h]
    | some x => cases h : e.content.suspect <;> simp [h]

/-- The handling of a failed record, whole (R171). -/
theorem State.handleFailure_eq {s : State} {l : Loc} {c : PointContent} (h : s.content l = some c) :
    s.handleFailure l = ({ (if s.needsCopy l then
        { s with snapRecords := s.snapRecords.insert l.key { bad := true, content := some c } } else s) with
      enrolMap := s.enrolMap.filter (fun e => e.2 ≠ l)
      polls := s.polls.map (fun (q : List PollItem) => q.filter (fun i => i.loc ≠ l)) }.append
        (record .integrity l (some c.condition) (some c.rebuilt.condition) .integrity none none)).writePoint l
          c.rebuilt := by
  have hc : s.copyIn l true = { s with snapRecords := s.snapRecords.insert l.key { bad := true, content := some c } } := by
    rw [State.copyIn, h]
  simp only [State.handleFailure, h, hc]
  cases s.needsCopy l <;> rfl

/-- Copy-before-write of a record that passes its verification, where a snapshot needs it (R160). -/
theorem State.copyBefore_verified {s : State} {l : Loc} (hn : s.needsCopy l = true) (hv : s.verified l = true) :
    s.copyBefore l = s.copyIn l false := by
  simp only [State.copyBefore, hn, hv, if_true]

/-- Copy-before-write of a record that fails its verification (R161). -/
theorem State.copyBefore_failed {s : State} {l : Loc} (hn : s.needsCopy l = true) (hv : s.verified l = false) :
    s.copyBefore l = s.handleFailure l := by
  simp only [State.copyBefore, hn, hv, if_true, Bool.false_eq_true, if_false]

theorem State.copyBefore_unneeded {s : State} {l : Loc} (hn : s.needsCopy l = false) : s.copyBefore l = s := by
  simp only [State.copyBefore, hn, Bool.false_eq_true, if_false]

theorem State.writePoint_frame (s : State) (l : Loc) (c : PointContent) : ∃ points,
    s.writePoint l c = { s with points := points } ∧
    points.find l.key = some { content := c, codeHolds := true, written := c } ∧
    ∀ k, k ≠ l.key → points.find k = s.points.find k :=
  ⟨_, rfl, Table.find_insert_self _ _ _, fun _ hk => Table.find_insert_ne _ _ _ _ hk.symm⟩

/-- Settles O52. -/
theorem failureHandlingFollowsR171 : Obligations.FailureHandlingFollowsR171 := by
  refine ⟨fun s l => ⟨rfl, rfl⟩, fun s l c h => ⟨c.rebuilt_eq, ?_, s.verified_handleFailure l h⟩, State.writePoint_frame,
    State.verified_eq⟩
  rw [State.handleFailure_eq h, c.rebuilt_eq]

end Machine
end Sys2Proof
end

