-- ==== Sys2Proof/Proofs/Visits.lean ====
section
/-! SUPPORT. The poll rule and the visit to a bay (R108 to R115). -/

namespace Sys2Proof.Machine

open Claims

/-! ### The poll rule (R111, R113, R115) -/

/-- A sender's queue takes an item for a location: it holds none for it and has room (R111, R113). -/
def State.pollOpen (s : State) (n : Sender) (l : Loc) : Prop :=
  (∀ i ∈ s.polls.get n, i.loc ≠ l) ∧ (s.polls.get n).length < 16

/-- An item offered to a queue that takes it. -/
theorem State.pollAdd_open {s : State} {n : Sender} {i : PollItem} (h : s.pollOpen n i.loc) :
    s.pollAdd n i = { s with polls := s.polls.set n (s.polls.get n ++ [i]) }.raiseWhere
      (fun p => (s.bound.get p).has n) .polls := by
  obtain ⟨hnone, hroom⟩ := h
  have hh : s.pollHas n i.loc = false := by simpa [State.pollHas] using hnone
  have hroom : (s.polls.get n).length < Config.pollCapacity := hroom
  simp only [State.pollAdd, hh, Bool.false_eq_true, if_false, hroom, if_true]

theorem State.pollAdd_shut {s : State} {n : Sender} {i : PollItem} (h : ¬ s.pollOpen n i.loc) : s.pollAdd n i = s := by
  unfold State.pollAdd
  split
  · rfl
  · next hh => exact if_neg (fun hl => h ⟨by simpa [State.pollHas] using hh, hl⟩)

theorem State.pollOpen_congr {s t : State} {n : Sender} (h : t.polls.get n = s.polls.get n) (l : Loc) :
    t.pollOpen n l ↔ s.pollOpen n l := by
  rw [State.pollOpen, State.pollOpen, h]

theorem PortState.raise_raise (q : PortState) (e : Event) : (q.raise e).raise e = q.raise e := by
  simp [PortState.raise, BitVec.or_assoc]

/-- An item has been offered to the queues of some senders: each that takes it has it at its tail, and the ports bound
to one that took it have been told. -/
structure PollsAdded (s t : State) (ns : List Sender) (i : PollItem) : Prop where
  frame : ∃ polls ports, t = { s with polls := polls, ports := ports }
  taken : ∀ n ∈ ns, s.pollOpen n i.loc → t.polls.get n = s.polls.get n ++ [i]
  kept : ∀ n, ¬ (n ∈ ns ∧ s.pollOpen n i.loc) → t.polls.get n = s.polls.get n
  told : ∀ p, (∃ n ∈ ns, s.pollOpen n i.loc ∧ (s.bound.get p).has n = true) → t.port p = (s.port p).raise .polls
  untold : ∀ p, (∀ n ∈ ns, s.pollOpen n i.loc → (s.bound.get p).has n = false) → t.port p = s.port p

/-- What one offer does of the queues and the ports. -/
theorem State.polls_pollAdd {s : State} {n : Sender} {i : PollItem} (h : s.pollOpen n i.loc) (m : Sender) :
    (s.pollAdd n i).polls.get m = if n = m then s.polls.get n ++ [i] else s.polls.get m := by
  rw [State.pollAdd_open h]
  exact PerSender.get_set _ _ _ _

theorem State.port_pollAdd {s : State} {n : Sender} {i : PollItem} (h : s.pollOpen n i.loc) (p : Port) :
    (s.pollAdd n i).port p = if (s.bound.get p).has n then (s.port p).raise .polls else s.port p := by
  rw [State.pollAdd_open h, State.port_raiseWhere]
  rfl

/-- Offers to distinct senders, one after another. -/
theorem PollsAdded.foldl (i : PollItem) (ns : List Sender) (hn : ns.Nodup) (s : State) :
    PollsAdded s (ns.foldl (fun s n => s.pollAdd n i) s) ns i := by
  induction ns generalizing s with
  | nil => exact ⟨⟨_, _, rfl⟩, by simp, fun _ _ => rfl, by simp, fun _ _ => rfl⟩
  | cons n ns ih =>
    obtain ⟨hni, hns⟩ := List.nodup_cons.mp hn
    have ne_of_mem : ∀ m ∈ ns, n ≠ m := fun m hm h => hni (h ▸ hm)
    rw [List.foldl_cons]
    by_cases ho : s.pollOpen n i.loc
    · obtain ⟨⟨polls, ports, hf⟩, htaken, hkept, htold, huntold⟩ := ih hns (s.pollAdd n i)
      have hopen : ∀ m ∈ ns, ((s.pollAdd n i).pollOpen m i.loc ↔ s.pollOpen m i.loc) := fun m hm =>
        State.pollOpen_congr (by rw [State.polls_pollAdd ho, if_neg (ne_of_mem m hm)]) _
      have hbound : (s.pollAdd n i).bound = s.bound := State.pollAdd_bound s n i
      have hport (p : Port) : (ns.foldl (fun s n => s.pollAdd n i) (s.pollAdd n i)).port p =
          ((s.pollAdd n i).port p).raise .polls ∨
          (ns.foldl (fun s n => s.pollAdd n i) (s.pollAdd n i)).port p = (s.pollAdd n i).port p := by
        by_cases hex : ∃ m ∈ ns, (s.pollAdd n i).pollOpen m i.loc ∧ ((s.pollAdd n i).bound.get p).has m = true
        · exact .inl (htold p hex)
        · push Not at hex
          exact .inr (huntold p (fun m hm ho' => by simpa using hex m hm ho'))
      refine ⟨?_, fun m hm hmo => ?_, fun m hm => ?_, fun p hp => ?_, fun p hp => ?_⟩
      · refine ⟨polls, ports, hf.trans ?_⟩
        rw [State.pollAdd_open ho]
        rfl
      · rcases List.mem_cons.mp hm with rfl | hm
        · rw [hkept m (fun h => hni h.1), State.polls_pollAdd ho, if_pos rfl]
        · rw [htaken m hm ((hopen m hm).mpr hmo), State.polls_pollAdd ho, if_neg (ne_of_mem m hm)]
      · have hnm : n ≠ m := fun h => hm ⟨by simp [h], h ▸ ho⟩
        rw [hkept m (fun h => hm ⟨List.mem_cons_of_mem _ h.1, (hopen m h.1).mp h.2⟩), State.polls_pollAdd ho,
          if_neg hnm]
      · obtain ⟨m, hm, hmo, hb⟩ := hp
        rcases List.mem_cons.mp hm with rfl | hm
        · have h1 : (s.pollAdd m i).port p = (s.port p).raise .polls := by rw [State.port_pollAdd ho, if_pos hb]
          rcases hport p with h | h <;> rw [h, h1]
          exact PortState.raise_raise _ _
        · rw [htold p ⟨m, hm, (hopen m hm).mpr hmo, hbound ▸ hb⟩, State.port_pollAdd ho]
          split
          · exact PortState.raise_raise _ _
          · rfl
      · rw [huntold p (fun m hm hmo => hbound ▸ hp m (List.mem_cons_of_mem _ hm) ((hopen m hm).mp hmo)),
          State.port_pollAdd ho, hp n (by simp) ho]
        rfl
    · rw [State.pollAdd_shut ho]
      obtain ⟨hf, htaken, hkept, htold, huntold⟩ := ih hns s
      have tail : ∀ m ∈ n :: ns, s.pollOpen m i.loc → m ∈ ns := by
        intro m hm hmo
        rcases List.mem_cons.mp hm with rfl | hm
        · exact absurd hmo ho
        · exact hm
      exact ⟨hf, fun m hm hmo => htaken m (tail m hm hmo) hmo,
        fun m hm => hkept m (fun h => hm ⟨List.mem_cons_of_mem _ h.1, h.2⟩),
        fun p ⟨m, hm, hmo, hb⟩ => htold p ⟨m, tail m hm hmo, hmo, hb⟩,
        fun p hp => huntold p (fun m hm => hp m (List.mem_cons_of_mem _ hm))⟩

/-- The poll targets: the sender of the best link, or every sender with RADIO in the area (R111). -/
theorem State.mem_pollTargets (s : State) (l : Loc) (c : PointContent) (n : Sender) :
    n ∈ s.pollTargets l c ↔ match c.links with
      | k :: _ => k.sender = n
      | [] => s.may n .radio l.bay.area = true := by
  unfold State.pollTargets
  cases c.links with
  | nil => simp [Sender.mem_all]
  | cons k ks => simp [eq_comm]

theorem State.nodup_pollTargets (s : State) (l : Loc) (c : PointContent) : (s.pollTargets l c).Nodup := by
  unfold State.pollTargets
  cases c.links with
  | nil => exact List.Nodup.filter _ (by decide)
  | cons k ks => simp

/-- A sender whom the poll rule gives the point's item (R111, R113). -/
def State.polled (s : State) (l : Loc) (c : PointContent) (n : Sender) : Prop :=
  (c.suspect = false ∧ s.timing.pollAge.toNat ≤ c.age.val) ∧ n ∈ s.pollTargets l c ∧ s.pollOpen n l

/-- The poll rule whole (R111, R112, R113, R115). -/
theorem State.pollRule_spec (s : State) (l : Loc) (c : PointContent) :
    (∃ polls ports, s.pollRule l c = { s with polls := polls, ports := ports }) ∧
    (∀ n, s.polled l c n → (s.pollRule l c).polls.get n = s.polls.get n ++ [pollItemOf l c]) ∧
    (∀ n, ¬ s.polled l c n → (s.pollRule l c).polls.get n = s.polls.get n) ∧
    (∀ p, (∃ n, s.polled l c n ∧ (s.bound.get p).has n = true) →
      (s.pollRule l c).port p = (s.port p).raise .polls) ∧
    (∀ p, (∀ n, s.polled l c n → (s.bound.get p).has n = false) → (s.pollRule l c).port p = s.port p) := by
  by_cases hdue : c.suspect = false ∧ s.timing.pollAge.toNat ≤ c.age.val
  · have hrule : s.pollRule l c = (s.pollTargets l c).foldl (fun s n => s.pollAdd n (pollItemOf l c)) s := by
      simp only [State.pollRule, hdue.1, Bool.not_false, Bool.true_and, decide_eq_true_eq, hdue.2, if_true]
    obtain ⟨hf, htaken, hkept, htold, huntold⟩ :=
      PollsAdded.foldl (pollItemOf l c) _ (s.nodup_pollTargets l c) s
    rw [hrule]
    exact ⟨hf, fun n ⟨_, hn, ho⟩ => htaken n hn ho, fun n hn => hkept n (fun ⟨h1, h2⟩ => hn ⟨hdue, h1, h2⟩),
      fun p ⟨n, ⟨_, hn, ho⟩, hb⟩ => htold p ⟨n, hn, ho, hb⟩,
      fun p hp => huntold p (fun n hn ho => hp n ⟨hdue, hn, ho⟩)⟩
  · have hrule : s.pollRule l c = s := by
      refine if_neg (fun h => hdue ?_)
      simpa using h
    rw [hrule]
    exact ⟨⟨_, _, rfl⟩, fun n hn => absurd hn.1 hdue, fun _ _ => rfl, fun p ⟨n, hn, _⟩ => absurd hn.1 hdue,
      fun _ _ => rfl⟩

/-! ### The visit at one location (R108, R109, R110) -/

/-- The content of a visited point one round on: its age up, held at 15, its links aged (R8, R17). -/
def visitedContent (d : PointContent) : PointContent := { d with age := ageUp d.age, links := agedLinks d.links }

theorem ageUp_val (a : Fin 16) : (ageUp a).val = min 15 (a.val + 1) := by
  have := a.isLt
  unfold ageUp
  split
  · dsimp only
    omega
  · omega

/-- The MISSING rule on a visited point (R110, Table 5.1). -/
theorem missingDue_iff (t : Timing) (d : PointContent) : missingDue t d = true ↔
    d.suspect = false ∧ t.missingAge.toNat ≤ d.age.val ∧
      d.condition ∈ [.unheard, .quiet, .watch, .fault .device, .fault .removed, .fault .battery] := by
  simp only [missingDue, Bool.and_eq_true, Bool.not_eq_true', decide_eq_true_eq, and_assoc]
  refine and_congr_right (fun _ => and_congr_right (fun _ => ?_))
  generalize d.condition = k
  cases k with
  | fault x => cases x <;> decide
  | _ => decide

/-- The content that a visit leaves of a record as checked (R108, R110). -/
def afterVisit (t : Timing) (d : PointContent) : PointContent :=
  if missingDue t (visitedContent d) then toMissing (visitedContent d) else visitedContent d

/-- What copy-before-write and the check of a visit leave of a record. -/
theorem State.content_checked {s : State} {l : Loc} {c : PointContent} (h : s.content l = some c) :
    ((s.copyBefore l).verify l).content l = some (if s.verified l then c else c.rebuilt) := by
  cases hn : s.needsCopy l with
  | false => rw [State.copyBefore_unneeded hn, State.content_verify_self, h]; rfl
  | true =>
    cases hv : s.verified l with
    | true =>
      have hv' : (s.copyIn l false).verified l = true := hv
      rw [State.copyBefore_verified hn hv, State.verify, if_pos hv', if_pos rfl]
      exact h
    | false =>
      rw [State.copyBefore_failed hn hv, State.verify, if_pos (s.verified_handleFailure l h),
        s.content_handleFailure l h]
      rfl

theorem State.checked_timing (s : State) (l : Loc) : ((s.copyBefore l).verify l).timing = s.timing :=
  ((s.copyBefore_changes l).trans (State.verify_changes _ l)).frame.timing

/-- A visit at an enrolled location: the copy, the check, and the ageing of what they leave. -/
theorem State.visitPoint_enrolled {s : State} {l : Loc} {c : PointContent} (h : s.content l = some c) :
    s.visitPoint l = ((s.copyBefore l).verify l).agePoint l (if s.verified l then c else c.rebuilt) := by
  simp only [State.visitPoint, h, State.content_checked h]

theorem State.visitPoint_none {s : State} {l : Loc} (h : s.content l = none) : s.visitPoint l = s := by
  simp only [State.visitPoint, h]

/-- The ageing of a point, the MISSING rule and the poll rule (R108 steps 2 to 5). -/
theorem State.agePoint_eq (s : State) (l : Loc) (d : PointContent) : s.agePoint l d =
    if missingDue s.timing (visitedContent d) then
      ((s.writePoint l (toMissing (visitedContent d))).append
        (record .condition l (some d.condition) (some .missing) .sweep none none)).pollRule l (toMissing (visitedContent d))
    else (s.writePoint l (visitedContent d)).pollRule l (visitedContent d) := rfl

theorem State.content_pollRule (s : State) (l x : Loc) (c : PointContent) : (s.pollRule l c).content x = s.content x :=
  (View.pollRule s l c x).content

theorem State.content_agePoint (s : State) (l : Loc) (d : PointContent) :
    (s.agePoint l d).content l = some (afterVisit s.timing d) := by
  rw [State.agePoint_eq, afterVisit]
  split
  · rw [State.content_pollRule, State.append_content, State.content_writePoint_self]
  · rw [State.content_pollRule, State.content_writePoint_self]

/-- The content that a visit leaves at an enrolled location. -/
theorem State.content_visitPoint {s : State} {l : Loc} {c : PointContent} (h : s.content l = some c) :
    (s.visitPoint l).content l = some (afterVisit s.timing (if s.verified l then c else c.rebuilt)) := by
  rw [State.visitPoint_enrolled h, State.content_agePoint, State.checked_timing]

/-! ### The visit to a bay (R108) -/

/-- The visit to a bay does at each of its points what the visit at that point alone does. -/
theorem State.content_visitBay {s : State} {l : Loc} {c : PointContent} (h : s.content l = some c) :
    (s.visitBay l.bay).content l = some (afterVisit s.timing (if s.verified l then c else c.rebuilt)) := by
  obtain ⟨before, h1, h2⟩ :=
    View.foldl_at View.visitPoint (Bay.locs l.bay) (Bay.nodup_locs _) s l ((Bay.mem_locs _ _).mpr rfl)
  have htiming : (before.foldl State.visitPoint s).timing = s.timing :=
    (ImageChanges.foldl State.visitPoint_changes s before).frame.timing
  have hat := State.content_visitPoint (h1.content.trans h)
  rw [h1.verified, htiming] at hat
  rw [State.visitBay, h2.content, hat]

/-- The visit to a bay touches no point of another bay and enrols none. -/
theorem State.content_visitBay_other {s : State} {b : Bay} {l : Loc} (h : l.bay ≠ b ∨ s.content l = none) :
    (s.visitBay b).content l = s.content l := by
  rcases h with h | h
  · exact (View.foldl View.visitPoint b.locs s l (fun hl => h ((Bay.mem_locs _ _).mp hl))).content
  · have := (s.visitBay_changes b).frame.enrolled l
    rw [h] at this ⊢
    simpa using this

/-- Settles O47: the visit at one location, then what a bay's visit leaves of each, then the poll rule. -/
theorem visitFollowsR108 : Obligations.VisitFollowsR108 := by
  refine ⟨fun _ _ => rfl, fun s l => State.visitPoint_none, fun s l c h => ?_,
    fun s b l => State.content_visitBay_other, fun s l c => ?_⟩
  · intro d age aged gone missing checked
    have hage : ageUp d.age = ⟨age, by omega⟩ := Fin.ext (ageUp_val d.age)
    have haged : visitedContent d = aged := by
      unfold visitedContent
      rw [hage]
    have hgone : toMissing (visitedContent d) = gone := by rw [haged]; rfl
    have hmissing : missingDue s.timing (visitedContent d) = true ↔ missing := by rw [missingDue_iff, haged]
    constructor
    · rw [State.visitPoint_enrolled h, State.agePoint_eq, State.checked_timing]
      refine if_congr hmissing ?_ ?_
      · rw [← hgone]
        rfl
      · rw [← haged]
        rfl
    · rw [State.content_visitBay h]
      exact congrArg some (if_congr hmissing hgone haged)
  · intro adds
    have hadds (n : Sender) : adds n ↔ s.polled l c n :=
      and_assoc.symm.trans (and_congr_right' (and_congr_left' (s.mem_pollTargets l c n).symm))
    obtain ⟨hframe, htaken, hkept, htold, huntold⟩ := s.pollRule_spec l c
    exact ⟨hframe, fun n hn => htaken n ((hadds n).mp hn), fun n hn => hkept n (fun h => hn ((hadds n).mpr h)),
      fun p ⟨n, hn, hb⟩ => htold p ⟨n, (hadds n).mp hn, hb⟩,
      fun p hp => huntold p (fun n hn => hp n ((hadds n).mpr hn))⟩

end Sys2Proof.Machine
end

