-- ==== Sys2Proof/Proofs/Expiries.lean ====
section
/-! SUPPORT. The expiries of timers, where they are due, and storage upsets (R13, R82, R92, R125, R166, R170). -/

namespace Sys2Proof.Machine

open Claims

/-! ### Confirmation timers (R82) -/

/-- A PENDING point goes to QUIET: where the copy due finds its record failed, that failure is handled instead (R173). -/
theorem State.pendingToQuiet_eq {s : State} {l : Loc} {c : PointContent} (h : s.content l = some c)
    (hp : c.condition = .pending) (cause : Cause) (doneBy : Option Sender) :
    s.pendingToQuiet l cause doneBy =
      if s.needsCopy l = true ∧ s.verified l = false then s.handleFailure l
      else ((s.copyBefore l).writePoint l { c with condition := .quiet, ack := none, confirmation := none }).append
        (record .condition l (some .pending) (some .quiet) cause doneBy none) := by
  have hc := s.content_copyBefore_self l h
  split
  · next hf =>
    rw [if_pos hf] at hc
    simp only [State.pendingToQuiet, h, hp, if_true, hc, c.rebuilt_ne_pending, if_false]
    exact State.copyBefore_failed hf.1 hf.2
  · next hf =>
    rw [if_neg hf] at hc
    simp only [State.pendingToQuiet, h, hp, if_true, hc, State.enterCondition]
    rfl

theorem State.confirmationExpiry_due {s : State} {l : Loc} {c : PointContent} {f : Confirmation}
    (hs : s.inService = true) (h : s.content l = some c) (hp : c.condition = .pending)
    (hf : c.confirmation = some f) (hd : f.deadline = s.count) :
    s.confirmationExpiry l = fired s (s.pendingToQuiet l .timer none) := by
  have hdue : s.confirmationDue c = true := by simp [State.confirmationDue, hp, hf, hd]
  simp only [State.confirmationExpiry, h, hs, hdue, Bool.and_self, if_true]
  rfl

/-! ### Service, hold and keep timers (R92, R125, R166) -/

theorem State.serviceExpiry_due {s : State} {b : Bay} {t : Countdown} (hs : s.inService = true)
    (hm : (s.bay b).mode = .service t) (ht : t.runOut = true) :
    s.serviceExpiry b = (s.setMode b .normal).append (modeChange b .service .normal .timer none) := by
  have hout : (s.bay b).serviceOut = true := by simp only [BayRecord.serviceOut, hm, ht]
  simp only [State.serviceExpiry, hs, hout, Bool.and_self, if_true]

theorem State.holdExpiry_due {s : State} {p : Port} {h : Hold} (hs : s.inService = true) (hp : s.hold p = some h)
    (ht : h.timer.runOut = true) : s.holdExpiry p = fired s (s.endHold p h.bay (some .expired)) := by
  simp only [State.holdExpiry, hp, hs, ht, Bool.and_self, if_true]
  rfl

/-- An event set on one port, as the statements have it. -/
theorem State.raiseOn_eq (s : State) (p : Port) (e : Event) : s.raiseOn p e = withPort s p (fun q => q.raise e) := by
  cases p <;> rfl

theorem State.keepExpiry_due {s : State} {o : Port} {m : SeqNum} {c : Count} {t : Countdown} (hs : s.inService = true)
    (hr : s.snap = .ready o m c t) (ht : t.runOut = true) :
    s.keepExpiry = withPort s.snapEnd o (fun q => q.raise .snapshotEnded) := by
  simp only [State.keepExpiry, hr, hs, ht, Bool.and_self, if_true, State.raiseOn_eq]

/-! ### Storage upsets (R13, R25, R170) -/

/-- A storage upset of an enrolled record, whole. -/
theorem State.upsetPoint_enrolled {s : State} {l : Loc} {e : PointRecord} (h : s.points.find l.key = some e)
    (d : PointContent) : s.upsetPoint l d =
      { s with points := s.points.insert l.key { e with content := d, codeHolds := false } } := by
  simp only [State.upsetPoint, h]

/-- Rewriting a record with what the part last wrote of it kept leaves every count (R25). -/
theorem State.countOf_insert {s : State} (hs : s.pointsSound) {k : Nat} {e r : PointRecord}
    (h : s.points.find k = some e) (hr : r.written = e.written) (f : PointContent → Bool) :
    ({ s with points := s.points.insert k r } : State).countOf f = s.countOf f := by
  have hcount := Table.countP_insert s.points k r (fun x => f x.2.written) hs.1
  rw [h, hr] at hcount
  exact Nat.add_right_cancel hcount

theorem storageUpset_enrolled {s : State} {l : Loc} {c d : PointContent} (hs : s.pointsSound)
    (hp : s.phase ≠ .unpowered) (hd : d.fits = true) (hc : s.content l = some c) :
    ∃ points, exec (.storageUpset l d) s = .next { s with points := points } ∧
      (∃ e, points.find l.key = some e ∧ e.content = d ∧ e.codeHolds = false ∧
        (s.points.find l.key).map (·.written) = some e.written) ∧
      (∀ k, k ≠ l.key → points.find k = s.points.find k) ∧
      (∀ f, ({ s with points := points } : State).countOf f = s.countOf f) := by
  obtain ⟨e, he, -⟩ := Option.map_eq_some_iff.mp hc
  refine ⟨s.points.insert l.key { e with content := d, codeHolds := false }, next_congr ?_,
    ⟨_, Table.find_insert_self _ _ _, rfl, rfl, by rw [he]; rfl⟩,
    fun k hk => Table.find_insert_ne _ _ _ _ hk.symm, State.countOf_insert hs he rfl⟩
  rw [State.upset, if_pos ⟨hp, hd⟩, State.upsetPoint_enrolled he]

/-- Settles O51, event by event. -/
theorem expiriesAndUpsets : Obligations.ExpiriesAndUpsets := by
  refine ⟨fun s hs => ⟨fun l c f h hp hf hd => next_congr ?_, fun b t hm ht => next_congr ?_,
    fun p h hp ht => next_congr ?_, fun o m c t hr ht => next_congr ?_⟩, fun s l c d => storageUpset_enrolled⟩
  · rw [State.confirmationExpiry_due hs h hp hf hd, State.pendingToQuiet_eq h hp]
  · exact State.serviceExpiry_due hs hm ht
  · exact State.holdExpiry_due hs hp ht
  · exact State.keepExpiry_due hs hr ht

end Sys2Proof.Machine
end

