-- ==== Sys2Proof/Proofs/Lines.lean ====
section
/-! SUPPORT. The FIRE and FAULT lines follow the counts, and a rise of the alarm count from 0 sets the FIRE event
(R101, R102). -/

namespace Sys2Proof.Machine

open Claims

/-! ### The lines (R101, R102) -/

/-- A count is not 0 exactly while some enrolled point, taken as the part last wrote its record, is counted. -/
theorem State.countOf_ne_zero {s : State} (hs : s.pointsSound) (f : PointContent → Bool) :
    s.countOf f ≠ 0 ↔ ∃ (l : Loc) (e : PointRecord), s.points.find l.key = some e ∧ f e.written = true := by
  rw [← Nat.pos_iff_ne_zero, State.countOf, List.countP_pos_iff]
  constructor
  · rintro ⟨⟨k, e⟩, he, hf⟩
    obtain ⟨-, l, rfl, -⟩ := hs.2 _ he
    exact ⟨l, e, Table.find_of_mem hs.1 he, hf⟩
  · rintro ⟨l, e, he, hf⟩
    exact ⟨_, Table.mem_of_find he, hf⟩

theorem State.fireLine_iff (s : State) : s.fireLine = true ↔ s.inService = true ∧ s.countOf (·.inAlarmCount) ≠ 0 := by
  simp [State.fireLine, State.alarmCount]

theorem State.faultLine_iff (s : State) : s.faultLine = true ↔ s.inService = true ∧ s.countOf (·.inTroubleCount) ≠ 0 := by
  simp [State.faultLine, State.troubleCount]

/-! ### The FIRE event (R101) -/

/-- From `s` to `t` the FIRE event has been set on a port, or the alarm count has not risen from 0. -/
def FireKept (s t : State) (p : Port) : Prop :=
  s.alarmCount = 0 → t.alarmCount ≠ 0 → Event.isIn .fire (t.port p).flags = true

theorem State.alarmCount_of_points {s t : State} (h : t.points = s.points) : t.alarmCount = s.alarmCount := by
  rw [State.alarmCount, State.countOf, h]
  rfl

/-- An event that writes no record raises no count. -/
theorem FireKept.of_points {s t : State} (h : t.points = s.points) (p : Port) : FireKept s t p :=
  fun h0 h1 => absurd ((State.alarmCount_of_points h).trans h0) h1

/-- An event that ends with the test of R101. -/
theorem FireKept.settleFire (s t : State) (p : Port) : FireKept s (s.settleFire t) p := by
  intro h0 h1
  unfold State.settleFire at *
  split at h1
  · next h =>
    rw [if_pos h, State.port_raiseAll, PortState.isIn_raise]
    simp
  · next h => exact absurd ⟨h0, h1⟩ h

theorem FireKept.grant (s : State) (code : ReqCode) (body : Port → Request → State → State × Answer) (p : Port) :
    FireKept s (s.grant code body) p := by
  unfold State.grant State.grantRaw
  split
  · exact .of_points rfl p
  · next q r _ =>
    intro h0 h1
    have hkept := FireKept.settleFire s (body q r (s.granting q)).1 p h0 h1
    rw [State.port_respond]
    split
    · next hq => subst hq; exact hkept
    · exact hkept

/-- PORT-RESET sets FIRE before it empties the flags of the port it is granted to (log 22). -/
theorem FireKept.portReset {s : State} {p : Port} (h : ∀ r, s.grantOf .portReset ≠ some (p, r)) :
    FireKept s (s.grantRaw .portReset portResetBody) p := by
  unfold State.grantRaw
  split
  · exact .of_points rfl p
  · next q r hg =>
    intro h0 h1
    have hq : q ≠ p := fun hq => h r (hq ▸ hg)
    rw [State.port_respond, if_neg hq]
    unfold portResetBody
    rw [State.port_setPort_ne _ _ _ _ hq]
    exact FireKept.settleFire (s.granting q) _ p h0 h1

theorem State.unitEnd_points (s : State) (b : TimeBlock) : (s.unitEnd b).points = s.points := by
  unfold State.unitEnd
  split
  · rfl
  · next s1 h1 =>
    obtain ⟨owes, k, rfl⟩ := takeUnit_eq h1
    cases b with
    | engine => rfl
    | bayTable => simp
    | holdUnit => rfl
    | snapshotUnit => dsimp only; split <;> rfl
    | sweep =>
      dsimp only
      split
      · rfl
      · split <;> rfl

theorem FireKept.periodicStep (s : State) (p : Port) : FireKept s s.periodicStep p := by
  unfold State.periodicStep
  split
  · split
    · exact .of_points rfl p
    · exact .settleFire s _ p
  · exact .of_points rfl p

theorem FireKept.copyStep (s : State) (p : Port) : FireKept s s.copyStep p := by
  unfold State.copyStep
  split
  · split
    · exact .of_points rfl p
    · exact .settleFire s _ p
  · exact .of_points rfl p
  · exact .of_points rfl p

theorem FireKept.confirmationExpiry (s : State) (l : Loc) (p : Port) : FireKept s (s.confirmationExpiry l) p := by
  unfold State.confirmationExpiry
  split
  · exact .of_points rfl p
  · split
    · exact .settleFire s _ p
    · exact .of_points rfl p

theorem FireKept.holdExpiry (s : State) (q p : Port) : FireKept s (s.holdExpiry q) p := by
  unfold State.holdExpiry
  split
  · exact .of_points rfl p
  · split
    · exact .settleFire s _ p
    · exact .of_points rfl p

theorem State.serviceExpiry_points (s : State) (b : Bay) : (s.serviceExpiry b).points = s.points := by
  unfold State.serviceExpiry
  split
  · rw [State.append_points]
    rfl
  · rfl

theorem State.keepExpiry_points (s : State) : s.keepExpiry.points = s.points := by
  unfold State.keepExpiry
  split
  · split <;> rfl
  · rfl
  · rfl

theorem State.beginTransaction_points (s : State) (p : Port) : (s.beginTransaction p).points = s.points := by
  unfold State.beginTransaction
  split <;> rfl

theorem State.takeFrame_points (s : State) (p : Port) (bytes : List Byte) : (s.takeFrame p bytes).points = s.points := by
  unfold State.takeFrame
  split
  · rfl
  · split <;> rfl

theorem State.endTransaction_points (s : State) (p : Port) (sdi : List Bool) :
    (s.endTransaction p sdi).points = s.points := by
  unfold State.endTransaction
  split
  · rfl
  · split
    · dsimp only
      split
      · exact State.takeFrame_points _ _ _
      · rfl
      · split
        · rfl
        · exact State.takeFrame_points _ _ _
    · rfl

/-- An upset leaves what the part last wrote of the record, so it raises no count (R25). -/
theorem FireKept.upset (s : State) (l : Loc) (d : PointContent) (p : Port) : FireKept s (s.upset l d) p := by
  unfold State.upset State.upsetPoint
  split
  · split
    · exact .of_points rfl p
    · next r hr =>
      intro h0 h1
      rw [State.alarmCount, State.countOf, List.countP_eq_zero] at h0
      refine absurd (List.countP_eq_zero.mpr (fun e he => ?_)) h1
      rcases Table.mem_insert _ _ _ he with rfl | he
      · exact h0 (l.key, r) (Table.mem_of_find hr)
      · exact h0 e he
  · exact .of_points rfl p

/-- After a device reset no point is in ALARM (R14, R103). -/
theorem FireKept.of_alarmCount_zero {s t : State} (h : t.alarmCount = 0) (p : Port) : FireKept s t p :=
  fun _ h1 => absurd h h1

theorem State.resetLine_alarmCount (s : State) : s.resetLine.alarmCount = 0 := by
  refine List.countP_eq_zero.mpr (fun e he => ?_)
  have he : e ∈ s.points.map (fun e => (e.1, e.2.afterResetLine)) := he
  obtain ⟨d, -, rfl⟩ := List.mem_map.mp he
  simp only [PointRecord.afterResetLine, PointContent.afterResetLine, PointContent.inAlarmCount]
  cases d.2.content.suspect <;> decide

theorem FireKept.releaseRst (s : State) (p : Port) : FireKept s s.releaseRst p := by
  unfold State.releaseRst
  split
  · exact .of_points rfl p
  · exact .of_points rfl p
  · exact .of_alarmCount_zero s.resetLine_alarmCount p

/-- Every command: a request ends with the test of R101 as a grant; of the other events those that write records end with
it, and the rest write none. -/
theorem exec_fireKept (c : Instr) (s : State) : ∃ t, exec c s = .next t ∧
    ∀ p, (∀ r, c = .portReset → s.grantOf .portReset ≠ some (p, r)) → FireKept s t p := by
  cases c with
  | powerOn strap => exact ⟨_, rfl, fun p _ => .of_alarmCount_zero rfl p⟩
  | resetLine => exact ⟨_, rfl, fun p _ => .releaseRst s p⟩
  | transactionBegin q => exact ⟨_, rfl, fun p _ => .of_points (s.beginTransaction_points q) p⟩
  | transactionEnd q sdi => exact ⟨_, rfl, fun p _ => .of_points (s.endTransaction_points q sdi) p⟩
  | portReset => exact ⟨_, rfl, fun p h => .portReset (fun r => h r rfl)⟩
  | timebaseUnitEnd b => exact ⟨_, rfl, fun p _ => .of_points (s.unitEnd_points b) p⟩
  | periodicSweepStep => exact ⟨_, rfl, fun p _ => .periodicStep s p⟩
  | confirmationTimerExpiry l => exact ⟨_, rfl, fun p _ => .confirmationExpiry s l p⟩
  | serviceTimerExpiry b => exact ⟨_, rfl, fun p _ => .of_points (s.serviceExpiry_points b) p⟩
  | holdTimerExpiry q => exact ⟨_, rfl, fun p _ => .holdExpiry s q p⟩
  | copyStep => exact ⟨_, rfl, fun p _ => .copyStep s p⟩
  | keepTimerExpiry => exact ⟨_, rfl, fun p _ => .of_points s.keepExpiry_points p⟩
  | storageUpset l d => exact ⟨_, rfl, fun p _ => .upset s l d p⟩
  | rstAssertion => exact ⟨_, rfl, fun p _ => .of_points (t := s.assertRst) rfl p⟩
  | powerRemoval => exact ⟨_, rfl, fun p _ => .of_alarmCount_zero rfl p⟩
  | _ => exact ⟨_, rfl, fun p _ => .grant s _ _ p⟩

/-- Settles O37: the lines by the counts, the event by `exec_fireKept`. -/
theorem fireAndFaultLines : Obligations.FireAndFaultLines := by
  refine ⟨fun s hs => ⟨?_, ?_⟩, fun c s t p h h0 h1 hp => ?_⟩
  · simp only [State.fireLine_iff, State.countOf_ne_zero hs, PointContent.inAlarmCount_iff]
  · simp only [State.faultLine_iff, State.countOf_ne_zero hs, PointContent.inTroubleCount_iff]
  · obtain ⟨u, hu, hkept⟩ := exec_fireKept c s
    obtain rfl : u = t := Host.Outcome.next.inj (hu.symm.trans h)
    exact hkept p hp h0 h1

end Sys2Proof.Machine
end

