-- ==== Sys2Proof/Proofs/PointFrame.lean ====
section
/-! SUPPORT. The frame of an operation on one location (`PointEdit`): what the requests that act on one named point leave
of every other point and of the rest of the state (R20, R34, R36, R57, R94 to R99, R171, R176). -/

namespace Sys2Proof.Machine

open Claims

/-! ### Change records beside the image -/

/-- The records, the map, the stray list, the poll queues and the snapshot records of a state replaced. -/
def State.withImage (s : State) (points : Table PointRecord) (enrolMap : Table Loc) (strays : List Stray)
    (polls : PerSender (List PollItem)) (snapRecords : Table SnapRecord) : State :=
  { s with points := points, enrolMap := enrolMap, strays := strays, polls := polls, snapRecords := snapRecords }

/-- A change record goes to the ring whatever the image holds (R140). -/
theorem State.append_withImage (s : State) (points : Table PointRecord) (enrolMap : Table Loc) (strays : List Stray)
    (polls : PerSender (List PollItem)) (snapRecords : Table SnapRecord) (b : ChangeBody) :
    (s.withImage points enrolMap strays polls snapRecords).append b =
      (s.append b).withImage points enrolMap strays polls snapRecords := by
  have depart : (s.withImage points enrolMap strays polls snapRecords).departOldest =
      s.departOldest.withImage points enrolMap strays polls snapRecords := by
    have hring : (s.withImage points enrolMap strays polls snapRecords).ring = s.ring := rfl
    unfold State.departOldest
    rw [hring]
    split
    · rfl
    · split <;> rfl
  simp only [State.append, depart]
  rfl

theorem State.foldl_append_withImage (s : State) (points : Table PointRecord) (enrolMap : Table Loc)
    (strays : List Stray) (polls : PerSender (List PollItem)) (snapRecords : Table SnapRecord) (bs : List ChangeBody) :
    bs.foldl State.append (s.withImage points enrolMap strays polls snapRecords) =
      (bs.foldl State.append s).withImage points enrolMap strays polls snapRecords := by
  induction bs generalizing s with
  | nil => rfl
  | cons b bs ih => rw [List.foldl_cons, State.append_withImage, ih, List.foldl_cons]

/-! ### Tables without a key -/

theorem Table.find_filter_none {α : Type} {t : Table α} {k : Nat} (f : Nat × α → Bool) (h : t.find k = none) :
    Table.find (α := α) (t.filter f) k = none := by
  by_contra hne
  obtain ⟨a, ha⟩ := Option.ne_none_iff_exists'.mp hne
  have := Table.isSome_find_of_mem (List.mem_of_mem_filter (Table.mem_of_find ha))
  rw [h] at this
  cases this

/-- A value put under a key that the table does not list shifts no entry: what it is filtered out by sees no change. -/
theorem Table.filter_insert_new {α : Type} {t : Table α} {k : Nat} {a : α} {f : Nat × α → Bool} (h : t.find k = none)
    (hf : f (k, a) = false) : (t.insert k a).filter f = t.filter f := by
  induction t with
  | nil => simp [Table.insert, hf]
  | cons e t ih =>
    obtain ⟨j, b⟩ := e
    rw [Table.find_cons] at h
    split at h
    · cases h
    · next hj =>
      simp only [Table.insert, hj, if_false]
      split
      · rw [List.filter_cons_of_neg (by simp [hf])]
      · rw [List.filter_cons, List.filter_cons, ih h]

/-! ### An edit of one location -/

/-- From `s` to `t` the image has changed at location `l` alone, the serial `d` may have left the stray list, and at most
`k` change records, each of that point, have been appended. -/
structure PointEdit (d : Option Serial) (l : Loc) (k : Nat) (s t : State) : Prop where
  shape : ∃ (bodies : List ChangeBody) (points : Table PointRecord) (enrolMap : Table Loc) (strays : List Stray)
    (polls : PerSender (List PollItem)) (snapRecords : Table SnapRecord),
    t = (bodies.foldl State.append s).withImage points enrolMap strays polls snapRecords ∧ bodies.length ≤ k ∧
      ∀ b ∈ bodies, b.bay = some l.bay ∧ b.point = some l.point
  points : ∀ j, j ≠ l.key → t.points.find j = s.points.find j
  snapRecords : ∀ j, j ≠ l.key → t.snapRecords.find j = s.snapRecords.find j
  enrolMap : t.enrolMap.filter (fun e => l ≠ e.2) = s.enrolMap.filter (fun e => l ≠ e.2)
  polls : ∀ n, (t.polls.get n).filter (fun i => l ≠ i.loc) = (s.polls.get n).filter (fun i => l ≠ i.loc)
  strays : t.strays = s.strays ∨ t.strays = s.strays.filter (fun e => d ≠ some e.serial)

namespace PointEdit

variable {d : Option Serial} {l : Loc} {j k : Nat} {s t u : State}

theorem refl (s : State) : PointEdit d l 0 s s :=
  ⟨⟨[], _, _, _, _, _, rfl, le_refl 0, by simp⟩, fun _ _ => rfl, fun _ _ => rfl, rfl, fun _ => rfl, .inl rfl⟩

theorem mono (hjk : j ≤ k) (h : PointEdit d l j s t) : PointEdit d l k s t := by
  obtain ⟨⟨bs, pts, m, st, po, sn, ht, hlen, habout⟩, h2, h3, h4, h5, h6⟩ := h
  exact ⟨⟨bs, pts, m, st, po, sn, ht, le_trans hlen hjk, habout⟩, h2, h3, h4, h5, h6⟩

theorem trans (h : PointEdit d l j s t) (g : PointEdit d l k t u) : PointEdit d l (j + k) s u := by
  obtain ⟨⟨bs, pts, m, st, po, sn, ht, hlen, habout⟩, h2, h3, h4, h5, h6⟩ := h
  obtain ⟨⟨cs, pts', m', st', po', sn', hu, glen, gabout⟩, g2, g3, g4, g5, g6⟩ := g
  refine ⟨⟨bs ++ cs, pts', m', st', po', sn', ?_, ?_, ?_⟩, fun i hi => (g2 i hi).trans (h2 i hi),
    fun i hi => (g3 i hi).trans (h3 i hi), g4.trans h4, fun n => (g5 n).trans (h5 n), ?_⟩
  · rw [hu, ht, State.foldl_append_withImage, List.foldl_append]
    rfl
  · rw [List.length_append]
    exact Nat.add_le_add hlen glen
  · intro b hb
    rcases List.mem_append.mp hb with hb | hb
    · exact habout b hb
    · exact gabout b hb
  · rcases h6 with h6 | h6 <;> rcases g6 with g6 | g6 <;> rw [g6, h6]
    · exact .inl rfl
    · exact .inr rfl
    · exact .inr rfl
    · exact .inr (by rw [List.filter_filter]; simp only [Bool.and_self])

/-! The single operations. -/

theorem writePoint (s : State) (c : PointContent) : PointEdit d l 0 s (s.writePoint l c) :=
  ⟨⟨[], _, _, _, _, _, rfl, le_refl 0, by simp⟩, fun _ hj => Table.find_insert_ne _ _ _ _ hj.symm, fun _ _ => rfl, rfl,
    fun _ => rfl, .inl rfl⟩

theorem erasePoint (s : State) : PointEdit d l 0 s (s.erasePoint l) :=
  ⟨⟨[], _, _, _, _, _, rfl, le_refl 0, by simp⟩, fun _ hj => (Table.find_erase _ _ _).trans (if_neg hj.symm),
    fun _ _ => rfl, rfl, fun _ => rfl, .inl rfl⟩

theorem copyIn (s : State) (bad : Bool) : PointEdit d l 0 s (s.copyIn l bad) :=
  ⟨⟨[], _, _, _, _, _, rfl, le_refl 0, by simp⟩, fun _ _ => rfl, fun _ hj => Table.find_insert_ne _ _ _ _ hj.symm, rfl,
    fun _ => rfl, .inl rfl⟩

theorem mapDrop (s : State) : PointEdit d l 0 s (s.mapDrop l) := by
  refine ⟨⟨[], _, _, _, _, _, rfl, le_refl 0, by simp⟩, fun _ _ => rfl, fun _ _ => rfl, ?_, fun _ => rfl, .inl rfl⟩
  simp only [State.mapDrop, List.filter_filter, ne_comm, Bool.and_self]

theorem pollsDrop (s : State) : PointEdit d l 0 s (s.pollsDrop l) := by
  refine ⟨⟨[], _, _, _, _, _, rfl, le_refl 0, by simp⟩, fun _ _ => rfl, fun _ _ => rfl, rfl, fun n => ?_, .inl rfl⟩
  simp only [State.pollsDrop, PerSender.get_map, List.filter_filter, ne_comm, Bool.and_self]

theorem strayDrop (s : State) (n : Serial) : PointEdit (some n) l 0 s (s.strayDrop n) := by
  refine ⟨⟨[], _, _, _, _, _, rfl, le_refl 0, by simp⟩, fun _ _ => rfl, fun _ _ => rfl, rfl, fun _ => rfl, .inr ?_⟩
  simp only [State.strayDrop, ne_eq, Option.some.injEq, eq_comm]

theorem append (s : State) {b : ChangeBody} (hb : b.bay = some l.bay ∧ b.point = some l.point) :
    PointEdit d l 1 s (s.append b) := by
  refine ⟨⟨[b], (s.append b).points, (s.append b).enrolMap, (s.append b).strays, (s.append b).polls,
    (s.append b).snapRecords, rfl, le_refl 1, by simpa using hb⟩, ?_, ?_, ?_, ?_, .inl ?_⟩ <;> simp

/-- An entry for `l` added under a serial that the map does not hold (R18). -/
theorem mapAdd {s : State} {n : Serial} (hn : s.mapsSerial n = false) : PointEdit d l 0 s (s.mapAdd n l) := by
  refine ⟨⟨[], _, _, _, _, _, rfl, le_refl 0, by simp⟩, fun _ _ => rfl, fun _ _ => rfl, ?_, fun _ => rfl, .inl rfl⟩
  have hnew : Table.find (s.enrolMap.filter (fun e => e.2 ≠ l)) n.toNat = none :=
    Table.find_filter_none _ (by simpa [State.mapsSerial] using hn)
  simp only [State.mapAdd]
  rw [Table.filter_insert_new hnew (by simp), List.filter_filter]
  simp only [ne_comm, Bool.and_self]

/-- The handling of a failure appends the INTEGRITY record of the point (R171). -/
theorem handleFailure (s : State) : PointEdit d l 1 s (s.handleFailure l) := by
  unfold State.handleFailure
  split
  · exact (refl s).mono (Nat.zero_le 1)
  · next c _ =>
    have hcopy : PointEdit d l 0 s (if s.needsCopy l then s.copyIn l true else s) := by
      split
      · exact copyIn s true
      · exact refl s
    exact (((hcopy.trans (mapDrop _)).trans (pollsDrop _)).trans (append _ ⟨rfl, rfl⟩)).trans (writePoint _ _)

theorem copyBefore (s : State) : PointEdit d l 1 s (s.copyBefore l) := by
  unfold State.copyBefore
  split
  · split
    · exact (copyIn s false).mono (Nat.zero_le 1)
    · exact handleFailure s
  · exact (refl s).mono (Nat.zero_le 1)

theorem verify (s : State) : PointEdit d l 1 s (s.verify l) := by
  unfold State.verify
  split
  · exact (refl s).mono (Nat.zero_le 1)
  · exact handleFailure s

theorem readRecord (s : State) : PointEdit d l 1 s (s.readRecord l).1 := by
  unfold State.readRecord
  split
  · exact (refl s).mono (Nat.zero_le 1)
  · dsimp only
    split <;> exact verify s

/-- A write with its change record, copy-before-write first (R78, R93, R160). -/
theorem panelWrite (s : State) {change : State → PointContent → State × Answer}
    (h : ∀ s c, PointEdit d l 1 s (change s c).1) : PointEdit d l 2 s (s.panelWrite l change).1 := by
  unfold State.panelWrite
  dsimp only
  split
  · exact (copyBefore s).mono (by decide)
  · exact (copyBefore s).trans (h _ _)

theorem writeAppend (s : State) (c : PointContent) {b : ChangeBody} (hb : b.bay = some l.bay ∧ b.point = some l.point) :
    PointEdit d l 1 s ((s.writePoint l c).append b) := (writePoint s c).trans (append _ hb)

theorem withdraw (s : State) (doneBy : Sender) : PointEdit d l 2 s (s.withdraw l doneBy) := by
  unfold State.withdraw
  dsimp only
  split
  · exact (copyBefore s).mono (by decide)
  · exact ((((copyBefore s).trans (mapDrop _)).trans (pollsDrop _)).trans (erasePoint _)).trans (append _ ⟨rfl, rfl⟩)

end PointEdit

/-- Copy-before-write adds no serial to the map. -/
theorem State.mapsSerial_copyBefore {s : State} {n : Serial} (h : s.mapsSerial n = false) (l : Loc) :
    (s.copyBefore l).mapsSerial n = false := by
  have hfind : s.enrolMap.find n.toNat = none := by simpa [State.mapsSerial] using h
  have hmap : (s.copyBefore l).enrolMap = s.enrolMap ∨
      (s.copyBefore l).enrolMap = s.enrolMap.filter (fun e => e.2 ≠ l) := by
    unfold State.copyBefore
    split
    · split
      · exact .inl rfl
      · cases hc : s.content l with
        | none => exact .inl (by simp only [State.handleFailure, hc])
        | some c =>
          rw [State.handleFailure_eq hc]
          exact .inr (by simp)
    · exact .inl rfl
  unfold State.mapsSerial
  rcases hmap with hmap | hmap <;> rw [hmap]
  · exact h
  · rw [Table.find_filter_none _ hfind]
    rfl

theorem PointEdit.enrol {s : State} {n : Serial} (h : s.mapsSerial n = false) (l : Loc) (k : PointKind)
    (doneBy : Sender) : PointEdit (some n) l 2 s (s.enrol l n k doneBy) := by
  have hn : ((s.copyBefore l).writePoint l (enrolledContent n k)).mapsSerial n = false :=
    State.mapsSerial_copyBefore h l
  exact ((((copyBefore s).trans (writePoint _ _)).trans (mapAdd hn)).trans (strayDrop _ n)).trans (append _ ⟨rfl, rfl⟩)

theorem PointEdit.repair {s : State} {n : Serial} (h : s.mapsSerial n = false) (l : Loc) (k : PointKind)
    (doneBy : Sender) : PointEdit (some n) l 2 s (s.repair l n k doneBy).1 := by
  unfold State.repair
  dsimp only
  split
  · exact (copyBefore s).mono (by decide)
  · next c _ =>
    have hn : ((s.copyBefore l).writePoint l (repairedContent n k c)).mapsSerial n = false :=
      State.mapsSerial_copyBefore h l
    exact ((((copyBefore s).trans (writePoint _ _)).trans (mapAdd hn)).trans (strayDrop _ n)).trans
      (append _ ⟨rfl, rfl⟩)

/-! ### Requests on one named point -/

/-- A request that, whatever its outcome, changes nothing or edits the location its operands name. -/
def EditsPoint (d : Request → Option Serial) (body : Port → Request → State → State × Answer) : Prop :=
  ∀ p r s, (body p r s).1 = s ∨ ∃ l, r.loc? = some l ∧ PointEdit (d r) l 2 s (body p r s).1

theorem readPoint_editsPoint (d : Request → Option Serial) : EditsPoint d readPointBody := by
  intro p r s
  unfold readPointBody
  split
  · exact .inl rfl
  · next l hl => exact .inr ⟨l, hl, (PointEdit.readRecord s).mono (by decide)⟩

theorem panelRequest_editsPoint (d : Request → Option Serial) {g : Group}
    {own : Request → State → Loc → PointContent → State × Answer}
    (h : ∀ r s l c, (own r s l c).1 = s ∨ PointEdit (d r) l 2 s (own r s l c).1) :
    EditsPoint d (panelRequest g own) := by
  intro p r s
  unfold panelRequest
  split
  · exact .inl rfl
  · next l hl =>
    split
    · exact .inl rfl
    · split
      · exact .inl rfl
      · next c _ => exact (h r s l c).imp_right (fun hedit => ⟨l, hl, hedit⟩)

theorem acknowledge_editsPoint (d : Request → Option Serial) : EditsPoint d acknowledgeBody := by
  refine panelRequest_editsPoint d (fun r s l c => ?_)
  split
  · split
    · exact .inl rfl
    · exact .inr (.panelWrite s (fun s c => .writeAppend s _ ⟨rfl, rfl⟩))
  · exact .inl rfl

theorem resetPoint_editsPoint (d : Request → Option Serial) : EditsPoint d resetPointBody := by
  refine panelRequest_editsPoint d (fun r s l c => ?_)
  split
  · exact .inl rfl
  · split
    · exact .inl rfl
    · split
      · exact .inl rfl
      · exact .inr (.panelWrite s (fun s c => .writeAppend s _ ⟨rfl, rfl⟩))

theorem isolate_editsPoint (d : Request → Option Serial) : EditsPoint d isolateBody := by
  refine panelRequest_editsPoint d (fun r s l c => ?_)
  split
  · exact .inl rfl
  · exact .inr (.panelWrite s (fun s c => .writeAppend s _ ⟨rfl, rfl⟩))

theorem restore_editsPoint (d : Request → Option Serial) : EditsPoint d restoreBody := by
  refine panelRequest_editsPoint d (fun r s l c => ?_)
  split
  · exact .inl rfl
  · exact .inr (.panelWrite s (fun s c => .writeAppend s _ ⟨rfl, rfl⟩))

theorem withdraw_editsPoint (d : Request → Option Serial) : EditsPoint d withdrawBody := by
  intro p r s
  unfold withdrawBody
  split
  · exact .inl rfl
  · next l hl =>
    split
    · exact .inl rfl
    · split
      · exact .inl rfl
      · split
        · exact .inl rfl
        · exact .inr ⟨l, hl, .withdraw s _⟩

theorem enrol_editsPoint : EditsPoint (fun r => r.serial? 2) enrolBody := by
  intro p r s
  unfold enrolBody
  split
  · next l n k hl hn _ =>
    split
    · exact .inl rfl
    · split
      · exact .inl rfl
      · split
        · exact .inl rfl
        · next hm => exact .inr ⟨l, hl, by simpa only [hn] using PointEdit.enrol (by simpa using hm) l k _⟩
  · exact .inl rfl

theorem repair_editsPoint : EditsPoint (fun r => r.serial? 2) repairBody := by
  intro p r s
  unfold repairBody
  split
  · next l n k hl hn _ =>
    split
    · exact .inl rfl
    · split
      · exact .inl rfl
      · split
        · exact .inl rfl
        · split
          · exact .inl rfl
          · next hm => exact .inr ⟨l, hl, by simpa only [hn] using PointEdit.repair (by simpa using hm) l k _⟩
  · exact .inl rfl

/-! ### The ports (R140, R148) -/

/-- From one state of a port to the other only CHANGES, LAG and FIRE may be added to the flags, and the ring cursor
moved. -/
structure PortGains (a b : PortState) : Prop where
  slot : b.slot = a.slot
  copy : b.copy = a.copy
  cursor : b.cursor = a.cursor
  mask : b.mask = a.mask
  holdEnd : b.holdEnd = a.holdEnd
  subscribed : b.sub.isSome = a.sub.isSome
  kept : ∀ e, Event.isIn e a.flags = true → Event.isIn e b.flags = true
  gained : ∀ e, Event.isIn e b.flags = true →
    Event.isIn e a.flags = true ∨ e = .changes ∨ e = .lag ∨ e = .fire

namespace PortGains

theorem refl (a : PortState) : PortGains a a := ⟨rfl, rfl, rfl, rfl, rfl, rfl, fun _ => id, fun _ => .inl⟩

theorem trans {a b c : PortState} (h : PortGains a b) (g : PortGains b c) : PortGains a c :=
  ⟨g.slot.trans h.slot, g.copy.trans h.copy, g.cursor.trans h.cursor, g.mask.trans h.mask, g.holdEnd.trans h.holdEnd,
    g.subscribed.trans h.subscribed, fun e he => g.kept e (h.kept e he),
    fun e he => (g.gained e he).elim (h.gained e) .inr⟩

theorem raise (a : PortState) {e : Event} (he : e = .changes ∨ e = .lag ∨ e = .fire) : PortGains a (a.raise e) := by
  refine ⟨rfl, rfl, rfl, rfl, rfl, rfl, fun x hx => ?_, fun x hx => ?_⟩
  · rw [PortState.isIn_raise, hx, Bool.true_or]
  · rw [PortState.isIn_raise, Bool.or_eq_true, decide_eq_true_eq] at hx
    exact hx.imp_right (fun h => by rwa [h])

theorem departOldest (s : State) (p : Port) : PortGains (s.port p) (s.departOldest.port p) := by
  rw [departOldest_port]
  split
  · exact refl _
  · split
    · exact refl _
    · split
      · next hsub =>
        refine trans (b := { s.port p with sub := some _ }) ?_ (raise _ (.inr (.inl rfl)))
        exact ⟨rfl, rfl, rfl, rfl, rfl, by rw [hsub]; rfl, fun _ => id, fun _ => .inl⟩
      · exact refl _

theorem append (s : State) (b : ChangeBody) (p : Port) : PortGains (s.port p) ((s.append b).port p) := by
  refine (departOldest s p).trans ?_
  rw [append_port]
  split
  · exact raise _ (.inl rfl)
  · exact refl _

theorem foldl_append (bs : List ChangeBody) (s : State) (p : Port) :
    PortGains (s.port p) ((bs.foldl State.append s).port p) := by
  induction bs generalizing s with
  | nil => exact refl _
  | cons b bs ih => exact (append s b p).trans (ih _)

theorem fired (s t : State) (p : Port) : PortGains (t.port p) ((Claims.fired s t).port p) := by
  rw [← State.settleFire_eq]
  unfold State.settleFire
  split
  · rw [State.port_raiseAll]
    exact raise _ (.inr (.inr rfl))
  · exact refl _

end PortGains

theorem PointEdit.ports {d : Option Serial} {l : Loc} {k : Nat} {s t : State} (h : PointEdit d l k s t) (p : Port) :
    PortGains (s.port p) (t.port p) := by
  obtain ⟨bs, _, _, _, _, _, rfl, -⟩ := h.shape
  exact .foldl_append bs s p

/-! ### The grant of such a request -/

/-- The end of the event and the answer touch the ports alone. -/
theorem answered_fired_eq (s u : State) (p : Port) (r : Request) (x : Result) (y : List Byte) :
    ∃ ports, answered (fired s u) p r x y = { u with ports := ports } := by
  unfold fired
  split <;> exact ⟨_, rfl⟩

theorem port_answered (s : State) (p q : Port) (r : Request) (x : Result) (y : List Byte) :
    (answered s p r x y).port q = if p = q then
      { s.port p with slot := .done { tag := r.tag, code := r.code.code, result := x, payload := y } } else s.port q :=
  PerPort.get_set _ _ _ _

/-- What a request on one named point, its location read as `loc`, leaves of the state: a `PointEdit` where the operands
name a location, nothing at all where they name none. -/
structure RequestEdit (d : Option Serial) (loc : Option Loc) (s u : State) : Prop where
  shape : ∃ (bodies : List ChangeBody) (points : Table PointRecord) (enrolMap : Table Loc) (strays : List Stray)
    (polls : PerSender (List PollItem)) (snapRecords : Table SnapRecord),
    u = (bodies.foldl State.append s).withImage points enrolMap strays polls snapRecords ∧ bodies.length ≤ 2 ∧
      ∀ b ∈ bodies, ∃ l, loc = some l ∧ b.bay = some l.bay ∧ b.point = some l.point
  tables : ∀ k, (∀ l, loc = some l → k ≠ l.key) →
    u.points.find k = s.points.find k ∧ u.snapRecords.find k = s.snapRecords.find k
  enrolMap : u.enrolMap.filter (fun e => loc ≠ some e.2) = s.enrolMap.filter (fun e => loc ≠ some e.2)
  polls : ∀ n, (u.polls.get n).filter (fun i => loc ≠ some i.loc) = (s.polls.get n).filter (fun i => loc ≠ some i.loc)
  strays : u.strays = s.strays ∨ u.strays = s.strays.filter (fun e => d ≠ some e.serial)
  ports : ∀ q, PortGains (s.port q) (u.port q)

theorem RequestEdit.refl (d : Option Serial) (loc : Option Loc) (s : State) : RequestEdit d loc s s :=
  ⟨⟨[], _, _, _, _, _, rfl, Nat.zero_le 2, by simp⟩, fun _ _ => ⟨rfl, rfl⟩, rfl, fun _ => rfl, .inl rfl,
    fun _ => .refl _⟩

theorem PointEdit.request {d : Option Serial} {l : Loc} {s u : State} (h : PointEdit d l 2 s u) :
    RequestEdit d (some l) s u := by
  obtain ⟨bs, pts, m, st, po, sn, hu, hlen, habout⟩ := h.shape
  exact ⟨⟨bs, pts, m, st, po, sn, hu, hlen, fun b hb => ⟨l, rfl, habout b hb⟩⟩,
    fun k hk => ⟨h.points k (hk l rfl), h.snapRecords k (hk l rfl)⟩, by simpa using h.enrolMap,
    fun n => by simpa using h.polls n, h.strays, h.ports⟩

theorem EditsPoint.request {d : Request → Option Serial} {body : Port → Request → State → State × Answer}
    (h : EditsPoint d body) (p : Port) (r : Request) (s : State) : RequestEdit (d r) r.loc? s (body p r s).1 := by
  rcases h p r s with h | ⟨l, hl, h⟩
  · rw [h]
    exact .refl _ _ s
  · rw [hl]
    exact h.request

/-- A granted request on one named point: its edit, the end of the event, the answer. -/
theorem EditsPoint.grant {d : Request → Option Serial} {body : Port → Request → State → State × Answer}
    (hb : EditsPoint d body) {s : State} {code : ReqCode} {p : Port} {r : Request} (h : s.grantOf code = some (p, r)) :
    ∃ u x y, s.grant code body = answered (fired s u) p r x y ∧ RequestEdit (d r) r.loc? (granted s p) u :=
  ⟨_, _, _, State.grant_answered h rfl, hb.request p r (granted s p)⟩

/-- What such a grant leaves of each port: its answer in the slot of its own port alone, and what `PortGains` allows. -/
theorem RequestEdit.port_answered {d : Option Serial} {loc : Option Loc} {s u : State} {p : Port}
    (h : RequestEdit d loc (granted s p) u) (r : Request) (x : Result) (y : List Byte) (q : Port) :
    PortGains { s.port q with slot := ((answered (fired s u) p r x y).port q).slot }
        ((answered (fired s u) p r x y).port q) ∧
      (q ≠ p → ((answered (fired s u) p r x y).port q).slot = (s.port q).slot) := by
  have hgains : PortGains (s.port q) ((fired s u).port q) := (h.ports q).trans (.fired s u q)
  have same : ∀ v : Slot, PortGains { s.port q with slot := v } { (fired s u).port q with slot := v } := fun v =>
    ⟨rfl, hgains.copy, hgains.cursor, hgains.mask, hgains.holdEnd, hgains.subscribed, hgains.kept, hgains.gained⟩
  rw [Machine.port_answered]
  split
  · next hq =>
    subst hq
    exact ⟨same _, fun hne => absurd rfl hne⟩
  · exact ⟨same _, fun _ => hgains.slot⟩

/-- Each of the eight requests edits its point; the stray list loses a serial to ENROL and REPAIR alone. -/
theorem exec_editsPoint {code : ReqCode}
    (h : code ∈ [.acknowledge, .resetPoint, .isolate, .restore, .enrol, .withdraw, .repair, .readPoint]) :
    ∃ d body, (∀ s, exec code.command s = .next (s.grant code body)) ∧ EditsPoint d body ∧
      ((code = .enrol ∨ code = .repair) ∧ d = (fun r => r.serial? 2) ∨ d = fun _ => none) := by
  simp only [List.mem_cons, List.not_mem_nil, or_false] at h
  rcases h with rfl | rfl | rfl | rfl | rfl | rfl | rfl | rfl
  · exact ⟨_, _, fun _ => rfl, acknowledge_editsPoint _, .inr rfl⟩
  · exact ⟨_, _, fun _ => rfl, resetPoint_editsPoint _, .inr rfl⟩
  · exact ⟨_, _, fun _ => rfl, isolate_editsPoint _, .inr rfl⟩
  · exact ⟨_, _, fun _ => rfl, restore_editsPoint _, .inr rfl⟩
  · exact ⟨_, _, fun _ => rfl, enrol_editsPoint, .inl ⟨.inl rfl, rfl⟩⟩
  · exact ⟨_, _, fun _ => rfl, withdraw_editsPoint _, .inr rfl⟩
  · exact ⟨_, _, fun _ => rfl, repair_editsPoint, .inl ⟨.inr rfl, rfl⟩⟩
  · exact ⟨_, _, fun _ => rfl, readPoint_editsPoint _, .inr rfl⟩

/-- Settles O53: the body of each of the eight requests is an edit of its point, and the grant of an edit has this
frame. -/
theorem pointRequestsFrame : Obligations.PointRequestsFrame := by
  intro code s t p r hcode h ht
  obtain ⟨d, body, hexec, hb, hd⟩ := exec_editsPoint hcode
  obtain rfl : s.grant code body = t := Host.Outcome.next.inj ((hexec s).symm.trans ht)
  obtain ⟨u, x, y, hgrant, hedit⟩ := hb.grant h
  obtain ⟨ports, hports⟩ := answered_fired_eq s u p r x y
  rw [hgrant]
  refine ⟨?_, ?_, ?_, ?_, ?_, fun q => ?_⟩
  · obtain ⟨bs, pts, m, st, po, sn, hu, hlen, habout⟩ := hedit.shape
    exact ⟨bs, x, y, pts, m, st, po, sn, by rw [hu]; rfl, hlen, habout⟩
  · rw [hports]
    exact hedit.tables
  · rw [hports]
    exact hedit.enrolMap
  · rw [hports]
    exact hedit.polls
  · rw [hports]
    rcases hd with ⟨hc, rfl⟩ | rfl
    · exact hedit.strays.imp_right (fun hs => ⟨hc, hs⟩)
    · have hnone : u.strays = s.strays ∨ u.strays = s.strays.filter (fun e => none ≠ some e.serial) := hedit.strays
      exact .inl (by simpa using hnone)
  · obtain ⟨hgains, hslot⟩ := hedit.port_answered r x y q
    exact ⟨hgains.cursor, hgains.mask, hgains.holdEnd, hgains.subscribed, hgains.copy, hslot,
      fun e => ⟨hgains.kept e, hgains.gained e⟩⟩

end Sys2Proof.Machine
end

section
/-! SUPPORT. What every command keeps: the queue (log 3), holds, deferrals and pairings, and on a locked part the
commissioning store (R37, R43, R45, R123, R129). -/

namespace Sys2Proof.Machine

/-- Settles O57: every single change keeps the holds, the deferral queue and the pairing, and so every step does. -/
theorem stepKeepsHoldsAndPairs : Obligations.StepKeepsHoldsAndPairs :=
  fun _ _ h =>
    ⟨fun hholds hdefer => ⟨step_keeps (fun _ _ _ => holds_change) (fun _ _ hs => hs) h hholds,
      step_keeps (fun _ _ _ => deferrals_change) (fun _ _ hs => hs) h hdefer⟩,
    step_keeps (fun _ _ _ => pairing_change) (fun _ _ hs => hs) h⟩

/-- No single change touches the queue: commands come to it from outside (log 3). -/
theorem pending_change {k : ChangeClass} {s t : State} (h : Change s k t) : t.pending = s.pending := by
  cases h with
  | image h => exact h.frame.pending
  | pair b q _ _ =>
    obtain ⟨v, hv⟩ := pair_eq s b q
    rw [hv]
  | upset l c _ =>
    obtain ⟨pts, hp⟩ := upsetPoint_eq s l c
    rw [hp]
  | powerOn strap => rfl
  | resetLine => rfl
  | removePower => rfl
  | _ => simp

/-- Settles O2: every arm answers a next state, reached by single changes that leave the queue. -/
theorem everyCommandAnswersNext : Obligations.EveryCommandAnswersNext := by
  intro c s
  obtain ⟨t, ht, -⟩ := exec_fireKept c s
  exact ⟨t, ht, (exec_effects ht).keeps (P := fun u => u.pending = s.pending)
    (fun _ _ _ _ h hu => (pending_change h).trans hu) rfl⟩

/-- From `s` to `t` the part has stayed locked and its commissioning has stayed as it was: bindings, masks, settings,
pairings, and which locations are enrolled (R43). -/
structure CommissioningKept (s t : State) : Prop where
  locked : t.locked = true
  bound : t.bound = s.bound
  masks : t.masks = s.masks
  timing : t.timing = s.timing
  partner : ∀ b, (t.bay b).partner = (s.bay b).partner
  enrolled : ∀ l, (t.content l).isSome = (s.content l).isSome

theorem CommissioningKept.refl {s : State} (h : s.locked = true) : CommissioningKept s s :=
  ⟨h, rfl, rfl, rfl, fun _ => rfl, fun _ => rfl⟩

theorem CommissioningKept.trans {s t u : State} (h : CommissioningKept s t) (k : CommissioningKept t u) :
    CommissioningKept s u :=
  ⟨k.locked, k.bound.trans h.bound, k.masks.trans h.masks, k.timing.trans h.timing,
    fun b => (k.partner b).trans (h.partner b), fun l => (k.enrolled l).trans (h.enrolled l)⟩

theorem ImageFrame.commissioningKept {s t : State} (h : ImageFrame s t) (hl : s.locked = true) :
    CommissioningKept s t :=
  ⟨h.locked.trans hl, h.bound, h.masks, h.timing, fun b => by rw [h.bay b], h.enrolled⟩

theorem partner_setOwed (s : State) (b : Bay) (v : Bool) (x : Bay) :
    ((s.setOwed b v).bay x).partner = (s.bay x).partner := by
  rw [State.bay_setOwed]
  split
  · next h => rw [h]
  · rfl

theorem partner_setMode (s : State) (b : Bay) (m : BayMode) (x : Bay) :
    ((s.setMode b m).bay x).partner = (s.bay x).partner := by
  rw [State.bay_setMode]
  split
  · next h => rw [h]
  · rfl

theorem partner_bayTick (s : State) (x : Bay) :
    ((s.mapBays (fun _ r => r.tick)).bay x).partner = (s.bay x).partner := by
  rw [State.bay_mapBays]
  unfold BayRecord.tick
  split <;> rfl

/-- On a locked part every single change but a device reset keeps the commissioning: the changes that would touch it are
made on an unlocked part alone (R43, R44). -/
theorem Change.commissioningKept {k : ChangeClass} {s t : State} (h : Change s k t) (hk : k ≠ .reset)
    (hl : s.locked = true) : CommissioningKept s t := by
  have unlocked {P : Prop} (hu : s.locked = false) : P := by rw [hl] at hu; cases hu
  have bays {t : State} (ht : t = { s with bays := t.bays }) (hb : ∀ b, (t.bay b).partner = (s.bay b).partner) :
      CommissioningKept s t := by
    rw [ht]
    exact ⟨hl, rfl, rfl, rfl, fun b => (by rw [← hb b, ht]), fun _ => rfl⟩
  cases h with
  | image h => exact h.frame.commissioningKept hl
  | enrol l c hu _ _ _ => exact unlocked hu
  | erase l hu _ _ => exact unlocked hu
  | rights bound masks hu => exact unlocked hu
  | pair b q hu _ => exact unlocked hu
  | timing t hu _ => exact unlocked hu
  | powerOn strap => exact absurd rfl hk
  | resetLine => exact absurd rfl hk
  | removePower => exact absurd rfl hk
  | lock => exact ⟨rfl, rfl, rfl, rfl, fun _ => rfl, fun _ => rfl⟩
  | owed b v => exact bays rfl (partner_setOwed s b v)
  | mode b m _ => exact bays rfl (partner_setMode s b m)
  | bayTick => exact bays rfl (partner_bayTick s)
  | upset l c _ =>
    refine ⟨by simpa using hl, by simp, by simp, by simp, fun b => ?_, fun x => ?_⟩
    · obtain ⟨pts, hp⟩ := upsetPoint_eq s l c
      rw [hp]
      rfl
    · rw [State.content_upsetPoint]
      split
      · next h => rw [← h.1, h.2]; rfl
      · rfl
  | _ => exact ⟨hl, rfl, rfl, rfl, fun _ => rfl, fun _ => rfl⟩

/-- Only power and the reset line reset the device (R2, R188). -/
theorem classesOf_ne_reset {c : Instr} (hon : ∀ strap, c ≠ .powerOn strap) (hline : c ≠ .resetLine)
    (hoff : c ≠ .powerRemoval) : ∀ k ∈ classesOf c, k ≠ .reset := by
  cases c with
  | powerOn strap => exact absurd rfl (hon strap)
  | resetLine => exact absurd rfl hline
  | powerRemoval => exact absurd rfl hoff
  | _ => simp [classesOf]

/-- Settles O49: a command that is no device reset makes no change of that class, and every other change keeps the
commissioning. -/
theorem lockedPartKeepsCommissioning : Obligations.LockedPartKeepsCommissioning := by
  intro c s t hl hon hline hoff h
  have kept : CommissioningKept s t := (exec_effects h).keeps (P := CommissioningKept s)
    (fun k hk _ _ hc hs => hs.trans (hc.commissioningKept (classesOf_ne_reset hon hline hoff k hk) hs.locked))
    (.refl hl)
  exact ⟨kept.locked, kept.bound, kept.masks, kept.timing, kept.partner, kept.enrolled⟩

end Sys2Proof.Machine
end

section
/-! SUPPORT. What an arriving frame is refused for, and how the codes of requests, senders, ports and areas are read
(R27, R182, Tables 10.4 and 10.5). -/

namespace Sys2Proof

theorem Port.ofByte?_eq_some (x : Byte) (q : Port) : Port.ofByte? x = some q ↔ q.number = x.toNat := by
  constructor
  · intro h
    simpa using List.find?_some h
  · intro h
    unfold Port.ofByte?
    rw [← h]
    cases q <;> rfl

theorem Sender.ofByte?_eq_some (x : Byte) (n : Sender) : Sender.ofByte? x = some n ↔ n.number = x.toNat := by
  constructor
  · intro h
    simpa using List.find?_some h
  · intro h
    unfold Sender.ofByte?
    rw [← h]
    cases n <;> rfl

theorem Area.ofByte?_eq_some (x : Byte) (a : Area) : Area.ofByte? x = some a ↔ a.val = x.toNat := by
  unfold Area.ofByte?
  have := a.isLt
  split
  · simp [Fin.ext_iff, eq_comm]
  · simp only [reduceCtorEq, false_iff]
    omega

namespace Machine

open Claims

/-- Table 10.5 gives every request a code of its own. -/
theorem ReqCode.ofByte?_eq_some (x : Byte) (c : ReqCode) : ReqCode.ofByte? x = some c ↔ c.code = x := by
  constructor
  · intro h
    simpa using List.find?_some h
  · rintro rfl
    cases c <;> decide

theorem ReqCode.ofByte?_eq_none {x : Byte} (h : ∀ c : ReqCode, c.code ≠ x) : ReqCode.ofByte? x = none :=
  Option.eq_none_iff_forall_ne_some.mpr (fun c hc => h c ((ReqCode.ofByte?_eq_some x c).mp hc))

theorem ReqCode.operandLength_lt (c : ReqCode) : c.operandLength < 256 := by cases c <;> decide

theorem ReqCode.mem_requestTable (c : ReqCode) : (c, c.command, c.code, c.operandLength) ∈ requestTable := by
  cases c <;> decide

/-- The frame check of R182 for a code of Table 10.5: operand length and check byte. -/
theorem frameCode_of_code {c : ReqCode} {bytes : List Byte} (hc : c.code = bytes.getD 0 0) :
    frameCode bytes =
      if (bytes.getD 3 0).toNat = c.operandLength ∧ 5 + c.operandLength ≤ bytes.length ∧
        bytes.getD (4 + c.operandLength) 0 = crc8 (bytes.take (4 + c.operandLength)) then some c else none := by
  have hlen : bytes.getD 3 0 = byteOf c.operandLength ↔ (bytes.getD 3 0).toNat = c.operandLength := by
    constructor
    · intro h
      rw [h, toNat_byteOf c.operandLength_lt]
    · intro h
      rw [← h, byteOf_toNat]
  have harrived : 4 + c.operandLength < bytes.length ↔ 5 + c.operandLength ≤ bytes.length := by omega
  simp only [frameCode, (ReqCode.ofByte?_eq_some _ c).mpr hc, hlen, harrived, and_left_comm]

theorem arrival_of_frame_none {bytes : List Byte} (h : frameCode bytes = none) (bound : SenderSet) :
    arrival bound bytes = refusedOnArrival bytes .frame := by
  simp only [arrival, h]

/-- A good frame of a sender that the port does not bind (R27). -/
theorem arrival_of_unbound {bytes : List Byte} {c : ReqCode} (h : frameCode bytes = some c) {bound : SenderSet}
    (hn : ∀ n : Sender, n.number = (bytes.getD 2 0).toNat → bound.has n = false) :
    arrival bound bytes = refusedOnArrival bytes .sender := by
  cases hs : Sender.ofByte? (bytes.getD 2 0) with
  | none => simp only [arrival, h, hs]
  | some n =>
    have hunbound := hn n ((Sender.ofByte?_eq_some _ n).mp hs)
    simp only [arrival, h, hs, hunbound, Bool.false_eq_true, if_false]

/-- Settles O9: the frame check by code, length and check byte, then the sender check. -/
theorem badFramesRefusedOnArrival : Obligations.BadFramesRefusedOnArrival := by
  refine ⟨ReqCode.mem_requestTable, rfl, by decide, fun _ _ => rfl,
    fun bound bytes => ⟨fun h => ?_, fun c hc => ⟨fun h => ?_, fun h hn => ?_⟩⟩⟩
  · exact arrival_of_frame_none (by simp only [frameCode, ReqCode.ofByte?_eq_none h]) bound
  · refine arrival_of_frame_none ?_ bound
    rw [frameCode_of_code hc, if_neg]
    rintro ⟨hlen, harrived, hcheck⟩
    rcases h with h | h | h
    · exact h hlen
    · omega
    · exact h hcheck
  · exact arrival_of_unbound (by rw [frameCode_of_code hc, if_pos h]) hn

end Machine
end Sys2Proof
end
section
/-! SUPPORT. The reads that need the binding alone (R41, R58, R152, R187). -/

namespace Sys2Proof.Machine

open Claims

/-- The answer of READ-DEVICE, field by field (R187). -/
theorem deviceAnswer_eq (s : State) : deviceAnswer s =
    [s.startCause.code, if s.locked then 0x01 else 0x00, byteOf s.fittedCount, s.timing.sweepPeriod,
      byteOf s.counter.val] ++
     (match s.snap with
      | .idle => [0x00, 0xFF, 0x00, 0x00]
      | .copying o m _ _ => [0x01, byteOf o.number] ++ bytes2 m
      | .ready o m _ _ => [0x02, byteOf o.number] ++ bytes2 m) ++
     bytes2 s.nextSeq ++
     [s.holds.p0, s.holds.p1, s.holds.p2, s.holds.p3].flatMap (fun h => match h with
      | some h => [byteOf h.bay.val, byteOf h.timer.left]
      | none => [0xFF, 0x00]) := by
  unfold deviceAnswer
  cases s.snap <;> rfl

/-- Settles O13. -/
theorem plainReadsAnswerTheirState : Obligations.PlainReadsAnswerTheirState := by
  refine fun s p r => ⟨fun h => next_congr ?_, fun h => next_congr ?_, fun h => next_congr ?_, fun h => next_congr ?_⟩
  · exact State.grant_reading h
  · exact State.grant_reading h
  · exact State.grant_reading h
  · rw [readDeviceBody, State.grant_reading h]
    simp only [Answer.doneWith, deviceAnswer_eq]
    rfl

end Sys2Proof.Machine
end

section
/-! SUPPORT. The requests that the lock refuses and that replace one thing: BIND-SENDERS, SET-MASK, CLEAR-STRAYS and
LOCK (R30, R31, R32, R42, R43). -/

namespace Sys2Proof.Machine

open Claims

/-- Steps 2 and 3 of R30 as the statements have them. -/
theorem State.storeTests_eq (s : State) (n : Sender) : s.storeTests n = (storeRefusal s n).map Answer.bare := by
  unfold State.storeTests storeRefusal
  cases s.mayEverywhere n .commission with
  | false => rfl
  | true => cases s.locked <;> rfl

theorem State.storeTests_granted (s : State) (p : Port) (n : Sender) :
    (granted s p).storeTests n = (storeRefusal s n).map Answer.bare := (granted s p).storeTests_eq n

/-- A grant of a request that comes to `t` where steps 2 and 3 of R30 pass, and is refused with their outcome where they
do not; `t` has the alarm count of before. -/
theorem State.grant_tested {s t : State} {code : ReqCode} {p : Port} {r : Request}
    {body : Port → Request → State → State × Answer} (h : s.grantOf code = some (p, r))
    (hb : body p r (granted s p) = (match (granted s p).storeTests r.sender with
      | some a => (granted s p, a)
      | none => (t, .bare .done)))
    (ht : t.alarmCount = s.alarmCount) :
    s.grant code body = (match storeRefusal s r.sender with
      | some x => answered (granted s p) p r x []
      | none => answered t p r .done []) := by
  rw [State.storeTests_granted] at hb
  cases hx : storeRefusal s r.sender with
  | some x =>
    rw [hx] at hb
    exact State.grant_refused h hb
  | none =>
    rw [hx] at hb
    exact State.grant_answered_quiet h hb ht

theorem State.grant_bindSenders {s : State} {p : Port} {r : Request} (h : s.grantOf .bindSenders = some (p, r)) :
    (Port.ofByte? (r.op 0) = none → s.grant .bindSenders bindSendersBody = answered (granted s p) p r .range []) ∧
    ∀ q, Port.ofByte? (r.op 0) = some q → s.grant .bindSenders bindSendersBody =
      if (r.op 1).getLsbD 0 then answered (granted s p) p r .range []
      else match storeRefusal s r.sender with
        | some x => answered (granted s p) p r x []
        | none => answered { granted s p with bound := s.bound.set q (r.op 1) } p r .done [] := by
  refine ⟨fun hq => State.grant_refused h (a := .bare .range) (by simp only [bindSendersBody, hq]), fun q hq => ?_⟩
  split
  · next hbit => exact State.grant_refused h (a := .bare .range) (by simp only [bindSendersBody, hq, hbit, if_true])
  · next hbit =>
    refine State.grant_tested h ?_ rfl
    simp only [bindSendersBody, hq, hbit, Bool.false_eq_true, if_false]
    rfl

theorem State.grant_setMask {s : State} {p : Port} {r : Request} (h : s.grantOf .setMask = some (p, r)) :
    ((Sender.ofByte? (r.op 0) = none ∨ Area.ofByte? (r.op 1) = none) →
      s.grant .setMask setMaskBody = answered (granted s p) p r .range []) ∧
    ∀ n a, Sender.ofByte? (r.op 0) = some n → Area.ofByte? (r.op 1) = some a → s.grant .setMask setMaskBody =
      if 32 ≤ (r.op 2).toNat then answered (granted s p) p r .range []
      else match storeRefusal s r.sender with
        | some x => answered (granted s p) p r x []
        | none =>
          answered { granted s p with masks := s.masks.set n ((s.masks.get n).set a ((r.op 2).setWidth 5)) } p r .done
            [] := by
  refine ⟨fun hnone => State.grant_refused h (a := .bare .range) ?_, fun n a hn ha => ?_⟩
  · unfold setMaskBody
    split
    · next hn ha => simp [hn, ha] at hnone
    · rfl
  · split
    · next hset => exact State.grant_refused h (a := .bare .range) (by simp only [setMaskBody, hn, ha, hset, if_true])
    · next hset =>
      refine State.grant_tested h ?_ rfl
      simp only [setMaskBody, hn, ha, hset, if_false]
      rfl

/-- Settles O44. -/
theorem storeRequests : Obligations.StoreRequests := by
  refine ⟨fun x => ⟨Port.ofByte?_eq_some x, Sender.ofByte?_eq_some x, Area.ofByte?_eq_some x⟩,
    fun s p r => ⟨fun h => ?_, fun h => ?_, fun h => next_congr ?_, fun h => next_congr ?_⟩⟩
  · obtain ⟨hnone, hsome⟩ := State.grant_bindSenders h
    cases hq : Port.ofByte? (r.op 0) with
    | none => exact next_congr (hnone hq)
    | some q =>
      refine (next_congr (hsome q hq)).trans ?_
      dsimp only
      split <;> rfl
  · obtain ⟨hnone, hsome⟩ := State.grant_setMask h
    cases hn : Sender.ofByte? (r.op 0) with
    | none => exact next_congr (hnone (.inl hn))
    | some n =>
      cases ha : Area.ofByte? (r.op 1) with
      | none => exact next_congr (hnone (.inr ha))
      | some a =>
        refine (next_congr (hsome n a hn ha)).trans ?_
        dsimp only
        split <;> rfl
  · exact State.grant_tested h rfl rfl
  · refine State.grant_tested h rfl (State.alarmCount_of_points ?_)
    rw [State.append_points]
    rfl

end Sys2Proof.Machine
end
section
/-! SUPPORT. ENROL and WITHDRAW of a location whose shared tests have passed (R33 to R36). -/

namespace Sys2Proof.Machine

open Claims

/-- The copy of a location that is not enrolled touches snapshot records alone. -/
theorem State.copyBefore_unenrolled {s : State} {l : Loc} (h : s.content l = none) :
    ∃ records, s.copyBefore l = { s with snapRecords := records } := by
  have hv : s.verified l = true := by
    have hp : s.points.find l.key = none := by simpa [State.content] using h
    simp only [State.verified, hp]
  unfold State.copyBefore
  rw [if_pos hv]
  split <;> exact ⟨_, rfl⟩

/-- The effect of an ENROL, whole (R34, R57). -/
theorem State.enrol_eq {s : State} {l : Loc} (h : s.content l = none) (n : Serial) (k : PointKind) (doneBy : Sender) :
    s.enrol l n k doneBy = { (s.copyBefore l).writePoint l (enrolledContent n k) with
        enrolMap := Table.insert (s.enrolMap.filter (fun e => e.2 ≠ l)) n.toNat l
        strays := s.strays.filter (fun e => e.serial ≠ n) }.append
      (record .enrol l none (some .unheard) .request (some doneBy) (some n)) := by
  obtain ⟨records, hcopy⟩ := State.copyBefore_unenrolled h
  rw [State.enrol, hcopy]
  rfl

theorem State.content_copyBefore_atWrite {s : State} {l : Loc} {c : PointContent} (h : s.content l = some c) :
    (s.copyBefore l).content l = some (atWrite s l c) := s.content_copyBefore_self l h

/-- The effect of a WITHDRAW, whole (R36, R173). -/
theorem State.withdraw_eq {s : State} {l : Loc} {c : PointContent} (h : s.content l = some c) (doneBy : Sender) :
    s.withdraw l doneBy = { s.copyBefore l with
        points := (s.copyBefore l).points.erase l.key
        enrolMap := (s.copyBefore l).enrolMap.filter (fun e => e.2 ≠ l)
        polls := (s.copyBefore l).polls.map (fun (q : List PollItem) => q.filter (fun i => i.loc ≠ l)) }.append
      (record .withdraw l (some (atWrite s l c).condition) none .request (some doneBy) none) := by
  simp only [State.withdraw, State.content_copyBefore_atWrite h]
  rfl

theorem State.mapsSerial_eq_true (s : State) (n : Serial) : s.mapsSerial n = true ↔ s.enrolMap.find n.toNat ≠ none := by
  rw [State.mapsSerial, Option.isSome_iff_ne_none]

/-- What ENROL answers and does at a location whose shared tests have passed (R33, R34). -/
theorem enrolBody_passed {s : State} {p : Port} {r : Request} {l : Loc} {n : Serial} {k : PointKind}
    (hl : r.loc? = some l) (hn : r.serial? 2 = some n) (hk : PointKind.ofByte? (r.op 5) = some k)
    (ht : s.bayTests p r.sender .commission true l.bay = none) :
    enrolBody p r s =
      if s.content l ≠ none then (s, .bare .state)
      else if s.enrolMap.find n.toNat ≠ none then (s, .bare .duplicateSerial)
      else (s.enrol l n k r.sender, .bare .done) := by
  simp only [enrolBody, hl, hn, hk, ht, State.mapsSerial_eq_true, Option.isSome_iff_ne_none]

theorem withdrawBody_passed {s : State} {p : Port} {r : Request} {l : Loc} {c : PointContent}
    (hl : r.loc? = some l) (ht : s.bayTests p r.sender .commission true l.bay = none) (hc : s.content l = some c) :
    withdrawBody p r s =
      if c.condition = .pending ∨ c.condition = .alarm then (s, .bare .state)
      else (s.withdraw l r.sender, .bare .done) := by
  simp only [withdrawBody, hl, ht, hc]

/-- Settles O41: the outcomes by the bodies, the effects by `State.enrol_eq` and `State.withdraw_eq`. -/
theorem enrolAndWithdrawOutcomes : Obligations.EnrolAndWithdrawOutcomes := by
  intro s p r l hl hx
  have ht := State.bayTests_of_refusal_none hx
  refine ⟨fun n k h hn hk => next_congr ?_, fun c h hc => next_congr ?_⟩
  · have hbody := enrolBody_passed hl hn hk ht
    split
    · next henrolled => exact State.grant_refused h (hbody.trans (if_pos henrolled))
    · next hfree =>
      replace hbody := hbody.trans (if_neg hfree)
      split
      · next hmapped => exact State.grant_refused h (hbody.trans (if_pos hmapped))
      · next hnew =>
        rw [State.grant_answered h (hbody.trans (if_neg hnew)), State.enrol_eq (s := granted s p) (not_not.mp hfree)]
        rfl
  · have hbody := withdrawBody_passed hl ht hc
    split
    · next hactive => exact State.grant_refused h (hbody.trans (if_pos hactive))
    · next hcalm =>
      rw [State.grant_answered h (hbody.trans (if_neg hcalm)), State.withdraw_eq (s := granted s p) hc]
      rfl

end Sys2Proof.Machine
end

section
/-! SUPPORT. SET-BAY: its tests in order, and the partner it leaves every bay (R37, R127). -/

namespace Sys2Proof.Machine

open Claims

/-! ### Operands and tests -/

/-- FFh is the number of no bay. -/
theorem partnerOfByte?_eq_some (x : Byte) (q : Option Bay) : partnerOfByte? x = some q ↔
    (x = 0xFF ∧ q = none) ∨ ∃ y : Bay, q = some y ∧ y.val = x.toNat := by
  unfold partnerOfByte?
  split
  · next hx =>
    subst hx
    have no (y : Bay) : y.val ≠ (0xFF : Byte).toNat := ne_of_lt (lt_of_lt_of_le y.isLt (by decide))
    simp only [Option.some.injEq, true_and, no, and_false, exists_false, or_false]
    exact eq_comm
  · next hx =>
    simp only [Option.map_eq_some_iff, Bay.ofByte?_eq_some, hx, false_and, false_or]
    exact exists_congr (fun y => by rw [and_comm, eq_comm])

/-- The sender holds COMMISSION in the areas of the bay and of the partner named (R37). -/
def State.mayPair (s : State) (n : Sender) (b : Bay) (q : Option Bay) : Prop :=
  s.may n .commission b.area = true ∧ ∀ y, q = some y → s.may n .commission y.area = true

/-- The bay and the partner named are fitted. -/
def State.pairFitted (s : State) (b : Bay) (q : Option Bay) : Prop :=
  s.fitted b = true ∧ ∀ y, q = some y → s.fitted y = true

/-- A test of the bay and of the partner named, as the model makes it, fails where one of the two fails it. -/
theorem not_or_any_iff (f : Bay → Bool) (b : Bay) (q : Option Bay) :
    (!f b || q.any (fun x => !f x)) = true ↔ ¬ (f b = true ∧ ∀ y, q = some y → f y = true) := by
  cases q with
  | none => simp
  | some x => cases f b <;> simp

/-- Steps 2 to 5 of R30 for SET-BAY, in their order. -/
theorem State.pairTests_eq (s : State) (p : Port) (n : Sender) (b : Bay) (q : Option Bay) :
    (¬ s.mayPair n b q → s.pairTests p n b q = some (.bare .masked)) ∧
    (s.mayPair n b q → s.locked = true → s.pairTests p n b q = some (.bare .locked)) ∧
    (s.mayPair n b q → s.locked = false → ¬ s.pairFitted b q → s.pairTests p n b q = some (.bare .range)) ∧
    (s.mayPair n b q → s.locked = false → s.pairFitted b q →
      s.pairTests p n b q = (s.pairingHeld p b q).map Answer.heldBy) := by
  have masked := not_or_any_iff (fun x => s.may n .commission x.area) b q
  have unfitted := not_or_any_iff s.fitted b q
  unfold State.pairTests
  refine ⟨fun hm => ?_, fun hm hl => ?_, fun hm hl hf => ?_, fun hm hl hf => ?_⟩
  · rw [if_pos (masked.mpr hm)]
  · rw [if_neg (masked.not.mpr (not_not.mpr hm)), if_pos hl]
  · rw [if_neg (masked.not.mpr (not_not.mpr hm)), if_neg (by simp [hl]), if_pos (unfitted.mpr hf)]
  · rw [if_neg (masked.not.mpr (not_not.mpr hm)), if_neg (by simp [hl]), if_neg (unfitted.not.mpr (not_not.mpr hf))]

theorem State.mem_concernedBays (s : State) (b : Bay) (q : Option Bay) (x : Bay) : x ∈ s.concernedBays b q ↔
    x = b ∨ q = some x ∨ (s.bay b).partner = some x ∨ ∃ y, q = some y ∧ (s.bay y).partner = some x := by
  simp [State.concernedBays, eq_comm (a := some x), Option.bind_eq_some_iff]

/-- The lowest-numbered concerned bay that another port holds decides (R127). -/
theorem State.pairingHeld_eq_some {s : State} {p : Port} {b : Bay} {q : Option Bay} {x : Bay} {o : Port}
    (hx : x ∈ s.concernedBays b q) (ho : s.heldByOther p x = some o)
    (hlow : ∀ y, y < x → y ∈ s.concernedBays b q → s.heldByOther p y = none) : s.pairingHeld p b q = some o := by
  obtain ⟨before, after, hsplit⟩ := List.append_of_mem (Bay.mem_all x)
  have hrising : (before ++ x :: after).Pairwise (· < ·) := hsplit ▸ List.pairwise_lt_finRange 32
  refine List.findSome?_eq_some_iff.mpr ⟨before, x, after, hsplit, by simp [hx, ho], fun y hy => ?_⟩
  have hlt : y < x := (List.pairwise_append.mp hrising).2.2 y hy x (by simp)
  split
  · next hc => exact hlow y hlt (by simpa using hc)
  · rfl

theorem State.pairingHeld_eq_none {s : State} {p : Port} {b : Bay} {q : Option Bay}
    (h : ∀ x, x ∈ s.concernedBays b q → s.heldByOther p x = none) : s.pairingHeld p b q = none := by
  refine List.findSome?_eq_none_iff.mpr (fun x _ => ?_)
  split
  · next hx => exact h x (by simpa using hx)
  · rfl

/-! ### The partners left -/

/-- From `s` to `t` the bay records differ in their partners alone. -/
def PartnersOnly (s t : State) : Prop := ∀ x, t.bay x = { s.bay x with partner := (t.bay x).partner }

theorem PartnersOnly.refl (s : State) : PartnersOnly s s := fun _ => rfl

theorem PartnersOnly.trans {s t u : State} (h : PartnersOnly s t) (k : PartnersOnly t u) : PartnersOnly s u := by
  intro x
  rw [k x, h x]

theorem PartnersOnly.setPartner (s : State) (b : Bay) (q : Option Bay) : PartnersOnly s (s.setPartner b q) := by
  intro x
  rw [State.bay_setPartner]
  split
  · next h => rw [h]
  · rfl

theorem PartnersOnly.unpair (s : State) (b : Bay) : PartnersOnly s (s.unpair b) := by
  unfold State.unpair
  split
  · exact .refl s
  · exact (setPartner s _ _).trans (setPartner _ _ _)

theorem PartnersOnly.pair (s : State) (b : Bay) (q : Option Bay) : PartnersOnly s (s.pair b q) := by
  unfold State.pair
  split
  · exact unpair s b
  · split
    · exact .refl s
    · exact (((unpair s b).trans (unpair _ _)).trans (setPartner _ _ _)).trans (setPartner _ _ _)

/-- The partner of each bay after a SET-BAY of `b` to `q` (R37). -/
def State.newPartner (s : State) (b : Bay) (q : Option Bay) (x : Bay) : Option Bay :=
  if x = b then q
  else if q = some x then some b
  else if (s.bay b).partner = some x then none
  else if q ≠ none ∧ (s.bay x).partner = q then none
  else (s.bay x).partner

/-- In a symmetric pairing the named bays' present partners lose theirs, and no other bay does. -/
theorem partner_pair_eq {s : State} (hs : s.pairingSound) {b : Bay} {q : Option Bay} (hq : q ≠ some b) (y : Bay) :
    ((s.pair b q).bay y).partner = s.newPartner b q y := by
  unfold State.newPartner
  cases q with
  | none =>
    rw [State.pair, partner_unpair]
    by_cases hy : y = b <;> simp [hy]
  | some x =>
    have hxb : x ≠ b := fun h => hq (by rw [h])
    by_cases hpaired : (s.bay b).partner = some x
    · have hback := (hs b x hpaired).2
      rw [State.pair, if_pos hpaired]
      by_cases hyb : y = b
      · simp [hyb, hpaired]
      · by_cases hyx : x = y
        · simp [← hyx, hxb, hback]
        · have hother : (s.bay y).partner ≠ some x := by
            intro h
            exact hyb (Option.some.inj ((hs y x h).2.symm.trans hback))
          simp [hyb, hyx, hpaired, hother]
    · have hsym : (s.bay x).partner = some y ↔ (s.bay y).partner = some x :=
        ⟨fun h => (hs x y h).2, fun h => (hs y x h).2⟩
      rw [partner_pair s b x y hpaired, partner_unpair, if_neg (not_or.mpr ⟨hxb, hpaired⟩)]
      by_cases hyx : y = x
      · simp [hyx, hxb]
      · by_cases hyb : y = b
        · simp [hyb, hxb.symm]
        · by_cases hb : (s.bay b).partner = some y <;>
            simp [hyx, Ne.symm hyx, hyb, hb, hsym]

/-- What SET-BAY comes to where its tests pass (R37). -/
theorem State.pair_granted {s : State} (hs : s.pairingSound) (p : Port) {b : Bay} {q : Option Bay} (hq : q ≠ some b) :
    ∃ bays, (granted s p).pair b q = { granted s p with bays := bays } ∧
      ∀ x, bays.get x = { s.bay x with partner := s.newPartner b q x } := by
  obtain ⟨bays, hb⟩ := pair_eq (granted s p) b q
  refine ⟨bays, hb, fun x => ?_⟩
  have hbay : ((granted s p).pair b q).bay x = bays.get x := by rw [hb]; rfl
  have hpartner := PartnersOnly.pair (granted s p) b q x
  rw [partner_pair_eq (s := granted s p) hs hq] at hpartner
  exact hbay.symm.trans hpartner

theorem setBayBody_refused {s : State} {p : Port} {r : Request} {b : Bay} {q : Option Bay} {a : Answer}
    (hb : Bay.ofByte? (r.op 0) = some b) (hq : partnerOfByte? (r.op 1) = some q) (hne : q ≠ some b)
    (ht : s.pairTests p r.sender b q = some a) : setBayBody p r s = (s, a) := by
  simp only [setBayBody, hb, hq, hne, if_false, ht]

theorem setBayBody_passed {s : State} {p : Port} {r : Request} {b : Bay} {q : Option Bay}
    (hb : Bay.ofByte? (r.op 0) = some b) (hq : partnerOfByte? (r.op 1) = some q) (hne : q ≠ some b)
    (ht : s.pairTests p r.sender b q = none) : setBayBody p r s = (s.pair b q, .bare .done) := by
  simp only [setBayBody, hb, hq, hne, if_false, ht]

theorem setBayBody_range {s : State} {p : Port} {r : Request}
    (h : Bay.ofByte? (r.op 0) = none ∨ partnerOfByte? (r.op 1) = none) : setBayBody p r s = (s, .bare .range) := by
  unfold setBayBody
  split
  · next hb hq => simp [hb, hq] at h
  · rfl

/-- Settles O43: each refusal by `State.pairTests_eq`, the partners left by `State.pair_granted`. -/
theorem setBayOutcomes : Obligations.SetBayOutcomes := by
  refine ⟨partnerOfByte?_eq_some, fun s p r h => ⟨fun hn => next_congr (State.grant_refused h (setBayBody_range hn)),
    fun b q hb hq => ⟨fun heq => next_congr (State.grant_refused h (a := .bare .range) ?_), fun hne => ?_⟩⟩⟩
  · simp only [setBayBody, hb, hq, heq, if_true]
  have refused {a : Answer} (ht : (granted s p).pairTests p r.sender b q = some a) :=
    next_congr (State.grant_refused h (setBayBody_refused hb hq hne ht))
  obtain ⟨hmasked, hlocked, hunfitted, hpassed⟩ := (granted s p).pairTests_eq p r.sender b q
  refine ⟨fun hm => refused (hmasked hm), fun hm hl => refused (hlocked hm hl),
    fun hm hl hf => refused (hunfitted hm hl hf), fun hm hl hf => ⟨fun x o hx ho hlow => ?_, fun hfree hs => ?_⟩⟩
  · have hheld : (granted s p).pairingHeld p b q = some o :=
      State.pairingHeld_eq_some ((State.mem_concernedBays _ b q x).mpr hx) ho
        (fun y hy hc => hlow y hy ((State.mem_concernedBays _ b q y).mp hc))
    exact refused (by rw [hpassed hm hl hf, hheld]; rfl)
  · have hheld : (granted s p).pairingHeld p b q = none :=
      State.pairingHeld_eq_none (fun y hc => hfree y ((State.mem_concernedBays _ b q y).mp hc))
    have hbody := setBayBody_passed (s := granted s p) hb hq hne (by rw [hpassed hm hl hf, hheld]; rfl)
    obtain ⟨bays, hpair, hbays⟩ := State.pair_granted hs p hne
    rw [hpair] at hbody
    exact ⟨bays, next_congr (State.grant_answered_quiet h hbody rfl), hbays⟩

end Sys2Proof.Machine
end

section
/-! SUPPORT. SET-TIMING and the re-warm at a restart of the sweep (R39, R40, R118, R119). -/

namespace Sys2Proof

namespace PointContent

/-- The content put to UNHEARD by a re-warm (R118). -/
def rewarmed (c : PointContent) : PointContent := { c.entering .unheard with age := 0 }

theorem rebuilt_heardStopped (c : PointContent) : c.rebuilt.heardStopped = c.heardStopped := by
  rw [rebuilt_eq]

/-- A mark that is clear already is no change of the content. -/
theorem clear_of_clear {c : PointContent} (h : c.heardStopped = false) : { c with heardStopped := false } = c := by
  rw [← h]

end PointContent

namespace Machine

open Claims

/-- What every event on the image leaves, in the words of the statements. -/
theorem ImageFrame.onlyImage {s t : State} (h : ImageFrame s t) : onlyImage s t := by
  refine ⟨t.points, t.enrolMap, t.strays, t.polls, t.ring, t.nextSeq, t.snapRecords, t.ports, t.lastGranted,
    t.draws, ?_⟩
  obtain ⟨⟩ := t
  simp only [State.mk.injEq, true_and]
  exact ⟨h.phase, h.rst, h.startCause, h.strap, h.locked, h.count, h.unitInGroup, h.owes, h.prescaler, h.counter,
    h.bays, h.bound, h.masks, h.timing, h.holds, h.deferrals, h.snap, h.snapFirst, h.snapLast, h.pending⟩

/-- The last record of the ring after an append (R140). -/
theorem State.append_getLast? (s : State) (b : ChangeBody) :
    ∃ e, (s.append b).ring.getLast? = some e ∧ e.body = b := by
  rw [append_ring]
  exact ⟨_, List.getLast?_concat, rfl⟩

theorem Timing.inRange_iff (t : Timing) : t.inRange = true ↔
    1 ≤ t.pollAge.toNat ∧ t.pollAge.toNat ≤ 14 ∧ 2 ≤ t.missingAge.toNat ∧ t.missingAge.toNat ≤ 15 ∧
      t.pollAge.toNat < t.missingAge.toNat ∧ 5 ≤ t.confirmNormal.toNat ∧ 5 ≤ t.confirmService.toNat ∧
      10 ≤ t.serviceLimit.toNat ∧ 5 ≤ t.holdLimit.toNat ∧ 10 ≤ t.snapshotKeep.toNat := by
  simp only [Timing.inRange, Bool.and_eq_true, decide_eq_true_eq, and_assoc]

/-! ### One location at a re-warm -/

theorem atWrite_heardStopped (s : State) (l : Loc) (c : PointContent) :
    (atWrite s l c).heardStopped = c.heardStopped := by
  unfold atWrite
  split
  · exact c.rebuilt_heardStopped
  · rfl

theorem View.atWrite {s t : State} {l : Loc} (h : View s t l) (c : PointContent) :
    Claims.atWrite t l c = Claims.atWrite s l c := by
  rw [Claims.atWrite, Claims.atWrite, h.needsCopy, h.verified]

/-- The first pass at a point that is due: copied, then put to UNHEARD unless the copy found a failure (R118, R173). -/
theorem State.content_rewarmPoint_due {s : State} {l : Loc} {c : PointContent} (h : s.content l = some c)
    (hdue : rewarms c = true) : (s.rewarmPoint l).content l =
      some (if rewarms (atWrite s l c) then (atWrite s l c).rewarmed else atWrite s l c) := by
  have hcopy := State.content_copyBefore_atWrite h
  simp only [State.rewarmPoint, h, hdue, if_true, hcopy]
  split
  · exact State.content_writePoint_self _ _ _
  · exact hcopy

theorem State.rewarmPoint_notDue {s : State} {l : Loc} {c : PointContent} (h : s.content l = some c)
    (hdue : rewarms c = false) : s.rewarmPoint l = s := by
  simp only [State.rewarmPoint, h, hdue, Bool.false_eq_true, if_false]

/-- The second pass at a point whose mark is set (R118). -/
theorem State.content_clearHeard_marked {s : State} {l : Loc} {c : PointContent} (h : s.content l = some c)
    (hmark : c.heardStopped = true) :
    (s.clearHeard l).content l = some { atWrite s l c with heardStopped := false } := by
  simp only [State.clearHeard, h, hmark, if_true, State.content_copyBefore_atWrite h]
  exact State.content_writePoint_self _ _ _

/-- A record whose mark is clear is not written by the second pass (log 15). -/
theorem State.clearHeard_clear {s : State} {l : Loc} {c : PointContent} (h : s.content l = some c)
    (hmark : c.heardStopped = false) : s.clearHeard l = s := by
  simp only [State.clearHeard, h, hmark, Bool.false_eq_true, if_false]

theorem rewarms_heardStopped {c : PointContent} (h : rewarms c = true) : c.heardStopped = false := by
  simp only [rewarms, Bool.and_eq_true, Bool.not_eq_true'] at h
  exact h.2

/-! ### The two passes -/

/-- What a re-warm leaves of a content found at a location (R118). -/
def State.afterRewarm (s : State) (l : Loc) (c : PointContent) : PointContent :=
  let d := if rewarms c || c.heardStopped then atWrite s l c else c
  let e := if rewarms d && rewarms c then d.rewarmed else d
  { e with heardStopped := false }

/-- One location through both passes, whatever they do at the others: a point due has no mark, so at most one of the
passes writes it. -/
theorem content_rewarm_passes {s s1 s2 s3 s4 : State} {l : Loc} {c : PointContent} (hc : s.content l = some c)
    (h1 : View s s1 l) (h2 : View (s1.rewarmPoint l) s2 l) (h3 : View s2 s3 l) (h4 : View (s3.clearHeard l) s4 l) :
    s4.content l = some (s.afterRewarm l c) := by
  have hc1 : s1.content l = some c := h1.content.trans hc
  have h23 : View (s1.rewarmPoint l) s3 l := h2.trans h3
  rw [h4.content]
  cases hdue : rewarms c with
  | true =>
    have hd : (if rewarms (atWrite s l c) then (atWrite s l c).rewarmed else atWrite s l c).heardStopped = false := by
      rw [apply_ite PointContent.heardStopped]
      exact (ite_self _).trans ((atWrite_heardStopped s l c).trans (rewarms_heardStopped hdue))
    have hc3 := h23.content.trans (State.content_rewarmPoint_due hc1 hdue)
    rw [h1.atWrite] at hc3
    rw [State.clearHeard_clear hc3 hd, hc3]
    simp only [State.afterRewarm, hdue, Bool.true_or, if_true, Bool.and_true, PointContent.clear_of_clear hd]
  | false =>
    rw [State.rewarmPoint_notDue hc1 hdue] at h23
    have h13 : View s s3 l := h1.trans h23
    have hc3 : s3.content l = some c := h13.content.trans hc
    cases hmark : c.heardStopped with
    | true =>
      rw [State.content_clearHeard_marked hc3 hmark, h13.atWrite]
      simp [State.afterRewarm, hdue, hmark]
    | false =>
      rw [State.clearHeard_clear hc3 hmark, hc3]
      simp [State.afterRewarm, hdue, hmark, PointContent.clear_of_clear hmark]

theorem State.content_rewarm (s : State) (doneBy : Sender) (l : Loc) :
    (s.rewarm doneBy).content l = (s.content l).map (s.afterRewarm l) := by
  cases hc : s.content l with
  | none =>
    have := (s.rewarm_changes doneBy).frame.enrolled l
    rw [hc] at this
    simpa using this
  | some c =>
    have hmem : l ∈ s.enrolledLocs := (s.mem_enrolledLocs l).mpr (by rw [hc]; rfl)
    obtain ⟨a, h1, h2⟩ := View.foldl_at View.rewarmPoint s.enrolledLocs s.nodup_enrolledLocs s l hmem
    obtain ⟨b, h3, h4⟩ := View.foldl_at View.clearHeard s.enrolledLocs s.nodup_enrolledLocs
      (s.enrolledLocs.foldl State.rewarmPoint s) l hmem
    exact (View.append _ _ l).content.trans (content_rewarm_passes hc h1 h2 h3 h4)

/-! ### SET-TIMING -/

theorem State.retime_restart {s : State} {t : Timing} (h : s.timing.sweepPeriod = 0) (ht : t.sweepPeriod ≠ 0)
    (doneBy : Sender) : s.retime t doneBy = { s with timing := t, prescaler := 0 : State }.rewarm doneBy := by
  simp only [State.retime]
  rw [if_pos ⟨h, ht⟩]

theorem State.retime_plain {s : State} {t : Timing} (h : s.timing.sweepPeriod ≠ 0 ∨ t.sweepPeriod = 0)
    (doneBy : Sender) : s.retime t doneBy = { s with timing := t, prescaler := 0 } := by
  simp only [State.retime]
  rw [if_neg (by tauto)]

theorem setTimingBody_refused {s : State} {p : Port} {r : Request} {a : Answer} (hr : r.timing.inRange = true)
    (ht : s.storeTests r.sender = some a) : setTimingBody p r s = (s, a) := by
  simp only [setTimingBody, hr, Bool.not_true, Bool.false_eq_true, if_false, ht]

theorem setTimingBody_passed {s : State} {p : Port} {r : Request} (hr : r.timing.inRange = true)
    (ht : s.storeTests r.sender = none) : setTimingBody p r s = (s.retime r.timing r.sender, .bare .done) := by
  simp only [setTimingBody, hr, Bool.not_true, Bool.false_eq_true, if_false, ht]

/-- Settles O45: the tests, the settings, and at a restart the content of every location by `State.content_rewarm`. -/
theorem setTimingOutcomes : Obligations.SetTimingOutcomes := by
  intro s p r h
  have hrange := r.timing.inRange_iff
  have refused {x : Result} (hx : storeRefusal s r.sender = some x) :
      (granted s p).storeTests r.sender = some (.bare x) := by rw [State.storeTests_granted, hx]; rfl
  have passed (hx : storeRefusal s r.sender = none) : (granted s p).storeTests r.sender = none := by
    rw [State.storeTests_granted, hx]; rfl
  refine ⟨fun hbad => next_congr (State.grant_refused h (a := .bare .range) ?_),
    fun x hok hx => next_congr (State.grant_refused h (setTimingBody_refused (hrange.mpr hok) (refused hx))),
    fun hok hx hkeep => next_congr (State.grant_answered_quiet h (a := .bare .done) ?_ rfl),
    fun hok hx hstop hrun => ⟨next_congr (State.grant_answered h (a := .bare .done) ?_),
      (State.rewarm_changes _ _).frame.onlyImage, State.append_getLast? _ _,
      State.content_rewarm { granted s p with timing := r.timing, prescaler := 0 } r.sender⟩⟩
  · have hbad : ¬ r.timing.inRange = true := fun hok => hbad (hrange.mp hok)
    simp only [setTimingBody, hbad, Bool.not_false, if_true]
  · rw [setTimingBody_passed (hrange.mpr hok) (passed hx),
      State.retime_plain (s := granted s p) (t := r.timing) hkeep]
    rfl
  · rw [setTimingBody_passed (hrange.mpr hok) (passed hx),
      State.retime_restart (s := granted s p) (t := r.timing) hstop hrun]
    rfl

end Machine
end Sys2Proof
end

section
/-! SUPPORT. The lists, queues and slots under every step (R54, R113, R179, R182). -/

namespace Sys2Proof.Machine

/-- Stray list and slots stand together: a READ-STRAYS answer fits its frame because the list is short. -/
theorem strays_slots_change (k : ChangeClass) (s t : State) (h : Change s k t)
    (hs : s.straysSound ∧ s.slotsSound) : t.straysSound ∧ t.slotsSound :=
  ⟨strays_change h hs.1, slots_change h hs⟩

/-- Settles O56: every single change keeps the lists, the queues and the slots, and so every step does. -/
theorem stepKeepsListsAndSlots : Obligations.StepKeepsListsAndSlots := by
  intro s t hstrays hpolls hslots h
  obtain ⟨hstrays', hslots'⟩ := step_keeps strays_slots_change (fun _ _ hs => hs) h ⟨hstrays, hslots⟩
  exact ⟨hstrays', step_keeps (fun _ _ _ => polls_change) (fun _ _ hs => hs) h hpolls, hslots'⟩

end Sys2Proof.Machine
end

section
/-! SUPPORT. REPORT: its operands, its lookup, the stray step and the sequence test in a free bay (R46 to R64). -/

namespace Sys2Proof

/-! ### Operands of a REPORT (R46, R48) -/

theorem Battery.ofByte?_eq_some (x : Byte) (b : Battery) : Battery.ofByte? x = some b ↔ b.code = x := by
  constructor
  · intro h
    simpa using List.find?_some h
  · rintro rfl
    cases b <;> decide

theorem Battery.ofByte?_eq_none (x : Byte) : Battery.ofByte? x = none ↔ x.toNat < 1 ∨ 3 < x.toNat := by
  simp only [Battery.ofByte?, List.find?_eq_none, List.mem_cons, List.not_mem_nil, or_false, forall_eq_or_imp, forall_eq,
    Battery.code, beq_iff_eq]
  bv_omega

theorem marginOfByte?_eq_some (x : Byte) (m : Fin 64) : marginOfByte? x = some m ↔ m.val = x.toNat := by
  have := m.isLt
  unfold marginOfByte?
  split
  · simp [Fin.ext_iff, eq_comm]
  · simp only [reduceCtorEq, false_iff]
    omega

theorem marginOfByte?_eq_none (x : Byte) : marginOfByte? x = none ↔ 63 < x.toNat := by
  simp only [marginOfByte?, dite_eq_right_iff, reduceCtorEq, imp_false]
  omega

namespace Machine

open Claims

theorem ReportKind.ofByte?_eq_some (x : Byte) (k : ReportKind) : ReportKind.ofByte? x = some k ↔ k.code = x := by
  constructor
  · intro h
    simpa using List.find?_some h
  · rintro rfl
    cases k <;> decide

theorem ReportKind.ofByte?_eq_none (x : Byte) : ReportKind.ofByte? x = none ↔ x.toNat < 1 ∨ 6 < x.toNat := by
  simp only [ReportKind.ofByte?, List.find?_eq_none, List.mem_cons, List.not_mem_nil, or_false, forall_eq_or_imp,
    forall_eq, ReportKind.code, beq_iff_eq]
  bv_omega

theorem Request.serial?_eq_none (r : Request) (k : Nat) : r.serial? k = none ↔ r.op3 k = 0 ∨ r.op3 k = 0xFFFFFF := by
  simp only [Request.serial?, ite_eq_right_iff, reduceCtorEq, imp_false, serialValid_iff]
  tauto

/-- The fields of a REPORT from its operands (R46). -/
theorem Request.report?_eq_some {r : Request} {m : Report} (h : r.report? = some m) :
    r.serial? 0 = some m.serial ∧ m.sequence = r.op 3 ∧ ReportKind.ofByte? (r.op 4) = some m.kind ∧
      Battery.ofByte? (r.op 5) = some m.battery ∧ marginOfByte? (r.op 6) = some m.margin ∧ m.sender = r.sender := by
  unfold Request.report? at h
  split at h
  · next serial kind battery margin =>
    obtain rfl := Option.some.inj h
    exact ⟨serial, rfl, kind, battery, margin, rfl⟩
  · cases h

/-- A REPORT is refused with RANGE exactly where one of its operands is out of range (R48). -/
theorem Request.report?_eq_none (r : Request) : r.report? = none ↔ r.serial? 0 = none ∨
    ReportKind.ofByte? (r.op 4) = none ∨ Battery.ofByte? (r.op 5) = none ∨ marginOfByte? (r.op 6) = none := by
  cases hr : r.report? with
  | none =>
    refine iff_of_true rfl (by_contra fun hn => ?_)
    simp only [not_or, Option.ne_none_iff_exists'] at hn
    obtain ⟨⟨serial, h0⟩, ⟨kind, h4⟩, ⟨battery, h5⟩, ⟨margin, h6⟩⟩ := hn
    simp [Request.report?, h0, h4, h5, h6] at hr
  | some m =>
    obtain ⟨h0, -, h4, h5, h6, -⟩ := Request.report?_eq_some hr
    simp [h0, h4, h5, h6]

/-! ### The stray step (R55, R56) -/

theorem State.strayStep_eq (s : State) (m : Report) : s.strayStep m = heard s m := rfl

theorem heard_points (s : State) (m : Report) : (heard s m).points = s.points := by
  rw [← State.strayStep_eq, State.strayStep]
  split <;> simp

theorem heard_alarmCount (s : State) (m : Report) : (heard s m).alarmCount = s.alarmCount :=
  State.alarmCount_of_points (heard_points s m)

/-! ### The sequence test (R59, R64) -/

theorem seqClass_result (last : Option Byte) (sequence : Byte) :
    (seqClass last sequence).result = classOf last sequence := by
  cases last with
  | none => rfl
  | some n =>
    simp only [seqClass, classOf, Nat.lt_succ_iff (n := 127), apply_ite SeqClass.result]
    rfl

theorem classOf_stale {n sequence : Byte} (h : 128 ≤ (sequence - n).toNat) : classOf (some n) sequence = .stale := by
  have h0 : (sequence - n).toNat ≠ 0 := by omega
  simp only [classOf, if_neg h0, if_neg (not_lt.mpr h)]

/-- The sequence test at an enrolled point: the application by the class, and the class as the answer. -/
theorem State.sequenceStep_eq {s : State} {l : Loc} {c : PointContent} (h : s.content l = some c) (m : Report) :
    s.sequenceStep l m = (sequenced s l m, classOf c.lastSeq m.sequence) := by
  rw [← seqClass_result]
  simp only [State.sequenceStep, sequenced, h, ← seqClass_result]
  cases seqClass c.lastSeq m.sequence <;> rfl

theorem sequenced_eq {s : State} {l : Loc} {c : PointContent} (h : s.content l = some c) (m : Report) :
    sequenced s l m = match classOf c.lastSeq m.sequence with
      | .accepted => s.applyAccepted l m
      | .duplicate => s.applyDuplicate l m
      | _ => s := by
  unfold sequenced
  split
  · next hn => rw [h] at hn; cases hn
  · next d hd =>
    obtain rfl : c = d := Option.some.inj (h.symm.trans hd)
    rfl

theorem sequenced_stale {s : State} {l : Loc} {c : PointContent} (h : s.content l = some c) {m : Report}
    (hm : classOf c.lastSeq m.sequence = .stale) : sequenced s l m = s := by
  simp only [sequenced, h, hm]

/-! ### The path of a REPORT from its lookup on (R47) -/

theorem State.mayAnywhere_of_may {s : State} {n : Sender} {g : Group} {a : Area} (h : s.may n g a = true) :
    s.mayAnywhere n g = true := (s.mayAnywhere_iff n g).mpr ⟨a, h⟩

theorem State.lookup_known {s : State} {n : Serial} {l : Loc} (h : knownAt s n l) : s.lookup n = (s, .at l) := by
  obtain ⟨hmap, e, he, hpass⟩ := h
  rw [State.lookup_entry hmap he, if_pos hpass]

theorem State.content_of_known {s : State} {n : Serial} {l : Loc} (h : knownAt s n l) : ∃ c, s.content l = some c := by
  obtain ⟨-, e, he, -⟩ := h
  exact ⟨e.content, by rw [State.content, he]; rfl⟩

theorem State.takeReport_masked {s : State} {m : Report} (h : s.mayAnywhere m.sender .radio = false) :
    s.takeReport m = (s, { result := .masked, loc := none }) := by
  simp only [State.takeReport, h, Bool.not_false, if_true]

theorem State.takeReport_unknown {s t : State} {m : Report} {f : Found} (h : s.mayAnywhere m.sender .radio = true)
    (hl : s.lookup m.serial = (t, f)) (hf : ∀ l, f ≠ .at l) :
    s.takeReport m = (heard t m, { result := .unknown, loc := none }) := by
  simp only [State.takeReport, h, Bool.not_true, Bool.false_eq_true, if_false, hl]
  match f, hf with
  | .at l, hf => exact absurd rfl (hf l)
  | .nothing, _ => rfl
  | .failed _, _ => rfl

theorem State.takeReport_known {s : State} {m : Report} {l : Loc} (h : s.mayAnywhere m.sender .radio = true)
    (hl : knownAt s m.serial l) : s.takeReport m =
      if s.may m.sender .radio l.bay.area = false then (s, { result := .masked, loc := none }) else s.holdStep l m := by
  simp only [State.takeReport, h, Bool.not_true, Bool.false_eq_true, if_false, State.lookup_known hl, Bool.not_eq_true']

theorem State.holdStep_free {s : State} {l : Loc} {c : PointContent} (hf : s.holder l.bay = none)
    (hc : s.content l = some c) (m : Report) :
    s.holdStep l m = (sequenced s l m, { result := classOf c.lastSeq m.sequence, loc := some l }) := by
  simp only [State.holdStep, hf, State.sequenceStep_eq hc]

/-- A granted REPORT in range, by what taking it comes to: the end of the event, and the answer with the location. -/
theorem exec_report {s t : State} {p : Port} {r : Request} {m : Report} {a : ReportAnswer}
    (h : s.grantOf .report = some (p, r)) (hr : r.report? = some m) (ht : (granted s p).takeReport m = (t, a)) :
    exec .report s = .next (answered (fired s t) p r a.result ((a.loc.map locBytes).getD [])) := by
  refine next_congr (State.grant_answered h (a := { result := a.result, payload := (a.loc.map locBytes).getD [] }) ?_)
  simp only [reportBody, hr, ht]
  cases a.loc <;> rfl

/-- The same where the alarm count stays. -/
theorem exec_report_quiet {s t : State} {p : Port} {r : Request} {m : Report} {a : ReportAnswer}
    (h : s.grantOf .report = some (p, r)) (hr : r.report? = some m) (ht : (granted s p).takeReport m = (t, a))
    (hq : t.alarmCount = s.alarmCount) :
    exec .report s = .next (answered t p r a.result ((a.loc.map locBytes).getD [])) := by
  rw [exec_report h hr ht, fired_of_alarmCount hq]

/-- Settles O19: the operands by their readings, then the outcomes step by step. -/
theorem reportRefusedOrStray : Obligations.ReportRefusedOrStray := by
  intro s p r h
  refine ⟨?_, fun m hr => ?_, fun hr => ?_, fun m hr hm => ?_, fun m hr hm hl => ?_, fun m l e hr hm hl he hbad => ?_,
    fun m l hr hm hl hmask => ?_⟩
  · rw [Request.report?_eq_none, Request.serial?_eq_none, ReportKind.ofByte?_eq_none, Battery.ofByte?_eq_none,
      marginOfByte?_eq_none]
    simp only [or_assoc]
  · obtain ⟨hserial, hseq, hkind, hbattery, hmargin, hsender⟩ := Request.report?_eq_some hr
    exact ⟨((r.serial?_eq_some 0 _).mp hserial).1, hseq, (ReportKind.ofByte?_eq_some _ _).mp hkind,
      (Battery.ofByte?_eq_some _ _).mp hbattery, (marginOfByte?_eq_some _ _).mp hmargin, hsender⟩
  · exact next_congr (State.grant_refused h (a := .bare .range) (by simp only [reportBody, hr]))
  · exact exec_report_quiet h hr (State.takeReport_masked hm) rfl
  · exact exec_report_quiet h hr (State.takeReport_unknown hm (State.lookup_nothing hl) nofun) (heard_alarmCount _ m)
  · have hfail : (granted s p).lookup m.serial = ((granted s p).handleFailure l, .failed l) := by
      rw [State.lookup_entry (s := granted s p) hl he, if_neg hbad]
    exact exec_report h hr (State.takeReport_unknown hm hfail nofun)
  · have htake := State.takeReport_known (s := granted s p) hm hl
    exact exec_report_quiet h hr (htake.trans (if_pos hmask)) rfl

/-- A REPORT for a known serial, by what the hold step comes to. -/
theorem exec_report_known {s t : State} {p : Port} {r : Request} {m : Report} {l : Loc} {a : ReportAnswer}
    (h : s.grantOf .report = some (p, r)) (hr : r.report? = some m) (hl : knownAt s m.serial l)
    (hmay : s.may m.sender .radio l.bay.area = true) (ht : (granted s p).holdStep l m = (t, a)) :
    exec .report s = .next (answered (fired s t) p r a.result ((a.loc.map locBytes).getD [])) := by
  have htake := State.takeReport_known (s := granted s p) (State.mayAnywhere_of_may hmay) hl
  exact exec_report h hr ((htake.trans (if_neg (by rw [Bool.not_eq_false]; exact hmay))).trans ht)

/-- Settles O21: the free bay lets the report through to the sequence test. -/
theorem reportForFreeBay : Obligations.ReportForFreeBay := by
  intro s p r m l c h hr hl hmay hfree hc
  rw [exec_report_known h hr hl hmay (State.holdStep_free (s := granted s p) hfree hc m),
    sequenced_eq (s := granted s p) hc]
  rfl

/-- Settles O22: the class of such a sequence is STALE, and STALE applies nothing. -/
theorem staleReportChangesNothing : Obligations.StaleReportChangesNothing := by
  have stale {c : PointContent} {m : Report} {n : Byte} (hn : c.lastSeq = some n) (hd : 128 ≤ (m.sequence - n).toNat) :
      classOf c.lastSeq m.sequence = .stale := by rw [hn, classOf_stale hd]
  refine ⟨fun u m l c n hc hn hd => ?_, fun s p r m l c n h hr hl hmay hfree hc hn hd => ?_⟩
  · rw [State.sequenceStep_eq hc, sequenced_stale hc (stale hn hd), stale hn hd]
  · rw [reportForFreeBay s p r m l c h hr hl hmay hfree hc, stale hn hd]
    exact next_congr (congrArg (answered · p r .stale (locBytes l)) (fired_of_alarmCount (t := granted s p) rfl))

end Machine
end Sys2Proof
end

section
/-! SUPPORT. The end of a hold (R133, R134): the drain report by report, the owed visit, the removal and the notice; and
a REPORT for a held bay (R52, R130 to R132). -/

namespace Sys2Proof.Machine

open Claims

/-! ### What the drain leaves -/

/-- The drain changes the deferral queue, and of the rest of the state only what changes of the image change. -/
def DrainFrame (s t : State) : Prop := ImageFrame { s with deferrals := t.deferrals } t

namespace DrainFrame

variable {s t u : State}

theorem image (h : ImageFrame s t) : DrainFrame s t := { h with deferrals := rfl }

theorem trans (h : DrainFrame s t) (k : DrainFrame t u) : DrainFrame s u :=
  ImageFrame.trans (t := { t with deferrals := u.deferrals }) { h with deferrals := rfl } k

theorem undefer (s : State) (b : Bay) : DrainFrame s (s.undefer b) := ImageFrame.refl _

theorem defer (s : State) (r : Report) (b : Bay) : DrainFrame s (s.defer r b) := ImageFrame.refl _

end DrainFrame

/-- The entries that wait for other bays than `b`. -/
def State.otherDeferrals (s : State) (b : Bay) : List Deferral := s.deferrals.filter (fun d => d.bay ≠ b)

theorem State.otherDeferrals_undefer (s : State) (b : Bay) : (s.undefer b).otherDeferrals b = s.otherDeferrals b := by
  simp only [State.otherDeferrals, State.undefer]
  induction s.deferrals with
  | nil => rfl
  | cons d ds ih => by_cases hd : d.bay = b <;> simp_all

theorem State.drainOne_frame (b : Bay) (s : State) (r : Report) : DrainFrame s (State.drainOne b s r) ∧
    ∃ again, (State.drainOne b s r).otherDeferrals b = s.otherDeferrals b ++ again := by
  have image {t : State} (h : ImageChanges (s.undefer b) t) :
      DrainFrame s t ∧ ∃ again, t.otherDeferrals b = s.otherDeferrals b ++ again := by
    refine ⟨(DrainFrame.undefer s b).trans (.image h.frame), [], ?_⟩
    rw [State.otherDeferrals, h.frame.deferrals, ← State.otherDeferrals, s.otherDeferrals_undefer, List.append_nil]
  have hlookup := (s.undefer b).lookup_changes r.serial
  unfold State.drainOne
  dsimp only
  split
  · exact image (hlookup.trans (State.strayStep_changes _ r))
  · exact image (hlookup.trans (State.strayStep_changes _ r))
  · next l hat =>
    rw [(s.undefer b).lookup_at hat]
    split
    · exact image (.refl _)
    · split
      · refine ⟨(DrainFrame.undefer s b).trans (.defer _ r l.bay),
          [{ report := r, bay := l.bay : Deferral }].filter (fun d => d.bay ≠ b), ?_⟩
        rw [State.otherDeferrals, State.defer, List.filter_append, ← State.otherDeferrals, s.otherDeferrals_undefer]
      · exact image (State.sequenceStep_changes _ l r)

theorem State.drain_frame (s : State) (b : Bay) : DrainFrame s (s.drain b) ∧
    ∃ again, (s.drain b).otherDeferrals b = s.otherDeferrals b ++ again := by
  unfold State.drain
  generalize s.waitingFor b = rs
  induction rs generalizing s with
  | nil => exact ⟨.image (.refl s), [], (List.append_nil _).symm⟩
  | cons r rs ih =>
    obtain ⟨hone, again, hagain⟩ := State.drainOne_frame b s r
    obtain ⟨hrest, more, hmore⟩ := ih (State.drainOne b s r)
    exact ⟨hone.trans hrest, again ++ more, by rw [List.foldl_cons, hmore, hagain, List.append_assoc]⟩

theorem State.bay_ne_of_waitingFor {s : State} {b : Bay} (h : s.waitingFor b = []) {d : Deferral}
    (hd : d ∈ s.deferrals) : d.bay ≠ b := by
  simp only [State.waitingFor, List.map_eq_nil_iff, List.filter_eq_nil_iff, decide_eq_true_eq] at h
  exact h d hd

/-- After the drain nothing waits for the bay; the entries for other bays keep their order, those deferred again last. -/
theorem State.drain_deferrals (s : State) (b : Bay) : (∀ d ∈ (s.drain b).deferrals, d.bay ≠ b) ∧
    ∃ again, (s.drain b).deferrals = s.deferrals.filter (fun d => d.bay ≠ b) ++ again := by
  obtain ⟨-, hempty, -⟩ := s.drain_changes b
  obtain ⟨-, again, hagain⟩ := s.drain_frame b
  have hother {d : Deferral} (hd : d ∈ (s.drain b).deferrals) : d.bay ≠ b := State.bay_ne_of_waitingFor hempty hd
  refine ⟨fun d => hother, again, ?_⟩
  rw [← State.otherDeferrals, ← hagain, State.otherDeferrals, List.filter_eq_self.mpr]
  exact fun d hd => decide_eq_true (hother hd)

/-! ### The owed visit, the removal and the notice -/

theorem State.setOwed_clear {s : State} {b : Bay} (h : (s.bay b).owed = false) : s.setOwed b false = s := by
  have hrecord : { s.bay b with owed := false } = s.bay b := by rw [← h]
  rw [State.setOwed, hrecord, State.setBay, State.bay, Vector.get_eq_getElem, Vector.set_getElem_self]

/-- The owed visit clears the bay's mark; of the rest of the state it changes the image alone. -/
theorem State.owedVisit_image (s : State) (b : Bay) : ImageFrame (s.setOwed b false) (s.owedVisit b) := by
  unfold State.owedVisit
  split
  · exact (State.visitBay_changes _ b).frame
  · next h =>
    rw [State.setOwed_clear (by simpa using h)]
    exact .refl s

/-- The first three steps of the end of a hold (R133): the drain, the owed visit, the removal. -/
def State.holdRemoved (s : State) (p : Port) (b : Bay) : State := ((s.drain b).owedVisit b).setHold p none

/-- The end of a hold, whole: a reason goes to the owner with HOLD-ENDED (R134). -/
theorem State.endHold_eq (s : State) (p : Port) (b : Bay) (reason : Option HoldEnd) :
    s.endHold p b reason = match reason with
      | none => s.holdRemoved p b
      | some e => withPort (s.holdRemoved p b) p (fun q => { q with holdEnd := e, flags := q.flags ||| 0x004 }) := by
  cases reason with
  | none => rfl
  | some e => cases p <;> rfl

theorem State.endHold_rest (s : State) (p : Port) (b : Bay) (reason : Option HoldEnd) :
    ∃ ports, s.endHold p b reason = { s.holdRemoved p b with ports := ports } := by
  cases reason <;> exact ⟨_, rfl⟩

theorem State.holdRemoved_hold (s : State) (p : Port) (b : Bay) (q : Port) :
    (s.holdRemoved p b).hold q = if p = q then none else s.hold q := by
  have hdrain : (s.drain b).hold q = s.hold q := (s.drain_frame b).1.port_hold q
  have hvisit : ((s.drain b).owedVisit b).hold q = (s.drain b).hold q := ((s.drain b).owedVisit_image b).port_hold q
  rw [State.holdRemoved, State.hold_setHold, hvisit, hdrain]

theorem State.holdRemoved_bay (s : State) (p : Port) (b x : Bay) :
    (s.holdRemoved p b).bay x = if b = x then { s.bay b with owed := false } else s.bay x := by
  have hdrain (y : Bay) : (s.drain b).bay y = s.bay y := (s.drain_frame b).1.bay y
  rw [← hdrain b, ← hdrain x, ← State.bay_setOwed]
  exact ((s.drain b).owedVisit_image b).bay x

theorem State.holdRemoved_deferrals (s : State) (p : Port) (b : Bay) :
    (s.holdRemoved p b).deferrals = (s.drain b).deferrals := ((s.drain b).owedVisit_image b).deferrals

theorem State.holdRemoved_port (s : State) (p : Port) (b : Bay) (q : Port) :
    ((s.holdRemoved p b).port q).holdEnd = (s.port q).holdEnd ∧
      Event.isIn .holdEnded ((s.holdRemoved p b).port q).flags = Event.isIn .holdEnded (s.port q).flags := by
  have hdrain := (s.drain_frame b).1
  have hvisit := (s.drain b).owedVisit_image b
  exact ⟨(hvisit.holdEnd q).trans (hdrain.holdEnd q),
    (hvisit.quiet q .holdEnded rfl).trans (hdrain.quiet q .holdEnded rfl)⟩

/-- The end of a hold leaves every enrolled point enrolled. -/
theorem State.endHold_enrolled (s : State) (p : Port) (b : Bay) (reason : Option HoldEnd) (l : Loc) :
    ((s.endHold p b reason).content l).isSome = (s.content l).isSome := by
  obtain ⟨ports, hend⟩ := s.endHold_rest p b reason
  rw [hend]
  exact (((s.drain b).owedVisit_image b).enrolled l).trans ((s.drain_frame b).1.enrolled l)

theorem port_withPort (s : State) (p : Port) (f : PortState → PortState) : (withPort s p f).port p = f (s.port p) := by
  cases p <;> rfl

theorem State.endHold_reason (s : State) (p : Port) (b : Bay) (e : HoldEnd) :
    ((s.endHold p b (some e)).port p).holdEnd = e ∧
      Event.isIn .holdEnded ((s.endHold p b (some e)).port p).flags = true := by
  have hport : (s.endHold p b (some e)).port p =
      PortState.raise { (s.holdRemoved p b).port p with holdEnd := e } .holdEnded := by
    rw [State.endHold_eq]
    exact port_withPort _ p _
  rw [hport, PortState.isIn_raise]
  exact ⟨rfl, by simp⟩

/-- An entry that names a location that is not enrolled resolves nothing (log 16). -/
theorem State.lookup_unenrolled {s : State} {n : Serial} {l : Loc} (h : s.enrolMap.find n.toNat = some l)
    (hl : s.points.find l.key = none) : s.lookup n = (s, .nothing) := by
  simp only [State.lookup, h, hl]

/-- One deferred report at the drain, as the statements have it (R68), along the outcomes of its lookup. -/
theorem State.drainOne_eq (b : Bay) (s : State) (m : Report) : State.drainOne b s m = drained b s m := by
  unfold State.drainOne drained
  rw [show { s with deferrals := s.deferrals.eraseP (fun d => d.bay = b) } = s.undefer b from rfl]
  generalize s.undefer b = u
  dsimp only
  cases hmap : u.enrolMap.find m.serial.toNat with
  | none =>
    rw [State.lookup_nothing hmap]
    rfl
  | some l =>
    dsimp only
    cases hpoint : u.points.find l.key with
    | none =>
      rw [State.lookup_unenrolled hmap hpoint]
      rfl
    | some e =>
      dsimp only
      rw [State.lookup_entry hmap hpoint]
      by_cases hpass : e.codeHolds = true ∧ e.content.suspect = false ∧ e.content.serial = m.serial
      · rw [if_pos hpass, if_pos hpass]
        simp only [State.held, Bool.not_eq_true', Bool.and_eq_true, decide_eq_true_eq, Option.isSome_iff_ne_none]
        refine if_congr Iff.rfl rfl (if_congr Iff.rfl rfl ?_)
        have hcontent : u.content l = some e.content := by rw [State.content, hpoint]; rfl
        rw [State.sequenceStep_eq hcontent]
      · rw [if_neg hpass, if_neg hpass]
        rfl

/-- Settles O33: the request by its body, the state left by `State.holdRemoved`, the whole by `State.endHold_eq`. -/
theorem releaseAndEndOfHold : Obligations.ReleaseAndEndOfHold := by
  refine ⟨fun s p r h => next_congr ?_, fun s p h reason hp => ?_, fun s p b reason => ?_⟩
  · have hbody : releaseBayBody p r (granted s p) = match s.hold p with
        | none => (granted s p, .bare .notHeld)
        | some k => ((granted s p).endHold p k.bay none, .doneWith [byteOf k.bay.val]) := rfl
    cases hp : s.hold p with
    | none =>
      rw [hp] at hbody
      exact State.grant_refused h hbody
    | some k =>
      rw [hp] at hbody
      exact State.grant_answered h hbody
  · obtain ⟨hgone, hkept⟩ := s.drain_deferrals h.bay
    have hdrain := (s.drain_frame h.bay).1
    have hvisit := (s.drain h.bay).owedVisit_image h.bay
    rw [← s.holdRemoved_deferrals p h.bay] at hgone hkept
    intro t
    obtain ⟨ports, hend⟩ : ∃ ports, t = { s.holdRemoved p h.bay with ports := ports } := s.endHold_rest p h.bay reason
    refine ⟨?_, fun q hq => ?_, ?_, ?_, ?_, fun b hb => ?_, ?_, ?_, ?_, ?_⟩
    · rw [hend]
      exact (s.holdRemoved_hold p h.bay p).trans (if_pos rfl)
    · rw [hend]
      exact (s.holdRemoved_hold p h.bay q).trans (if_neg hq.symm)
    · rw [hend]
      exact hgone
    · rw [hend]
      exact hkept
    · rw [hend]
      exact (s.holdRemoved_bay p h.bay h.bay).trans (if_pos rfl)
    · rw [hend]
      exact (s.holdRemoved_bay p h.bay b).trans (if_neg hb.symm)
    · rw [hend]
      exact hvisit.counter.trans hdrain.counter
    · rw [hend]
      exact hvisit.prescaler.trans hdrain.prescaler
    · rintro e rfl
      exact s.endHold_reason p h.bay e
    · rintro rfl
      exact s.holdRemoved_port p h.bay p
  · have hfold : drained b = State.drainOne b := funext fun u => funext fun m => (State.drainOne_eq b u m).symm
    rw [State.endHold_eq, hfold]
    rfl

/-! ### A REPORT for a held bay (R52) -/

theorem State.holdStep_deferred {s : State} {l : Loc} {m : Report} {o : Port} (ho : s.holder l.bay = some o)
    (hk : m.kind ≠ .alarm) (hroom : s.deferrals.length < Config.deferralCapacity) :
    s.holdStep l m = (s.defer m l.bay, { result := .deferred, loc := some l }) := by
  simp only [State.holdStep, ho, if_neg hk, if_pos hroom]

/-- The reason for which report `m` breaks a hold (R131, R132). -/
def breakReason (m : Report) : HoldEnd := if m.kind = .alarm then .fireReport else .deferralFull

theorem State.holdStep_broken {s : State} {l : Loc} {m : Report} {o : Port} {c : PointContent}
    (ho : s.holder l.bay = some o) (hb : m.kind = .alarm ∨ Config.deferralCapacity ≤ s.deferrals.length)
    (hc : (s.endHold o l.bay (some (breakReason m))).content l = some c) :
    s.holdStep l m = (sequenced (s.endHold o l.bay (some (breakReason m))) l m,
      { result := classOf c.lastSeq m.sequence, loc := some l }) := by
  have hseq := State.sequenceStep_eq hc m
  by_cases hk : m.kind = .alarm
  · simp only [breakReason, if_pos hk] at hseq ⊢
    simp only [State.holdStep, ho, if_pos hk, hseq]
  · have hfull : ¬ s.deferrals.length < Config.deferralCapacity := not_lt.mpr (hb.resolve_left hk)
    simp only [breakReason, if_neg hk] at hseq ⊢
    simp only [State.holdStep, ho, if_neg hk, if_neg hfull, hseq]

/-- Settles O20: deferred by `State.holdStep_deferred`, else broken, and the point still enrolled for the sequence test. -/
theorem reportForHeldBay : Obligations.ReportForHeldBay := by
  intro s p o r m l h hr hl hmay ho
  refine ⟨fun hk hroom => ?_, fun hb => ?_⟩
  · have hstep := State.holdStep_deferred (s := granted s p) ho hk hroom
    rw [exec_report_known h hr hl hmay hstep]
    exact next_congr (congrArg (answered · p r .deferred (locBytes l)) (fired_of_alarmCount rfl))
  · intro u
    obtain ⟨c, hc⟩ : ∃ c, u.content l = some c := by
      obtain ⟨c0, hc0⟩ := State.content_of_known hl
      have henrolled := (granted s p).endHold_enrolled o l.bay (some (breakReason m)) l
      exact Option.isSome_iff_exists.mp (henrolled.trans (Option.isSome_iff_exists.mpr ⟨c0, hc0⟩))
    refine ⟨c, hc, ?_⟩
    have hexec := exec_report_known h hr hl hmay (State.holdStep_broken (s := granted s p) ho hb hc)
    exact hexec.trans (next_congr (congrArg (fun t => answered (fired s t) p r _ _) (sequenced_eq hc m)))

end Sys2Proof.Machine
end

section
/-! SUPPORT. The application of a report at its point, step by step (R60 to R66). -/

namespace Sys2Proof.Machine

open Claims

/-- What a report hands over: its kind, and a battery fault in place of a STATUS or after another kind (R66). -/
theorem handovers_eq (k : ReportKind) (b : Battery) : handovers k b =
    if b = .critical then (if k = .status then [.fault .battery] else [k.handover, .fault .battery])
    else [k.handover] := by
  cases b with
  | critical => cases k <;> rfl
  | good => cases k <;> rfl
  | low => cases k <;> rfl

/-- The fields of the point that an ACCEPTED report writes (R61, R62). -/
theorem acceptedContent_eq (t : Timing) (m : Report) (d : PointContent) : acceptedContent t m d =
    { d with
      lastSeq := some m.sequence, age := 0,
      heardStopped := if t.sweepPeriod = 0 then true else d.heardStopped,
      battery := some m.battery, links := updateLinks m.sender m.margin d.links } := by
  have hmark : (d.heardStopped || t.sweepPeriod == 0) = if t.sweepPeriod = 0 then true else d.heardStopped := by
    by_cases h : t.sweepPeriod = 0
    · rw [if_pos h, h, beq_self_eq_true, Bool.or_true]
    · rw [if_neg h, beq_eq_false_iff_ne.mpr h, Bool.or_false]
  rw [acceptedContent, hmark]

/-- The point as an ACCEPTED report leaves it before anything is handed over: battery record, fields, poll items. -/
def State.accept (s : State) (l : Loc) (m : Report) (d : PointContent) : State :=
  ((s.batteryRecord l d m).writePoint l (acceptedContent s.timing m d)).pollsDrop l

theorem State.applyAccepted_eq {s : State} {l : Loc} {c : PointContent} (h : s.content l = some c) (m : Report) :
    s.applyAccepted l m = (handovers m.kind m.battery).foldl (fun u k => u.applyHandover l k m.sender)
      ((s.copyBefore l).accept l m (atWrite s l c)) := by
  simp only [State.applyAccepted, State.content_copyBefore_atWrite h]
  rfl

theorem State.applyDuplicate_eq {s : State} {l : Loc} {c : PointContent} (h : s.content l = some c) (m : Report) :
    s.applyDuplicate l m = ((s.copyBefore l).writePoint l { atWrite s l c with
      age := 0, links := updateLinks m.sender m.margin (atWrite s l c).links }).pollsDrop l := by
  simp only [State.applyDuplicate, State.content_copyBefore_atWrite h]

/-- Settles O23: the point by `State.accept`, what follows by `handovers_eq`. -/
theorem reportApplicationSteps : Obligations.ReportApplicationSteps := by
  intro s m l c h
  refine ⟨atWrite s l c, State.content_copyBefore_atWrite h, rfl, ?_, State.applyDuplicate_eq h m⟩
  rw [State.applyAccepted_eq h, handovers_eq, State.accept, acceptedContent_eq, (s.copyBefore_changes l).frame.timing]
  by_cases hb : m.battery = .critical
  · rw [if_pos hb, if_pos hb]
    by_cases hk : m.kind = .status
    · rw [if_pos hk, if_pos hk]
      rfl
    · rw [if_neg hk, if_neg hk]
      rfl
  · rw [if_neg hb, if_neg hb]
    rfl

end Sys2Proof.Machine
end

section
/-! SUPPORT. REPAIR of a location whose shared tests have passed (R57, R175, R176). -/

namespace Sys2Proof.Machine

open Claims

/-- The content on a REPAIR, field by field (R176). -/
theorem repairedContent_eq (n : Serial) (k : PointKind) (d : PointContent) : repairedContent n k d =
    { d with
      serial := n, kind := k, suspect := false, age := 0, lastSeq := none, links := []
      condition := if d.condition = .alarm then .alarm else .unheard
      ack := if d.condition = .alarm then d.ack else none
      confirmation := if d.condition = .alarm then d.confirmation else none } := by
  by_cases h : d.condition = .alarm
  · simp only [repairedContent, if_pos h]
    rw [← h]
  · simp only [repairedContent, if_neg h]
    rfl

/-- The effect of a REPAIR, whole (R176, R57). -/
theorem State.repair_eq {s : State} {l : Loc} {c : PointContent} (h : s.content l = some c) (n : Serial) (k : PointKind)
    (doneBy : Sender) : s.repair l n k doneBy =
      ({ (s.copyBefore l).writePoint l (repairedContent n k (atWrite s l c)) with
          enrolMap := Table.insert ((s.copyBefore l).enrolMap.filter (fun e => e.2 ≠ l)) n.toNat l
          strays := (s.copyBefore l).strays.filter (fun e => e.serial ≠ n) }.append
        (record .repair l (some (atWrite s l c).condition) (some (repairedContent n k (atWrite s l c)).condition) .request
          (some doneBy) (some n)),
      .doneWith [(repairedContent n k (atWrite s l c)).condition.code]) := by
  simp only [State.repair, State.content_copyBefore_atWrite h]
  rfl

/-- What REPAIR answers and does at an enrolled location whose shared tests have passed (R175). -/
theorem repairBody_passed {s : State} {p : Port} {r : Request} {l : Loc} {n : Serial} {k : PointKind} {c : PointContent}
    (hl : r.loc? = some l) (hn : r.serial? 2 = some n) (hk : PointKind.ofByte? (r.op 5) = some k)
    (ht : s.bayTests p r.sender .commission false l.bay = none) (hc : s.content l = some c) :
    repairBody p r s =
      if c.suspect = false then (s, .bare .state)
      else if s.enrolMap.find n.toNat ≠ none then (s, .bare .duplicateSerial)
      else s.repair l n k r.sender := by
  simp only [repairBody, hl, hn, hk, ht, hc, Bool.not_eq_true', State.mapsSerial_eq_true]

theorem repairBody_absent {s : State} {p : Port} {r : Request} {l : Loc} {n : Serial} {k : PointKind}
    (hl : r.loc? = some l) (hn : r.serial? 2 = some n) (hk : PointKind.ofByte? (r.op 5) = some k)
    (ht : s.bayTests p r.sender .commission false l.bay = none) (hc : s.content l = none) :
    repairBody p r s = (s, .bare .absent) := by
  simp only [repairBody, hl, hn, hk, ht, hc]

/-- Settles O42: the outcomes by the body, the effect by `State.repair_eq`. -/
theorem repairOutcomes : Obligations.RepairOutcomes := by
  intro s p r l n k h hl hn hk hx
  have ht := State.bayTests_of_refusal_none hx
  refine next_congr ?_
  cases hc : s.content l with
  | none => exact State.grant_refused h (repairBody_absent hl hn hk ht hc)
  | some c =>
    have hbody := repairBody_passed hl hn hk ht hc
    dsimp only
    split
    · next hsound => exact State.grant_refused h (hbody.trans (if_pos hsound))
    · next hsuspect =>
      replace hbody := hbody.trans (if_neg hsuspect)
      split
      · next hmapped => exact State.grant_refused h (hbody.trans (if_pos hmapped))
      · next hnew =>
        rw [if_neg (show ¬ (granted s p).enrolMap.find n.toNat ≠ none from hnew),
          State.repair_eq (s := granted s p) hc, repairedContent_eq] at hbody
        exact State.grant_answered h hbody

end Sys2Proof.Machine
end

section
/-! SUPPORT. An entry to ALARM and the promotions of its coincidence set (R84, R86, R87, R160, R173). -/

namespace Sys2Proof

theorem PointContent.promotable_iff (c : PointContent) : c.promotable = true ↔
    c.isolation = none ∧ c.suspect = false ∧ c.condition = .pending := by
  simp only [PointContent.promotable, Bool.and_eq_true, beq_iff_eq, Option.isNone_iff_eq_none, Bool.not_eq_true']
  tauto

theorem PointContent.rebuilt_promotable (c : PointContent) : c.rebuilt.promotable = false :=
  Bool.eq_false_iff.mpr (fun h =>
    have ⟨_, _, hp⟩ := (PointContent.promotable_iff _).mp h
    c.rebuilt_ne_pending hp)

namespace Machine

open Claims

/-! ### The coincidence set (R84) -/

/-- The points of chosen bays are the points, among those of all bays given, whose bay is chosen. -/
theorem flatMap_locs_filter (f : Bay → Bool) (bs : List Bay) :
    (bs.filter f).flatMap Bay.locs = (bs.flatMap Bay.locs).filter (fun x => f x.bay) := by
  induction bs with
  | nil => rfl
  | cons b bs ih =>
    rw [List.flatMap_cons, List.filter_append, ← ih]
    cases hb : f b with
    | true =>
      have hall : b.locs.filter (fun x => f x.bay) = b.locs :=
        List.filter_eq_self.mpr (fun x hx => by rw [(Bay.mem_locs b x).mp hx, hb])
      rw [List.filter_cons_of_pos hb, List.flatMap_cons, hall]
    | false =>
      have hnone : b.locs.filter (fun x => f x.bay) = [] :=
        List.filter_eq_nil_iff.mpr (fun x hx => by rw [(Bay.mem_locs b x).mp hx, hb]; exact Bool.false_ne_true)
      rw [List.filter_cons_of_neg (by rw [hb]; exact Bool.false_ne_true), hnone, List.nil_append]

/-- The coincidence set of a bay: its own points and its partner's, in bay-major order. -/
theorem State.coincidenceLocs_eq (s : State) (b : Bay) :
    s.coincidenceLocs b = Loc.all.filter (fun x => x.bay = b ∨ (s.bay b).partner = some x.bay) := by
  rw [State.coincidenceLocs, State.coincidenceBays, flatMap_locs_filter]
  exact List.filter_congr (fun x _ => decide_eq_decide.mpr (or_congr_right eq_comm))

theorem State.mem_coincidenceLocs (s : State) (b : Bay) (x : Loc) :
    x ∈ s.coincidenceLocs b ↔ x.bay = b ∨ (s.bay b).partner = some x.bay := by
  rw [State.coincidenceLocs_eq, List.mem_filter, decide_eq_true_eq]
  exact and_iff_right (Loc.mem_all x)

theorem State.nodup_coincidenceLocs (s : State) (b : Bay) : (s.coincidenceLocs b).Nodup := by
  rw [State.coincidenceLocs_eq]
  exact Loc.nodup_all.filter _

theorem Loc.all_eq : Loc.all = (List.range 512).map Loc.ofKey := by decide +kernel

theorem State.holdsCoincidence_iff (s : State) (l : Loc) : s.holdsCoincidence l = true ↔
    ∃ d, s.content l = some d ∧ d.isolation = none ∧ (d.condition = .pending ∨ d.condition = .alarm) := by
  unfold State.holdsCoincidence
  cases s.content l with
  | none => simp
  | some d => simp

/-! ### One promotion (R86, R87, R173) -/

/-- The promotions of an entry pass over the entering point itself. -/
theorem State.promoteOne_self (s : State) (l : Loc) (n : Sender) : s.promoteOne l n l = s := if_pos rfl

theorem State.promoteOne_unenrolled {s : State} {x : Loc} (h : s.content x = none) (l : Loc) (n : Sender) :
    s.promoteOne l n x = s := by
  simp only [State.promoteOne, h, ite_self]

theorem State.promoteOne_passed {s : State} {x : Loc} {d : PointContent} (h : s.content x = some d)
    (hd : d.promotable = false) (l : Loc) (n : Sender) : s.promoteOne l n x = s := by
  simp only [State.promoteOne, h, hd, Bool.false_eq_true, if_false, ite_self]

/-- A promotion: where the copy due finds the record failed, that failure is handled instead (R173). -/
theorem State.promoteOne_promotable {s : State} {l x : Loc} {d : PointContent} (hx : x ≠ l) (h : s.content x = some d)
    (hd : d.promotable = true) (n : Sender) :
    s.promoteOne l n x =
      if s.needsCopy x = true ∧ s.verified x = false then s.copyBefore x
      else ((s.copyBefore x).writePoint x d.toAlarm).append
        (record .condition x (some .pending) (some .alarm) .coincidence (some n) none) := by
  have hc := s.content_copyBefore_self x h
  split
  · next hf =>
    rw [if_pos hf] at hc
    simp only [State.promoteOne, hx, h, hd, hc, d.rebuilt_promotable, Bool.false_eq_true, if_false, if_true]
  · next hf =>
    rw [if_neg hf] at hc
    obtain ⟨-, -, hp⟩ := d.promotable_iff.mp hd
    simp only [State.promoteOne, hx, h, hd, hc, State.enterCondition, hp, if_false, if_true]
    rfl

/-- The content that the promotions at an entry of `l` leave of another point of its set. -/
def State.promoted (s : State) (x : Loc) (d : PointContent) : PointContent :=
  if d.promotable then (if s.needsCopy x = true ∧ s.verified x = false then d.rebuilt else d.toAlarm) else d

theorem View.promoted {s t : State} {x : Loc} (h : View s t x) (d : PointContent) :
    t.promoted x d = s.promoted x d := by
  rw [State.promoted, State.promoted, h.needsCopy, h.verified]

theorem State.content_promoteOne {s : State} {l x : Loc} {d : PointContent} (hx : x ≠ l) (h : s.content x = some d)
    (n : Sender) : (s.promoteOne l n x).content x = some (s.promoted x d) := by
  unfold State.promoted
  cases hd : d.promotable with
  | false => rw [State.promoteOne_passed h hd, h]; rfl
  | true =>
    rw [State.promoteOne_promotable hx h hd, if_pos rfl]
    split
    · next hf => rw [s.content_copyBefore_self x h, if_pos hf]
    · rw [State.append_content, State.content_writePoint_self]

/-! ### The promotions of a set (R86) -/

/-- The promotions as the statements have them. -/
theorem State.promoteSet_eq (s : State) (l : Loc) (n : Sender) : s.promoteSet l n = promotions s l n := by
  unfold State.promoteSet promotions
  rw [State.coincidenceLocs_eq]
  congr 1
  funext u x
  by_cases hx : x = l
  · rw [if_pos hx, hx, State.promoteOne_self]
  rw [if_neg hx]
  cases h : u.content x with
  | none => exact State.promoteOne_unenrolled h l n
  | some d =>
    dsimp only
    split
    · next hd =>
      rw [State.promoteOne_promotable hx h (d.promotable_iff.mpr hd)]
      rfl
    · next hd => exact State.promoteOne_passed h (Bool.eq_false_iff.mpr (mt d.promotable_iff.mp hd)) l n

/-- The promotions leave the entering point as it is. -/
theorem State.content_promoteSet_self (s : State) (l : Loc) (n : Sender) :
    (s.promoteSet l n).content l = s.content l := by
  obtain ⟨before, h1, h2⟩ := View.foldl_at (fun s x y => View.promoteOne s l n x y) (s.coincidenceLocs l.bay)
    (s.nodup_coincidenceLocs l.bay) s l ((s.mem_coincidenceLocs l.bay l).mpr (.inl rfl))
  rw [State.promoteOne_self] at h2
  exact (h1.trans h2).content

theorem State.content_promoteSet_member {s : State} {l x : Loc} {d : PointContent} (hx : x ≠ l)
    (hm : x ∈ s.coincidenceLocs l.bay) (h : s.content x = some d) (n : Sender) :
    (s.promoteSet l n).content x = some (s.promoted x d) := by
  obtain ⟨before, h1, h2⟩ := View.foldl_at (fun s x y => View.promoteOne s l n x y) (s.coincidenceLocs l.bay)
    (s.nodup_coincidenceLocs l.bay) s x hm
  rw [State.promoteSet, h2.content, State.content_promoteOne hx (h1.content.trans h), h1.promoted]

theorem State.content_promoteSet_other {s : State} {l x : Loc} (hm : x ∉ s.coincidenceLocs l.bay) (n : Sender) :
    (s.promoteSet l n).content x = s.content x :=
  (View.foldl (fun s x y => View.promoteOne s l n x y) (s.coincidenceLocs l.bay) s x hm).content

/-! ### An entry to ALARM (R86) -/

/-- An entry to ALARM, whole. -/
theorem State.enterAlarm_eq (s : State) (l : Loc) (c : PointContent) (cause : Cause) (n : Sender) :
    s.enterAlarm l c cause n =
      if c.isolation = none then promotions (s.enterCondition l c c.toAlarm cause (some n)) l n
      else s.enterCondition l c c.toAlarm cause (some n) := by
  rw [← State.promoteSet_eq]
  exact if_congr Option.isNone_iff_eq_none rfl rfl

theorem State.content_enterCondition_self (s : State) (l : Loc) (c d : PointContent) (cause : Cause)
    (doneBy : Option Sender) : (s.enterCondition l c d cause doneBy).content l = some d := by
  rw [State.enterCondition, State.append_content, State.content_writePoint_self]

theorem State.content_enterAlarm_self (s : State) (l : Loc) (c : PointContent) (cause : Cause) (n : Sender) :
    (s.enterAlarm l c cause n).content l = some c.toAlarm := by
  rw [State.enterAlarm_eq, ← State.promoteSet_eq]
  split
  · rw [State.content_promoteSet_self, State.content_enterCondition_self]
  · exact State.content_enterCondition_self ..

/-- What an entry to ALARM leaves of another point: promoted where it is in the set and may be, else as it was. -/
theorem State.content_enterAlarm_other {s : State} {l x : Loc} {d : PointContent} (hx : x ≠ l)
    (h : s.content x = some d) (c : PointContent) (cause : Cause) (n : Sender) :
    (s.enterAlarm l c cause n).content x =
      some (if c.isolation = none ∧ x ∈ s.coincidenceLocs l.bay then s.promoted x d else d) := by
  have hview := View.enterCondition s l c c.toAlarm cause (some n) x hx
  have hset : (s.enterCondition l c c.toAlarm cause (some n)).coincidenceLocs l.bay = s.coincidenceLocs l.bay := by
    rw [State.coincidenceLocs_eq, State.coincidenceLocs_eq, State.enterCondition, State.append_bay,
      State.writePoint_bay]
  have hd := hview.content.trans h
  rw [State.enterAlarm_eq, ← State.promoteSet_eq]
  by_cases hi : c.isolation = none
  · rw [if_pos hi]
    by_cases hm : x ∈ s.coincidenceLocs l.bay
    · rw [State.content_promoteSet_member hx (hset ▸ hm) hd, hview.promoted, if_pos ⟨hi, hm⟩]
    · rw [State.content_promoteSet_other (hset ▸ hm), hd, if_neg (fun hb => hm hb.2)]
  · rw [if_neg hi, hd, if_neg (fun hb => hi hb.1)]

/-- Settles O25: the set by `State.coincidenceLocs_eq`, the entry by `State.enterAlarm_eq`, every other point by
`State.content_enterAlarm_other`. -/
theorem entryToAlarmPromotesTheSet : Obligations.EntryToAlarmPromotesTheSet := by
  refine ⟨State.coincidenceLocs_eq, Loc.all_eq, State.holdsCoincidence_iff,
    fun s l c cause n => s.enterAlarm_eq l c cause n, fun s l x c d cause n _ hx h => ?_⟩
  have hm := s.mem_coincidenceLocs l.bay x
  rw [State.content_enterAlarm_other hx h, State.promoted]
  by_cases hset : c.isolation = none ∧ x ∈ s.coincidenceLocs l.bay
  · obtain ⟨hi, hin⟩ := hset
    rw [if_pos ⟨hi, hin⟩]
    refine congrArg some (if_congr (d.promotable_iff.trans ?_) rfl rfl)
    exact ⟨fun hd => ⟨hi, hm.mp hin, hd⟩, fun ⟨_, _, hd⟩ => hd⟩
  · rw [if_neg hset, if_neg (fun ⟨hi, hin, _⟩ => hset ⟨hi, hm.mpr hin⟩)]

end Machine
end Sys2Proof
end

section
/-! SUPPORT. An application of a handed-over report to its point, by Table 4.2 (R70 to R76, R80, R81, R85, R89). -/

namespace Sys2Proof

theorem PointKind.smokeType_eq (k : PointKind) : k.smokeType = (k == .smoke || k == .multi) := by cases k <;> rfl

namespace Machine

open Claims

/-! ### Table 4.2 -/

/-- The table gives PENDING and ALARM anew for an ALARM report alone. -/
theorem table42_of_ne_alarm {h : Handover} (hh : h ≠ .alarm) (smokeType confirmed : Bool) (k : Condition)
    (hk : table42 h smokeType confirmed k ≠ k) :
    table42 h smokeType confirmed k ≠ .pending ∧ table42 h smokeType confirmed k ≠ .alarm := by
  cases h with
  | alarm => exact absurd rfl hh
  | status => cases k <;> simp [table42] at hk ⊢
  | prealarm => cases k <;> simp [table42] at hk ⊢
  | cleared => cases k <;> simp [table42] at hk ⊢
  | fault x => cases k <;> simp [table42] at hk ⊢

/-- An ALARM report takes a point to PENDING or to ALARM. -/
theorem table42_alarm (smokeType confirmed : Bool) (k : Condition) : table42 .alarm smokeType confirmed k =
    if k ≠ .alarm ∧ smokeType = true ∧ confirmed = false then .pending else .alarm := by
  cases k <;> cases smokeType <;> cases confirmed <;> rfl

/-! ### The content after an application -/

/-- The content that one application leaves: the condition by the table, the acknowledgement removed by a change (R76),
the confirmation `field` at an entry to PENDING and none after a departure (R79), clear-seen by R73 and R74. -/
def appliedContent (h : Handover) (new : Condition) (field : Confirmation) (c : PointContent) : PointContent :=
  { c with
    condition := new
    ack := if new = c.condition then c.ack else none
    confirmation := if new = c.condition then c.confirmation else if new = .pending then some field else none
    clearSeen :=
      if h = .alarm ∧ new = .alarm then false
      else if h = .cleared ∧ c.condition = .alarm then true
      else c.clearSeen }

/-- The content on an entry to PENDING (R80). -/
def toPending (field : Confirmation) (c : PointContent) : PointContent :=
  { c.entering .pending with confirmation := some field }

section

variable {h : Handover} {new : Condition} {field : Confirmation} {c : PointContent}

theorem appliedContent_same (hn : new = c.condition) (ha : ¬ (c.condition = .alarm ∧ (h = .alarm ∨ h = .cleared))) :
    appliedContent h new field c = c := by
  subst hn
  have halarm : ¬ (h = .alarm ∧ c.condition = .alarm) := fun ⟨hh, hc⟩ => ha ⟨hc, .inl hh⟩
  have hcleared : ¬ (h = .cleared ∧ c.condition = .alarm) := fun ⟨hh, hc⟩ => ha ⟨hc, .inr hh⟩
  rw [appliedContent, if_pos rfl, if_pos rfl, if_neg halarm, if_neg hcleared]

/-- A CLEARED report in ALARM writes clear-seen alone (R74). -/
theorem appliedContent_cleared (hc : c.condition = .alarm) :
    appliedContent .cleared c.condition field c = { c with clearSeen := true } := by
  simp only [appliedContent, hc, if_true, reduceCtorEq, false_and, if_false, and_self]

/-- An ALARM report in ALARM writes clear-seen alone (R73). -/
theorem appliedContent_alarm (hc : c.condition = .alarm) :
    appliedContent .alarm c.condition field c = { c with clearSeen := false } := by
  simp only [appliedContent, hc, if_true, and_self]

/-- A change to another condition than PENDING by a report that is no ALARM. -/
theorem appliedContent_entering (hh : h ≠ .alarm) (hn : new ≠ c.condition) (hp : new ≠ .pending)
    (ha : ¬ (h = .cleared ∧ c.condition = .alarm)) : appliedContent h new field c = c.entering new := by
  simp only [appliedContent, hh, hn, hp, ha, false_and, if_false, PointContent.entering]

theorem appliedContent_toAlarm (hc : c.condition ≠ .alarm) :
    appliedContent .alarm .alarm field c = c.toAlarm := by
  simp only [appliedContent, hc.symm, if_false, and_self, if_true, reduceCtorEq, PointContent.toAlarm,
    PointContent.entering]

theorem appliedContent_pending (hc : c.condition ≠ .pending) :
    appliedContent .alarm .pending field c = toPending field c := by
  simp only [appliedContent, toPending, hc.symm, if_false, if_true, reduceCtorEq, and_false, false_and,
    PointContent.entering]

end

/-! ### The reports that are no ALARM (R71, R74, R75) -/

/-- The handover carries a fault (R75). -/
def Handover.isFault : Handover → Bool
  | .fault _ => true
  | _ => false

theorem markChange_eq (kind : RecordKind) (l : Loc) (old : Condition) (cause : Cause) (doneBy : Sender) :
    markChange kind l old cause doneBy = record kind l (some old) none cause (some doneBy) none := rfl

/-- One application of a report that is no ALARM and is not suppressed: a change of condition with its record, a
LATE-FAULT record, clear-seen, or nothing. -/
theorem State.applyHandover_of_ne_alarm {s : State} {l : Loc} {c : PointContent} {h : Handover}
    (hc : s.content l = some c) (hs : s.suppresses l c h = false) (hh : h ≠ .alarm) (smokeType confirmed : Bool)
    (n : Sender) : s.applyHandover l h n =
      if table42 h smokeType confirmed c.condition ≠ c.condition then
        s.enterCondition l c (c.entering (table42 h smokeType confirmed c.condition)) .report (some n)
      else if h.isFault = true ∧ (c.condition = .pending ∨ c.condition = .alarm) then
        s.append (record .lateFault l (some c.condition) none .report (some n) none)
      else if h = .cleared ∧ c.condition = .alarm then s.writePoint l { c with clearSeen := true }
      else s := by
  simp only [State.applyHandover, hc, hs, Bool.false_eq_true, if_false]
  cases h with
  | alarm => exact absurd rfl hh
  | status => cases hk : c.condition <;> simp [State.applyStatus, hk, table42, Handover.isFault]
  | prealarm => cases hk : c.condition <;> simp [State.applyPrealarm, hk, table42, Handover.isFault]
  | cleared => cases hk : c.condition <;> simp [State.applyCleared, hk, table42, Handover.isFault]
  | fault x =>
    cases hk : c.condition with
    | fault y =>
      by_cases hxy : y = x
      · simp [State.applyFault, hk, table42, hxy]
      · simp [State.applyFault, hk, table42, hxy, Ne.symm hxy]
    | pending => simp [State.applyFault, hk, table42, Handover.isFault, markChange_eq]
    | alarm => simp [State.applyFault, hk, table42, Handover.isFault, markChange_eq]
    | _ => simp [State.applyFault, hk, table42]

/-! ### The ALARM report (R72, R73, R80, R81, R85) -/

/-- Coincidence turns an entry of the point to PENDING into an entry to ALARM (R85). -/
def State.coincides (s : State) (l : Loc) (c : PointContent) : Bool :=
  c.isolation.isNone && (s.coincidenceLocs l.bay).any (fun x => x ≠ l && s.holdsCoincidence x)

/-- The confirmation field of an entry to PENDING now (R80). -/
def State.confirmField (s : State) (b : Bay) : Confirmation :=
  { start := s.count, deadline := s.count + s.confirmWindow b }

/-- An ALARM report for a SMOKE or MULTI point makes it an alarm at once: the confirm test in PENDING, coincidence
elsewhere (footnotes 1 and 2 of Table 4.2). -/
def State.confirmedAt (s : State) (l : Loc) (c : PointContent) : Bool :=
  if c.condition = .pending then s.confirmed c else s.coincides l c

/-- The cause of an entry to ALARM by an ALARM report (R72, R81, R85). -/
def alarmCause (c : PointContent) : Cause :=
  if c.kind.smokeType = true ∧ c.condition ≠ .pending then .coincidence else .report

theorem State.enterPending_eq (s : State) (l : Loc) (c : PointContent) (n : Sender) : s.enterPending l c n =
    if s.coincides l c then s.enterAlarm l c .coincidence n
    else s.enterCondition l c (toPending (s.confirmField l.bay) c) .report (some n) :=
  rfl

/-- An ALARM report that is not suppressed, whole. -/
theorem State.applyAlarm_eq (s : State) (l : Loc) (c : PointContent) (n : Sender) : s.applyAlarm l c n =
    if c.condition = .alarm then s.writePoint l { c with clearSeen := false }
    else if c.kind.smokeType = true ∧ s.confirmedAt l c = false then
      if c.condition = .pending then s
      else s.enterCondition l c (toPending (s.confirmField l.bay) c) .report (some n)
    else s.enterAlarm l c (alarmCause c) n := by
  unfold State.confirmedAt alarmCause
  cases hk : c.condition with
  | alarm => simp only [State.applyAlarm, hk, if_true]
  | pending =>
    cases ht : c.kind.smokeType <;> cases hf : s.confirmed c <;>
      simp [State.applyAlarm, hk, ht, hf]
  | _ =>
    cases ht : c.kind.smokeType <;> cases hf : s.coincides l c <;>
      simp [State.applyAlarm, State.enterPending_eq, hk, ht, hf]

/-! ### One application (R70) -/

theorem State.suppresses_iff (s : State) (l : Loc) (c : PointContent) (h : Handover) : s.suppresses l c h = true ↔
    c.kind.smokeType = true ∧ (s.bay l.bay).mode = .works ∧ (h = .alarm ∨ h = .prealarm) := by
  simp only [State.suppresses, Bool.and_eq_true, Bool.or_eq_true, beq_iff_eq, and_assoc]

/-- One application that is not suppressed, by the table's condition and the content that goes with it. -/
theorem State.applyHandover_eq {s : State} {l : Loc} {c : PointContent} {h : Handover} (hc : s.content l = some c)
    (hs : s.suppresses l c h = false) (n : Sender) {new : Condition} {d : PointContent}
    (hnew : new = table42 h c.kind.smokeType (s.confirmedAt l c) c.condition)
    (hd : d = appliedContent h new (s.confirmField l.bay) c) :
    s.applyHandover l h n =
      if new ≠ c.condition then
        (if new = .alarm then s.enterAlarm l c (alarmCause c) n else s.enterCondition l c d .report (some n))
      else if h.isFault = true ∧ (c.condition = .pending ∨ c.condition = .alarm) then
        s.append (record .lateFault l (some c.condition) none .report (some n) none)
      else if c.condition = .alarm ∧ (h = .alarm ∨ h = .cleared) then s.writePoint l d
      else s := by
  by_cases hh : h = .alarm
  · subst hh
    have happly : s.applyHandover l .alarm n = s.applyAlarm l c n := by
      simp only [State.applyHandover, hc, hs, Bool.false_eq_true, if_false]
    rw [happly, State.applyAlarm_eq]
    rw [table42_alarm] at hnew
    by_cases hk : c.condition = .alarm
    · rw [if_neg (fun hb => hb.1 hk)] at hnew
      rw [hnew, ← hk, appliedContent_alarm hk] at hd
      rw [if_pos hk, if_neg (not_not.mpr (hnew.trans hk.symm)), if_neg (fun hb => Bool.false_ne_true hb.1),
        if_pos ⟨hk, .inl rfl⟩, hd]
    · rw [if_neg hk]
      by_cases hu : c.kind.smokeType = true ∧ s.confirmedAt l c = false
      · rw [if_pos ⟨hk, hu⟩] at hnew
        rw [if_pos hu]
        by_cases hp : c.condition = .pending
        · rw [if_pos hp, if_neg (not_not.mpr (hnew.trans hp.symm)), if_neg (fun hb => Bool.false_ne_true hb.1),
            if_neg (fun hb => hk hb.1)]
        · rw [hnew, appliedContent_pending hp] at hd
          rw [if_neg hp, hnew, if_pos (Ne.symm hp), if_neg (by decide), hd]
      · rw [if_neg (fun hb => hu hb.2)] at hnew
        rw [if_neg hu, hnew, if_pos (Ne.symm hk), if_pos rfl]
  · rw [State.applyHandover_of_ne_alarm hc hs hh c.kind.smokeType (s.confirmedAt l c), ← hnew]
    by_cases hn : new = c.condition
    · rw [if_neg (not_not.mpr hn), if_neg (not_not.mpr hn)]
      refine if_congr Iff.rfl rfl ?_
      by_cases hcl : h = .cleared ∧ c.condition = .alarm
      · obtain ⟨rfl, hk⟩ := hcl
        rw [if_pos ⟨rfl, hk⟩, if_pos ⟨hk, .inr rfl⟩, hd, hn, appliedContent_cleared hk]
      · rw [if_neg hcl, if_neg (fun ⟨hk, hb⟩ => hb.elim hh (fun hcl' => hcl ⟨hcl', hk⟩))]
    · obtain ⟨hp, ha⟩ := table42_of_ne_alarm hh _ _ _ (hnew ▸ hn)
      rw [← hnew] at hp ha
      have hcl : ¬ (h = .cleared ∧ c.condition = .alarm) := by
        rintro ⟨rfl, hk⟩
        exact ha (by rw [hnew, hk]; rfl)
      rw [if_pos hn, if_pos hn, if_neg ha, hd, appliedContent_entering hh hn hp hcl]

/-- An application that brings its point to ALARM is that of an ALARM report. -/
theorem alarm_report_of_entry {h : Handover} {new : Condition} {smokeType confirmed : Bool} {c : PointContent}
    (hnew : new = table42 h smokeType confirmed c.condition) (hn : new ≠ c.condition) (ha : new = .alarm)
    (field : Confirmation) : h = .alarm ∧ appliedContent h new field c = c.toAlarm := by
  have hh : h = .alarm := by
    by_contra hh
    obtain ⟨-, hna⟩ := table42_of_ne_alarm hh _ _ _ (hnew ▸ hn)
    exact hna (hnew ▸ ha)
  refine ⟨hh, ?_⟩
  rw [hh, ha, appliedContent_toAlarm (ha ▸ hn.symm)]

/-- The content of the point after one application that is not suppressed. -/
theorem State.content_applyHandover {s : State} {l : Loc} {c : PointContent} {h : Handover} (hc : s.content l = some c)
    (hs : s.suppresses l c h = false) (n : Sender) {new : Condition} {d : PointContent}
    (hnew : new = table42 h c.kind.smokeType (s.confirmedAt l c) c.condition)
    (hd : d = appliedContent h new (s.confirmField l.bay) c) : (s.applyHandover l h n).content l = some d := by
  rw [State.applyHandover_eq hc hs n hnew hd]
  by_cases hn : new = c.condition
  · rw [if_neg (not_not.mpr hn)]
    by_cases hseen : c.condition = .alarm ∧ (h = .alarm ∨ h = .cleared)
    · have hlate : ¬ (h.isFault = true ∧ (c.condition = .pending ∨ c.condition = .alarm)) := by
        obtain ⟨-, rfl | rfl⟩ := hseen <;> exact fun hb => Bool.false_ne_true hb.1
      rw [if_neg hlate, if_pos hseen, State.content_writePoint_self]
    · rw [hd, appliedContent_same hn hseen, if_neg hseen]
      split
      · rw [State.append_content, hc]
      · exact hc
  · rw [if_pos hn]
    split
    · next ha =>
      obtain ⟨-, hentry⟩ := alarm_report_of_entry hnew hn ha (s.confirmField l.bay)
      rw [State.content_enterAlarm_self, hd, hentry]
    · exact State.content_enterCondition_self ..

/-- Settles O24: suppressed, or by `State.applyHandover_eq`, whose entry to ALARM is that of `State.enterAlarm_eq`. -/
theorem applicationFollowsTable42 : Obligations.ApplicationFollowsTable42 := by
  intro s l h n c hc smokeType coincident gap confirmed new d cause changed isFault late
  have htype : c.kind.smokeType = smokeType := c.kind.smokeType_eq
  have hconfirmed : s.confirmedAt l c = confirmed := rfl
  have hwindow : s.confirmWindow l.bay = BitVec.ofNat 32 (10 * (match (s.bay l.bay).mode with
      | .service _ => s.timing.confirmService.toNat
      | _ => s.timing.confirmNormal.toNat)) := by
    unfold State.confirmWindow
    cases (s.bay l.bay).mode <;> exact congrArg (BitVec.ofNat 32) (Nat.mul_comm _ _)
  have hnew : new = table42 h c.kind.smokeType (s.confirmedAt l c) c.condition := by rw [htype, hconfirmed]
  have hd : d = appliedContent h new (s.confirmField l.bay) c := by
    rw [State.confirmField, hwindow]
    rfl
  split
  · next hsup =>
    have hs := (s.suppresses_iff l c h).mpr (htype ▸ hsup)
    simp only [State.applyHandover, hc, hs, if_true, markChange_eq]
  · next hsup =>
    have hs : s.suppresses l c h = false :=
      Bool.eq_false_iff.mpr (fun hs => hsup (htype ▸ (s.suppresses_iff l c h).mp hs))
    refine ⟨State.content_applyHandover hc hs n hnew hd, (State.applyHandover_eq hc hs n hnew hd).trans ?_⟩
    by_cases hn : new = c.condition
    · rw [if_neg (not_not.mpr hn), if_neg (not_not.mpr hn)]
      refine if_congr ?_ rfl rfl
      cases h <;> exact Iff.rfl
    · rw [if_pos hn, if_pos hn]
      by_cases ha : new = .alarm
      · obtain ⟨hh, hentry⟩ := alarm_report_of_entry hnew hn ha (s.confirmField l.bay)
        have hcause : alarmCause c = cause :=
          if_congr ⟨fun ⟨ht, hp⟩ => ⟨htype ▸ ht, hh, ha, hp⟩, fun ⟨ht, _, _, hp⟩ => ⟨htype ▸ ht, hp⟩⟩ rfl rfl
        have hchanged : s.enterCondition l c c.toAlarm (alarmCause c) (some n) = changed := by
          rw [hcause, ← hentry, ← hd]
          rfl
        rw [if_pos ha, State.enterAlarm_eq, hchanged]
        exact if_congr (and_iff_right ha).symm rfl rfl
      · have hcause : cause = .report := if_neg (fun ⟨_, _, hb, _⟩ => ha hb)
        rw [if_neg ha, if_neg (fun hb => ha hb.1), ← hcause]
        rfl

end Machine
end Sys2Proof
end

section
/-! SUPPORT. ACKNOWLEDGE, RESET-POINT, ISOLATE and RESTORE of an enrolled point, their shared tests passed (R93 to
R99). -/

namespace Sys2Proof.Machine

open Claims

/-! ### The shared form (R78, R93, R173) -/

/-- A panel request that has passed its tests follows its own rule at the point it names. -/
theorem panelRequest_passed {s : State} {p : Port} {r : Request} {l : Loc} {c : PointContent} {g : Group}
    (hl : r.loc? = some l) (hx : refusal s p r.sender g false l.bay = none) (hc : s.content l = some c)
    (own : Request → State → Loc → PointContent → State × Answer) :
    panelRequest g own p r (granted s p) = own r (granted s p) l c := by
  have hc' : (granted s p).content l = some c := hc
  simp only [panelRequest, hl, State.bayTests_of_refusal_none hx, hc']

/-- The write of a panel request acts on the content as copy-before-write leaves it. -/
theorem State.panelWrite_eq {s : State} {l : Loc} {c : PointContent} (h : s.content l = some c)
    (change : State → PointContent → State × Answer) :
    s.panelWrite l change = change (s.copyBefore l) (atWrite s l c) := by
  simp only [State.panelWrite, State.content_copyBefore_atWrite h]

/-- A grant whose body writes the point and appends its record. -/
theorem State.grant_written {s : State} {code : ReqCode} {p : Port} {r : Request} {l : Loc} {new : PointContent}
    {b : ChangeBody} {payload : List Byte} {body : Port → Request → State → State × Answer}
    (h : s.grantOf code = some (p, r))
    (hb : body p r (granted s p) =
      ((((granted s p).copyBefore l).writePoint l new).append b, .doneWith payload)) :
    s.grant code body = written s p r l new b payload :=
  State.grant_answered h hb

/-! ### ACKNOWLEDGE (R94) -/

section

variable {s : State} {p : Port} {r : Request} {l : Loc} {c : PointContent}
  (h : s.grantOf .acknowledge = some (p, r)) (hl : r.loc? = some l)
  (hx : refusal s p r.sender .ack false l.bay = none) (hc : s.content l = some c)

include h hl hx hc

theorem exec_acknowledge_state (hk : c.condition.needsAck = false) :
    exec .acknowledge s = .next (answered (granted s p) p r .state []) :=
  next_congr (State.grant_refused h (a := .bare .state)
    ((panelRequest_passed hl hx hc _).trans (by rw [hk]; rfl)))

theorem exec_acknowledge_already (hk : c.condition.needsAck = true) {n : Sender} (ha : c.ack = some n) :
    exec .acknowledge s = .next (answered (granted s p) p r .already [byteOf n.number]) :=
  next_congr (State.grant_refused h (a := { result := .already, payload := [byteOf n.number] })
    ((panelRequest_passed hl hx hc _).trans (by rw [hk, ha]; rfl)))

theorem exec_acknowledge_written (hk : c.condition.needsAck = true) (ha : c.ack = none) :
    exec .acknowledge s = .next (written s p r l { atWrite s l c with ack := some r.sender }
      (record .ack l (some (atWrite s l c).condition) none .request (some r.sender) none) []) := by
  refine next_congr (State.grant_written h ((panelRequest_passed hl hx hc _).trans ?_))
  rw [if_pos hk, ha]
  exact State.panelWrite_eq (s := granted s p) hc _

end

/-- Settles O29: the conditions that call for an acknowledgement, then whether there is one. -/
theorem acknowledgeOutcomes : Obligations.AcknowledgeOutcomes := by
  intro s p r l c h hl hx hc d
  cases hk : c.condition with
  | unheard => exact exec_acknowledge_state h hl hx hc (by rw [hk]; rfl)
  | quiet => exact exec_acknowledge_state h hl hx hc (by rw [hk]; rfl)
  | watch => exact exec_acknowledge_state h hl hx hc (by rw [hk]; rfl)
  | pending => exact exec_acknowledge_state h hl hx hc (by rw [hk]; rfl)
  | _ =>
    have hneeds : c.condition.needsAck = true := by rw [hk]; rfl
    cases ha : c.ack with
    | some n => exact exec_acknowledge_already h hl hx hc hneeds ha
    | none => exact exec_acknowledge_written h hl hx hc hneeds ha

/-! ### RESET-POINT (R96) -/

/-- What RESET-POINT answers and does at an enrolled point. -/
theorem resetPoint_granted {s : State} {p : Port} {r : Request} {l : Loc} {c : PointContent}
    (h : s.grantOf .resetPoint = some (p, r)) (hl : r.loc? = some l)
    (hx : refusal s p r.sender .ack false l.bay = none) (hc : s.content l = some c) :
    s.grant .resetPoint resetPointBody =
      if c.condition ≠ .alarm then answered (granted s p) p r .state []
      else if c.ack = none then answered (granted s p) p r .notAcked []
      else if c.suspect = false ∧ c.clearSeen = false then answered (granted s p) p r .notClear []
      else written s p r l ((atWrite s l c).entering (resetCondition (atWrite s l c)))
        (record .reset l (some (atWrite s l c).condition) (some (resetCondition (atWrite s l c))) .request
          (some r.sender) none) [(resetCondition (atWrite s l c)).code] := by
  have hbody : resetPointBody p r (granted s p) = _ := panelRequest_passed hl hx hc _
  split
  · next hk => exact State.grant_refused h (hbody.trans (if_pos hk))
  · next hk =>
    replace hbody := hbody.trans (if_neg hk)
    split
    · next ha => exact State.grant_refused h (hbody.trans (if_pos (Option.isNone_iff_eq_none.mpr ha)))
    · next ha =>
      replace hbody := hbody.trans (if_neg (mt Option.isNone_iff_eq_none.mp ha))
      have hclear : (!c.suspect && !c.clearSeen) = true ↔ c.suspect = false ∧ c.clearSeen = false := by
        simp only [Bool.and_eq_true, Bool.not_eq_true']
      split
      · next hn => exact State.grant_refused h (hbody.trans (if_pos (hclear.mpr hn)))
      · next hn =>
        exact State.grant_written h
          ((hbody.trans (if_neg (mt hclear.mp hn))).trans (State.panelWrite_eq (s := granted s p) hc _))

/-! ### ISOLATE and RESTORE (R98, R99) -/

theorem isolate_granted {s : State} {p : Port} {r : Request} {l : Loc} {c : PointContent}
    (h : s.grantOf .isolate = some (p, r)) (hl : r.loc? = some l)
    (hx : refusal s p r.sender .isolate false l.bay = none) (hc : s.content l = some c) :
    s.grant .isolate isolateBody =
      if c.isolation ≠ none then answered (granted s p) p r .state []
      else written s p r l { atWrite s l c with isolation := some r.sender }
        (record .isolate l (some (atWrite s l c).condition) none .request (some r.sender) none) [] := by
  have hbody : isolateBody p r (granted s p) = _ := panelRequest_passed hl hx hc _
  split
  · next hi => exact State.grant_refused h (hbody.trans (if_pos (Option.isSome_iff_ne_none.mpr hi)))
  · next hi =>
    exact State.grant_written h
      ((hbody.trans (if_neg (mt Option.isSome_iff_ne_none.mp hi))).trans (State.panelWrite_eq (s := granted s p) hc _))

theorem restore_granted {s : State} {p : Port} {r : Request} {l : Loc} {c : PointContent}
    (h : s.grantOf .restore = some (p, r)) (hl : r.loc? = some l)
    (hx : refusal s p r.sender .isolate false l.bay = none) (hc : s.content l = some c) :
    s.grant .restore restoreBody =
      if c.isolation = none then answered (granted s p) p r .state []
      else written s p r l { atWrite s l c with isolation := none }
        (record .restore l (some (atWrite s l c).condition) none .request (some r.sender) none) [] := by
  have hbody : restoreBody p r (granted s p) = _ := panelRequest_passed hl hx hc _
  split
  · next hi => exact State.grant_refused h (hbody.trans (if_pos (Option.isNone_iff_eq_none.mpr hi)))
  · next hi =>
    exact State.grant_written h
      ((hbody.trans (if_neg (mt Option.isNone_iff_eq_none.mp hi))).trans (State.panelWrite_eq (s := granted s p) hc _))

/-- Settles O30, request by request. -/
theorem resetIsolateRestoreOutcomes : Obligations.ResetIsolateRestoreOutcomes :=
  ⟨fun _ _ _ _ _ h hl hx hc => next_congr (resetPoint_granted h hl hx hc),
    fun _ _ _ _ _ hl hx hc => ⟨fun h => next_congr (isolate_granted h hl hx hc),
      fun h => next_congr (restore_granted h hl hx hc)⟩⟩

end Sys2Proof.Machine
end

section
/-! SUPPORT. SET-MODE of a bay, its tests passed (R88, R90, R91, R173). -/

namespace Sys2Proof.Machine

open Claims

/-- The mode of a name, as a SET-MODE writes it: the service timer starts at SERVICE LIMIT (R90). -/
def ModeName.started (t : Timing) : ModeName → BayMode
  | .normal => .normal
  | .service => .service (serviceStart t)
  | .works => .works

/-- The mode written with its MODE record (R90). -/
def State.modeWritten (s : State) (b : Bay) (m : ModeName) (n : Sender) : State :=
  (s.setMode b (m.started s.timing)).append (modeChange b (s.bay b).mode.name m .request (some n))

/-- SET-MODE that has passed its tests: nothing from NORMAL to NORMAL or WORKS to WORKS, else the mode written, and to
WORKS the bay's PENDING points quietened. -/
theorem State.changeMode_eq (s : State) (b : Bay) (m : ModeName) (n : Sender) : s.changeMode b m n =
    if (s.bay b).mode.name = m ∧ m ≠ .service then s
    else if m = .works then
      b.locs.foldl (fun u l => u.pendingToQuiet l .mode (some n)) (s.modeWritten b m n)
    else s.modeWritten b m n := by
  cases m with
  | service => exact (if_neg (fun hb => hb.2 rfl)).symm
  | normal => exact if_congr (and_iff_left (by decide)).symm rfl rfl
  | works => exact if_congr (and_iff_left (by decide)).symm rfl rfl

theorem State.pendingToQuiet_unenrolled {s : State} {l : Loc} (h : s.content l = none) (cause : Cause)
    (doneBy : Option Sender) : s.pendingToQuiet l cause doneBy = s := by
  simp only [State.pendingToQuiet, h]

/-- A point sent to QUIET where it is PENDING, and passed over where the copy's failure has rebuilt it (R91, R173). -/
theorem State.pendingToQuiet_atWrite {s : State} {l : Loc} {c : PointContent} (h : s.content l = some c) (cause : Cause)
    (doneBy : Option Sender) : s.pendingToQuiet l cause doneBy =
      if c.condition ≠ .pending then s
      else if (atWrite s l c).condition ≠ .pending then s.copyBefore l
      else ((s.copyBefore l).writePoint l
          { atWrite s l c with condition := .quiet, ack := none, confirmation := none }).append
        (record .condition l (some .pending) (some .quiet) cause doneBy none) := by
  simp only [State.pendingToQuiet, h, State.content_copyBefore_atWrite h, State.enterCondition, ne_eq, ite_not]
  refine if_congr Iff.rfl ?_ rfl
  by_cases hd : (atWrite s l c).condition = .pending
  · rw [if_pos hd, if_pos hd, hd]
    rfl
  · rw [if_neg hd, if_neg hd]

theorem setModeBody_passed {s : State} {p : Port} {r : Request} {b : Bay} {m : ModeName}
    (hb : Bay.ofByte? (r.op 0) = some b) (hm : ModeName.ofByte? (r.op 1) = some m)
    (ht : s.bayTests p r.sender .mode false b = none) :
    setModeBody p r s = (s.changeMode b m r.sender, .bare .done) := by
  simp only [setModeBody, hb, hm, ht]

/-- Settles O31: the effect by `State.changeMode_eq`, each point by `State.pendingToQuiet_atWrite`. -/
theorem setModeOutcomes : Obligations.SetModeOutcomes := by
  intro s p r b m h hb hm hx old new g u quieten
  have hold : (s.bay b).mode.name = old := by
    cases hmode : (s.bay b).mode <;> simp only [old, hmode] <;> rfl
  have hwritten : g.modeWritten b m r.sender = u := by
    unfold State.modeWritten
    rw [show (g.bay b).mode.name = old from hold]
    cases m <;> rfl
  have hquieten : (fun v l => State.pendingToQuiet v l .mode (some r.sender)) = quieten := by
    funext v l
    cases hc : v.content l with
    | none => simp only [quieten, State.pendingToQuiet_unenrolled hc, hc]
    | some c => simp only [quieten, State.pendingToQuiet_atWrite hc, hc]
  have hbody := setModeBody_passed hb hm (State.bayTests_of_refusal_none hx)
  rw [State.changeMode_eq, hwritten, hquieten, show ((granted s p).bay b).mode.name = old from hold] at hbody
  refine next_congr ?_
  split
  · next hsame =>
    rw [if_pos hsame] at hbody
    exact State.grant_refused h hbody
  · next hsame =>
    rw [if_neg hsame] at hbody
    exact State.grant_answered h hbody

end Sys2Proof.Machine
end

section
/-! SUPPORT. Commands that name an event that cannot take place (log 2), and the end of a unit at each block (R92, R104,
R105, R125, R166; logs 5 to 7 and 28). -/

namespace Sys2Proof.Machine

open Claims

/-! ### What is due, spelled out -/

theorem State.inService_iff (s : State) : s.inService = true ↔ s.phase = .running ∧ s.rst = false := by
  simp only [State.inService, Bool.and_eq_true, beq_iff_eq, Bool.not_eq_true']

theorem State.confirmationDue_iff (s : State) (c : PointContent) : s.confirmationDue c = true ↔
    c.condition = .pending ∧ ∃ f, c.confirmation = some f ∧ f.deadline = s.count := by
  unfold State.confirmationDue
  cases c.confirmation with
  | none => simp
  | some f => simp

theorem BayRecord.serviceOut_iff (x : BayRecord) :
    x.serviceOut = true ↔ ∃ t, x.mode = .service t ∧ t.runOut = true := by
  unfold BayRecord.serviceOut
  cases x.mode with
  | service t => simp
  | normal => simp
  | works => simp

theorem State.holdOut_iff (s : State) (p : Port) :
    s.holdOut p = true ↔ ∃ h, s.hold p = some h ∧ h.timer.runOut = true := by
  unfold State.holdOut
  cases s.hold p with
  | none => simp
  | some h => simp

theorem SnapState.keepOut_iff (x : SnapState) :
    x.keepOut = true ↔ ∃ o m c t, x = .ready o m c t ∧ t.runOut = true := by
  cases x with
  | ready o m c t => simp [SnapState.keepOut]
  | _ => simp [SnapState.keepOut]

theorem SnapState.isCopying_iff (x : SnapState) : x.isCopying = true ↔ ∃ o m c b, x = .copying o m c b := by
  cases x with
  | copying o m c b => simp [SnapState.isCopying]
  | _ => simp [SnapState.isCopying]

theorem State.completesPeriod_iff (s : State) : s.completesPeriod = true ↔
    s.timing.sweepPeriod ≠ 0 ∧ s.timing.sweepPeriod.toNat ≤ s.prescaler + 1 := by
  simp only [State.completesPeriod, Bool.and_eq_true, bne_iff_ne, decide_eq_true_eq]

/-- A unit is done when every block has taken its end and no expiry is due (log 5). -/
theorem State.unitDone_iff (s : State) : s.unitDone = true ↔
    s.owes = [] ∧ (∀ e ∈ s.points, s.confirmationDue e.2.content = false) ∧
      (∀ b, (s.bay b).serviceOut = false) ∧ (∀ p, s.holdOut p = false) ∧ s.snap.keepOut = false := by
  simp only [State.unitDone, Bool.and_eq_true, Bool.not_eq_true', List.isEmpty_iff, List.any_eq_false, Bay.mem_all,
    Port.mem_all, Bool.not_eq_true, forall_const, and_assoc]

/-! ### The end of a unit as a block takes it (R104, log 5) -/

theorem State.takeUnit_outOfService {s : State} (h : s.inService = false) (b : TimeBlock) : s.takeUnit b = none := by
  simp only [State.takeUnit, h, Bool.not_false, if_true]

theorem State.takeUnit_notYet {s : State} {b : TimeBlock} (hb : b ∉ s.owes) (hd : s.unitDone = false) :
    s.takeUnit b = none := by
  simp only [State.takeUnit, hb, hd, Bool.false_eq_true, if_false, ite_self]

/-- The end that a block still owes, or the next unit's, which then ends for the others too. -/
theorem State.takeUnit_may {s : State} {b : TimeBlock} (hs : s.inService = true)
    (hb : b ∈ s.owes ∨ (b ∉ s.owes ∧ s.unitDone = true)) : s.takeUnit b = some (
      if b ∈ s.owes then { s with owes := s.owes.erase b }
      else { s with owes := TimeBlock.all.erase b, unitInGroup := s.unitInGroup + 1 }) := by
  rcases hb with hb | ⟨hb, hd⟩
  · simp only [State.takeUnit, hs, hb, Bool.not_true, Bool.false_eq_true, if_false, if_true]
  · simp only [State.takeUnit, hs, hb, hd, Bool.not_true, Bool.false_eq_true, if_false, if_true]

theorem State.unitEnd_untaken {s : State} {b : TimeBlock} (h : s.takeUnit b = none) : s.unitEnd b = s := by
  simp only [State.unitEnd, h]

section

variable {s g : State}

theorem State.unitEnd_engine (h : s.takeUnit .engine = some g) :
    s.unitEnd .engine = { g with count := g.count + 1 } := by
  simp only [State.unitEnd, h]

theorem State.unitEnd_bayTable (h : s.takeUnit .bayTable = some g) :
    s.unitEnd .bayTable = g.mapBays (fun _ x => x.tick) := by
  simp only [State.unitEnd, h]

theorem State.unitEnd_holdUnit (h : s.takeUnit .holdUnit = some g) :
    s.unitEnd .holdUnit = { g with holds := g.holds.map (fun _ k => k.map Hold.tick) } := by
  simp only [State.unitEnd, h]

theorem State.unitEnd_snapshotUnit (h : s.takeUnit .snapshotUnit = some g) : s.unitEnd .snapshotUnit =
    if s.snap.isCopying then s else { g with snap := g.snap.tick } := by
  simp only [State.unitEnd, h]

theorem State.unitEnd_sweep (h : s.takeUnit .sweep = some g) : s.unitEnd .sweep =
    if s.completesPeriod then s
    else if s.timing.sweepPeriod = 0 then g
    else { g with prescaler := g.prescaler + 1 } := by
  simp only [State.unitEnd, h]

end

theorem BayRecord.tick_eq (x : BayRecord) : x.tick = { x with mode := match x.mode with
    | .service t => .service t.tick
    | m => m } := by
  obtain ⟨mode, _, _⟩ := x
  cases mode <;> rfl

/-- Settles O50: what may be taken by `State.takeUnit_may`, then block by block. -/
theorem unitEndAtEachBlock : Obligations.UnitEndAtEachBlock := by
  refine ⟨State.unitDone_iff, ?_⟩
  intro s b hs hb g down
  have htake : s.takeUnit b = some g := State.takeUnit_may hs hb
  refine ⟨htake, ?_⟩
  clear_value g
  obtain ⟨owes, k, rfl⟩ := takeUnit_eq htake
  refine ⟨?_, ?_, ?_, ?_, ?_⟩
  · rintro rfl
    exact next_congr (State.unitEnd_engine htake)
  · rintro rfl
    exact ⟨_, next_congr (State.unitEnd_bayTable htake),
      fun x => (State.bay_mapBays _ x _).trans (BayRecord.tick_eq (s.bay x))⟩
  · rintro rfl
    exact ⟨_, next_congr (State.unitEnd_holdUnit htake), fun p => PerPort.get_map _ _ p⟩
  · rintro rfl
    refine next_congr ((State.unitEnd_snapshotUnit htake).trans ?_)
    cases s.snap with
    | idle => rfl
    | copying o m c x => rfl
    | ready o m c t => rfl
  · rintro rfl
    refine next_congr ((State.unitEnd_sweep htake).trans ?_)
    by_cases h0 : s.timing.sweepPeriod = 0
    · rw [if_pos h0, if_pos h0, if_neg (mt s.completesPeriod_iff.mp (fun ⟨hne, _⟩ => hne h0))]
    · rw [if_neg h0, if_neg h0]
      exact if_congr (s.completesPeriod_iff.trans (and_iff_right h0)) rfl rfl

/-! ### Events that cannot take place (log 2) -/

theorem State.periodicStep_notDue {s : State} (h : s.completesPeriod = false ∨ s.inService = false) :
    s.periodicStep = s := by
  rcases h with h | h
  · simp only [State.periodicStep, h, Bool.false_eq_true, if_false]
  · simp only [State.periodicStep, State.takeUnit_outOfService h, ite_self]

theorem State.copyStep_notDue {s : State} (h : s.snap.isCopying = false ∨ s.inService = false) : s.copyStep = s := by
  unfold State.copyStep
  cases hsnap : s.snap with
  | copying o m c b =>
    rcases h with h | h
    · rw [hsnap] at h
      cases h
    · simp only [State.takeUnit_outOfService h]
  | _ => rfl

theorem State.confirmationExpiry_notDue {s : State} {l : Loc}
    (h : (∀ c, s.content l = some c → s.confirmationDue c = false) ∨ s.inService = false) :
    s.confirmationExpiry l = s := by
  unfold State.confirmationExpiry
  cases hc : s.content l with
  | none => rfl
  | some c =>
    rcases h with h | h
    · simp only [h c hc, Bool.and_false, Bool.false_eq_true, if_false]
    · simp only [h, Bool.false_and, Bool.false_eq_true, if_false]

theorem State.serviceExpiry_notDue {s : State} {b : Bay} (h : (s.bay b).serviceOut = false ∨ s.inService = false) :
    s.serviceExpiry b = s := by
  rcases h with h | h
  · simp only [State.serviceExpiry, h, Bool.and_false, Bool.false_eq_true, if_false]
  · simp only [State.serviceExpiry, h, Bool.false_and, Bool.false_eq_true, if_false]

theorem State.holdExpiry_notDue {s : State} {p : Port} (h : s.holdOut p = false ∨ s.inService = false) :
    s.holdExpiry p = s := by
  unfold State.holdExpiry
  cases hp : s.hold p with
  | none => rfl
  | some k =>
    rcases h with h | h
    · have hk : k.timer.runOut = false := by simpa only [State.holdOut, hp] using h
      simp only [hk, Bool.and_false, Bool.false_eq_true, if_false]
    · simp only [h, Bool.false_and, Bool.false_eq_true, if_false]

theorem State.keepExpiry_notDue {s : State} (h : s.snap.keepOut = false ∨ s.inService = false) : s.keepExpiry = s := by
  unfold State.keepExpiry
  cases hsnap : s.snap with
  | ready o m c t =>
    rcases h with h | h
    · have ht : t.runOut = false := by simpa only [SnapState.keepOut, hsnap] using h
      simp only [ht, Bool.and_false, Bool.false_eq_true, if_false]
    · simp only [h, Bool.false_and, Bool.false_eq_true, if_false]
  | _ => rfl

theorem State.beginTransaction_outOfService {s : State} (h : s.inService = false) (p : Port) :
    s.beginTransaction p = s := by
  simp only [State.beginTransaction, h, Bool.false_and, Bool.false_eq_true, if_false]

theorem State.endTransaction_outOfService {s : State} (h : s.inService = false) (p : Port) (sdi : List Bool) :
    s.endTransaction p sdi = s := by
  unfold State.endTransaction
  cases (s.port p).copy with
  | none => rfl
  | some x => simp only [h, Bool.false_eq_true, if_false]

theorem State.grantOf_outOfService {s : State} (h : s.inService = false) (code : ReqCode) : s.grantOf code = none := by
  simp only [State.grantOf, h, Bool.false_eq_true, if_false]

theorem State.grantRaw_of_none {s : State} {code : ReqCode} (body : Port → Request → State → State × Answer)
    (h : s.grantOf code = none) : s.grantRaw code body = s := by
  simp only [State.grantRaw, h]

/-- A request that is not the arbiter's next grant. -/
theorem exec_of_grantOf_none {code : ReqCode} {s : State} (h : s.grantOf code = none) :
    exec code.command s = .next s := by
  cases code with
  | portReset => exact next_congr (State.grantRaw_of_none portResetBody h)
  | _ => exact next_congr (State.grant_of_none _ h)

/-- In reset nothing is taken but power, RST and storage upsets (R188). -/
theorem exec_outOfService {c : Instr} {s : State} (h : s.inService = false) (hc : takenInReset c = false) :
    exec c s = .next s := by
  cases c with
  | powerOn strap => cases hc
  | resetLine => cases hc
  | rstAssertion => cases hc
  | powerRemoval => cases hc
  | storageUpset l d => cases hc
  | transactionBegin p => exact next_congr (State.beginTransaction_outOfService h p)
  | transactionEnd p sdi => exact next_congr (State.endTransaction_outOfService h p sdi)
  | timebaseUnitEnd b => exact next_congr (State.unitEnd_untaken (State.takeUnit_outOfService h b))
  | periodicSweepStep => exact next_congr (State.periodicStep_notDue (.inr h))
  | copyStep => exact next_congr (State.copyStep_notDue (.inr h))
  | confirmationTimerExpiry l => exact next_congr (State.confirmationExpiry_notDue (.inr h))
  | serviceTimerExpiry b => exact next_congr (State.serviceExpiry_notDue (.inr h))
  | holdTimerExpiry p => exact next_congr (State.holdExpiry_notDue (.inr h))
  | keepTimerExpiry => exact next_congr (State.keepExpiry_notDue (.inr h))
  | portReset => exact exec_of_grantOf_none (code := .portReset) (State.grantOf_outOfService h _)
  | _ => exact next_congr (State.grant_of_none _ (State.grantOf_outOfService h _))

/-- Settles O3, event by event. -/
theorem eventsNotDueChangeNothing : Obligations.EventsNotDueChangeNothing :=
  ⟨fun _ _ h => exec_of_grantOf_none h,
    fun _ _ hb hd => next_congr (State.unitEnd_untaken (State.takeUnit_notYet hb hd)),
    fun _ h => next_congr (State.periodicStep_notDue (.inl h)),
    fun _ h => next_congr (State.copyStep_notDue (.inl h)),
    fun _ _ h => next_congr (State.confirmationExpiry_notDue (.inl h)),
    fun _ _ h => next_congr (State.serviceExpiry_notDue (.inl h)),
    fun _ _ h => next_congr (State.holdExpiry_notDue (.inl h)),
    fun _ h => next_congr (State.keepExpiry_notDue (.inl h)),
    fun _ _ h hc => exec_outOfService h hc,
    State.inService_iff, State.confirmationDue_iff, BayRecord.serviceOut_iff, State.holdOut_iff, SnapState.keepOut_iff,
    SnapState.isCopying_iff, State.completesPeriod_iff⟩

end Sys2Proof.Machine
end

section
/-! SUPPORT. TAKE-POLLS (R116), and the step of the sweep: on request by SWEEP-STEP, and at the end of a period (R105 to
R107, R120). -/

namespace Sys2Proof.Machine

open Claims

/-! ### TAKE-POLLS (R116) -/

/-- The range test of TAKE-POLLS, its sender operand read by its number (Table 10.5). -/
theorem takePolls_outOfRange_iff (r : Request) :
    (Sender.ofByte? (r.op 0) ≠ some r.sender ∨ (r.op 1).toNat < 1 ∨ 8 < (r.op 1).toNat) ↔
      (r.op 0).toNat ≠ r.sender.number ∨ (r.op 1).toNat = 0 ∨ 8 < (r.op 1).toNat := by
  have hsender : Sender.ofByte? (r.op 0) = some r.sender ↔ (r.op 0).toNat = r.sender.number :=
    (Sender.ofByte?_eq_some _ _).trans eq_comm
  exact or_congr hsender.not (or_congr_left Nat.lt_one_iff)

section

variable {r : Request}

theorem takePollsBody_range (p : Port) (g : State)
    (hrange : (r.op 0).toNat ≠ r.sender.number ∨ (r.op 1).toNat = 0 ∨ 8 < (r.op 1).toNat) :
    takePollsBody p r g = (g, .bare .range) := by
  simp only [takePollsBody, takePolls_outOfRange_iff, hrange, if_true]

theorem takePollsBody_inRange (p : Port) (g : State)
    (hrange : ¬ ((r.op 0).toNat ≠ r.sender.number ∨ (r.op 1).toNat = 0 ∨ 8 < (r.op 1).toNat)) :
    takePollsBody p r g = if g.mayAnywhere r.sender .radio = false then (g, .bare .masked)
      else (g.pollsTake r.sender (r.op 1).toNat,
        .doneWith (((g.polls.get r.sender).take (r.op 1).toNat).flatMap pollBytes)) := by
  simp only [takePollsBody, takePolls_outOfRange_iff, hrange, if_false, Bool.not_eq_true']

end

/-- Settles O27, test by test; the items taken leave the alarm count, and so every FIRE flag, as it was. -/
theorem takePollsOutcomes : Obligations.TakePollsOutcomes := by
  refine fun s p r h => next_congr (s := s.grant .takePolls takePollsBody) ?_
  split
  · next hrange => exact State.grant_refused h (takePollsBody_range p _ hrange)
  · next hrange =>
    have hbody := takePollsBody_inRange p (granted s p) hrange
    split
    · next hmask => exact State.grant_refused h (hbody.trans (if_pos hmask))
    · next hmask => exact State.grant_answered_quiet h (hbody.trans (if_neg hmask)) rfl

/-! ### The step of the sweep (R105 to R107, R120) -/

section

variable {g : State}

/-- An empty step (R106). -/
theorem State.sweepStep_unfitted (hfit : g.fitted g.counter = false) :
    g.sweepStep = { g with counter := g.counter + 1 } := by
  simp only [State.sweepStep, hfit, Bool.false_eq_true, if_false]

/-- A step at a held bay makes no visit (R107). -/
theorem State.sweepStep_held (hfit : g.fitted g.counter = true) (hheld : g.held g.counter = true) :
    g.sweepStep = { g.setOwed g.counter true with counter := g.counter + 1 } := by
  simp only [State.sweepStep, hfit, hheld, if_true]

theorem State.sweepStep_free (hfit : g.fitted g.counter = true) (hfree : g.held g.counter = false) :
    g.sweepStep = { g.visitBay g.counter with counter := g.counter + 1 } := by
  simp only [State.sweepStep, hfit, hfree, if_true, Bool.false_eq_true, if_false]

end

theorem State.held_iff_holder (s : State) (b : Bay) : s.held b = true ↔ s.holder b ≠ none :=
  Option.isSome_iff_ne_none

/-- The step at the counter, its three cases in one: nothing at an unfitted bay, the mark at a held one, the visit at a
free one. -/
theorem State.sweepStep_eq (g : State) : g.sweepStep =
    { (if g.fitted g.counter = false then g
       else if g.holder g.counter ≠ none then
         { g with bays := g.bays.set g.counter.val { g.bay g.counter with owed := true } g.counter.isLt }
       else g.counter.locs.foldl State.visitPoint g) with counter := g.counter + 1 } := by
  split
  · next hfit => exact State.sweepStep_unfitted hfit
  · next hfit =>
    have hfit := Bool.eq_true_of_not_eq_false hfit
    split
    · next hheld => exact State.sweepStep_held hfit ((g.held_iff_holder _).mpr hheld)
    · next hfree => exact State.sweepStep_free hfit (Bool.eq_false_of_not_eq_true (mt (g.held_iff_holder _).mp hfree))

/-- SWEEP-STEP: steps 2 and 3 of R30, then STATE while the sweep runs, else the step and the bay stepped (R120). -/
theorem State.grant_sweepStep {s : State} {p : Port} {r : Request} (h : s.grantOf .sweepStep = some (p, r)) :
    s.grant .sweepStep sweepStepBody = (match storeRefusal s r.sender with
      | some x => answered (granted s p) p r x []
      | none =>
        if s.timing.sweepPeriod ≠ 0 then answered (granted s p) p r .state []
        else answered (fired s (granted s p).sweepStep) p r .done [byteOf s.counter.val]) := by
  have htests := State.storeTests_granted s p r.sender
  cases hx : storeRefusal s r.sender with
  | some x =>
    rw [hx] at htests
    exact State.grant_refused h (a := .bare x) (by simp only [sweepStepBody, htests, Option.map_some])
  | none =>
    rw [hx] at htests
    have hbody : sweepStepBody p r (granted s p) =
        if s.timing.sweepPeriod ≠ 0 then (granted s p, .bare .state)
        else ((granted s p).sweepStep, .doneWith [byteOf s.counter.val]) := by
      simp only [sweepStepBody, htests, Option.map_none]
      rfl
    dsimp only
    split
    · next hrun => exact State.grant_refused h (hbody.trans (if_pos hrun))
    · next hstop => exact State.grant_answered h (hbody.trans (if_neg hstop))

/-- The unit end that completes a period: the prescaler back to 0, and the step (R105). -/
theorem State.periodicStep_due {s g : State} (hc : s.completesPeriod = true) (h : s.takeUnit .sweep = some g) :
    s.periodicStep = fired s { g with prescaler := 0 }.sweepStep := by
  simp only [State.periodicStep, hc, if_true, h, State.settleFire_eq]

/-- Settles O46: both make the step of `State.sweepStep_eq`. -/
theorem sweepSteps : Obligations.SweepSteps := by
  refine ⟨fun s p r h => next_congr (s := s.grant .sweepStep sweepStepBody) ?_, fun s s1 hne hlast h =>
    next_congr (s := s.periodicStep) ?_⟩
  · have hgrant := State.grant_sweepStep h
    rw [State.sweepStep_eq] at hgrant
    exact hgrant
  · rw [State.periodicStep_due (s.completesPeriod_iff.mpr ⟨hne, hlast⟩) h, State.sweepStep_eq]

end Sys2Proof.Machine
end

section
/-! SUPPORT. HOLD-BAY (R124), and PORT-RESET (R186), which ends what its port holds and owns (R135, R167) and empties
the port's own state (R155). -/

namespace Sys2Proof.Machine

open Claims

/-! ### HOLD-BAY (R123, R124) -/

/-- The body of HOLD-BAY, its tests passed: a port holds one bay at most. -/
theorem holdBayBody_passed {s : State} {p : Port} {r : Request} {b : Bay} (hb : Bay.ofByte? (r.op 0) = some b)
    (ht : s.bayTests p r.sender .mode false b = none) :
    holdBayBody p r s = if s.hold p ≠ none then (s, .bare .state)
      else (s.setHold p (some { bay := b, timer := .start s.timing.holdLimit.toNat }),
        .doneWith [byteOf b.val, s.timing.holdLimit]) := by
  simp only [holdBayBody, hb, ht, Option.isSome_iff_ne_none]

/-- Settles O32; the new hold leaves the alarm count, and so every FIRE flag, as it was. -/
theorem holdBayOutcomes : Obligations.HoldBayOutcomes := by
  intro s p r b h hb hx
  have hbody := holdBayBody_passed hb (State.bayTests_of_refusal_none hx)
  refine next_congr (s := s.grant .holdBay holdBayBody) ?_
  split
  · next hholds => exact State.grant_refused h (hbody.trans (if_pos hholds))
  · next hfree => exact State.grant_answered_quiet h (hbody.trans (if_neg hfree)) rfl

/-! ### PORT-RESET (R186) -/

/-- A grant of the body alone, which settles FIRE itself. -/
theorem State.grantRaw_answered {s t : State} {code : ReqCode} {p : Port} {r : Request} {a : Answer}
    {body : Port → Request → State → State × Answer} (h : s.grantOf code = some (p, r))
    (hb : body p r (granted s p) = (t, a)) : s.grantRaw code body = answered t p r a.result a.payload := by
  simp only [State.grantRaw, h, show s.granting p = granted s p from rfl, hb]
  rfl

/-- The port's own snapshot returns to IDLE (R167). -/
def State.ownSnapEnded (s : State) (p : Port) : State := if s.snap.owner = some p then s.snapEnd else s

theorem State.endOwned_free {s : State} {p : Port} (h : s.hold p = none) : s.endOwned p = s.ownSnapEnded p := by
  simp only [State.endOwned, h, State.ownSnapEnded]

theorem State.endOwned_holding {s : State} {p : Port} {k : Hold} (h : s.hold p = some k) :
    s.endOwned p = (s.endHold p k.bay none).ownSnapEnded p := by
  simp only [State.endOwned, h, State.ownSnapEnded]

/-- PORT-RESET, the owned hold and snapshot ended: FIRE where it is due, then the port's state emptied (log 22). -/
theorem State.grantRaw_portReset {s v : State} {p : Port} {r : Request} (h : s.grantOf .portReset = some (p, r))
    (hv : (granted s p).endOwned p = v) :
    s.grantRaw .portReset portResetBody = answered (withPort (fired s v) p PortState.afterReset) p r .done [] :=
  State.grantRaw_answered (a := .bare .done) h (by subst hv; rfl)

/-- Settles O48, by whether the port holds a bay. -/
theorem portResetOutcomes : Obligations.PortResetOutcomes := by
  intro s p r h u v
  refine next_congr (State.grantRaw_portReset h ?_)
  cases hp : s.hold p with
  | none =>
    have hu : u = granted s p := by simp only [u, hp]
    simp only [v, hu]
    exact State.endOwned_free hp
  | some k =>
    have hu : u = (granted s p).endHold p k.bay none := by simp only [u, hp]
    simp only [v, hu]
    exact State.endOwned_holding hp

end Sys2Proof.Machine
end

section
/-! SUPPORT. The change ring (R139, R140, R143, R148) and the requests on a port's subscription and on its events
(R144 to R147, R151, R153, R154). -/

namespace Sys2Proof.Machine

open Claims

/-! ### The ring under every step, and an append (R139, R140, R143, R148) -/

/-- Settles O55: every single change keeps the numbering and the cursors, and so every step does. -/
theorem stepKeepsRingAndCursors : Obligations.StepKeepsRingAndCursors :=
  fun _ _ hring hcursors h => step_keeps (fun _ _ _ => ring_change) (fun _ _ hs => hs) h ⟨hring, hcursors⟩

/-- The oldest sequence number of a numbered ring, empty or not (R139). -/
theorem State.oldestSeq_of_ringSound {s : State} (h : s.ringSound) :
    s.oldestSeq = s.nextSeq - BitVec.ofNat 16 s.ring.length := by
  obtain ⟨-, hseq⟩ := h
  unfold State.oldestSeq
  cases hr : s.ring with
  | nil => simp
  | cons old rest => simpa [hr] using hseq 0 (by simp [hr])

/-- A ring that has room: nothing departs. -/
theorem State.departOldest_of_room {s : State} (h : s.ringSound) (hroom : s.ring.length ≠ 256) :
    s.departOldest = s := by
  have hlt : s.ring.length < Config.ringCapacity := lt_of_le_of_ne h.1 hroom
  unfold State.departOldest
  split
  · rfl
  · exact if_pos hlt

/-- The oldest sequence number of a full ring once its oldest record has left. -/
theorem State.oldestSeq_tail_of_full {s : State} (h : s.ringSound) (hfull : s.ring.length = 256) :
    { s with ring := s.ring.tail : State }.oldestSeq = s.nextSeq - 256 + 1 := by
  have hring : s.departOldest.ring = s.ring.tail := (departOldest_ring s).trans (if_neg (by rw [hfull]; decide))
  have htail : { s with ring := s.ring.tail : State }.ringSound :=
    ringSound_of_eq hring.symm s.departOldest_nextSeq.symm (ringSound_departOldest h).1
  rw [State.oldestSeq_of_ringSound htail, List.length_tail, hfull]
  bv_omega

/-- A full ring: the oldest record leaves, and a cursor that named it moves on by one, with LAG (R148). -/
theorem State.departOldest_of_full {s : State} (h : s.ringSound) (hfull : s.ring.length = 256) :
    s.departOldest = { s with ring := s.ring.tail }.mapPorts (fun _ q =>
      if q.sub = some (s.nextSeq - 256) then { q with sub := some (s.nextSeq - 256 + 1) }.raise .lag else q) := by
  have hold := State.oldestSeq_of_ringSound h
  have hnew := State.oldestSeq_tail_of_full h hfull
  have hcap : ¬ s.ring.length < Config.ringCapacity := by rw [hfull]; decide
  rw [hfull] at hold
  cases hr : s.ring with
  | nil => simp [hr] at hfull
  | cons old rest =>
    have hseq : old.seq = s.nextSeq - 256 := by rwa [State.oldestSeq, hr] at hold
    rw [hr, List.tail_cons] at hnew
    simp only [State.departOldest, hr, List.length_cons, hseq, List.tail_cons, hnew]
    rw [hr] at hcap
    exact if_neg hcap

theorem State.port_departOldest_of_full {s : State} (h : s.ringSound) (hfull : s.ring.length = 256) (p : Port) :
    s.departOldest.port p =
      if (s.port p).sub = some (s.nextSeq - 256) then
        { s.port p with sub := some (s.nextSeq - 256 + 1) }.raise .lag
      else s.port p := by
  rw [State.departOldest_of_full h hfull, State.port_mapPorts]
  rfl

/-- Settles O34: the departure by the numbering of R139, then the record and the notice to the subscribed ports. -/
theorem appendFollowsR140 : Obligations.AppendFollowsR140 := by
  intro s b h
  refine ⟨(s.append b).ports, ?_, fun p => (append_port s b p).trans ?_⟩
  · by_cases hfull : s.ring.length = 256
    · simp only [State.append, State.departOldest_of_full h hfull, hfull, if_true]
      rfl
    · simp only [State.append, State.departOldest_of_room h hfull, hfull, if_false]
      rfl
  · by_cases hfull : s.ring.length = 256
    · rw [State.port_departOldest_of_full h hfull]
      cases hsub : (s.port p).sub with
      | none => simp [hsub]
      | some n =>
        by_cases hleft : n = s.nextSeq - 256
        · simp [hfull, hleft, PortState.raise, Event.bit]
        · simp only [hsub, Option.some.injEq, hleft, if_false, and_false, Option.isSome_some, if_true, PortState.raise,
            Event.bit]
    · rw [State.departOldest_of_room h hfull]
      cases hsub : (s.port p).sub with
      | none => simp
      | some n => simp [hfull, hsub, PortState.raise, Event.bit]

/-! ### The subscription and the ring cursor of a port (R144 to R147) -/

/-- A number lies in the window of a numbered ring where no more records wait from it than are held (R139). -/
theorem State.inWindow_iff {s : State} (h : s.ringSound) (n : SeqNum) :
    s.inWindow n = true ↔ (s.nextSeq - n).toNat ≤ s.ring.length := by
  have hlen : s.ring.length ≤ 256 := h.1
  have hnext := s.nextSeq.isLt
  have hn := n.isLt
  simp only [State.inWindow, State.oldestSeq_of_ringSound h, decide_eq_true_eq, BitVec.toNat_sub, BitVec.toNat_ofNat]
  omega

/-- A filter that holds exactly at the places `d` to `d + k - 1` of a list. -/
theorem filter_eq_take_drop {α : Type} {f : α → Bool} {d k : Nat} {l : List α}
    (h : ∀ (i : Nat) (hi : i < l.length), f l[i] = true ↔ d ≤ i ∧ i < d + k) :
    l.filter f = (l.drop d).take k := by
  have hbefore : (l.take d).filter f = [] := List.filter_eq_nil_iff.mpr fun a ha => by
    obtain ⟨i, hi, rfl⟩ := List.getElem_of_mem ha
    rw [List.length_take] at hi
    rw [List.getElem_take, h]
    omega
  have hwithin : ((l.drop d).take k).filter f = (l.drop d).take k := List.filter_eq_self.mpr fun a ha => by
    obtain ⟨i, hi, rfl⟩ := List.getElem_of_mem ha
    rw [List.length_take] at hi
    rw [List.getElem_take, List.getElem_drop, h]
    omega
  have hafter : ((l.drop d).drop k).filter f = [] := List.filter_eq_nil_iff.mpr fun a ha => by
    obtain ⟨i, hi, rfl⟩ := List.getElem_of_mem ha
    rw [List.getElem_drop, List.getElem_drop, h]
    omega
  calc l.filter f = (l.take d ++ ((l.drop d).take k ++ (l.drop d).drop k)).filter f := by
        rw [List.take_append_drop, List.take_append_drop]
    _ = (l.drop d).take k := by
        rw [List.filter_append, List.filter_append, hbefore, hwithin, hafter, List.nil_append, List.append_nil]

/-- The records a reader gets: of those waiting the first `c`, that is, those numbered from the cursor on (R147). -/
theorem State.take_waitingRecords {s : State} (h : s.ringSound) {n : SeqNum} (hn : s.waiting n ≤ s.ring.length)
    (c : Nat) : (s.waitingRecords n).take c =
      s.ring.filter (fun e => (e.seq - n).toNat < min c (s.nextSeq - n).toNat) := by
  obtain ⟨hlen, hseq⟩ := h
  have hcap : s.ring.length ≤ 256 := hlen
  have hnext := s.nextSeq.isLt
  have hcur := n.isLt
  have hwait : (s.waitingRecords n).length = s.waiting n := by
    rw [State.waitingRecords, List.length_drop]
    omega
  rw [List.take_eq_take_min, hwait]
  refine (filter_eq_take_drop (fun i hi => ?_)).symm
  rw [hseq i hi, decide_eq_true_eq]
  simp only [State.waiting, BitVec.toNat_sub, BitVec.toNat_ofNat] at hn ⊢
  omega

/-- SUBSCRIBE-FROM, by whether its number lies in the window (R145). -/
theorem subscribeFromBody_eq {s : State} (h : s.ringSound) (p : Port) (r : Request) : subscribeFromBody p r s =
    if (s.nextSeq - r.op2 0).toNat ≤ s.ring.length then
      (withPort s p (fun q => { q with sub := some (r.op2 0) }),
        .doneWith (bytes2 (r.op2 0) ++ bytes2 (s.nextSeq - r.op2 0)))
    else (s, .bare .range) := by
  simp only [subscribeFromBody, State.inWindow_iff h, State.waiting, BitVec.ofNat_toNat, BitVec.setWidth_eq]
  rfl

/-- READ-CHANGES of a subscribed port, its count in range: the records read and the cursor moved past them (R147). -/
theorem readChangesBody_read {s : State} {p : Port} {r : Request} {n : SeqNum} (h : s.ringSound) (hc : s.cursorsSound)
    (hcount : ¬ ((r.op 0).toNat = 0 ∨ 8 < (r.op 0).toNat)) (hsub : (s.port p).sub = some n) {k : Nat}
    (hk : k = min (r.op 0).toNat (s.nextSeq - n).toNat) : readChangesBody p r s =
      (withPort s p (fun q => { q with sub := some (n + BitVec.ofNat 16 k) }),
        .doneWith ((s.ring.filter (fun e => (e.seq - n).toNat < k)).flatMap changeBytes)) := by
  have hrange : ¬ ((r.op 0).toNat < 1 ∨ 8 < (r.op 0).toNat) := by omega
  have hwait := hc p n hsub
  have hlen : ((s.waitingRecords n).take (r.op 0).toNat).length = k := by
    rw [List.length_take, State.waitingRecords, List.length_drop, hk]
    simp only [State.waiting] at hwait ⊢
    omega
  simp only [readChangesBody, hrange, if_false, hsub, hlen]
  rw [State.take_waitingRecords h hwait, ← hk]
  rfl

/-- Settles O35: each body writes the port's subscription alone, so that no FIRE is due. -/
theorem subscriptionRequests : Obligations.SubscriptionRequests := by
  refine fun s p r => ⟨fun h => next_congr ?_, fun h hring => next_congr ?_, fun h => next_congr ?_,
    fun h hring hcursors => next_congr ?_⟩
  · exact State.grant_answered_quiet (body := subscribeBody) h rfl rfl
  · have hbody : _ := subscribeFromBody_eq (s := granted s p) hring p r
    split
    · next hin => exact State.grant_answered_quiet h (hbody.trans (if_pos hin)) rfl
    · next hout => exact State.grant_refused h (hbody.trans (if_neg hout))
  · split
    · next hsub =>
      have hsub : ((granted s p).port p).sub = none := hsub
      exact State.grant_refused h (a := .bare .state) (by simp [unsubscribeBody, hsub])
    · next hsub =>
      have hsub : ((granted s p).port p).sub.isSome = true := Option.isSome_iff_ne_none.mpr hsub
      exact State.grant_answered_quiet (body := unsubscribeBody) h (if_pos hsub) rfl
  · split
    · next hcount =>
      exact State.grant_refused h (a := .bare .range) (if_pos (hcount.imp_left Nat.lt_one_iff.mpr))
    · next hcount =>
      have hrange : ¬ ((r.op 0).toNat < 1 ∨ 8 < (r.op 0).toNat) := by omega
      cases hsub : (s.port p).sub with
      | none =>
        have hsub : ((granted s p).port p).sub = none := hsub
        exact State.grant_refused h (a := .bare .state) (by simp only [readChangesBody, hrange, if_false, hsub])
      | some n =>
        exact State.grant_answered_quiet h (readChangesBody_read (s := granted s p) hring hcursors hcount hsub rfl) rfl

/-! ### The events of a port and its ATTN line (R151, R153, R154) -/

/-- The place of an event's bit in an event set (Table 10.4). -/
def Event.place : Event → Nat
  | .changes => 0 | .lag => 1 | .holdEnded => 2 | .snapshotReady => 3 | .snapshotEnded => 4 | .polls => 5 | .fire => 6
  | .stray => 7 | .restart => 8

theorem Event.bit_eq_twoPow (e : Event) : e.bit = BitVec.twoPow 9 e.place := by cases e <;> rfl

theorem Event.isIn_eq_getLsbD (e : Event) (set : EventSet) : e.isIn set = set.getLsbD e.place := by
  rw [Event.isIn, Event.bit_eq_twoPow, BitVec.and_twoPow]
  cases set.getLsbD e.place with
  | false => simp
  | true =>
    rw [if_pos rfl, ← Event.bit_eq_twoPow]
    cases e <;> rfl

/-- Every place of an event set is an event's. -/
theorem Event.exists_place {i : Nat} (h : i < 9) : ∃ e : Event, e.place = i := by
  match i with
  | 0 => exact ⟨.changes, rfl⟩
  | 1 => exact ⟨.lag, rfl⟩
  | 2 => exact ⟨.holdEnded, rfl⟩
  | 3 => exact ⟨.snapshotReady, rfl⟩
  | 4 => exact ⟨.snapshotEnded, rfl⟩
  | 5 => exact ⟨.polls, rfl⟩
  | 6 => exact ⟨.fire, rfl⟩
  | 7 => exact ⟨.stray, rfl⟩
  | 8 => exact ⟨.restart, rfl⟩
  | i + 9 => omega

/-- Two event sets have an event in common. -/
theorem eventSet_and_ne_zero_iff (x y : EventSet) : x &&& y ≠ 0 ↔ ∃ e : Event, e.isIn x = true ∧ e.isIn y = true := by
  simp only [Event.isIn_eq_getLsbD]
  constructor
  · intro hne
    by_contra hno
    refine hne (BitVec.eq_of_getLsbD_eq fun i hi => ?_)
    obtain ⟨e, rfl⟩ := Event.exists_place hi
    have hbits : ¬ (x.getLsbD e.place = true ∧ y.getLsbD e.place = true) := fun hboth => hno ⟨e, hboth⟩
    simpa using hbits
  · rintro ⟨e, hx, hy⟩ hzero
    have hbit : (x &&& y).getLsbD e.place = true := by rw [BitVec.getLsbD_and, hx, hy, Bool.and_self]
    rw [hzero] at hbit
    simp at hbit

theorem State.attnLine_iff (s : State) (p : Port) : s.attnLine p = true ↔
    s.inService = true ∧ ∃ e : Event, e.isIn (s.port p).flags = true ∧ e.isIn (s.port p).mask = true := by
  rw [State.attnLine, Bool.and_eq_true, bne_iff_ne, eventSet_and_ne_zero_iff]

/-- The event operand, by whether it names anything but the nine (R151, R153). -/
theorem Request.events?_eq (r : Request) : r.events? =
    if 512 ≤ (r.op2 0).toNat then none else some ((r.op2 0).setWidth 9) := by
  simp only [Request.events?, ← not_lt, ite_not]

/-- A grant of a request on the port's own events: RANGE for a set out of range, else the port written by the set. -/
theorem State.grant_events {s : State} {code : ReqCode} {p : Port} {r : Request}
    {body : Port → Request → State → State × Answer} {f : EventSet → PortState → PortState}
    (h : s.grantOf code = some (p, r))
    (hb : body p r (granted s p) = (match r.events? with
      | none => (granted s p, .bare .range)
      | some e => (withPort (granted s p) p (f e), .bare .done))) :
    s.grant code body = if 512 ≤ (r.op2 0).toNat then answered (granted s p) p r .range []
      else answered (withPort (granted s p) p (f ((r.op2 0).setWidth 9))) p r .done [] := by
  rw [Request.events?_eq] at hb
  split
  · next hout =>
    rw [if_pos hout] at hb
    exact State.grant_refused h hb
  · next hin =>
    rw [if_neg hin] at hb
    exact State.grant_answered_quiet h hb rfl

/-- Settles O36: both requests write the port by their set, and ATTN is the common event of flags and mask. -/
theorem eventRequests : Obligations.EventRequests := by
  refine ⟨fun s p r => ⟨fun h => next_congr ?_, fun h => next_congr ?_⟩, State.attnLine_iff, fun e set => ?_⟩
  · exact State.grant_events (body := clearEventsBody) (f := fun e q => { q with flags := q.flags &&& ~~~e }) h rfl
  · exact State.grant_events (body := setEventMaskBody) (f := fun e q => { q with mask := e }) h rfl
  · rw [Event.isIn_eq_getLsbD]
    cases e <;> rfl

end Sys2Proof.Machine
end

section
/-! SUPPORT. The audit snapshot: what every step keeps of it (R156, R162), that it shows each location as it stood at
the start (R160, R162), the copy step (R159, R161) and the snapshot requests (R157, R158, R163 to R165). -/

namespace Sys2Proof.Machine

open Claims

/-! ### What every step keeps (R156, R159, R162) -/

/-- Settles O60: every single change keeps the snapshot store, and so every step does. -/
theorem stepKeepsSnapshot : Obligations.StepKeepsSnapshot :=
  fun _ _ hs h => step_keeps (fun _ _ _ => snap_change) (fun _ _ hq => hq) h hs

/-! ### What a snapshot shows (R160, R162) -/

theorem State.needsCopy_iff (s : State) (l : Loc) : s.needsCopy l = true ↔
    (∃ o m c b, s.snap = .copying o m c b) ∧ s.snapFirst ≤ l.bay ∧ l.bay ≤ s.snapLast ∧
      s.snapRecords.find l.key = none := by
  unfold State.needsCopy
  cases s.snap <;> simp [and_assoc]

/-- The snapshot has returned to IDLE, or the location stands marked copied as `e`. -/
def State.endedOrRecorded (s : State) (l : Loc) (e : SnapRecord) : Prop :=
  s.snap = .idle ∨ s.snapRecords.find l.key = some e

/-- The snapshot has returned to IDLE, or the location stands copied with content `c`, or it holds `c` and still waits
for its copy. -/
def State.endedOrShows (s : State) (l : Loc) (c : Option PointContent) : Prop :=
  (∃ bad, s.endedOrRecorded l { bad := bad, content := c }) ∨ (s.needsCopy l = true ∧ s.content l = c)

/-- No single change but the start of a snapshot touches a record marked copied, short of the return to IDLE (R156). -/
theorem Change.endedOrRecorded {k : ChangeClass} {s t : State} (h : Change s k t) (hk : k ≠ .start) {l : Loc}
    {e : SnapRecord} (hs : s.endedOrRecorded l e) : t.endedOrRecorded l e := by
  have keep : ∀ t : State, t.snap = s.snap → t.snapRecords = s.snapRecords → t.endedOrRecorded l e := by
    intro t hsnap hrec
    rw [State.endedOrRecorded, hsnap, hrec]
    exact hs
  cases h with
  | image h => exact hs.imp h.frame.snap.trans (h.frame.recorded l e)
  | start p mark c hi => exact absurd rfl hk
  | snapNext o m c b hc _ _ => exact .inr (hs.resolve_left (by simp [hc]))
  | snapReady o m c n hc _ _ => exact .inr (hs.resolve_left (by simp [hc]))
  | snapTick => exact hs.imp_left fun hi => by simp [hi, SnapState.tick]
  | snapEnd => exact .inl rfl
  | powerOn strap => exact .inl rfl
  | removePower => exact .inl rfl
  | resetLine => exact .inl rfl
  | pair b q _ _ =>
    obtain ⟨v, hv⟩ := pair_eq s b q
    exact keep _ (by rw [hv]) (by rw [hv])
  | _ => exact keep _ (by simp) (by simp)

/-- A location that waits for its copy is written by no single change but an upset before it is copied as it stood
(R160), and the snapshot is not READY before the copy (R162). -/
theorem Change.shows_of_needsCopy {k : ChangeClass} {s t : State} (h : Change s k t) (hk : k ≠ .start)
    (hu : k ≠ .upset) (hs : s.snapSound) {l : Loc} (hn : s.needsCopy l = true) : t.endedOrShows l (s.content l) := by
  have keep : ∀ t : State, t.needsCopy l = s.needsCopy l → t.content l = s.content l →
      t.endedOrShows l (s.content l) := fun t hneeds hcont => .inr ⟨hneeds.trans hn, hcont⟩
  have other : ∀ x : Loc, s.needsCopy x = false → x ≠ l := by
    rintro x hx rfl
    simp [hn] at hx
  have ended : ∀ t : State, t.snap = .idle → t.endedOrShows l (s.content l) := fun t ht => .inl ⟨false, .inl ht⟩
  obtain ⟨⟨o, m, c, b, hcopying⟩, hfirst, hlast, hnone⟩ := (s.needsCopy_iff l).mp hn
  have sound := snap_change h hs
  cases h with
  | image h => exact (h.frame.shown l hn).elim .inr fun ⟨bad, hrec⟩ => .inl ⟨bad, .inr hrec⟩
  | enrol x d _ _ _ hx => exact keep _ rfl ((s.content_writePoint x l d).trans (if_neg (other x hx)))
  | erase x _ _ hx => exact keep _ rfl ((s.content_erasePoint x l).trans (if_neg (other x hx)))
  | start p mark c hi => exact absurd rfl hk
  | upset x d _ => exact absurd rfl hu
  | snapRange first last hi _ _ => simp [hi] at hcopying
  | snapNext o m c b _ _ _ =>
    exact .inr ⟨(State.needsCopy_iff _ l).mpr ⟨⟨o, m, c, b + 1, rfl⟩, hfirst, hlast, hnone⟩, rfl⟩
  | snapReady o m c n _ _ _ =>
    obtain ⟨-, -, -, whole⟩ := sound
    have hcopied := whole l hfirst hlast
    simp [State.copied, hnone] at hcopied
  | snapTick => exact keep _ (by simp [State.needsCopy, hcopying, SnapState.tick]) rfl
  | snapEnd => exact ended _ rfl
  | powerOn strap => exact ended _ rfl
  | removePower => exact ended _ rfl
  | resetLine => exact ended _ rfl
  | pair b q _ _ =>
    obtain ⟨v, hv⟩ := pair_eq s b q
    exact keep _ (by rw [hv]; rfl) (by rw [hv]; rfl)
  | bayTick => exact keep _ (by simp) (by simp)
  | _ => exact keep _ rfl rfl

theorem Change.endedOrShows {k : ChangeClass} {s t : State} (h : Change s k t) (hk : k ≠ .start) (hu : k ≠ .upset)
    {l : Loc} {c : Option PointContent} (hs : s.snapSound ∧ s.endedOrShows l c) :
    t.snapSound ∧ t.endedOrShows l c := by
  obtain ⟨sound, ⟨bad, hrec⟩ | ⟨hn, rfl⟩⟩ := hs
  · exact ⟨snap_change h sound, .inl ⟨bad, h.endedOrRecorded hk hrec⟩⟩
  · exact ⟨snap_change h sound, h.shows_of_needsCopy hk hu sound hn⟩

/-- While a snapshot is owned, a SNAPSHOT-START is answered and changes nothing (R158). -/
theorem snapshotStartBody_busy {s : State} (hs : s.snap ≠ .idle) (p : Port) (r : Request) :
    snapshotStartBody p r s = (s, .bare .busy) := if_pos hs

theorem snapshotStart_effects_owned {s : State} (hs : s.snap ≠ .idle) :
    Effects [.own, .slot] s (s.grant .snapshotStart snapshotStartBody) := by
  have hbusy : s.grant .snapshotStart snapshotStartBody =
      s.grant .snapshotStart (reading fun _ _ _ => .bare .busy) := by
    cases hg : s.grantOf .snapshotStart with
    | none => rw [State.grant_of_none _ hg, State.grant_of_none _ hg]
    | some x =>
      obtain ⟨p, r⟩ := x
      rw [State.grant_eq _ hg, State.grant_eq _ hg, snapshotStartBody_busy (s := s.granting p) hs]
      rfl
  rw [hbusy]
  exact grant_effects (.reading fun _ _ _ _ => Nat.zero_le _) s _

/-- While a snapshot is owned no command starts one (R158), and a storage upset alone makes an upset. -/
theorem exec_effects_owned {x : Instr} {s t : State} (hs : s.snap ≠ .idle) (h : exec x s = .next t) :
    ∃ ks, Effects ks s t ∧ .start ∉ ks ∧ (.upset ∈ ks → ∃ l d, x = .storageUpset l d) := by
  by_cases hx : x = .snapshotStart
  · subst hx
    cases h
    exact ⟨_, snapshotStart_effects_owned hs, by simp, by simp⟩
  · refine ⟨_, exec_effects h, ?_, ?_⟩
    · unfold classesOf
      split <;> simp_all
    · unfold classesOf
      split <;> simp

/-- A storage upset changes the content of its own location alone. -/
theorem State.content_upset_ne (s : State) {l x : Loc} (h : x ≠ l) (d : PointContent) :
    (s.upset x d).content l = s.content l := by
  unfold State.upset
  split
  · rw [State.content_upsetPoint, if_neg fun hx => h hx.1]
  · rfl

/-- Settles O40: single change by single change, from the location waiting for its copy or marked copied. -/
theorem snapshotShowsTheStart : Obligations.SnapshotShowsTheStart := by
  intro x s t l hs h
  constructor
  · intro o m c b hsnap hfirst hlast hnone hx hne
    have hn : s.needsCopy l = true := (s.needsCopy_iff l).mpr ⟨⟨o, m, c, b, hsnap⟩, hfirst, hlast, hnone⟩
    obtain ⟨ks, heff, hstart, hupset⟩ := exec_effects_owned (by simp [hsnap]) h
    by_cases hu : .upset ∈ ks
    · obtain ⟨k, d, rfl⟩ := hupset hu
      cases h
      have hkl : k ≠ l := fun hl => hx d (by rw [hl])
      exact absurd (s.content_upset_ne hkl d) hne
    · have hkept : t.snapSound ∧ t.endedOrShows l (s.content l) := heff.keeps
        (fun k hk _ _ hone => hone.endedOrShows (ne_of_mem_of_not_mem hk hstart) (ne_of_mem_of_not_mem hk hu))
        ⟨hs, .inr ⟨hn, rfl⟩⟩
      obtain ⟨-, ⟨bad, hrec⟩ | ⟨-, hsame⟩⟩ := hkept
      · exact hrec.imp_right fun hfind => ⟨bad, hfind⟩
      · exact absurd hsame hne
  · intro e hsnap hrec
    obtain ⟨ks, heff, hstart, -⟩ := exec_effects_owned hsnap h
    exact heff.keeps (P := fun u => u.endedOrRecorded l e)
      (fun k hk _ _ hone => hone.endedOrRecorded (ne_of_mem_of_not_mem hk hstart)) (.inr hrec)

/-! ### Copies and the copy step (R159, R160, R161) -/

/-- The copy step, the unit end taken and the copy position known. -/
theorem State.copyStep_copying {s g : State} {o : Port} {m : SeqNum} {c : Count} {b : Bay}
    (hs : s.snap = .copying o m c b) (h : s.takeUnit .snapshotUnit = some g) :
    s.copyStep = fired s (g.copyBay o m c b) := by
  simp only [State.copyStep, hs, h, State.settleFire_eq]

/-- What the copy step does, FIRE aside: the copies of the bay, then the position moved on or the snapshot READY. -/
theorem State.copyBay_eq (s : State) (o : Port) (m : SeqNum) (c : Count) (b : Bay) : s.copyBay o m c b =
    if b = s.snapLast then
      withPort { b.locs.foldl State.copyBefore s with
          snap := .ready o m c { left := s.timing.snapshotKeep.toNat * 10, runOut := false } } o
        (fun q => q.raise .snapshotReady)
    else { b.locs.foldl State.copyBefore s with snap := .copying o m c (b + 1) } := by
  simp only [State.copyBay, State.raiseOn_eq]
  rfl

/-- Settles O39: the copies by their definitions, the step by `State.copyStep_copying` and `State.copyBay_eq`. -/
theorem copyStepCopiesTheBay : Obligations.CopyStepCopiesTheBay := by
  refine ⟨fun s l => ⟨s.needsCopy_iff l, rfl, fun bad => ?_⟩, ?_⟩
  · exact ⟨_, rfl, Table.find_insert_self _ _ _, fun k hk => Table.find_insert_ne _ _ _ _ hk.symm⟩
  · intro s g o m c b hs h
    refine next_congr ((State.copyStep_copying hs h).trans (congrArg (fired s) ((g.copyBay_eq o m c b).trans ?_)))
    obtain ⟨owes, k, rfl⟩ := takeUnit_eq h
    rfl

/-! ### The snapshot requests (R157, R158, R163 to R165) -/

theorem SnapState.owner_eq_some_iff (x : SnapState) (o : Port) :
    x.owner = some o ↔ (∃ m c b, x = .copying o m c b) ∨ ∃ m c t, x = .ready o m c t := by
  cases x <;> simp [SnapState.owner]

theorem SnapState.owner_ne_none_iff (x : SnapState) : x.owner ≠ none ↔ x ≠ .idle := by
  cases x <;> simp [SnapState.owner]

/-- SNAPSHOT-RANGE of two bays (R157). -/
theorem snapshotRangeBody_bays {r : Request} {a b : Bay} (ha : Bay.ofByte? (r.op 0) = some a)
    (hb : Bay.ofByte? (r.op 1) = some b) (p : Port) (s : State) : snapshotRangeBody p r s =
      if b < a ∨ s.fitted a = false ∨ s.fitted b = false then (s, .bare .range)
      else if s.snap.owner ≠ none then (s, .bare .busy)
      else ({ s with snapFirst := a, snapLast := b }, .doneWith [byteOf a.val, byteOf b.val]) := by
  simp only [snapshotRangeBody, ha, hb, SnapState.owner_ne_none_iff]
  by_cases hlt : b < a
  · simp only [hlt, true_or, if_true]
  · simp only [hlt, false_or, if_false, Bool.or_eq_true, Bool.not_eq_true']

/-- SNAPSHOT-RANGE of a bay above 31 (R157). -/
theorem snapshotRangeBody_noBay {r : Request} (h : Bay.ofByte? (r.op 0) = none ∨ Bay.ofByte? (r.op 1) = none)
    (p : Port) (s : State) : snapshotRangeBody p r s = (s, .bare .range) := by
  unfold snapshotRangeBody
  split
  · next ha hb => simp [ha, hb] at h
  · rfl

theorem snapshotStartBody_idle {s : State} (hs : s.snap = .idle) (p : Port) (r : Request) : snapshotStartBody p r s =
    ({ s with snap := .copying p s.nextSeq s.count s.snapFirst, snapRecords := [] },
      .doneWith (bytes2 s.nextSeq ++ [byteOf s.snapFirst.val, byteOf s.snapLast.val] ++ bytes4 s.count)) :=
  if_neg (not_not.mpr hs)

theorem snapshotReleaseBody_eq (p : Port) (r : Request) (s : State) : snapshotReleaseBody p r s =
    if s.snap.owner = none then (s, .bare .state)
    else if s.snap.owner ≠ some p then (s, .bare .notOwner)
    else (s.snapEnd, .bare .done) := by
  unfold snapshotReleaseBody
  cases s.snap.owner with
  | none => rfl
  | some o => by_cases hp : o = p <;> simp [hp]

/-! SNAPSHOT-READ, test by test and then by the snapshot record (R163, R164). -/

section

variable {s : State} {p : Port} {r : Request} {l : Loc} {m : SeqNum} {c : Count} {k : Countdown} {b : Bay} {o : Port}

theorem snapshotRead_noLoc (hl : r.loc? = none) : (snapshotReadBody p r s).2 = .bare .range := by
  simp only [snapshotReadBody, reading, hl]

theorem snapshotRead_idle (hl : r.loc? = some l) (hs : s.snap = .idle) :
    (snapshotReadBody p r s).2 = .bare .state := by
  simp only [snapshotReadBody, reading, hl, hs]

theorem snapshotRead_notOwner (hl : r.loc? = some l) (ho : s.snap.owner = some o) (hne : o ≠ p) :
    (snapshotReadBody p r s).2 = .bare .notOwner := by
  rcases (s.snap.owner_eq_some_iff o).mp ho with ⟨m, c, b, hs⟩ | ⟨m, c, t, hs⟩
  · simp only [snapshotReadBody, reading, hl, hs, hne, if_false]
  · simp only [snapshotReadBody, reading, hl, hs, hne, ne_eq, not_false_eq_true, if_true]

theorem snapshotRead_copying (hl : r.loc? = some l) (hs : s.snap = .copying p m c b) :
    (snapshotReadBody p r s).2 = .bare .state := by
  simp only [snapshotReadBody, reading, hl, hs, if_true]

theorem snapshotRead_outside (hl : r.loc? = some l) (hs : s.snap = .ready p m c k)
    (hout : l.bay < s.snapFirst ∨ s.snapLast < l.bay) : (snapshotReadBody p r s).2 = .bare .range := by
  have hrange : ¬ (s.snapFirst ≤ l.bay ∧ l.bay ≤ s.snapLast) := by
    rwa [not_and_or, not_le, not_le]
  simp only [snapshotReadBody, reading, hl, hs, ne_eq, not_true_eq_false, hrange, if_false]

theorem snapshotRead_inside (hl : r.loc? = some l) (hs : s.snap = .ready p m c k) (hfirst : s.snapFirst ≤ l.bay)
    (hlast : l.bay ≤ s.snapLast) : (snapshotReadBody p r s).2 = snapshotAnswer s c l := by
  simp only [snapshotReadBody, reading, hl, hs, ne_eq, not_true_eq_false, hfirst, hlast, and_self, if_true, if_false]

/-- What a record marked copied is answered: ABSENT, or its content as copied, DONE or BAD by its mark (R163). -/
theorem snapshotAnswer_recorded {e : SnapRecord} (he : s.snapRecords.find l.key = some e) (c : Count) :
    snapshotAnswer s c l = match e.content with
      | none => .bare .absent
      | some d => { result := if e.bad then .bad else .done, payload := pointBytes s.draws c l d } := by
  cases hd : e.content <;> simp only [snapshotAnswer, he, hd]

end

/-! Each request granted. -/

section

variable {s : State} {p : Port} {r : Request}

theorem State.grant_snapshotRange (h : s.grantOf .snapshotRange = some (p, r)) :
    s.grant .snapshotRange snapshotRangeBody = (match Bay.ofByte? (r.op 0), Bay.ofByte? (r.op 1) with
      | some a, some b =>
        if b < a ∨ s.fitted a = false ∨ s.fitted b = false then answered (granted s p) p r .range []
        else if s.snap.owner ≠ none then answered (granted s p) p r .busy []
        else answered { granted s p with snapFirst := a, snapLast := b } p r .done [byteOf a.val, byteOf b.val]
      | _, _ => answered (granted s p) p r .range []) := by
  split
  · next a b ha hb =>
    have hbody := snapshotRangeBody_bays ha hb p (granted s p)
    split
    · next hrange => exact State.grant_refused h (hbody.trans (if_pos hrange))
    · next hrange =>
      have hbody := hbody.trans (if_neg hrange)
      split
      · next hbusy => exact State.grant_refused h (hbody.trans (if_pos hbusy))
      · next hidle => exact State.grant_answered_quiet h (hbody.trans (if_neg hidle)) rfl
  · next hnone =>
    refine State.grant_refused h (snapshotRangeBody_noBay ?_ p _)
    by_contra hsome
    obtain ⟨ha, hb⟩ := not_or.mp hsome
    obtain ⟨a, ha⟩ := Option.ne_none_iff_exists'.mp ha
    obtain ⟨b, hb⟩ := Option.ne_none_iff_exists'.mp hb
    exact hnone a b ha hb

theorem State.grant_snapshotStart (h : s.grantOf .snapshotStart = some (p, r)) :
    s.grant .snapshotStart snapshotStartBody =
      if s.snap.owner ≠ none then answered (granted s p) p r .busy []
      else answered { granted s p with snap := .copying p s.nextSeq s.count s.snapFirst, snapRecords := [] } p r .done
        (bytes2 s.nextSeq ++ [byteOf s.snapFirst.val, byteOf s.snapLast.val] ++ bytes4 s.count) := by
  split
  · next howned =>
    have hsnap : s.snap ≠ .idle := s.snap.owner_ne_none_iff.mp howned
    exact State.grant_refused h (snapshotStartBody_busy (s := granted s p) hsnap p r)
  · next hidle =>
    have hsnap : s.snap = .idle := not_not.mp (mt s.snap.owner_ne_none_iff.mpr hidle)
    exact State.grant_answered_quiet h (snapshotStartBody_idle (s := granted s p) hsnap p r) rfl

theorem State.grant_snapshotRelease (h : s.grantOf .snapshotRelease = some (p, r)) :
    s.grant .snapshotRelease snapshotReleaseBody =
      if s.snap.owner = none then answered (granted s p) p r .state []
      else if s.snap.owner ≠ some p then answered (granted s p) p r .notOwner []
      else answered { granted s p with snap := .idle, snapRecords := [] } p r .done [] := by
  have hbody := snapshotReleaseBody_eq p r (granted s p)
  split
  · next hidle => exact State.grant_refused h (hbody.trans (if_pos hidle))
  · next howned =>
    have hbody := hbody.trans (if_neg howned)
    split
    · next hother => exact State.grant_refused h (hbody.trans (if_pos hother))
    · next hown => exact State.grant_answered_quiet h (hbody.trans (if_neg hown)) rfl

theorem State.grant_snapshotRead {a : Answer} (h : s.grantOf .snapshotRead = some (p, r))
    (ha : (snapshotReadBody p r (granted s p)).2 = a) :
    s.grant .snapshotRead snapshotReadBody = answered (granted s p) p r a.result a.payload := by
  subst ha
  exact State.grant_reading h

end

/-- Settles O38: each request by the grant of its body, SNAPSHOT-READ by the first test that decides. -/
theorem snapshotRequests : Obligations.SnapshotRequests := by
  refine ⟨SnapState.owner_eq_some_iff, ?_, ?_⟩
  · intro s p r g owner
    have howner : owner = s.snap.owner := by
      simp only [owner]
      cases s.snap <;> rfl
    clear_value owner
    subst howner
    exact ⟨fun h => next_congr (State.grant_snapshotRange h), fun h => next_congr (State.grant_snapshotStart h),
      fun h => next_congr (State.grant_snapshotRelease h)⟩
  · intro s p r h answer
    have read {a : Answer} (ha : (snapshotReadBody p r (granted s p)).2 = a) :
        exec .snapshotRead s = answer a.result a.payload := next_congr (State.grant_snapshotRead h ha)
    refine ⟨fun hl => read (snapshotRead_noLoc hl), fun l hl hs => read (snapshotRead_idle hl hs),
      fun l o hl ho hne => read (snapshotRead_notOwner hl ho hne),
      fun l m c b hl hs => read (snapshotRead_copying hl hs),
      fun l m c k hl hs hout => read (snapshotRead_outside hl hs hout), ?_⟩
    intro l m c k e hl hs hfirst hlast he
    have hinside := snapshotRead_inside (s := granted s p) (p := p) hl hs hfirst hlast
    rw [read (hinside.trans (snapshotAnswer_recorded (s := granted s p) he c))]
    cases e.content <;> rfl

end Sys2Proof.Machine
end

section
/-! SUPPORT. The arbiter (R184): its search order as turns from the last-granted port, the first WAITING port in it, and
the response that every grant places (R185). -/

namespace Sys2Proof

/-- The port that the arbiter looks at after `k` others: `k + 1` places after the last-granted one (R184). -/
def Port.turn (last : Port) (k : Nat) : Port := Port.next^[k + 1] last

theorem Port.number_lt (p : Port) : p.number < 4 := by cases p <;> decide

theorem Port.number_next (p : Port) : p.next.number = (p.number + 1) % 4 := by cases p <;> rfl

/-- The number of a port tells it, as the reading of a port operand shows. -/
theorem Port.number_injective : Function.Injective Port.number := by
  intro p q h
  have hbyte : (Machine.byteOf p.number).toNat = p.number := Machine.toNat_byteOf (p.number_lt.trans (by decide))
  have hp := (Port.ofByte?_eq_some (Machine.byteOf p.number) p).mpr hbyte.symm
  have hq := (Port.ofByte?_eq_some (Machine.byteOf p.number) q).mpr (h.symm.trans hbyte.symm)
  exact Option.some.inj (hp.symm.trans hq)

theorem Port.number_iterate_next (p : Port) (k : Nat) : (Port.next^[k] p).number = (p.number + k) % 4 := by
  induction k with
  | zero => exact (Nat.mod_eq_of_lt p.number_lt).symm
  | succ k ih =>
    rw [Function.iterate_succ_apply', Port.number_next, ih]
    omega

theorem Port.eq_turn_iff (last q : Port) (k : Nat) : q = last.turn k ↔ q.number = (last.number + 1 + k) % 4 := by
  rw [← Port.number_injective.eq_iff, Port.turn, Port.number_iterate_next, Nat.add_right_comm, Nat.add_assoc]

/-- Every port has its turn within one round. -/
theorem Port.exists_turn (last q : Port) : ∃ k, k < 4 ∧ q = last.turn k := by
  have hl := last.number_lt
  have hq := q.number_lt
  refine ⟨(q.number + 3 - last.number) % 4, Nat.mod_lt _ (by decide), (Port.eq_turn_iff last q _).mpr ?_⟩
  omega

/-- A search over the first numbers finds at the least one that answers. -/
theorem findSome?_range_eq_some_iff {α : Type} (f : Nat → Option α) (n : Nat) (a : α) :
    (List.range n).findSome? f = some a ↔ ∃ k, k < n ∧ f k = some a ∧ ∀ j, j < k → f j = none := by
  induction n with
  | zero => simp
  | succ n ih =>
    rw [List.range_succ, List.findSome?_append]
    cases h : (List.range n).findSome? f with
    | none =>
      have hnone : ∀ j, j < n → f j = none := by simpa using h
      simp only [Option.none_or, List.findSome?_singleton]
      constructor
      · exact fun ha => ⟨n, Nat.lt_succ_self n, ha, hnone⟩
      · rintro ⟨k, hk, ha, -⟩
        rcases Nat.lt_succ_iff_lt_or_eq.mp hk with hlt | rfl
        · simp [hnone k hlt] at ha
        · exact ha
    | some b =>
      rw [h] at ih
      rw [Option.some_or, ih]
      constructor
      · rintro ⟨k, hk, ha⟩
        exact ⟨k, Nat.lt_succ_of_lt hk, ha⟩
      · rintro ⟨k, hk, ha, hfirst⟩
        rcases Nat.lt_succ_iff_lt_or_eq.mp hk with hlt | rfl
        · exact ⟨k, hlt, ha, hfirst⟩
        · have : (List.range k).findSome? f = none := by simpa using hfirst
          rw [h] at this
          cases this

namespace Machine

/-! ### The next grant (R184) -/

theorem searchOrder_eq (last : Port) : searchOrder last = (List.range 4).map last.turn := by cases last <;> rfl

theorem State.waitingRequest_eq_some_iff (s : State) (p : Port) (r : Request) :
    s.waitingRequest p = some r ↔ (s.port p).slot = .waiting r := by
  unfold State.waitingRequest
  cases (s.port p).slot <;> simp

theorem State.waitingRequest_eq_none_iff (s : State) (p : Port) :
    s.waitingRequest p = none ↔ ∀ r, (s.port p).slot ≠ .waiting r := by
  simp only [Option.eq_none_iff_forall_ne_some, ne_eq, State.waitingRequest_eq_some_iff]

/-- The next grant is that of the first WAITING port, turn by turn. -/
theorem State.nextGrant_eq_some_iff (s : State) (p : Port) (r : Request) : s.nextGrant = some (p, r) ↔
    (s.port p).slot = .waiting r ∧ ∃ k, k < 4 ∧ p = s.lastGranted.turn k ∧
      ∀ j, j < k → s.waitingRequest (s.lastGranted.turn j) = none := by
  rw [State.nextGrant, searchOrder_eq, List.findSome?_map, findSome?_range_eq_some_iff]
  simp only [Function.comp_apply, Option.map_eq_some_iff, Option.map_eq_none_iff, Prod.mk.injEq,
    State.waitingRequest_eq_some_iff]
  constructor
  · rintro ⟨k, hk, ⟨_, hr, rfl, rfl⟩, hfirst⟩
    exact ⟨hr, k, hk, rfl, hfirst⟩
  · rintro ⟨hr, k, hk, rfl, hfirst⟩
    exact ⟨k, hk, ⟨r, hr, rfl, rfl⟩, hfirst⟩

/-- A WAITING port that is passed over has its turn after the port granted. -/
theorem State.turn_after_nextGrant {s : State} {p q : Port} {r r' : Request} (hp : (s.port p).slot = .waiting r)
    (hq : s.nextGrant = some (q, r')) (hne : q ≠ p) :
    ∃ k m, k < m ∧ m < 4 ∧ q = s.lastGranted.turn k ∧ p = s.lastGranted.turn m := by
  obtain ⟨-, k, -, hk, hfirst⟩ := (s.nextGrant_eq_some_iff q r').mp hq
  obtain ⟨m, hm, hpm⟩ := s.lastGranted.exists_turn p
  refine ⟨k, m, ?_, hm, hk, hpm⟩
  by_contra hge
  rcases Nat.lt_or_eq_of_le (Nat.le_of_not_lt hge) with hlt | rfl
  · have hnone := hfirst m hlt
    rw [← hpm] at hnone
    exact (s.waitingRequest_eq_none_iff p).mp hnone r hp
  · exact hne (hk.trans hpm.symm)

theorem State.grantOf_eq_some_iff (s : State) (p : Port) (r : Request) (code : ReqCode) :
    s.grantOf code = some (p, r) ↔ s.inService = true ∧ s.nextGrant = some (p, r) ∧ r.code = code := by
  unfold State.grantOf
  cases hs : s.inService with
  | false => simp
  | true =>
    cases hg : s.nextGrant with
    | none => simp
    | some x =>
      obtain ⟨q, r'⟩ := x
      simp only [if_true, Option.ite_none_right_eq_some, Option.some.injEq, Prod.mk.injEq, true_and]
      constructor
      · rintro ⟨hc, rfl, rfl⟩
        exact ⟨⟨rfl, rfl⟩, hc⟩
      · rintro ⟨⟨rfl, rfl⟩, hc⟩
        exact ⟨hc, rfl, rfl⟩

/-- Settles O11: the turns of the ports, counted from the last-granted one. -/
theorem arbiterGrantsRoundRobin : Obligations.ArbiterGrantsRoundRobin := by
  refine ⟨fun s p r => ?_, fun s p q r r' hp hq hne => ?_, State.grantOf_eq_some_iff⟩
  · simp only [State.nextGrant_eq_some_iff, State.waitingRequest_eq_none_iff, ← Port.eq_turn_iff]
    constructor
    · rintro ⟨hr, k, hk, hp, hfirst⟩
      exact ⟨hr, k, hk, hp, fun j q r' hj hq => hq ▸ hfirst j hj r'⟩
    · rintro ⟨hr, k, hk, hp, hfirst⟩
      exact ⟨hr, k, hk, hp, fun j hj r' => hfirst j _ r' hj rfl⟩
  · obtain ⟨k, m, hkm, hm, hk, hpm⟩ := State.turn_after_nextGrant hp hq hne
    have hqnum := (Port.eq_turn_iff _ q k).mp hk
    have hpnum := (Port.eq_turn_iff _ p m).mp hpm
    have hlast := s.lastGranted.number_lt
    omega

/-! ### The response of a grant (R185) -/

/-- A grant that takes place runs the body on the state with the arbiter moved on, and answers. -/
theorem State.grantRaw_eq {s : State} {code : ReqCode} {p : Port} {r : Request}
    (body : Port → Request → State → State × Answer) (h : s.grantOf code = some (p, r)) :
    s.grantRaw code body = (body p r (s.granting p)).1.respond p r (body p r (s.granting p)).2 := by
  simp only [State.grantRaw, h]

/-- Settles O12: the body of every request leaves slots and arbiter to the grant (`command_places`), which answers in the
slot of its port alone. -/
theorem grantPlacesResponse : Obligations.GrantPlacesResponse := by
  intro code s p r h hstrays
  obtain ⟨body, hexec, hplaces⟩ := command_places code
  have hbody := hplaces p r (s.granting p) hstrays
  have hgrant := (hexec s).trans (next_congr (State.grantRaw_eq body h))
  obtain ⟨-, -, rfl⟩ := (s.grantOf_eq_some_iff p r code).mp h
  generalize body p r (s.granting p) = x at hbody hgrant
  obtain ⟨t, a⟩ := x
  obtain ⟨hfits, hlast, hports⟩ := hbody
  refine ⟨t.respond p r a, a.result, a.payload, hgrant, hlast, ?_, hfits, ?_, fun q hq => ?_⟩
  · rw [State.port_respond, if_pos rfl]
  · rw [State.port_respond, if_pos rfl]
    exact (hports p).2
  · rw [State.port_respond, if_neg (Ne.symm hq)]
    exact hports q

end Machine
end Sys2Proof
end

section
/-! SUPPORT. A step and the queue (R185, log 3), the bits of a transaction and what it shifts out (R180), and its end by
the copy of the slot (R181). -/

namespace Sys2Proof.Machine

open Claims

/-! ### The queue (log 3) -/

theorem step_of_pending {s : State} {c : Instr} {rest : List Instr} (h : s.pending = c :: rest) :
    step s = exec c { s with pending := rest } := by
  simp only [step, h]

theorem step_of_empty {s : State} (h : s.pending = []) : step s = .next s := by
  simp only [step, h]

/-- Settles O1. -/
theorem stepRunsFrontCommand : Obligations.StepRunsFrontCommand :=
  ⟨fun _ _ _ h => step_of_pending h, fun _ h => step_of_empty h⟩

/-! ### Bits and bytes (R180) -/

theorem bitNat_getLsbD (b : Byte) (i : Nat) : bitNat (b.getLsbD i) = b.toNat / 2 ^ i % 2 := by
  rw [← Nat.toNat_testBit, BitVec.testBit_toNat]
  cases b.getLsbD i <;> rfl

/-- The eight bits of a byte, most significant first, are that byte. -/
theorem byteOfBits_getLsbD (b : Byte) :
    byteOfBits (b.getLsbD 7) (b.getLsbD 6) (b.getLsbD 5) (b.getLsbD 4) (b.getLsbD 3) (b.getLsbD 2) (b.getLsbD 1)
      (b.getLsbD 0) = b := by
  have hbits : b.toNat % 2 ^ 8 = b.toNat := Nat.mod_eq_of_lt b.isLt
  simp only [Nat.mod_pow_succ, Nat.pow_zero, Nat.mod_one, Nat.zero_add] at hbits
  refine Eq.trans (congrArg (BitVec.ofNat 8) ?_) (byteOf_toNat b)
  simp only [bitNat_getLsbD, Nat.pow_zero]
  linarith only [hbits]

theorem wholeBytes_bitsOf_append (b : Byte) (bits : List Bool) :
    wholeBytes (bitsOf b ++ bits) = b :: wholeBytes bits :=
  congrArg (· :: wholeBytes bits) (byteOfBits_getLsbD b)

/-- Fewer than eight bits make no byte. -/
theorem wholeBytes_of_length_lt {bits : List Bool} (h : bits.length < 8) : wholeBytes bits = [] := by
  unfold wholeBytes
  split
  · simp only [List.length_cons] at h
    omega
  · rfl

theorem wholeBytes_bits (bytes : List Byte) {tail : List Bool} (h : tail.length < 8) :
    wholeBytes (bytes.flatMap bitsOf ++ tail) = bytes := by
  induction bytes with
  | nil => exact wholeBytes_of_length_lt h
  | cons b bytes ih => rw [List.flatMap_cons, List.append_assoc, wholeBytes_bitsOf_append, ih]

/-! ### Fall and rise of chip select (R180, R181) -/

theorem withPort_withPort (s : State) (p : Port) (f g : PortState → PortState) :
    withPort (withPort s p f) p g = withPort s p (fun q => g (f q)) := by cases p <;> rfl

theorem withPort_self (s : State) (p : Port) : withPort s p (fun q => q) = s := by cases p <;> rfl

/-- What a transaction that takes a request makes of a slot: a first byte 00h, or none, leaves it (R180, log 27). -/
def taken (bound : SenderSet) (bytes : List Byte) (old : Slot) : Slot :=
  if bytes.getD 0 0 = 0 then old else arrival bound bytes

theorem State.takeFrame_eq (s : State) (p : Port) (bytes : List Byte) :
    s.takeFrame p bytes = withPort s p (fun q => { q with slot := taken (s.bound.get p) bytes q.slot }) := by
  cases bytes with
  | nil => exact (withPort_self s p).symm
  | cons b rest =>
    by_cases hb : b = 0
    · simp only [State.takeFrame, taken, List.getD_cons_zero, hb, if_true]
      exact (withPort_self s p).symm
    · simp only [State.takeFrame, taken, List.getD_cons_zero, hb, if_false]
      rfl

theorem State.beginTransaction_eq {s : State} {p : Port} (hs : s.inService = true) (h : (s.port p).copy = none) :
    s.beginTransaction p = withPort s p (fun q => { q with copy := some q.slot }) := by
  simp only [State.beginTransaction, hs, h, Option.isNone_none, Bool.and_self, if_true]
  rfl

/-- The slot after the rise, by the copy that the transaction shifted out (R181). -/
def slotAfterRise (bound : SenderSet) (bytes : List Byte) (copy old : Slot) : Slot :=
  match copy with
  | .waiting _ => old
  | .empty => taken bound bytes old
  | .done _ => if bytes = [] then old else taken bound bytes .empty

theorem State.endTransaction_eq {s : State} {p : Port} {copy : Slot} (hs : s.inService = true)
    (h : (s.port p).copy = some copy) (sdi : List Bool) :
    s.endTransaction p sdi = withPort s p (fun q =>
      { q with copy := none, slot := slotAfterRise (s.bound.get p) (wholeBytes sdi) copy q.slot }) := by
  simp only [State.endTransaction, h, hs, if_true]
  generalize wholeBytes sdi = bytes
  cases copy with
  | waiting r => rfl
  | empty => exact (State.takeFrame_eq _ p bytes).trans (withPort_withPort s p (fun q => { q with copy := none }) _)
  | done a =>
    cases bytes with
    | nil => rfl
    | cons b rest =>
      have hcollected : (withPort s p (fun q => { q with copy := none })).setSlot p .empty =
          withPort s p (fun q => { q with copy := none, slot := .empty }) :=
        withPort_withPort s p _ (fun q => { q with slot := .empty })
      refine (congrArg (State.takeFrame · p (b :: rest)) hcollected).trans ?_
      exact (State.takeFrame_eq _ p _).trans (withPort_withPort s p _ _)

/-- Settles O7. -/
theorem transactionsActByTheCopy : Obligations.TransactionsActByTheCopy := by
  refine ⟨fun bytes _ h => wholeBytes_bits bytes h, fun s p hs h => next_congr (State.beginTransaction_eq hs h),
    fun s p copy k h => ?_, fun s p sdi copy hs h => next_congr ?_⟩
  · simp only [State.sdo, h, Option.map_some, shiftedOut]
  · rw [State.endTransaction_eq hs h]
    cases copy <;> rfl

end Sys2Proof.Machine
end

section
/-! SUPPORT. The frames of Tables 10.2 and 10.3: the check byte (R183), the fields of a response frame, and the arrival of
a request frame (R182). -/

namespace Sys2Proof.Machine

open Claims

/-! ### The check byte (R183) -/

/-- A byte equal to the register clears it. -/
theorem crcByte_self (c : Byte) : crcByte c c = 0 := by
  rw [crcByte, BitVec.xor_self]
  rfl

theorem crc8_append_crc8 (body : List Byte) : crc8 (body ++ [crc8 body]) = 0 := by
  simp only [crc8, List.foldl_append, List.foldl_cons, List.foldl_nil, crcByte_self]

/-- The polynomial, the bit order, the initial value and the absence of a final inversion, by the check value of R183. -/
theorem crc8_checkValue : crc8 [0x31, 0x32, 0x33, 0x34, 0x35, 0x36, 0x37, 0x38, 0x39] = 0xF4 := by decide +kernel

/-! ### Response frames (Table 10.3) -/

theorem responseFrame_empty : responseFrame .empty = [0, 0, 0, 0, 0, 0] := by
  simp only [responseFrame, crc8, List.foldl_cons, List.foldl_nil, crcByte_self, List.cons_append, List.nil_append]

theorem exists_body_of_responseFrame (copy : Slot) : ∃ body, responseFrame copy = body ++ [crc8 body] := ⟨_, rfl⟩

/-- Settles O10: the check byte clears the register, and the fields stand before it. -/
theorem responseFramesCarryCheckByte : Obligations.ResponseFramesCarryCheckByte := by
  refine ⟨crc8_checkValue, fun copy => ?_, responseFrame_empty, fun _ => rfl, fun r => ⟨List.take_left' ?_, ?_⟩⟩
  · obtain ⟨body, hframe⟩ := exists_body_of_responseFrame copy
    rw [hframe, crc8_append_crc8]
  · rw [List.length_append, List.length_cons]
    rfl
  · simp only [responseFrame, List.length_append, List.length_cons, List.length_nil]
    omega

/-! ### Request frames (Table 10.2) -/

theorem ReqCode.code_ne_zero (c : ReqCode) : c.code ≠ 0 := by cases c <;> decide

theorem Sender.toNat_byteOf_number (n : Sender) : (byteOf n.number).toNat = n.number := by cases n <;> rfl

section
variable {code : ReqCode} {ops : List Byte} (hops : ops.length = code.operandLength) (tag : Byte) (n : Sender)
  (more : List Byte)

theorem requestFrame_append (code : ReqCode) (ops : List Byte) : requestFrame code tag n ops ++ more =
    [code.code, tag, byteOf n.number, byteOf ops.length] ++
      (ops ++ crc8 ([code.code, tag, byteOf n.number, byteOf ops.length] ++ ops) :: more) := by
  simp only [requestFrame, List.append_assoc, List.singleton_append]

include hops

theorem length_beforeCheck :
    ([code.code, tag, byteOf n.number, byteOf ops.length] ++ ops).length = 4 + code.operandLength := by
  rw [← hops, List.length_append]
  rfl

theorem take_requestFrame : (requestFrame code tag n ops ++ more).take (4 + code.operandLength) =
    [code.code, tag, byteOf n.number, byteOf ops.length] ++ ops := by
  rw [requestFrame_append, ← List.append_assoc]
  exact List.take_left' (length_beforeCheck hops tag n)

/-- The byte after the operands is the check byte of those before it (R183). -/
theorem checkByte_requestFrame : (requestFrame code tag n ops ++ more).getD (4 + code.operandLength) 0 =
    crc8 ((requestFrame code tag n ops ++ more).take (4 + code.operandLength)) := by
  have hlen := length_beforeCheck hops tag n
  rw [take_requestFrame hops, requestFrame_append, ← List.append_assoc, List.getD_append_right _ _ _ _ hlen.le, hlen,
    Nat.sub_self, List.getD_cons_zero]

/-- The frame check takes a whole frame, whatever is clocked after it (R182). -/
theorem frameCode_requestFrame : frameCode (requestFrame code tag n ops ++ more) = some code := by
  have hlen : ((requestFrame code tag n ops ++ more).getD 3 0).toNat = code.operandLength := by
    rw [← hops]
    exact toNat_byteOf (hops.trans_lt code.operandLength_lt)
  have harrived : 5 + code.operandLength ≤ (requestFrame code tag n ops ++ more).length := by
    simp only [requestFrame, List.length_append, List.length_cons, List.length_nil, hops]
    omega
  rw [frameCode_of_code (c := code) rfl, if_pos ⟨hlen, harrived, checkByte_requestFrame hops tag n more⟩]

/-- A frame of a bound sender waits with its tag, code, sender and operands (R27, R182). -/
theorem arrival_requestFrame {bound : SenderSet} (hn : bound.has n = true) :
    arrival bound (requestFrame code tag n ops ++ more) =
      .waiting { tag := tag, code := code, sender := n, operands := ops } := by
  have hsender : Sender.ofByte? ((requestFrame code tag n ops ++ more).getD 2 0) = some n :=
    (Sender.ofByte?_eq_some _ n).mpr (Sender.toNat_byteOf_number n).symm
  have hoperands : ((requestFrame code tag n ops ++ more).drop 4).take code.operandLength = ops := by
    rw [requestFrame_append]
    exact List.take_left' hops
  simp only [arrival, frameCode_requestFrame hops, hsender, hn, if_true, hoperands]
  rfl

theorem taken_requestFrame {bound : SenderSet} (hn : bound.has n = true) (old : Slot) :
    taken bound (requestFrame code tag n ops ++ more) old =
      .waiting { tag := tag, code := code, sender := n, operands := ops } := by
  have hfirst : (requestFrame code tag n ops ++ more).getD 0 0 ≠ 0 := ReqCode.code_ne_zero code
  rw [taken, if_neg hfirst, arrival_requestFrame hops tag n more hn]

end

/-- Settles O8: the bits are the bytes, the frame passes its checks, and the rise takes it. -/
theorem requestFrameArrivesWhole : Obligations.RequestFrameArrivesWhole := by
  intro s p copy code tag n ops more tail hs hcopy hnot hops hn htail
  refine next_congr ((State.endTransaction_eq hs hcopy _).trans ?_)
  rw [wholeBytes_bits _ htail]
  have hrise : ∀ old, slotAfterRise (s.bound.get p) (requestFrame code tag n ops ++ more) copy old =
      .waiting { tag := tag, code := code, sender := n, operands := ops } := by
    intro old
    cases copy with
    | empty => exact taken_requestFrame hops tag n more hn old
    | waiting r => exact absurd rfl (hnot r)
    | done a => exact taken_requestFrame hops tag n more hn .empty
  simp only [hrise]

end Sys2Proof.Machine
end
